-- ==== Sys2Proof/Word.lean ====
section
/-! DEFINITION. The value types of the flux engine: 16-bit samples, 32-bit MFM words, ring indices. A point in
time is an Int of system-clock ticks (`now` itself is a Nat, R15; a deadline can be negative, R141, log 10). -/

namespace Sys2Proof

/-- One byte of byte-addressed storage (R62). -/
abbrev Byte := BitVec 8

/-- A flux sample or a captured counter value: 16 bits (R85, R87). -/
abbrev Sample := BitVec 16

/-- A 32-bit value: an event word (R80), an MFM word (R89), an image-visible offset (R29, R30). -/
abbrev Word := BitVec 32

/-- A ring index, always taken `& MASK` with MASK = 1023 (R60, R100): ten bits that wrap. -/
abbrev RingIx := BitVec 10

/-- A DMA transfer count `CNDTR`: 11 bits (R25, R28). -/
abbrev Count := BitVec 11

/-- The track number handed to the image: 9 bits (R22). -/
abbrev Track := BitVec 9

/-- A set of status outputs, in the bit positions of R86. -/
abbrev OutSet := BitVec 5

end Sys2Proof
end

