-- ==== Sys2Proof/Config.lean ====
section
/-! DEFINITION. What the spec fixes (R9), what it leaves to a parameter (R10), and the free values: the answers of
the `Image` oracle (R40) and the contents of memory nobody has written (U1, U4). A free value is an opaque constant:
no proof can see what it is. -/

namespace Sys2Proof

/-- The parameters of R10: a machine has one value of each for ever. They are carried in State (log 1). -/
structure Config where
  /-- `SYSCLK_MHZ`: system-clock ticks per microsecond (D5). -/
  sysclkMhz : Nat
  /-- `PULSE_TICKS`: the PWM compare value (D5). -/
  pulseTicks : Nat
  /-- `SETTLE_MS`: head settle time in milliseconds (D5). -/
  settleMs : Nat
  /-- `MFM_WORDS`: 32-bit words in `write_mfm.buf`, a power of two (D25). -/
  mfmWords : Nat
  /-- `O_TRUE`: electrical level of an asserted output (D8). -/
  oTrue : Bool
  /-- `INPUTS_NEED_SEL`: step and write-gate events are ignored while the drive is not selected (D27). -/
  inputsNeedSel : Bool
  /-- `MAX_IRQ_LATENCY`: longest time, in ticks, an owed handler may wait (D38). -/
  maxIrqLatency : Nat
  deriving DecidableEq, Repr

/-- `RDATA_PULSE_NS`: read-data pulse width in nanoseconds (R9). -/
def Config.rdataPulseNs : Nat := 400

/-- The default of `PULSE_TICKS` at a clock rate: `floor(RDATA_PULSE_NS * SYSCLK_MHZ / 1000)` (R10), 28 at 72. -/
def Config.pulseTicksAt (sysclkMhz : Nat) : Nat := Config.rdataPulseNs * sysclkMhz / 1000

/-- The defaults of R10 (PRESUMED by the spec itself: 72 MHz and the low level are from general knowledge; log 2). -/
def Config.default : Config :=
  { sysclkMhz := 72, pulseTicks := Config.pulseTicksAt 72, settleMs := 12, mfmWords := 1024, oTrue := false, inputsNeedSel := true,
    maxIrqLatency := 0 }

/-- Parameters a block can have: a clock that runs, a compare value that fits the 16-bit register of R24, and a
buffer whose size is a power of two (R10). -/
abbrev Config.Valid (c : Config) : Prop :=
  0 < c.sysclkMhz ∧ c.pulseTicks < 2 ^ 16 ∧ 0 < c.mfmWords ∧ c.mfmWords &&& (c.mfmWords - 1) = 0

/-! The names of R9. -/

/-- `CAP`: entries per ring. -/
def Config.cap : Nat := 1024
/-- `REV_MS`: one revolution. -/
def Config.revMs : Nat := 200
/-- `INDEX_HIGH_MS`: index pulse width. -/
def Config.indexHighMs : Nat := 2
/-- `SEEK_AHEAD_MS`: seek-ahead window. -/
def Config.seekAheadMs : Nat := 10
/-- `YIELD_MS`: read start, yield when more than this remains. -/
def Config.yieldMs : Nat := 5
/-- `SLACK_US`: read start, start at once when less than this remains. -/
def Config.slackUs : Nat := 1
/-- `CELL_US`: one MFM bitcell in the decoder. -/
def Config.cellUs : Nat := 2
/-- The decoder's threshold of `3 * SYSCLK_MHZ` (R11). -/
def Config.cellThreshUs : Nat := 3
/-- `STEP_LATCH_MS`: step pulse to track update. -/
def Config.stepLatchMs : Nat := 2
/-- `WR_DELAY_US`: write start settle delay; timing only, read by no operation (R163, log 14). -/
def Config.wrDelayUs : Nat := 100

/-! Free values (log 5, log 6). -/

/-- `Image.open`: the answer of free draw number `k`. -/
opaque Config.freeOpen : Nat → Bool
/-- The image's `writable` of free draw `k` (R268). -/
opaque Config.freeWritable : Nat → Bool
/-- The image's `syncword` of free draw `k` (R268). -/
opaque Config.freeSyncword : Nat → Word
/-- `Image.seek_track`: busy, of free draw `k`. -/
opaque Config.freeBusy : Nat → Bool
/-- `Image.seek_track`: the position after alignment, of free draw `k`. -/
opaque Config.freePos : Nat → Word
/-- `Image.rdata_flux`: samples offered in free draw `k`; at most the number asked for are taken. -/
opaque Config.freeFlux : Nat → List Sample
/-- `Image.read_track`: did_buffer, of free draw `k`. -/
opaque Config.freeReadTrack : Nat → Bool
/-- `Image.ticks_since_index`, of free draw `k`. -/
opaque Config.freeTicks : Nat → Word
/-- `Image.write_track`: where the image would leave `write_mfm.cons`, of free draw `k`. -/
opaque Config.freeMfmCons : Nat → Word
/-- What entry `i` of `dma_rd.buf` holds if nothing has written it since the `e`-th reset. -/
opaque Config.freeRdEntry : Nat → Nat → Sample
/-- What entry `i` of `dma_wr.buf` holds if nothing has written it since the `e`-th reset. -/
opaque Config.freeWrEntry : Nat → Nat → Sample
/-- What byte `i` of `write_mfm.buf` holds if nothing has written it since the `e`-th reset. -/
opaque Config.freeMfmByte : Nat → Nat → Byte

end Sys2Proof
end

