-- ==== Sys2Proof/Syntax.lean ====
section
/-! DEFINITION. The operations of the block, one constructor per row of spec/opcode_table.json (R90);
the agents (R18) and the pseudo-operations (R96). -/

namespace Sys2Proof

/-- An operation named by one event word (R80, R90). Formats (R81): Z has no operand, B one bit, T a tick count,
M a set of outputs and a level. -/
inductive Instr where
  /-- `STEP d` (B): a host step pulse; `d` true is inward (R221, R222). -/
  | step (d : Bool)
  /-- `SIDE h` (B): a side-select edge, new head `h` (R232). -/
  | side (h : Bool)
  /-- `SEL s` (B): a drive-select edge, `s` true is selected (R242). -/
  | sel (s : Bool)
  /-- `WGATE 1` (B with b = 1): write gate asserted (R161). -/
  | wgate1
  /-- `WGATE 0` (B with b = 0): write gate deasserted (R175). -/
  | wgate0
  /-- `WDATA_EDGE` (Z): a falling edge on `pin_wdata` (R109). -/
  | wdataEdge
  /-- `TICK n` (T): `n` system-clock ticks pass (R262). -/
  | tick (n : Nat)
  /-- `RD_BEAT` (Z): the DMA beat a PWM update event requests (R105). -/
  | rdBeat
  /-- `WR_BEAT` (Z): the DMA beat a capture requests (R110). -/
  | wrBeat
  /-- `IDX_FIRE` (Z): the index timer expires (R202). -/
  | idxFire
  /-- `STEP_FIRE` (Z): the step timer expires (R225). -/
  | stepFire
  /-- `RD_SERVICE` (Z): the RDATA DMA half/full handler (R136). -/
  | rdService
  /-- `WR_SERVICE` (Z): the WDATA DMA half/full handler (R165). -/
  | wrService
  /-- `STEP_SOFTIRQ` (Z): the low-priority step soft IRQ (R223). -/
  | stepSoftirq
  /-- `FG_HANDLE` (Z): one call of `floppy_handle()` (R270). -/
  | fgHandle
  /-- `RD_SEEK` (Z): read engine, Inactive: sync time, seek, go Starting (R131). -/
  | rdSeek
  /-- `RD_PREFILL` (Z): read engine, Starting: prefill (R133). -/
  | rdPrefill
  /-- `RD_START` (Z): read engine, Starting: start timer and DMA (R134). -/
  | rdStart
  /-- `RD_REPLENISH` (Z): read engine, Active: `read_track`, kick (R140). -/
  | rdReplenish
  /-- `RD_STOP` (Z): read engine to Stopping (R143). -/
  | rdStop
  /-- `RD_FINISH` (Z): read engine, Stopping to Inactive (R145). -/
  | rdFinish
  /-- `WR_ACTIVATE` (Z): write engine, Starting to Active (R171). -/
  | wrActivate
  /-- `WR_PUMP` (Z): write engine, Active: `write_track(false)` (R173). -/
  | wrPump
  /-- `WR_DRAIN` (Z): write engine, Stopping: drain and finish (R177). -/
  | wrDrain
  /-- `INIT` (Z): reset (R266). -/
  | init
  /-- `MOUNT` (Z): a disk image is mounted (R268). -/
  | mount
  /-- `CANCEL` (Z): `floppy_cancel()` on eject (R272). -/
  | cancel
  /-- `CHANGE_OUTPUTS m, v` (M): `floppy_change_outputs(mask, value)` (R240). -/
  | changeOutputs (m : OutSet) (v : Bool)
  deriving DecidableEq, Repr

/-- The agents that take steps (R18); the `Image` is an oracle, not a stepper. -/
inductive Agent where
  | host
  | clock
  | rdDma
  | wrDma
  | idxTimer
  | stepTimer
  | isr
  | foreground
  | control
  deriving DecidableEq, Repr

/-- The pseudo-operations (R96). -/
inductive Pseudo where
  /-- `WAIT_US x` -/
  | waitUs (x : Nat)
  /-- `WAIT_MS x` -/
  | waitMs (x : Nat)
  /-- `FLUX t`: one write-data transition `t` ticks after the last. -/
  | flux (t : Nat)
  | stepOut
  | stepIn
  | select
  | deselect
  deriving DecidableEq, Repr

end Sys2Proof
end

