-- ==== Sys2Proof/WellFormed.lean ====
section
/-! DEFINITION. Which operations an event word can name: the bounds of the operand fields (R81, R82). -/

namespace Sys2Proof

/-- The operand fits its field. Only the tick count is wider than its type: `n` = `arg[23:0]` (R81, format T). -/
def Instr.wellFormed : Instr → Bool
  | .tick n => decide (n < 2 ^ 24)
  | .step _ | .side _ | .sel _ | .wgate1 | .wgate0 | .wdataEdge | .rdBeat | .wrBeat | .idxFire | .stepFire
  | .rdService | .wrService | .stepSoftirq | .fgHandle | .rdSeek | .rdPrefill | .rdStart | .rdReplenish | .rdStop
  | .rdFinish | .wrActivate | .wrPump | .wrDrain | .init | .mount | .cancel | .changeOutputs _ _ => true

end Sys2Proof
end

