-- ==== Sys2Proof/Decode.lean ====
section
/-! DEFINITION. Decoding of event words (R80 to R93) and, after it, the encoder. A word decodes to a row iff
`word & mask = match` (R91); a word that matches no row is refused by name (R93). -/

namespace Sys2Proof

/-- Why a word names no operation (R93). -/
inductive DecodeError where
  /-- `op` is no opcode of R90. -/
  | unknownOpcode (op : BitVec 8)
  /-- `op` is an opcode but a must-be-zero bit of its format is set. -/
  | reservedBits (op : BitVec 8)
  deriving DecidableEq, Repr

/-- `op` = bits 31:24 of the event word (R80). -/
def opField (w : Word) : BitVec 8 := w.extractLsb' 24 8

/-- Format B, `b` = `arg[0]` (R81). -/
def bField (w : Word) : Bool := w.getLsbD 0

/-- Format T, `n` = `arg[23:0]`, zero-extended (R81, R82). -/
def nField (w : Word) : Nat := (w.extractLsb' 0 24).toNat

/-- Format M, `mask` = `arg[4:0]` (R81). -/
def maskField (w : Word) : OutSet := w.extractLsb' 0 5

/-- Format M, `val` = `arg[8]` (R81). -/
def valField (w : Word) : Bool := w.getLsbD 8

/-- One row of the opcode map: the bits the format fixes, their values, and the operation with its operands taken
from the word (R91). -/
structure OpcodeRow where
  mask : Word
  matched : Word
  build : Word → Instr

/-- The rows of agent group `0x0_`, `Host` (R83, R90). -/
def hostRows : List OpcodeRow :=
  [ ⟨0xFFFFFFFE#32, 0x01000000#32, fun w => .step (bField w)⟩,
    ⟨0xFFFFFFFE#32, 0x02000000#32, fun w => .side (bField w)⟩,
    ⟨0xFFFFFFFE#32, 0x03000000#32, fun w => .sel (bField w)⟩,
    ⟨0xFFFFFFFF#32, 0x04000001#32, fun _ => .wgate1⟩,
    ⟨0xFFFFFFFF#32, 0x04000000#32, fun _ => .wgate0⟩,
    ⟨0xFFFFFFFF#32, 0x05000000#32, fun _ => .wdataEdge⟩ ]

/-- The rows of agent groups `0x1_` (hardware agents) and `0x2_` (`Isr`). -/
def hardwareRows : List OpcodeRow :=
  [ ⟨0xFF000000#32, 0x10000000#32, fun w => .tick (nField w)⟩,
    ⟨0xFFFFFFFF#32, 0x11000000#32, fun _ => .rdBeat⟩,
    ⟨0xFFFFFFFF#32, 0x12000000#32, fun _ => .wrBeat⟩,
    ⟨0xFFFFFFFF#32, 0x13000000#32, fun _ => .idxFire⟩,
    ⟨0xFFFFFFFF#32, 0x14000000#32, fun _ => .stepFire⟩,
    ⟨0xFFFFFFFF#32, 0x20000000#32, fun _ => .rdService⟩,
    ⟨0xFFFFFFFF#32, 0x21000000#32, fun _ => .wrService⟩,
    ⟨0xFFFFFFFF#32, 0x22000000#32, fun _ => .stepSoftirq⟩ ]

/-- The rows of agent group `0x3_`, `Foreground`. -/
def foregroundRows : List OpcodeRow :=
  [ ⟨0xFFFFFFFF#32, 0x30000000#32, fun _ => .fgHandle⟩,
    ⟨0xFFFFFFFF#32, 0x31000000#32, fun _ => .rdSeek⟩,
    ⟨0xFFFFFFFF#32, 0x32000000#32, fun _ => .rdPrefill⟩,
    ⟨0xFFFFFFFF#32, 0x33000000#32, fun _ => .rdStart⟩,
    ⟨0xFFFFFFFF#32, 0x34000000#32, fun _ => .rdReplenish⟩,
    ⟨0xFFFFFFFF#32, 0x35000000#32, fun _ => .rdStop⟩,
    ⟨0xFFFFFFFF#32, 0x36000000#32, fun _ => .rdFinish⟩,
    ⟨0xFFFFFFFF#32, 0x37000000#32, fun _ => .wrActivate⟩,
    ⟨0xFFFFFFFF#32, 0x38000000#32, fun _ => .wrPump⟩,
    ⟨0xFFFFFFFF#32, 0x39000000#32, fun _ => .wrDrain⟩ ]

/-- The rows of agent group `0x4_`, `Control`. -/
def controlRows : List OpcodeRow :=
  [ ⟨0xFFFFFFFF#32, 0x40000000#32, fun _ => .init⟩,
    ⟨0xFFFFFFFF#32, 0x41000000#32, fun _ => .mount⟩,
    ⟨0xFFFFFFFF#32, 0x42000000#32, fun _ => .cancel⟩,
    ⟨0xFFFFFEE0#32, 0x43000000#32, fun w => .changeOutputs (maskField w) (valField w)⟩ ]

/-- The whole opcode map (R90). -/
def opcodeRows : List OpcodeRow := hostRows ++ hardwareRows ++ foregroundRows ++ controlRows

/-- The word is of this row (R91). -/
def OpcodeRow.fits (r : OpcodeRow) (w : Word) : Bool := w &&& r.mask == r.matched

/-- Decodes an event word, or says why it names no operation (R91, R93). -/
def decode (w : Word) : Except DecodeError Instr :=
  match opcodeRows.find? (·.fits w) with
  | some r => .ok (r.build w)
  | none =>
    if opcodeRows.any (fun r => opField r.matched == opField w) then .error (.reservedBits (opField w))
    else .error (.unknownOpcode (opField w))

/-! The encoder, from R80 and R81. -/

/-- An event word from its opcode byte and its 24-bit argument (R80). -/
def eventWord (op : BitVec 8) (arg : BitVec 24) : Word := op ++ arg

/-- The argument of format B. -/
def bArg (b : Bool) : BitVec 24 := if b then 1#24 else 0#24

/-- The argument of format M: `val` in bit 8, `mask` in bits 4:0, zeros between and above. -/
def mArg (m : OutSet) (v : Bool) : BitVec 24 := (0#15 ++ BitVec.ofBool v) ++ (0#3 ++ m)

/-- The event word of an operation (R90). A tick count is cut to its field, which changes nothing when the operation
is well-formed. -/
def encode : Instr → Word
  | .step d => eventWord 0x01#8 (bArg d)
  | .side h => eventWord 0x02#8 (bArg h)
  | .sel s => eventWord 0x03#8 (bArg s)
  | .wgate1 => eventWord 0x04#8 (bArg true)
  | .wgate0 => eventWord 0x04#8 (bArg false)
  | .wdataEdge => eventWord 0x05#8 0#24
  | .tick n => eventWord 0x10#8 (BitVec.ofNat 24 n)
  | .rdBeat => eventWord 0x11#8 0#24
  | .wrBeat => eventWord 0x12#8 0#24
  | .idxFire => eventWord 0x13#8 0#24
  | .stepFire => eventWord 0x14#8 0#24
  | .rdService => eventWord 0x20#8 0#24
  | .wrService => eventWord 0x21#8 0#24
  | .stepSoftirq => eventWord 0x22#8 0#24
  | .fgHandle => eventWord 0x30#8 0#24
  | .rdSeek => eventWord 0x31#8 0#24
  | .rdPrefill => eventWord 0x32#8 0#24
  | .rdStart => eventWord 0x33#8 0#24
  | .rdReplenish => eventWord 0x34#8 0#24
  | .rdStop => eventWord 0x35#8 0#24
  | .rdFinish => eventWord 0x36#8 0#24
  | .wrActivate => eventWord 0x37#8 0#24
  | .wrPump => eventWord 0x38#8 0#24
  | .wrDrain => eventWord 0x39#8 0#24
  | .init => eventWord 0x40#8 0#24
  | .mount => eventWord 0x41#8 0#24
  | .cancel => eventWord 0x42#8 0#24
  | .changeOutputs m v => eventWord 0x43#8 (mArg m v)

/-! Agents, text, pseudo-operations. -/

/-- The agent an operation belongs to (R90). -/
def agentOf : Instr → Agent
  | .step _ | .side _ | .sel _ | .wgate1 | .wgate0 | .wdataEdge => .host
  | .tick _ => .clock
  | .rdBeat => .rdDma
  | .wrBeat => .wrDma
  | .idxFire => .idxTimer
  | .stepFire => .stepTimer
  | .rdService | .wrService | .stepSoftirq => .isr
  | .fgHandle | .rdSeek | .rdPrefill | .rdStart | .rdReplenish | .rdStop | .rdFinish | .wrActivate | .wrPump
  | .wrDrain => .foreground
  | .init | .mount | .cancel | .changeOutputs _ _ => .control

/-- The group of an agent: the top nibble of the opcode (R83). -/
def agentGroup : Agent → BitVec 4
  | .host => 0#4
  | .clock | .rdDma | .wrDma | .idxTimer | .stepTimer => 1#4
  | .isr => 2#4
  | .foreground => 3#4
  | .control => 4#4

/-- An operation as one line of a trace writes it: the mnemonic of R90 and the operands, in order (R95). -/
def textOf : Instr → String × List Nat
  | .step d => ("STEP", [d.toNat])
  | .side h => ("SIDE", [h.toNat])
  | .sel s => ("SEL", [s.toNat])
  | .wgate1 => ("WGATE", [1])
  | .wgate0 => ("WGATE", [0])
  | .wdataEdge => ("WDATA_EDGE", [])
  | .tick n => ("TICK", [n])
  | .rdBeat => ("RD_BEAT", [])
  | .wrBeat => ("WR_BEAT", [])
  | .idxFire => ("IDX_FIRE", [])
  | .stepFire => ("STEP_FIRE", [])
  | .rdService => ("RD_SERVICE", [])
  | .wrService => ("WR_SERVICE", [])
  | .stepSoftirq => ("STEP_SOFTIRQ", [])
  | .fgHandle => ("FG_HANDLE", [])
  | .rdSeek => ("RD_SEEK", [])
  | .rdPrefill => ("RD_PREFILL", [])
  | .rdStart => ("RD_START", [])
  | .rdReplenish => ("RD_REPLENISH", [])
  | .rdStop => ("RD_STOP", [])
  | .rdFinish => ("RD_FINISH", [])
  | .wrActivate => ("WR_ACTIVATE", [])
  | .wrPump => ("WR_PUMP", [])
  | .wrDrain => ("WR_DRAIN", [])
  | .init => ("INIT", [])
  | .mount => ("MOUNT", [])
  | .cancel => ("CANCEL", [])
  | .changeOutputs m v => ("CHANGE_OUTPUTS", [m.toNat, v.toNat])

/-- `n` ticks as TICKs that fit their field: as few as can be, as equal as can be (of the two waits R96 says only
"repeated if the count exceeds 2^24 - 1", of FLUX not even that: DESIGN CHOICE, log 25). -/
def waitTicks (n : Nat) : List Instr :=
  let parts := (n + (2 ^ 24 - 2)) / (2 ^ 24 - 1)
  if parts ≤ 1 then [.tick n]
  else (List.range parts).map fun k => .tick (n / parts + if k < n % parts then 1 else 0)

/-- What a pseudo-operation expands to (R96). A `FLUX t` whose `t` fits no one TICK is split as a wait is (DESIGN
CHOICE, log 25). -/
def Pseudo.expand (c : Config) : Pseudo → List Instr
  | .waitUs x => waitTicks (x * c.sysclkMhz)
  | .waitMs x => waitTicks (x * 1000 * c.sysclkMhz)
  | .flux t => waitTicks t ++ [.wdataEdge]
  | .stepOut => [.step false]
  | .stepIn => [.step true]
  | .select => [.sel true]
  | .deselect => [.sel false]

/-- The operation this decoder reads from an instruction of the opcode table whose bits are `w`, at most 32 bits
wide (every event word is 32 bits, R80; the bits above `nbits` are zero). Event words are never stored in the block,
so no byte order enters (log 24). -/
def decodeTableWord (nbits w : Nat) : Option Instr :=
  if w < 2 ^ 32 ∧ w < 2 ^ nbits then
    match decode (BitVec.ofNat 32 w) with
    | .ok i => some i
    | .error _ => none
  else none

end Sys2Proof
end

