-- ==== Sys2Proof/Machine/State.lean ====
section
/-! DEFINITION. The state of the block (R20 to R42), as plain data, with the reasons a step can stop and the state
after reset (R48). `Arch` is what the spec gives the machine; `State` adds the parameters and the model's inputs and
outputs. -/

namespace Sys2Proof.Machine

/-- A ring's state, "a volatile `state` in {Inactive, Starting, Active, Stopping}" (R21). -/
inductive RingState where
  | inactive
  | starting
  | active
  | stopping
  deriving DecidableEq, Repr

/-- `Step.state` (R33). -/
inductive StepState where
  | idle
  | started
  | latched
  | settling
  deriving DecidableEq, Repr

/-- `rdata_pin.mode` (R26). -/
inductive PinMode where
  | gpoIdle
  | af
  deriving DecidableEq, Repr

/-- The reason of a `Fatal` (R286). -/
inductive FatalReason where
  | engineOverlap
  | badTransition
  deriving DecidableEq, Repr

/-- The error kinds (R281). -/
inductive ErrorKind where
  | underrun
  | missedWrite
  | seekBusy
  | openFailure
  | fatal (r : FatalReason)
  deriving DecidableEq, Repr

/-- One record of `log`: the kind and the time (R281, R287). -/
structure LogRecord where
  kind : ErrorKind
  time : Nat
  deriving DecidableEq, Repr

/-- The three memories (R60), each a list of (index, content) pairs with strictly rising indices; an index that is
not listed has not been written since the last reset and holds a free value (U1, U4). `write_mfm.buf` is held as bytes
(R62): byte `4 * w + j` is byte `j` of word `w`. -/
structure Memory where
  rdBuf : List (Nat × Sample)
  wrBuf : List (Nat × Sample)
  mfmBuf : List Host.Cell
  /-- The model's own: which unspecified contents are meant, one more after each INIT (log 5). -/
  epoch : Nat
  deriving DecidableEq, Repr

/-- `dma_rd`, the read ring, but for its buffer (R22). -/
structure ReadRing where
  state : RingState
  cons : RingIx
  prod : RingIx
  kick : Bool
  syncTime : Int
  track : Track
  lastTsi : Word
  deriving DecidableEq, Repr

/-- `dma_wr`, the write ring, but for its buffer (R23). -/
structure WriteRing where
  state : RingState
  cons : RingIx
  prevSample : Sample
  mfm : Word
  deriving DecidableEq, Repr

/-- `rd_tim`, the PWM timer (R24). -/
structure ReadTimer where
  en : Bool
  cnt : Sample
  arr : Sample
  ccr : Sample
  deriving DecidableEq, Repr

/-- `wr_tim`, the capture timer (R27). -/
structure WriteTimer where
  en : Bool
  cnt : Sample
  cc1e : Bool
  ccr1 : Sample
  deriving DecidableEq, Repr

/-- `rd_dma` or `wr_dma` (R25, R28). `req` is the request for one beat made by an update event or a capture and not
yet served (R90, R302; log 9); `ht` and `tc` are the interrupt flags, set by a beat (R67; log 20). -/
structure DmaChannel where
  en : Bool
  cndtr : Count
  req : Bool
  ht : Bool
  tc : Bool
  deriving DecidableEq, Repr

/-- A producer and a consumer offset: of `write_mfm`, in MFM bits, and of `write_data` (R29). -/
structure Offsets where
  prod : Word
  cons : Word
  deriving DecidableEq, Repr

/-- The image-visible scalars (R30). -/
structure ImageRegs where
  loaded : Bool
  writable : Bool
  syncword : Word
  writeStart : Word
  deriving DecidableEq, Repr

/-- `Drive` (R32), but for its `Step`. -/
structure DriveRegs where
  cyl : BitVec 8
  head : Bool
  sel : Bool
  deriving DecidableEq, Repr

/-- A software timer: armed or not, and its deadline (R33, R35). -/
structure SoftTimer where
  armed : Bool
  deadline : Int
  deriving DecidableEq, Repr

/-- `Step` (R33). -/
structure StepRegs where
  state : StepState
  start : Int
  inward : Bool
  timer : SoftTimer
  deriving DecidableEq, Repr

/-- `Index` (R35). -/
structure IndexRegs where
  timer : SoftTimer
  active : Bool
  prevTime : Int
  deriving DecidableEq, Repr

/-- `gpio_out_active` and `port` (R36). -/
structure OutputRegs where
  shadow : OutSet
  port : OutSet
  deriving DecidableEq, Repr

/-- `irq.*` (R38). -/
structure IrqRegs where
  rdDma : Bool
  wrDma : Bool
  stepSoft : Bool
  extiEn : Bool
  dmaEn : Bool
  deriving DecidableEq, Repr

/-- For each handler of R261, the `now` at which it became owed, if it is owed. -/
structure OwedSince where
  rdService : Option Nat
  wrService : Option Nat
  stepSoftirq : Option Nat
  idxFire : Option Nat
  stepFire : Option Nat
  rdStart : Option Nat
  deriving DecidableEq, Repr

/-- Nothing is owed. -/
def OwedSince.none : OwedSince := ⟨Option.none, Option.none, Option.none, Option.none, Option.none, Option.none⟩

/-- The architectural state: the tuple of R20, but for the bookkeeping of R261, which stands in State. -/
structure Arch where
  mem : Memory
  rd : ReadRing
  wr : WriteRing
  rdTim : ReadTimer
  rdDma : DmaChannel
  pin : PinMode
  wrTim : WriteTimer
  wrDma : DmaChannel
  mfm : Offsets
  data : Offsets
  image : ImageRegs
  drive : DriveRegs
  stepper : StepRegs
  index : IndexRegs
  outs : OutputRegs
  irq : IrqRegs
  log : List LogRecord
  fault : Option FatalReason
  clicks : Nat
  now : Nat
  fgWait : Option Int
  deriving DecidableEq, Repr

/-- What a trace gives beside the event word: the oracle answers it assumes, in the order the operation asks for them
(R95), and the operations that run at the operation's preemption points P1 and P2 (R16, R131, R171). -/
structure Annotation where
  opens : List Bool
  writables : List Bool
  syncwords : List Word
  seeks : List (Bool × Word)
  fluxes : List (List Sample)
  readTracks : List Bool
  ticks : List Word
  mfmConses : List Word
  atP1 : List Instr
  atP2 : List Instr
  deriving DecidableEq, Repr

/-- No answer given (each one asked for is then a free value) and nothing at the preemption points. -/
def Annotation.empty : Annotation := ⟨[], [], [], [], [], [], [], [], [], []⟩

/-- One line of a trace: an event word and its annotation (R95). -/
structure Event where
  word : Word
  note : Annotation
  deriving DecidableEq, Repr

/-- A call of the `Image` (R40), recorded with its arguments. -/
inductive ImageCall where
  | openImage
  | seekTrack (track : Track) (pos : Option Int)
  | rdataFlux (nr : Nat)
  | readTrack
  | writeTrack (flush : Bool)
  | ticksSinceIndex
  | fileSync
  deriving DecidableEq, Repr

/-- What a foreground operation returns to its caller: no state of the block (R271), kept as an output. -/
inductive Returned where
  | retry
  | again
  | reenter (soon : Bool)
  deriving DecidableEq, Repr

/-- The model's inputs and outputs (log 6, log 7, log 8, log 21). -/
structure Env where
  trace : List Event
  note : Annotation
  drawn : Nat
  calls : List ImageCall
  ret : Option Returned
  deriving DecidableEq, Repr

/-- The whole state. -/
structure State extends Arch where
  cfg : Config
  owed : OwedSince
  env : Env
  deriving DecidableEq, Repr

/-- Why the machine stops with a fault. -/
inductive Fault where
  /-- Raised by every operation when the parameters are no block's (`Config.Valid` fails: a clock of 0 MHz, a compare
  value over 16 bits, a buffer size that is no power of two; R10). Safe: no block has them (log 3). -/
  | badParameters
  deriving DecidableEq, Repr

/-- Why the trace is refused at an operation. -/
inductive Refusal where
  /-- An operation whose meaning is not written; raised by no arm once the model is whole. Safe. -/
  | notModelled (mnemonic : String)
  /-- Raised by the step when the trace holds no further event: no agent is scheduled (log 7). Safe. -/
  | endOfTrace
  /-- Raised by the step when the event word names no operation (R93). Safe. -/
  | undecodable (e : DecodeError)
  /-- Raised by every operation but INIT while `fault` is set (R286). Safe. -/
  | blockFaulted
  /-- Raised by an operation whose enabling condition does not hold (R94). Safe. -/
  | notEnabled
  /-- Raised by TICK when a handler has been owed for `MAX_IRQ_LATENCY` ticks (R261, R262). Safe. -/
  | handlerOwed
  /-- Raised by RD_BEAT, alone or inside TICK, RD_START and FG_HANDLE, on a sample of 0 (R105, U3). Safe. -/
  | zeroFluxSample
  /-- Raised by RD_SEEK, WR_ACTIVATE and FG_HANDLE when the trace puts an operation at a preemption point that is
  neither a `Host`, an `Isr` nor a timer operation (R131). Safe. -/
  | notPreempting
  deriving DecidableEq, Repr

/-- The outcome of an operation. -/
abbrev Result := Host.Outcome State Fault Refusal

/-- The state of the block after reset (R48). Values the spec leaves unspecified are zero (log 4); the memories have
nothing listed, so that they hold the free values of epoch `e` (log 5). -/
def Arch.reset (c : Config) (e : Nat) : Arch :=
  { mem := { rdBuf := [], wrBuf := [], mfmBuf := [], epoch := e }
    rd := { state := .inactive, cons := 0, prod := 0, kick := false, syncTime := 0, track := 0, lastTsi := 0 }
    wr := { state := .inactive, cons := 0, prevSample := 0, mfm := 0 }
    rdTim := { en := false, cnt := 0, arr := 0, ccr := BitVec.ofNat 16 c.pulseTicks }
    rdDma := { en := false, cndtr := 1024#11, req := false, ht := false, tc := false }
    pin := .gpoIdle
    wrTim := { en := false, cnt := 0, cc1e := false, ccr1 := 0 }
    wrDma := { en := false, cndtr := 1024#11, req := false, ht := false, tc := false }
    mfm := { prod := 0, cons := 0 }
    data := { prod := 0, cons := 0 }
    image := { loaded := false, writable := false, syncword := 0, writeStart := 0 }
    drive := { cyl := 0, head := false, sel := false }
    stepper := { state := .idle, start := 0, inward := false, timer := { armed := false, deadline := 0 } }
    index := { timer := { armed := false, deadline := 0 }, active := false, prevTime := 0 }
    outs := { shadow := 0b11100#5, port := 0 }
    irq := { rdDma := false, wrDma := false, stepSoft := false, extiEn := false, dmaEn := false }
    log := []
    fault := none
    clicks := 0
    now := 0
    fgWait := none }

/-- The machine right after reset, with the default parameters of R10 and an empty trace (log 7). -/
def State.reset : State :=
  { toArch := Arch.reset Config.default 0
    cfg := Config.default
    owed := OwedSince.none
    env := { trace := [], note := Annotation.empty, drawn := 0, calls := [], ret := none } }

end Sys2Proof.Machine
end

