-- ==== Sys2Proof/Machine/Timebase.lean ====
section
/-! DEFINITION. The derived tick constants (R11) and the comparison of times (R12, R15). -/

namespace Sys2Proof.Machine

/-- `us(x)`: microseconds in system-clock ticks. -/
def us (c : Config) (x : Nat) : Nat := x * c.sysclkMhz

/-- `ms(x)`: milliseconds in system-clock ticks. -/
def ms (c : Config) (x : Nat) : Nat := x * 1000 * c.sysclkMhz

/-- `REV`, one revolution. -/
def rev (c : Config) : Nat := ms c Config.revMs
/-- `INDEX_HIGH`, the index pulse. -/
def indexHigh (c : Config) : Nat := ms c Config.indexHighMs
/-- `SEEK_AHEAD`. -/
def seekAhead (c : Config) : Nat := ms c Config.seekAheadMs
/-- `YIELD`. -/
def yieldTicks (c : Config) : Nat := ms c Config.yieldMs
/-- `SLACK`. -/
def slack (c : Config) : Nat := us c Config.slackUs
/-- `STEP_LATCH`. -/
def stepLatch (c : Config) : Nat := ms c Config.stepLatchMs
/-- `SETTLE`. -/
def settle (c : Config) : Nat := ms c c.settleMs
/-- `CELL = 2 * SYSCLK_MHZ`. -/
def cell (c : Config) : Nat := us c Config.cellUs
/-- `CELL_THRESH = 3 * SYSCLK_MHZ`. -/
def cellThresh (c : Config) : Nat := us c Config.cellThreshUs
/-- `WR_DELAY`; read by no operation (R163). -/
def wrDelay (c : Config) : Nat := us c Config.wrDelayUs

/-- `sdiff(a, b)`: the signed difference of two times (R12). -/
def sdiff (a b : Int) : Int := a - b

/-- A deadline has come: `now ≥ deadline` (R201, R224). -/
abbrev SoftTimer.Due (t : SoftTimer) (now : Nat) : Prop := t.armed = true ∧ t.deadline ≤ (now : Int)

end Sys2Proof.Machine
end

