-- ==== Sys2Proof/Machine/Operands.lean ====
section
/-! DEFINITION. What the operations compute their operands from: ring positions and distances (R88, R100, R103), the
track number (R131), the status outputs by name (R86), the numbers of the enumerations (R84, R281). -/

namespace Sys2Proof.Machine

/-- `CAP` as a transfer count. -/
def capCount : Count := BitVec.ofNat 11 Config.cap

/-- `HALF` as a transfer count: the half-transfer point (R9). -/
def halfCount : Count := 512#11

/-- The position of a DMA channel: `(CAP - CNDTR) & MASK`, the index of the next entry it will touch (R88; log 27). -/
def DmaChannel.pos (d : DmaChannel) : RingIx := (capCount - d.cndtr).setWidth 10

/-- `rd_pos()` (R103). -/
def rdPos (a : Arch) : RingIx := a.rdDma.pos

/-- `wr_pos()` (R103). -/
def wrPos (a : Arch) : RingIx := a.wrDma.pos

/-- `(a - b) & MASK`: the forward distance from index `b` to index `a` (R100). -/
def ringDist (a b : RingIx) : Nat := (a - b).toNat

/-- `track = Drive.cyl * 2 + Drive.head` (R131, D11). -/
def trackOf (d : DriveRegs) : Track := d.cyl.setWidth 9 * 2#9 + (BitVec.ofBool d.head).setWidth 9

/-- Format M's `mask` for `pin_index`, bit 0 (R86). -/
def pinIndex : OutSet := 0b00001#5
/-- `pin_rdy`, bit 1. -/
def pinRdy : OutSet := 0b00010#5
/-- `pin_dskchg`, bit 2. -/
def pinDskchg : OutSet := 0b00100#5
/-- `pin_wrprot`, bit 3. -/
def pinWrprot : OutSet := 0b01000#5
/-- `pin_trk0`, bit 4. -/
def pinTrk0 : OutSet := 0b10000#5

/-- The number of a ring state (R84, D6). -/
def RingState.code : RingState → Byte
  | .inactive => 0
  | .starting => 1
  | .active => 2
  | .stopping => 3

/-- The number of a step state (R84, D6). -/
def StepState.code : StepState → Byte
  | .idle => 0
  | .started => 1
  | .latched => 2
  | .settling => 3

/-- The code of an error kind (R281, D41). -/
def ErrorKind.code : ErrorKind → Nat
  | .underrun => 1
  | .missedWrite => 2
  | .seekBusy => 3
  | .openFailure => 4
  | .fatal _ => 5

end Sys2Proof.Machine
end

