-- ==== Sys2Proof/Machine/Flags.lean ====
section
/-! DEFINITION. The conditions the rules test: the flags of a beat (R25, R28), the predicates of the engines and the
step machine (R21, R34, R44, R142), what is owed (R261), the level of the pins (R10, R108). -/

namespace Sys2Proof.Machine

/-- `HT`, half transfer: the count a beat leaves is `HALF` (R105, R110). -/
abbrev HalfTransfer (c : Count) : Prop := c = halfCount

/-- `TC`, full transfer: the count a beat leaves is 0 (R105, R110). -/
abbrev FullTransfer (c : Count) : Prop := c = 0#11

/-- The legal transitions of a ring state (R21). -/
def RingState.canBecome : RingState → RingState → Bool
  | .inactive, .starting | .starting, .active | .starting, .stopping | .active, .stopping | .stopping, .inactive => true
  | _, _ => false

/-- `step_active` (R34). -/
abbrev StepActive (a : Arch) : Prop := a.stepper.state = .started ∨ a.stepper.state = .latched

/-- The read ring is Starting or Active. -/
abbrev ReadRunning (a : Arch) : Prop := a.rd.state = .starting ∨ a.rd.state = .active

/-- `EngineOverlap`: the negation of R44 (R286). -/
abbrev Overlap (a : Arch) : Prop :=
  (ReadRunning a ∧ a.wr.state ≠ .inactive) ∨ (a.wr.state = .active ∧ a.rd.state ≠ .inactive)

/-- When the foreground stops a read (R142). -/
abbrev StopCondition (a : Arch) : Prop :=
  StepActive a ∨ trackOf a.drive ≠ a.rd.track ∨ a.wr.state ≠ .inactive

/-- STEP and WGATE 1 are heard: EXTI enabled, and selected where inputs need it (R161, R221). -/
abbrev InputsHeard (s : State) : Prop :=
  s.irq.extiEn = true ∧ (s.cfg.inputsNeedSel = true → s.drive.sel = true)

/-- The underrun test of RD_SERVICE at DMA position `c`: the position moved and more was consumed than queued
(R136, R138). -/
abbrev UnderrunAt (a : Arch) (c : RingIx) : Prop :=
  c ≠ a.rd.cons ∧ ringDist a.rd.prod a.rd.cons < ringDist c a.rd.cons

/-! Owed handlers (R261). -/

abbrev RdServiceOwed (a : Arch) : Prop := a.irq.rdDma = true ∧ a.irq.dmaEn = true
abbrev WrServiceOwed (a : Arch) : Prop := a.irq.wrDma = true ∧ a.irq.dmaEn = true
abbrev StepSoftirqOwed (a : Arch) : Prop := a.irq.stepSoft = true
abbrev IdxFireOwed (a : Arch) : Prop := a.index.timer.Due a.now
abbrev StepFireOwed (a : Arch) : Prop := a.stepper.timer.Due a.now

/-- The busy-wait is over: `fg_wait ≠ none ∧ now ≥ fg_wait`. -/
def waitOver (a : Arch) : Bool :=
  match a.fgWait with
  | none => false
  | some w => decide (w ≤ (a.now : Int))

/-- Some handler is owed. -/
abbrev AnyOwed (a : Arch) : Prop :=
  RdServiceOwed a ∨ WrServiceOwed a ∨ StepSoftirqOwed a ∨ IdxFireOwed a ∨ StepFireOwed a ∨ waitOver a = true

/-- The time a handler became owed, kept while it stays owed. -/
def owedMark (owed : Bool) (since : Option Nat) (now : Nat) : Option Nat :=
  if owed then some (since.getD now) else none

/-- The marks of R261 brought up to date with the state `a`. -/
def OwedSince.update (o : OwedSince) (a : Arch) : OwedSince :=
  { rdService := owedMark (decide (RdServiceOwed a)) o.rdService a.now
    wrService := owedMark (decide (WrServiceOwed a)) o.wrService a.now
    stepSoftirq := owedMark (decide (StepSoftirqOwed a)) o.stepSoftirq a.now
    idxFire := owedMark (decide (IdxFireOwed a)) o.idxFire a.now
    stepFire := owedMark (decide (StepFireOwed a)) o.stepFire a.now
    rdStart := owedMark (waitOver a) o.rdStart a.now }

/-- A handler with this mark may wait longer: it is not owed, or for less than `MAX_IRQ_LATENCY` ticks (R261). -/
def mayWait (latency now : Nat) : Option Nat → Bool
  | none => true
  | some t => decide (now - t < latency)

/-- `TICK 1` is allowed by R261: no handler has been owed for `MAX_IRQ_LATENCY` ticks. With latency 0 nothing may be
owed at all. -/
def tickAllowed (s : State) : Bool :=
  let o := s.owed.update s.toArch
  let ok := mayWait s.cfg.maxIrqLatency s.now
  ok o.rdService && ok o.wrService && ok o.stepSoftirq && ok o.idxFire && ok o.stepFire && ok o.rdStart

/-! The pins. -/

/-- `pin_rdata` shows a pulse (R108). -/
def pinRdata (a : Arch) : Bool := decide (a.pin = .af) && a.rdTim.en && decide (a.rdTim.cnt < a.rdTim.ccr)

/-- The electrical level of status output number `k` (R86): `O_TRUE` when its bit of `port` is 1 (R10). -/
def statusLevel (s : State) (k : Nat) : Bool := s.outs.port.getLsbD k == s.cfg.oTrue

end Sys2Proof.Machine
end

