-- ==== Sys2Proof/Machine/Ops.lean ====
section
/-! DEFINITION. The shared operations: memory (R13, R60 to R63), ring states, compare-and-swap and barriers (R21, R69
to R73), errors and the fatal exception (R281, R286), requests (R291), the output mux (R240), calls of the `Image` and
its answers (R14, R40), and the frame every operation of the block runs in (R94, R286). -/

namespace Sys2Proof.Machine

/-! ## Sequencing -/

/-- Goes on from a next state; a fault or a refusal ends the operation. -/
def andThen (r : Result) (f : State → Result) : Result :=
  match r with
  | .next s => f s
  | .fault e => .fault e
  | .refused e => .refused e

/-! ## Memory -/

/-- The content listed for an index, if any. -/
def Cells.get {α : Type} : List (Nat × α) → Nat → Option α
  | [], _ => none
  | (j, v) :: m, i => if j = i then some v else Cells.get m i

/-- Writes an index, keeping the indices strictly rising. -/
def Cells.put {α : Type} : List (Nat × α) → Nat → α → List (Nat × α)
  | [], i, v => [(i, v)]
  | (j, w) :: m, i, v =>
    if i < j then (i, v) :: (j, w) :: m
    else if i = j then (i, v) :: m
    else (j, w) :: Cells.put m i v

/-- Every index is at least `lo` and below `hi`, and the indices rise strictly: the canonical form. -/
def Cells.wf {α : Type} (lo hi : Nat) : List (Nat × α) → Bool
  | [] => true
  | (j, _) :: m => decide (lo ≤ j) && decide (j < hi) && Cells.wf (j + 1) hi m

/-- The canonical form of the three memories (R60): `words` is `MFM_WORDS`. -/
def Memory.wf (words : Nat) (m : Memory) : Bool :=
  Cells.wf 0 Config.cap m.rdBuf && Cells.wf 0 Config.cap m.wrBuf && Cells.wf 0 (4 * words) m.mfmBuf

/-- `MemRead(dma_rd, i, 16)` (R13). -/
def Memory.rdEntry (m : Memory) (i : RingIx) : Sample :=
  (Cells.get m.rdBuf i.toNat).getD (Config.freeRdEntry m.epoch i.toNat)

/-- `MemRead(dma_wr, i, 16)` (R13). -/
def Memory.wrEntry (m : Memory) (i : RingIx) : Sample :=
  (Cells.get m.wrBuf i.toNat).getD (Config.freeWrEntry m.epoch i.toNat)

/-- `MemWrite(dma_rd, i, 16, v)` (R13). -/
def Memory.putRd (m : Memory) (i : RingIx) (v : Sample) : Memory := { m with rdBuf := Cells.put m.rdBuf i.toNat v }

/-- `MemWrite(dma_wr, i, 16, v)` (R13). -/
def Memory.putWr (m : Memory) (i : RingIx) (v : Sample) : Memory := { m with wrBuf := Cells.put m.wrBuf i.toNat v }

/-- One byte of `write_mfm.buf` (R62). -/
def Memory.mfmByte (m : Memory) (a : Nat) : Byte :=
  (Cells.get m.mfmBuf a).getD (Config.freeMfmByte m.epoch a)

/-- Byte `j` of a 32-bit value in big-endian order: byte 0 holds bits 31:24 (R62). -/
def byteOf (v : Word) (j : Nat) : Byte := v.extractLsb' (24 - 8 * j) 8

/-- `MemWrite(write_mfm, w, 32, v)`: word `w mod MFM_WORDS`, big-endian in bytes (R13, R62). -/
def Memory.putMfm (m : Memory) (words w : Nat) (v : Word) : Memory :=
  let a := 4 * (w % words)
  let b1 := Cells.put m.mfmBuf a (byteOf v 0)
  let b2 := Cells.put b1 (a + 1) (byteOf v 1)
  let b3 := Cells.put b2 (a + 2) (byteOf v 2)
  { m with mfmBuf := Cells.put b3 (a + 3) (byteOf v 3) }

/-- Word `w mod MFM_WORDS` of `write_mfm.buf`, as the byte stream shows it (R62). -/
def Memory.mfmWord (m : Memory) (words w : Nat) : Word :=
  let a := 4 * (w % words)
  m.mfmByte a ++ m.mfmByte (a + 1) ++ m.mfmByte (a + 2) ++ m.mfmByte (a + 3)

/-- Bit number `p` of the MFM stream (R89): bit `31 - p mod 32` of word `p / 32`. -/
def Memory.mfmBit (m : Memory) (words p : Nat) : Bool := (m.mfmWord words (p / 32)).getLsbD (31 - p % 32)

/-- The samples at the `n` indices from `i` on, wrapping. -/
def Memory.rdSamples (m : Memory) : Nat → RingIx → List Sample
  | 0, _ => []
  | n + 1, i => m.rdEntry i :: m.rdSamples n (i + 1)

/-- Writes samples into the read ring from index `i` on, wrapping. -/
def Memory.putSamples (m : Memory) : List Sample → RingIx → Memory
  | [], _ => m
  | v :: vs, i => (m.putRd i v).putSamples vs (i + 1)

/-! ## Errors -/

/-- `log(kind)` (R281): one record of the kind and `now` is appended. -/
def logError (k : ErrorKind) (s : State) : State := { s with log := s.log ++ [⟨k, s.now⟩] }

/-- `raise Fatal(reason)`: TAKING THE ONE EXCEPTION of the block. `fault` is set, nothing else changes, and from then
on only INIT is enabled (R286). A fault already set is kept (R39: "once set it is never cleared"). -/
def raiseFatal (r : FatalReason) (s : State) : State := { s with fault := some (s.fault.getD r) }

/-- THE RETURN FROM IT: only INIT brings the block back (R266, R286), to the state of R48. The parameters stay, the
unspecified memory contents are new ones, the inputs and outputs of the model go on (log 19). -/
def initBlock (s : State) : State :=
  { s with toArch := Arch.reset s.cfg (s.mem.epoch + 1), owed := OwedSince.none }

/-! ## Ring states, compare-and-swap, barriers -/

/-- Writes `dma_rd.state`. A transition outside R21 raises `Fatal(BadTransition)` (R286). -/
def setRdState (n : RingState) (s : State) : State :=
  if n = s.rd.state then s
  else if s.rd.state.canBecome n then { s with rd.state := n }
  else raiseFatal .badTransition s

/-- Writes `dma_wr.state`, as `setRdState`. -/
def setWrState (n : RingState) (s : State) : State :=
  if n = s.wr.state then s
  else if s.wr.state.canBecome n then { s with wr.state := n }
  else raiseFatal .badTransition s

/-- `CAS(dma_rd.state, old, new)` (R13, R73): whether it succeeded, and the state after. -/
def casRd (old new : RingState) (s : State) : Bool × State :=
  if s.rd.state = old then (true, setRdState new s) else (false, s)

/-- `CAS(dma_wr.state, old, new)`. -/
def casWr (old new : RingState) (s : State) : Bool × State :=
  if s.wr.state = old then (true, setWrState new s) else (false, s)

/-- `CAS(Step.state, old, new)`. -/
def casStep (old new : StepState) (s : State) : Bool × State :=
  if s.stepper.state = old then (true, { s with stepper.state := new }) else (false, s)

/-- `barrier` (R13): it orders accesses that are already in order in a sequentially consistent model (R68), and
changes nothing. It stands where R69, R70 and R71 put it. -/
def barrier (s : State) : State := s

/-! ## Requests and outputs -/

/-- `pend(irq.rd_dma)`: setting a bit that is set leaves it set (R291). -/
def pendRd (s : State) : State := { s with irq.rdDma := true }

/-- `pend(irq.wr_dma)`. -/
def pendWr (s : State) : State := { s with irq.wrDma := true }

/-- `pend(irq.step_soft)`. -/
def pendStep (s : State) : State := { s with irq.stepSoft := true }

/-- The shadow and the port after `change_outputs(m, v)` while `sel` is the drive-select level (R240). -/
def muxOutputs (m : OutSet) (v sel : Bool) (o : OutputRegs) : OutputRegs :=
  let shadow := if v then o.shadow ||| m else o.shadow &&& ~~~m
  { shadow := shadow, port := if sel then shadow else o.port }

/-- `change_outputs(mask, val)` (R240): one atomic operation, as with every interrupt held off (R74). -/
def setOutputs (m : OutSet) (v : Bool) (s : State) : State := { s with outs := muxOutputs m v s.drive.sel s.outs }

/-! ## The Image: calls and answers (R14, R40) -/

/-- Records a call of the `Image`. -/
def called (c : ImageCall) (s : State) : State := { s with env.calls := s.env.calls ++ [c] }

/-- The answer to a call: the next one the trace assumes (R95), else free value number `k` (R40). -/
def answer {α : Type} (given : List α) (free : Nat → α) (k : Nat) : α := given.head?.getD (free k)

/-- How many free values a draw uses up: none if the trace gave the answer. -/
def drawCost {α : Type} (given : List α) : Nat := if given.isEmpty then 1 else 0

/-- What `Image.open` answers next. -/
def openAnswer (s : State) : Bool := answer s.env.note.opens Config.freeOpen s.env.drawn

/-- `Image.open(slot)`. -/
def askOpen (s : State) : State :=
  called .openImage { s with env.note.opens := s.env.note.opens.tail, env.drawn := s.env.drawn + drawCost s.env.note.opens }

/-- What the mounted image's `writable` is (R268). -/
def writableAnswer (s : State) : Bool := answer s.env.note.writables Config.freeWritable s.env.drawn

/-- Draws `writable`. -/
def askWritable (s : State) : State :=
  { s with env.note.writables := s.env.note.writables.tail, env.drawn := s.env.drawn + drawCost s.env.note.writables }

/-- What the mounted image's `syncword` is (R268). -/
def syncwordAnswer (s : State) : Word := answer s.env.note.syncwords Config.freeSyncword s.env.drawn

/-- Draws `syncword`. -/
def askSyncword (s : State) : State :=
  { s with env.note.syncwords := s.env.note.syncwords.tail, env.drawn := s.env.drawn + drawCost s.env.note.syncwords }

/-- What `Image.seek_track` answers next: busy, and the position after alignment, used only when not busy. -/
def seekAnswer (s : State) : Bool × Word :=
  answer s.env.note.seeks (fun k => (Config.freeBusy k, Config.freePos k)) s.env.drawn

/-- `Image.seek_track(track, pos | NULL)`. -/
def askSeek (track : Track) (pos : Option Int) (s : State) : State :=
  called (.seekTrack track pos)
    { s with env.note.seeks := s.env.note.seeks.tail, env.drawn := s.env.drawn + drawCost s.env.note.seeks }

/-- What `Image.rdata_flux(nr)` answers next: at most `nr` samples. -/
def fluxAnswer (nr : Nat) (s : State) : List Sample :=
  (answer s.env.note.fluxes Config.freeFlux s.env.drawn).take nr

/-- `Image.rdata_flux(nr)`. What it leaves in `write_mfm.buf`, whose upper half `read_mfm` overlays (R29), no rule
says: the model leaves the buffer as it is (DESIGN CHOICE, log 31). -/
def askFlux (nr : Nat) (s : State) : State :=
  called (.rdataFlux nr)
    { s with env.note.fluxes := s.env.note.fluxes.tail, env.drawn := s.env.drawn + drawCost s.env.note.fluxes }

/-- What `Image.read_track` answers next. -/
def readTrackAnswer (s : State) : Bool := answer s.env.note.readTracks Config.freeReadTrack s.env.drawn

/-- `Image.read_track()`. What its staging in `read_mfm` leaves in the upper half of `write_mfm.buf`, which that
buffer overlays (R29, R76), no rule says: the model leaves `write_mfm.buf` as it is (DESIGN CHOICE, log 31). -/
def askReadTrack (s : State) : State :=
  called .readTrack
    { s with env.note.readTracks := s.env.note.readTracks.tail, env.drawn := s.env.drawn + drawCost s.env.note.readTracks }

/-- What `Image.ticks_since_index` answers next. -/
def ticksAnswer (s : State) : Word := answer s.env.note.ticks Config.freeTicks s.env.drawn

/-- `Image.ticks_since_index()`. -/
def askTicks (s : State) : State :=
  called .ticksSinceIndex
    { s with env.note.ticks := s.env.note.ticks.tail, env.drawn := s.env.drawn + drawCost s.env.note.ticks }

/-- Where `Image.write_track` leaves `write_mfm.cons`: it "may advance `write_mfm.cons` to any value not beyond
`write_mfm.prod`" (R40). A draw that is no advance within `prod` leaves it (log 18). -/
def consAnswer (s : State) : Word :=
  let v := answer s.env.note.mfmConses Config.freeMfmCons s.env.drawn
  if s.mfm.cons ≤ v ∧ v ≤ s.mfm.prod then v else s.mfm.cons

/-- `Image.write_track(flush)`. -/
def askWriteTrack (flush : Bool) (s : State) : State :=
  called (.writeTrack flush)
    { s with mfm.cons := consAnswer s, env.note.mfmConses := s.env.note.mfmConses.tail,
             env.drawn := s.env.drawn + drawCost s.env.note.mfmConses }

/-- `Image.file_sync()`. -/
def fileSync (s : State) : State := called .fileSync s

/-- Records what a foreground operation returns. -/
def returning (r : Returned) (s : State) : State := { s with env.ret := some r }

/-! ## The frame of an operation -/

/-- The operation boundary: a forbidden pair of ring states raises `Fatal(EngineOverlap)` (R286), and the marks of
R261 are brought up to date (log 11, log 12). -/
def boundary (s : State) : State :=
  let t := if Overlap s.toArch then raiseFatal .engineOverlap s else s
  { t with owed := t.owed.update t.toArch }

/-- An operation, up to its boundary: with parameters no block has it faults (log 3); with `fault` set it is refused
(R286; log 15); not enabled, it is refused (R94; log 29); else it runs and ends at the boundary. -/
def operation (s : State) (enabled : Prop) [Decidable enabled] (run : Result) : Result :=
  if ¬ s.cfg.Valid then .fault .badParameters
  else if s.fault ≠ none then .refused .blockFaulted
  else if enabled then andThen run (fun t => .next (boundary t))
  else .refused .notEnabled

/-- An operation in the middle of another: run if it is enabled, refused if not. No boundary is passed (R44: "gone
again before the operation ends"). -/
def attempt (s : State) (enabled : Prop) [Decidable enabled] (run : Result) : Result :=
  if s.fault ≠ none then .refused .blockFaulted
  else if enabled then run
  else .refused .notEnabled

/-- A part of FG_HANDLE: run if it is enabled, passed over if not (R270). -/
def ifEnabled (s : State) (enabled : Prop) [Decidable enabled] (run : Result) : Result :=
  if enabled then run else .next s

end Sys2Proof.Machine
end

