-- ==== Sys2Proof/Machine/IndexTimer.lean ====
section
/-! DEFINITION. The index scheduler (43_index.md): IDX_FIRE. -/

namespace Sys2Proof.Machine

/-- The low phase ends (R202): index asserted, `prev_time` is the deadline fired for (R204). -/
def indexAssert (s : State) : State :=
  let s := setOutputs pinIndex true
    { s with index.active := true, index.prevTime := s.index.timer.deadline }
  { s with index.timer := { armed := true, deadline := s.index.prevTime + indexHigh s.cfg } }

/-- The high phase ends (R202): index deasserted; while a read is Active the timer is left for `index_resync` (R203). -/
def indexDeassert (s : State) : State :=
  let s := setOutputs pinIndex false { s with index.active := false }
  if s.rd.state = .active then s
  else { s with index.timer := { armed := true, deadline := s.index.prevTime + rev s.cfg } }

/-- IDX_FIRE (R202). -/
def idxFire (s : State) : State :=
  let s := { s with index.timer.armed := false, owed.idxFire := none }
  if s.index.active then indexDeassert s else indexAssert s

/-- IDX_FIRE is enabled when the index timer is due (R201, R202). -/
abbrev IdxFireEnabled (a : Arch) : Prop := IdxFireOwed a

/-- `IDX_FIRE` (R202). -/
def execIdxFire (s : State) : Result := operation s (IdxFireEnabled s.toArch) (.next (idxFire s))

end Sys2Proof.Machine
end

