-- ==== Sys2Proof/Machine/OutputMux.lean ====
section
/-! DEFINITION. Drive select and the status outputs (44_step_status.md section 3): SEL, CHANGE_OUTPUTS. -/

namespace Sys2Proof.Machine

/-- SEL (R242): selecting replays the shadow to the port, deselecting releases every status output (D34). -/
def driveSelect (b : Bool) (s : State) : State :=
  { s with drive.sel := b, outs.port := if b then s.outs.shadow else 0 }

/-- `SEL s` (R242): always enabled. -/
def execSel (b : Bool) (s : State) : Result := operation s True (.next (driveSelect b s))

/-- `CHANGE_OUTPUTS m, v` (R240): always enabled. -/
def execChangeOutputs (m : OutSet) (v : Bool) (s : State) : Result := operation s True (.next (setOutputs m v s))

end Sys2Proof.Machine
end

