-- ==== Sys2Proof/Machine/Stepper.lean ====
section
/-! DEFINITION. The step machine and side select (44_step_status.md sections 1 and 2): STEP, STEP_SOFTIRQ, STEP_FIRE,
SIDE. -/

namespace Sys2Proof.Machine

/-- STEP (R221): unheard it does nothing. -/
def stepPulse (d : Bool) (s : State) : State :=
  if ¬ InputsHeard s then s
  else pendStep { s with stepper.inward := d, stepper.start := s.now, stepper.state := .started }

/-- STEP_SOFTIRQ (R223): a pending step timer is cancelled, and armed again at the pulse's start + `STEP_LATCH`. -/
def stepSoftirq (s : State) : State :=
  let s := { s with irq.stepSoft := false, owed.stepSoftirq := none }
  if s.stepper.state ≠ .started then s
  else
    let s := { s with stepper.timer.armed := false, stepper.state := .latched }
    { s with stepper.timer := { armed := true, deadline := s.stepper.start + stepLatch s.cfg } }

/-- `step_cyl(cyl, inward)` (R228): outward the clamp at 84 (C5) and the floor at 0 (C9), inward the ceiling at 255
(D10). -/
def stepCyl (cyl : BitVec 8) (inward : Bool) : BitVec 8 :=
  if inward then (if cyl < 255#8 then cyl + 1 else cyl)
  else
    let c := if 84#8 ≤ cyl then 84#8 else cyl
    if 0#8 < c then c - 1 else c

/-- `latched_fire()` (R226): click, track update, track-0 output (R229), settle. The cylinder is written before the
state (R70). -/
def latchedFire (s : State) : State :=
  let s := { s with clicks := s.clicks + 1, drive.cyl := stepCyl s.drive.cyl s.stepper.inward }
  let s := barrier (setOutputs pinTrk0 (decide (s.drive.cyl = 0)) s)
  { s with stepper := { s.stepper with
      timer := { armed := true, deadline := s.stepper.start + settle s.cfg }, state := .settling } }

/-- `settling_fire()` (R227): the CAS's result is ignored. -/
def settlingFire (s : State) : State := (casStep .settling .idle s).2

/-- STEP_FIRE (R225): in Started or Idle nothing more (D32). -/
def stepFire (s : State) : State :=
  let s := { s with stepper.timer.armed := false, owed.stepFire := none }
  match s.stepper.state with
  | .latched => latchedFire s
  | .settling => settlingFire s
  | .started => s
  | .idle => s

/-- SIDE (R232): the head mirrors the pin, whatever the enables are. -/
def sideSelect (h : Bool) (s : State) : State := { s with drive.head := h }

/-- STEP_SOFTIRQ is enabled while its request is pending (R223). -/
abbrev StepSoftirqEnabled (a : Arch) : Prop := StepSoftirqOwed a

/-- STEP_FIRE is enabled when the step timer is due (R224, R225). -/
abbrev StepFireEnabled (a : Arch) : Prop := StepFireOwed a

/-- `STEP d` (R221): always enabled. -/
def execStep (d : Bool) (s : State) : Result := operation s True (.next (stepPulse d s))

/-- `STEP_SOFTIRQ` (R223). -/
def execStepSoftirq (s : State) : Result := operation s (StepSoftirqEnabled s.toArch) (.next (stepSoftirq s))

/-- `STEP_FIRE` (R225). -/
def execStepFire (s : State) : Result := operation s (StepFireEnabled s.toArch) (.next (stepFire s))

/-- `SIDE h` (R232): always enabled. -/
def execSide (h : Bool) (s : State) : Result := operation s True (.next (sideSelect h s))

end Sys2Proof.Machine
end

