-- ==== Sys2Proof/Machine/Beats.lean ====
section
/-! DEFINITION. The DMA beats and the capture (40_ring_dma.md): RD_BEAT, WR_BEAT, WDATA_EDGE. -/

namespace Sys2Proof.Machine

/-- The channel after one beat: the count goes down, is reloaded with `CAP` in the beat that would make it 0 (R102,
R105), the request is served, and the half or full transfer sets its flag (R25, R28, R67), which no rule clears
(log 20). -/
def DmaChannel.beat (d : DmaChannel) : DmaChannel :=
  { d with
    cndtr := if FullTransfer (d.cndtr - 1) then capCount else d.cndtr - 1
    req := false
    ht := d.ht || decide (HalfTransfer (d.cndtr - 1))
    tc := d.tc || decide (FullTransfer (d.cndtr - 1)) }

/-- The beat sets HT or TC, and so raises the channel's request (R25, R28). -/
abbrev DmaChannel.BeatPends (d : DmaChannel) : Prop := HalfTransfer (d.cndtr - 1) ∨ FullTransfer (d.cndtr - 1)

/-- The read beat with sample `v` (R105). -/
def rdBeatWith (v : Sample) (s : State) : State :=
  let t := { s with rdTim.arr := v, rdDma := s.rdDma.beat }
  if s.rdDma.BeatPends then pendRd t else t

/-- RD_BEAT (R105): `ARR` is loaded from the ring at the DMA position; a sample of 0 refuses the trace (U3). -/
def rdBeat (s : State) : Result :=
  let v := s.mem.rdEntry (rdPos s.toArch)
  if v = 0 then .refused .zeroFluxSample else .next (rdBeatWith v s)

/-- The update event of the PWM timer requests a beat, and the beat runs in the same tick (R106). -/
def requestRdBeat (s : State) : Result := rdBeat { s with rdDma.req := true }

/-- WR_BEAT (R110): `CCR1` goes to the ring at the DMA position. -/
def wrBeat (s : State) : State :=
  let t := { s with mem := s.mem.putWr (wrPos s.toArch) s.wrTim.ccr1, wrDma := s.wrDma.beat }
  if s.wrDma.BeatPends then pendWr t else t

/-- A capture requests a beat, and the beat runs in the same operation (R109). -/
def requestWrBeat (s : State) : State := wrBeat { s with wrDma.req := true }

/-- WDATA_EDGE (R109): the edge is captured while the timer runs with capture enabled, and the beat made while the
channel is enabled; else the edge is lost. -/
def wdataEdge (s : State) : State :=
  if s.wrTim.en = true ∧ s.wrTim.cc1e = true then
    let t := { s with wrTim.ccr1 := s.wrTim.cnt }
    if s.wrDma.en = true then requestWrBeat t else t
  else s

/-- RD_BEAT alone is enabled when timer and channel are enabled and a beat is requested ("an update event is due",
R105; log 9). -/
abbrev RdBeatEnabled (a : Arch) : Prop := a.rdTim.en = true ∧ a.rdDma.en = true ∧ a.rdDma.req = true

/-- WR_BEAT alone is enabled when the channel is enabled and a capture has requested a beat ("only inside WDATA_EDGE",
R110; log 9). -/
abbrev WrBeatEnabled (a : Arch) : Prop := a.wrDma.en = true ∧ a.wrDma.req = true

/-- `RD_BEAT` (R105). -/
def execRdBeat (s : State) : Result := operation s (RdBeatEnabled s.toArch) (rdBeat s)

/-- `WR_BEAT` (R110). -/
def execWrBeat (s : State) : Result := operation s (WrBeatEnabled s.toArch) (.next (wrBeat s))

/-- `WDATA_EDGE` (R109): always enabled. -/
def execWdataEdge (s : State) : Result := operation s True (.next (wdataEdge s))

end Sys2Proof.Machine
end

