-- ==== Sys2Proof/Machine/ReadEngine.lean ====
section
/-! DEFINITION. The read engine (41_read_engine.md) but for RD_SEEK, which stands in Seek.lean: RD_SERVICE,
RD_PREFILL, RD_START, RD_REPLENISH, RD_STOP, RD_FINISH, with the fill primitive and the index resynchronisation. -/

namespace Sys2Proof.Machine

/-- What every foreground read operation needs: no fault, an image, no busy-wait (R130; log 22). -/
abbrev ForegroundFree (a : Arch) : Prop := a.fault = none ∧ a.image.loaded = true ∧ a.fgWait = none

/-- `nr` of `rd_fill(c)` (R137): up to the wrap, and up to one entry short of the DMA position. -/
def fillRequest (c prod : RingIx) : Nat := min (Config.cap - prod.toNat) (ringDist (c - 1) prod)

/-- `rd_fill(c)` (R137): asks for `nr` samples and queues those the image gives. -/
def rdFill (c : RingIx) (s : State) : State :=
  let nr := fillRequest c s.rd.prod
  let got := fluxAnswer nr s
  let t := askFlux nr s
  { t with mem := s.mem.putSamples got s.rd.prod, rd.prod := s.rd.prod + BitVec.ofNat 10 got.length }

/-- The number of ticks until the image's index mark leaves the pin, `ticks` of R141: what is left of the playing
sample, plus the queued samples, less the image's offset `t`. -/
def resyncTicks (a : Arch) (t : Word) : Int :=
  let c := rdPos a
  let left : Int := (a.rdTim.arr.toNat : Int) - a.rdTim.cnt.toNat
  let queued := ((a.mem.rdSamples (ringDist a.rd.prod c) c).map BitVec.toNat).sum
  left + queued - t.toNat

/-- `index_resync(t)` (R141). In the atomic model the snapshot loop runs once. -/
def indexResync (t : Word) (s : State) : State :=
  { s with index.timer := { armed := true, deadline := s.now + resyncTicks s.toArch t } }

/-- RD_SERVICE while the engine is Active (R136), its request cleared. -/
def rdServiceActive (s : State) : State :=
  let c := rdPos s.toArch
  let s := if UnderrunAt s.toArch c then logError .underrun s else s
  let s := { s with rd.cons := c }
  let nr := fillRequest c s.rd.prod
  let short := (fluxAnswer nr s).length < nr
  let s := rdFill c s
  let s := if short then { s with rd.kick := true } else s
  let t := ticksAnswer s
  let s := askTicks s
  let s := if t < s.rd.lastTsi then indexResync t s else s
  { s with rd.lastTsi := t }

/-- RD_SERVICE (R136): outside Active it returns at once (D43). -/
def rdService (s : State) : State :=
  let s := { s with irq.rdDma := false, owed.rdService := none }
  if s.rd.state = .active then rdServiceActive s else s

/-- RD_SERVICE is enabled while its request is pending and DMA interrupts are (R136). -/
abbrev RdServiceEnabled (a : Arch) : Prop := RdServiceOwed a

/-- RD_PREFILL is enabled in Starting, before the ring is half full or while more than `YIELD` remains (R133). -/
abbrev RdPrefillEnabled (s : State) : Prop :=
  ForegroundFree s.toArch ∧ s.rd.state = .starting ∧
    (s.rd.prod.toNat < 512 ∨ sdiff s.rd.syncTime s.now > (yieldTicks s.cfg : Int))

/-- RD_PREFILL (R133): the DMA has not started, its position is 0. -/
def rdPrefill (s : State) : State := rdFill 0 (askReadTrack s)

/-- RD_START is enabled at the end of a busy-wait, or in Starting with half a ring and no more than `YIELD` to go
(R134). -/
abbrev RdStartEnabled (s : State) : Prop :=
  s.fault = none ∧ s.image.loaded = true ∧
    (((s.rd.state = .starting ∨ s.rd.state = .stopping) ∧ waitOver s.toArch = true) ∨
      (s.rd.state = .starting ∧ s.fgWait = none ∧ 512 ≤ s.rd.prod.toNat ∧
        sdiff s.rd.syncTime s.now ≤ (yieldTicks s.cfg : Int)))

/-- RD_START's last part (R134): the wait is over or not needed; the CAS may lose to the stop path. -/
def rdStartNow (s : State) : Result :=
  let s := { s with fgWait := none, owed.rdStart := none }
  let (won, s) := casRd .starting .active s
  if won then
    requestRdBeat { s with pin := .af, rdDma.en := true, rdTim.cnt := 0, rdTim.en := true }
  else .next s

/-- RD_START (R134): with `SLACK` or more to go it begins the busy-wait (C3), else it starts. -/
def rdStart (s : State) : Result :=
  if s.fgWait = none ∧ (slack s.cfg : Int) ≤ sdiff s.rd.syncTime s.now then
    .next { s with fgWait := some s.rd.syncTime }
  else rdStartNow s

/-- RD_REPLENISH is enabled in Active outside a busy-wait (R140). -/
abbrev RdReplenishEnabled (a : Arch) : Prop := ForegroundFree a ∧ a.rd.state = .active

/-- RD_REPLENISH (R140). -/
def rdReplenish (s : State) : State :=
  let did := readTrackAnswer s
  let s := askReadTrack s
  if did = true ∧ s.rd.kick = true then pendRd { s with rd.kick := false } else s

/-- RD_STOP, `rdata_stop` (R143). -/
def rdStop (s : State) : State :=
  if s.rd.state = .inactive ∨ s.rd.state = .stopping then s
  else
    let t := setRdState .stopping s
    let t := { t with rdDma.en := false, rdTim.en := false, pin := .gpoIdle }
    if s.index.active then t
    else { t with index.timer := { armed := true, deadline := s.index.prevTime + rev s.cfg } }

/-- RD_STOP as a foreground operation is enabled under the stop condition (R142, R143). -/
abbrev RdStopEnabled (a : Arch) : Prop := ForegroundFree a ∧ ReadRunning a ∧ StopCondition a

/-- RD_FINISH is enabled in Stopping outside a busy-wait (R145). -/
abbrev RdFinishEnabled (a : Arch) : Prop := ForegroundFree a ∧ a.rd.state = .stopping

/-- RD_FINISH (R145): the ring is reset to empty (R113). -/
def rdFinish (s : State) : State :=
  setRdState .inactive { s with rd.cons := 0, rd.prod := 0, rdDma.cndtr := capCount, rd.kick := false }

/-- `RD_SERVICE` (R136). -/
def execRdService (s : State) : Result := operation s (RdServiceEnabled s.toArch) (.next (rdService s))

/-- `RD_PREFILL` (R133). -/
def execRdPrefill (s : State) : Result := operation s (RdPrefillEnabled s) (.next (rdPrefill s))

/-- `RD_START` (R134). -/
def execRdStart (s : State) : Result := operation s (RdStartEnabled s) (rdStart s)

/-- `RD_REPLENISH` (R140). -/
def execRdReplenish (s : State) : Result := operation s (RdReplenishEnabled s.toArch) (.next (rdReplenish s))

/-- `RD_STOP` (R143). -/
def execRdStop (s : State) : Result := operation s (RdStopEnabled s.toArch) (.next (rdStop s))

/-- `RD_FINISH` (R145). -/
def execRdFinish (s : State) : Result := operation s (RdFinishEnabled s.toArch) (.next (rdFinish s))

end Sys2Proof.Machine
end

