-- ==== Sys2Proof/Machine/WriteEngine.lean ====
section
/-! DEFINITION. The write engine and the MFM decoder (42_write_engine.md) but for WR_ACTIVATE, which stands in
Seek.lean: WGATE 1, WGATE 0, WR_SERVICE, WR_PUMP, WR_DRAIN. -/

namespace Sys2Proof.Machine

/-! ## The MFM decoder -/

/-- The decoder at work: the accumulator, the bit position (32 bits that wrap, log 17), the memory (R165). -/
structure Decoder where
  acc : Word
  bp : Word
  mem : Memory
  deriving DecidableEq, Repr

/-- `emit(b)` (R167): a full word is committed when its 32nd bit arrives. `words` is `MFM_WORDS`. -/
def emit (words : Nat) (b : Bool) (d : Decoder) : Decoder :=
  let acc := d.acc <<< 1 ||| (BitVec.ofBool b).setWidth 32
  let bp := d.bp + 1
  { acc := acc, bp := bp
    mem := if bp % 32#32 = 0 then d.mem.putMfm words (bp / 32#32 - 1).toNat acc else d.mem }

/-- The inner loop of R165: while `curr > CELL_THRESH`, emit a 0 and take `CELL` off. The first argument is fuel;
`curr` itself is enough, since `CELL > 0`. -/
def emitZeros (c : Config) : Nat → Nat → Decoder → Decoder
  | 0, _, d => d
  | fuel + 1, curr, d =>
    if cellThresh c < curr then emitZeros c fuel (curr - cell c) (emit c.mfmWords false d) else d

/-- Word alignment (R168): on a match of all 32 bits the bit position goes down to a multiple of 32. -/
def alignSync (syncword : Word) (d : Decoder) : Decoder :=
  if d.acc = syncword then { d with bp := d.bp &&& ~~~31#32 } else d

/-- One sample (R165, R166): the zeros of the interval `curr`, a one, the alignment. -/
def decodeInterval (c : Config) (syncword : Word) (curr : Sample) (d : Decoder) : Decoder :=
  alignSync syncword (emit c.mfmWords true (emitZeros c curr.toNat curr.toNat d))

/-- The outer loop of R165 over the new samples, `prev` being the sample before them. -/
def decodeSamples (c : Config) (syncword : Word) : List Sample → Sample → Decoder → Decoder
  | [], _, d => d
  | next :: rest, prev, d => decodeSamples c syncword rest next (decodeInterval c syncword (next - prev) d)

/-- The partial word (R169): the `bp mod 32` newest bits go to the top of word `bp / 32`, zeros below. -/
def commitPartial (words : Nat) (d : Decoder) : Decoder :=
  if d.bp % 32#32 = 0 then d
  else { d with mem := d.mem.putMfm words (d.bp / 32#32).toNat (d.acc <<< (32 - (d.bp % 32#32).toNat)) }

/-- The samples of the write ring at the `n` indices from `i` on, wrapping. -/
def Memory.wrSamples (m : Memory) : Nat → RingIx → List Sample
  | 0, _ => []
  | n + 1, i => m.wrEntry i :: m.wrSamples n (i + 1)

/-- The samples not yet decoded: from `cons` up to the DMA position (R103). -/
def newSamples (a : Arch) : List Sample := a.mem.wrSamples (ringDist (wrPos a) a.wr.cons) a.wr.cons

/-- The decoder after all new samples and the partial word. -/
def decodeNew (s : State) : Decoder :=
  commitPartial s.cfg.mfmWords
    (decodeSamples s.cfg s.image.syncword (newSamples s.toArch) s.wr.prevSample
      { acc := s.wr.mfm, bp := s.mfm.prod, mem := s.mem })

/-- WR_SERVICE while the engine is not Inactive (R165), its request cleared. -/
def wrServiceDecode (s : State) : State :=
  let d := decodeNew s
  { s with
    mem := d.mem
    wr := { s.wr with cons := wrPos s.toArch, prevSample := (newSamples s.toArch).getLastD s.wr.prevSample, mfm := d.acc }
    mfm.prod := d.bp }

/-- WR_SERVICE (R165): in Inactive it returns at once (D29). -/
def wrService (s : State) : State :=
  let s := { s with irq.wrDma := false, owed.wrService := none }
  if s.wr.state = .inactive then s else wrServiceDecode s

/-- WR_SERVICE is enabled while its request is pending and DMA interrupts are (R165). -/
abbrev WrServiceEnabled (a : Arch) : Prop := WrServiceOwed a

/-! ## The write gate -/

/-- WGATE 1 heard with the write engine Inactive (R161): the read is stopped, capture starts; `write_start` is 32 bits
(log 26). -/
def wdataStart (s : State) : State :=
  let s := setWrState .starting (rdStop s)
  { s with
    wr := { s.wr with cons := 0, prevSample := 0, mfm := 0 }
    wrDma := { s.wrDma with cndtr := capCount, en := true }
    wrTim := { s.wrTim with cc1e := true, cnt := 0, en := true }
    image.writeStart := BitVec.ofInt 32 (sdiff s.now s.index.prevTime % rev s.cfg) }

/-- WGATE 1, `wdata_start` (R161): unheard it does nothing; a second assertion is a missed write (R164). The 100 us
delay changes no state (R163). -/
def wgate1 (s : State) : State :=
  if ¬ InputsHeard s ∨ s.image.loaded = false then s
  else if s.wr.state ≠ .inactive then logError .missedWrite s
  else wdataStart s

/-- WGATE 0, `wdata_stop` (R175): never gated by drive-select. -/
def wgate0 (s : State) : State :=
  if s.irq.extiEn = false then s
  else if s.wr.state = .inactive ∨ s.wr.state = .stopping then s
  else
    let s := setWrState .stopping s
    pendWr { s with wrTim := { s.wrTim with en := false, cc1e := false }, wrDma.en := false }

/-! ## Foreground -/

/-- WR_PUMP is enabled in Active outside a busy-wait (R173). -/
abbrev WrPumpEnabled (a : Arch) : Prop := a.fault = none ∧ a.wr.state = .active ∧ a.fgWait = none

/-- WR_PUMP (R173). -/
def wrPump (s : State) : State := askWriteTrack false s

/-- WR_DRAIN is enabled in Stopping once the read engine is Inactive (R177). -/
abbrev WrDrainEnabled (a : Arch) : Prop :=
  a.fault = none ∧ a.wr.state = .stopping ∧ a.rd.state = .inactive ∧ a.fgWait = none

/-- WR_DRAIN (R177): the snapshot of the DMA position comes before the call (R71); the call that finds the ring empty
flushes and finishes. R23's table names WR_DRAIN as a writer of `dma_wr.cons`, R177's pseudocode has no such write:
`cons` is kept (DESIGN CHOICE, log 30). -/
def wrDrain (s : State) : State :=
  let p := wrPos s.toArch
  let c := s.wr.cons
  let s := askWriteTrack (decide (c = p)) (barrier s)
  if c ≠ p then returning .again s
  else setWrState .inactive (fileSync { s with mfm := { prod := 0, cons := 0 }, data := { prod := 0, cons := 0 } })

/-- `WGATE 1` (R161): always enabled. -/
def execWgate1 (s : State) : Result := operation s True (.next (wgate1 s))

/-- `WGATE 0` (R175): always enabled. -/
def execWgate0 (s : State) : Result := operation s True (.next (wgate0 s))

/-- `WR_SERVICE` (R165). -/
def execWrService (s : State) : Result := operation s (WrServiceEnabled s.toArch) (.next (wrService s))

/-- `WR_PUMP` (R173). -/
def execWrPump (s : State) : Result := operation s (WrPumpEnabled s.toArch) (.next (wrPump s))

/-- `WR_DRAIN` (R177). -/
def execWrDrain (s : State) : Result := operation s (WrDrainEnabled s.toArch) (.next (wrDrain s))

end Sys2Proof.Machine
end

