-- ==== Sys2Proof/Machine/Seek.lean ====
section
/-! DEFINITION. The two operations with preemption points, RD_SEEK (R131) and WR_ACTIVATE (R171), and what may run
there: any `Host`, `Isr` or timer operation that is enabled (R16, R131; log 8). -/

namespace Sys2Proof.Machine

/-- An operation at a preemption point: of a higher execution context, and enabled (R16, R300). -/
def runPreempting (i : Instr) (s : State) : Result :=
  match i with
  | .step d => attempt s True (.next (stepPulse d s))
  | .side h => attempt s True (.next (sideSelect h s))
  | .sel b => attempt s True (.next (driveSelect b s))
  | .wgate1 => attempt s True (.next (wgate1 s))
  | .wgate0 => attempt s True (.next (wgate0 s))
  | .wdataEdge => attempt s True (.next (wdataEdge s))
  | .idxFire => attempt s (IdxFireEnabled s.toArch) (.next (idxFire s))
  | .stepFire => attempt s (StepFireEnabled s.toArch) (.next (stepFire s))
  | .rdService => attempt s (RdServiceEnabled s.toArch) (.next (rdService s))
  | .wrService => attempt s (WrServiceEnabled s.toArch) (.next (wrService s))
  | .stepSoftirq => attempt s (StepSoftirqEnabled s.toArch) (.next (stepSoftirq s))
  | .tick _ | .rdBeat | .wrBeat | .fgHandle | .rdSeek | .rdPrefill | .rdStart | .rdReplenish | .rdStop | .rdFinish
  | .wrActivate | .wrPump | .wrDrain | .init | .mount | .cancel | .changeOutputs _ _ => .refused .notPreempting

/-- The operations at a preemption point, in the order the trace gives them. -/
def preempt : List Instr → State → Result
  | [], s => .next s
  | i :: rest, s => andThen (runPreempting i s) (preempt rest)

/-! ## RD_SEEK -/

/-- The seek-ahead window of R132: 10 ms, or the rest of the settle time if that is more (D12). -/
def seekAheadOf (s : State) : Int :=
  if s.stepper.state = .settling then
    max (seekAhead s.cfg : Int) (sdiff (s.stepper.start + settle s.cfg) s.now)
  else seekAhead s.cfg

/-- `sync_position(index_time)` (R132). -/
def syncPosition (indexTime : Int) (s : State) : Int :=
  (sdiff s.now indexTime + seekAheadOf s) % (rev s.cfg : Int)

/-- The sync time for the position the image gave (R131): one revolution later if it is already past (D12). -/
def syncTimeFor (indexTime : Int) (pos : Word) (s : State) : Int :=
  let t := indexTime + pos.toNat
  if sdiff t s.now < 0 then t + rev s.cfg else t

/-- RD_SEEK commits: the fields are written and the state goes Starting (R131). -/
def seekCommit (indexTime : Int) (track : Track) (pos : Word) (s : State) : State :=
  setRdState .starting { s with rd.syncTime := syncTimeFor indexTime pos s, rd.track := track, rd.lastTsi := 0 }

/-- The re-check after P2 (R131): a step, a new track or a write sends the engine straight to Stopping. -/
def seekRecheck (track : Track) (s : State) : State :=
  if StepActive s.toArch ∨ trackOf s.drive ≠ track ∨ s.wr.state ≠ .inactive then setRdState .stopping s else s

/-- RD_SEEK is enabled with both engines Inactive and no step active (R131). -/
abbrev RdSeekEnabled (a : Arch) : Prop :=
  ForegroundFree a ∧ a.rd.state = .inactive ∧ a.wr.state = .inactive ∧ ¬ StepActive a

/-- RD_SEEK (R131): the seek with P1, and unless busy the commit, the barrier with P2 (R69), the re-check. -/
def rdSeek (s : State) : Result :=
  let indexTime := s.index.prevTime
  let track := trackOf s.drive
  let reply := seekAnswer s
  andThen (preempt s.env.note.atP1 (askSeek track (some (syncPosition indexTime s)) s)) fun s1 =>
    if reply.1 then .next (returning .retry s1)
    else
      andThen (preempt s1.env.note.atP2 (barrier (seekCommit indexTime track reply.2 s1))) fun s2 =>
        .next (returning .again (seekRecheck track s2))

/-! ## WR_ACTIVATE -/

/-- WR_ACTIVATE is enabled in Starting once the read engine is Inactive (R171). -/
abbrev WrActivateEnabled (a : Arch) : Prop :=
  a.fault = none ∧ a.wr.state = .starting ∧ a.rd.state = .inactive ∧ a.fgWait = none

/-- WR_ACTIVATE (R171): the assertion, the seek without a position hint with P1, the CAS whose result is ignored. The
assertion is reached only through FG_HANDLE, from a state that breaks R44 (log 13). -/
def wrActivate (s : State) : Result :=
  if ReadRunning s.toArch then .next (raiseFatal .engineOverlap s)
  else
    andThen (preempt s.env.note.atP1 (askSeek (trackOf s.drive) none s)) fun s1 =>
      if (seekAnswer s).1 then .next (returning .retry s1) else .next (casWr .starting .active s1).2

/-- `RD_SEEK` (R131). -/
def execRdSeek (s : State) : Result := operation s (RdSeekEnabled s.toArch) (rdSeek s)

/-- `WR_ACTIVATE` (R171). -/
def execWrActivate (s : State) : Result := operation s (WrActivateEnabled s.toArch) (wrActivate s)

end Sys2Proof.Machine
end

