-- ==== Sys2Proof/Machine/Control.lean ====
section
/-! DEFINITION. Clock, foreground dispatch, reset, mount and eject (45_control.md): TICK, FG_HANDLE, INIT, MOUNT,
CANCEL. -/

namespace Sys2Proof.Machine

/-! ## TICK -/

/-- `rd_tim` for one tick (R106): the counter goes up; at `ARR` the update event clears it and requests a beat. -/
def tickRdTim (s : State) : Result :=
  if s.rdTim.en = false then .next s
  else if s.rdTim.cnt + 1 = s.rdTim.arr then
    let s := { s with rdTim.cnt := 0 }
    if s.rdDma.en = true then requestRdBeat s else .next s
  else .next { s with rdTim.cnt := s.rdTim.cnt + 1 }

/-- `wr_tim` for one tick (R111): free-running over 16 bits. -/
def tickWrTim (s : State) : State :=
  if s.wrTim.en then { s with wrTim.cnt := s.wrTim.cnt + 1 } else s

/-- The software timers that fall due, inside the tick when `MAX_IRQ_LATENCY = 0` (R262). -/
def tickTimers (s : State) : State :=
  if s.cfg.maxIrqLatency = 0 then
    let s := if IdxFireOwed s.toArch then idxFire s else s
    if StepFireOwed s.toArch then stepFire s else s
  else s

/-- What `TICK 1` does (R262). -/
def tickOne (s : State) : Result :=
  andThen (tickRdTim { s with now := s.now + 1 }) fun t => .next (tickTimers (tickWrTim t))

/-- `TICK 1` where R261 allows it, up to its boundary (R262). -/
def tickStep (s : State) : Result :=
  if s.fault ≠ none then .refused .blockFaulted
  else if tickAllowed s then andThen (tickOne s) fun t => .next (boundary t)
  else .refused .handlerOwed

/-- `n` times `TICK 1`, as R262 words it. `tickMany` computes the same in fewer steps (Laws/Tick.lean). -/
def tickTimes : Nat → State → Result
  | 0, s => .next s
  | n + 1, s => andThen (tickStep s) (tickTimes n)

/-- How many ticks a software timer lets pass before the tick that makes it due: `n` at most. -/
def timerGap (n : Nat) (t : SoftTimer) (now : Nat) : Nat :=
  if t.armed then min n (t.deadline - now - 1).toNat else n

/-- How many ticks the PWM timer lets pass before the tick of its next update event: `n` at most. -/
def updateGap (n : Nat) (t : ReadTimer) : Nat :=
  if t.en then min n (t.arr - t.cnt - 1).toNat else n

/-- How many ticks a busy-wait lets pass before the tick that ends it: `n` at most. -/
def waitGap (n : Nat) (w : Option Int) (now : Nat) : Nat :=
  match w with
  | none => n
  | some d => min n (d - now - 1).toNat

/-- How many of the next `n` ticks only count: nothing is owed, and no update event, deadline or end of a wait comes. -/
def quietSpan (n : Nat) (s : State) : Nat :=
  if s.fault ≠ none ∨ Overlap s.toArch ∨ AnyOwed s.toArch then 0
  else min (updateGap n s.rdTim)
    (min (timerGap n s.index.timer s.now) (min (timerGap n s.stepper.timer s.now) (waitGap n s.fgWait s.now)))

/-- `k` ticks that only count. -/
def tickQuiet (k : Nat) (s : State) : State :=
  if k = 0 then s
  else
    { s with
      now := s.now + k
      rdTim.cnt := if s.rdTim.en then s.rdTim.cnt + BitVec.ofNat 16 k else s.rdTim.cnt
      wrTim.cnt := if s.wrTim.en then s.wrTim.cnt + BitVec.ofNat 16 k else s.wrTim.cnt
      owed := OwedSince.none }

/-- `TICK n` (R262): quiet stretches are counted at once, every other tick is taken by itself. The first argument is
fuel, `n` is enough. -/
def tickMany : Nat → Nat → State → Result
  | 0, _, s => .next s
  | _ + 1, 0, s => .next s
  | fuel + 1, n + 1, s =>
    andThen (tickStep (tickQuiet (quietSpan n s) s)) (tickMany fuel (n - quietSpan n s))

/-- `TICK n` (R262): each inner `TICK 1` has its own enabling condition; one that fails refuses the whole word. -/
def execTick (n : Nat) (s : State) : Result := operation s True (tickMany n n s)

/-! ## FG_HANDLE -/

/-- Part 2 of FG_HANDLE, the write engine (R270). The case Starting runs WR_ACTIVATE's assertion too (log 13). -/
def fgWrite (s : State) : Result :=
  match s.wr.state with
  | .starting => ifEnabled s (s.fault = none ∧ s.fgWait = none ∧ s.rd.state ≠ .stopping) (wrActivate s)
  | .active => ifEnabled s (WrPumpEnabled s.toArch) (.next (wrPump s))
  | .stopping => ifEnabled s (WrDrainEnabled s.toArch) (.next (wrDrain s))
  | .inactive => .next s

/-- Part 3 of FG_HANDLE, the read engine (R270). -/
def fgRead (s : State) : Result :=
  match s.rd.state with
  | .inactive => ifEnabled s (RdSeekEnabled s.toArch) (rdSeek s)
  | .starting =>
    if StopCondition s.toArch then ifEnabled s (RdStopEnabled s.toArch) (.next (rdStop s))
    else
      andThen (ifEnabled s (RdPrefillEnabled s) (.next (rdPrefill s))) fun t =>
        ifEnabled t (RdStartEnabled t) (rdStart t)
  | .active =>
    if StopCondition s.toArch then ifEnabled s (RdStopEnabled s.toArch) (.next (rdStop s))
    else ifEnabled s (RdReplenishEnabled s.toArch) (.next (rdReplenish s))
  | .stopping => .next s

/-- What FG_HANDLE returns at its end (R270, R271). -/
def fgReturn (s : State) : State :=
  returning (.reenter (decide (s.rd.state ≠ .inactive ∨ s.wr.state ≠ .inactive))) s

/-- The three parts of FG_HANDLE in their fixed order (R270, D31). -/
def fgParts (s : State) : Result :=
  andThen (ifEnabled s (RdFinishEnabled s.toArch) (.next (rdFinish s))) fun s1 =>
    andThen (fgWrite s1) fun s2 =>
      andThen (fgRead s2) fun s3 => .next (fgReturn s3)

/-- FG_HANDLE (R270): nothing mounted, nothing to do; inside a busy-wait only its end (log 28). -/
def fgHandle (s : State) : Result :=
  if s.image.loaded = false then .next (returning (.reenter false) s)
  else if s.fgWait = none then fgParts s
  else if waitOver s.toArch then andThen (ifEnabled s (RdStartEnabled s) (rdStart s)) fgParts
  else .next (returning (.reenter true) s)

/-- `FG_HANDLE` (R270): enabled while there is no fault. -/
def execFgHandle (s : State) : Result := operation s True (fgHandle s)

/-! ## INIT, MOUNT, CANCEL -/

/-- `INIT` (R266): always enabled, a faulted block too (R286). -/
def execInit (s : State) : Result :=
  if s.cfg.Valid then .next (initBlock s) else .fault .badParameters

/-- MOUNT after the image opened (R268): the fields of the image, empty rings, the index free run from now (R207), the
outputs, the enables. -/
def mounted (s : State) : State :=
  let s := { s with image.loaded := true, image.writable := writableAnswer s }
  let s := askWritable s
  let s := askSyncword { s with image.syncword := syncwordAnswer s }
  let s := { s with
    rd := { s.rd with cons := 0, prod := 0, kick := false }
    rdDma.cndtr := capCount
    wr := { s.wr with cons := 0, prevSample := 0, mfm := 0 }
    wrDma.cndtr := capCount
    mfm := { prod := 0, cons := 0 }
    data := { prod := 0, cons := 0 }
    index := { active := false, prevTime := s.now, timer := { armed := true, deadline := s.now + rev s.cfg } } }
  let s := setOutputs pinRdy true s
  let s := if s.image.writable then setOutputs pinWrprot false s else s
  { s with irq.extiEn := true, irq.dmaEn := true }

/-- MOUNT (R268): an open failure leaves the drive empty (R269). -/
def mountImage (s : State) : State := if openAnswer s then mounted (askOpen s) else askOpen s

/-- MOUNT is enabled with no image loaded (R268). -/
abbrev MountEnabled (a : Arch) : Prop := a.image.loaded = false

/-- `MOUNT` (R268). -/
def execMount (s : State) : Result := operation s (MountEnabled s.toArch) (.next (mountImage s))

/-- A running engine passes through Stopping on its way to Inactive (R272). -/
def cancelRead (s : State) : State :=
  let s := if ReadRunning s.toArch then setRdState .stopping s else s
  let s := { s with rdDma.en := false, rdTim.en := false, pin := .gpoIdle }
  setRdState .inactive { s with rd.cons := 0, rd.prod := 0, rdDma.cndtr := capCount, rd.kick := false }

/-- The write engine's part of CANCEL (R272): what was decoded is flushed, undecoded samples are dropped. -/
def cancelWrite (s : State) : State :=
  let running := s.wr.state ≠ .inactive
  let s := if s.wr.state = .starting ∨ s.wr.state = .active then setWrState .stopping s else s
  let s := { s with wrTim := { s.wrTim with en := false, cc1e := false }, wrDma.en := false }
  let s := if running then fileSync (askWriteTrack true s) else s
  setWrState .inactive { s with
    mfm := { prod := 0, cons := 0 }
    data := { prod := 0, cons := 0 }
    wr := { s.wr with cons := 0 }
    wrDma.cndtr := capCount }

/-- CANCEL, `floppy_cancel()` (R272). -/
def cancelAll (s : State) : State :=
  let s := { s with
    irq := { rdDma := false, wrDma := false, stepSoft := false, extiEn := false, dmaEn := false }
    index := { s.index with timer := { s.index.timer with armed := false }, active := false } }
  let s := cancelWrite (cancelRead s)
  let s := { s with
    stepper := { s.stepper with state := .idle, timer := { s.stepper.timer with armed := false } }
    fgWait := none
    image.loaded := false }
  setOutputs (pinDskchg ||| pinWrprot) true (setOutputs (pinIndex ||| pinRdy) false s)

/-- `CANCEL` (R272): enabled while there is no fault. -/
def execCancel (s : State) : Result := operation s True (.next (cancelAll s))

end Sys2Proof.Machine
end

