-- ==== Sys2Proof/Machine/Dispatch.lean ====
section
/-! DEFINITION. The dispatch: one arm per operation (R90). -/

namespace Sys2Proof.Machine

def exec (i : Instr) (s : State) : Host.Outcome State Fault Refusal :=
  match i with
  | .step d => Sys2Proof.Machine.execStep d s
  | .side h => Sys2Proof.Machine.execSide h s
  | .sel b => Sys2Proof.Machine.execSel b s
  | .wgate1 => Sys2Proof.Machine.execWgate1 s
  | .wgate0 => Sys2Proof.Machine.execWgate0 s
  | .wdataEdge => Sys2Proof.Machine.execWdataEdge s
  | .tick n => Sys2Proof.Machine.execTick n s
  | .rdBeat => Sys2Proof.Machine.execRdBeat s
  | .wrBeat => Sys2Proof.Machine.execWrBeat s
  | .idxFire => Sys2Proof.Machine.execIdxFire s
  | .stepFire => Sys2Proof.Machine.execStepFire s
  | .rdService => Sys2Proof.Machine.execRdService s
  | .wrService => Sys2Proof.Machine.execWrService s
  | .stepSoftirq => Sys2Proof.Machine.execStepSoftirq s
  | .fgHandle => Sys2Proof.Machine.execFgHandle s
  | .rdSeek => Sys2Proof.Machine.execRdSeek s
  | .rdPrefill => Sys2Proof.Machine.execRdPrefill s
  | .rdStart => Sys2Proof.Machine.execRdStart s
  | .rdReplenish => Sys2Proof.Machine.execRdReplenish s
  | .rdStop => Sys2Proof.Machine.execRdStop s
  | .rdFinish => Sys2Proof.Machine.execRdFinish s
  | .wrActivate => Sys2Proof.Machine.execWrActivate s
  | .wrPump => Sys2Proof.Machine.execWrPump s
  | .wrDrain => Sys2Proof.Machine.execWrDrain s
  | .init => Sys2Proof.Machine.execInit s
  | .mount => Sys2Proof.Machine.execMount s
  | .cancel => Sys2Proof.Machine.execCancel s
  | .changeOutputs m v => Sys2Proof.Machine.execChangeOutputs m v s

end Sys2Proof.Machine
end

