-- ==== Sys2Proof/Machine/Step.lean ====
section
/-! DEFINITION. One step: the next event of the trace is taken, its word decoded, its operation run (R80, R93, R94). -/

namespace Sys2Proof.Machine

/-- The state in which the operation of event `e` runs: the event is gone from the trace, its annotation is at hand,
nothing is returned yet. -/
def State.taking (s : State) (e : Event) (rest : List Event) : State :=
  { s with env := { s.env with trace := rest, note := e.note, ret := none } }

/-- One step of the block. The trace names the operation the next agent takes (R18, R80). -/
def step (s : State) : Host.Outcome State Fault Refusal :=
  match s.env.trace with
  | [] => .refused .endOfTrace
  | e :: rest =>
    match decode e.word with
    | .ok i => exec i (s.taking e rest)
    | .error r => .refused (.undecodable r)

/-- The trace with one more event in front: the event word whose bits are `w`, without an annotation (log 7). The very
next step runs it. Every event word is 32 bits (R80). -/
def State.withFetchWord (s : State) (_nbits w : Nat) : State :=
  { s with env.trace := { word := BitVec.ofNat 32 w, note := Annotation.empty } :: s.env.trace }

end Sys2Proof.Machine
end

