-- ==== Sys2Proof/Safety.lean ====
section
/-! DEFINITION. The terms claims are stated in: what a good state of the block is (the invariants the spec states, R21,
R44 to R47, R102, R243, R273, with what is needed beside them so that every step keeps them; the quiescent state, R337),
what it is for an operation to run, and which words of `write_mfm.buf` the decoder stores to. -/

namespace Sys2Proof.Machine

/-- A block in which operations run: possible parameters, no fault, no forbidden pair of ring states (R44, R286). -/
abbrev Ready (s : State) : Prop := s.cfg.Valid ∧ s.fault = none ∧ ¬ Overlap s.toArch

/-- The memories are in canonical form. -/
abbrev MemoryOk (s : State) : Prop := s.mem.wf s.cfg.mfmWords = true

/-- The mux invariant (R243). -/
abbrev MuxOk (a : Arch) : Prop := a.outs.port = if a.drive.sel then a.outs.shadow else 0

/-- `CNDTR` is in 1..1024 (R47, R102). -/
abbrev CountOk (d : DmaChannel) : Prop := 1 ≤ d.cndtr.toNat ∧ d.cndtr.toNat ≤ 1024

/-- Both channels: counts in range, no beat left over from an operation (R47, R102; log 9). -/
abbrev DmaOk (a : Arch) : Prop :=
  CountOk a.rdDma ∧ CountOk a.wrDma ∧ a.rdDma.req = false ∧ a.wrDma.req = false

/-- The read peripherals run exactly while the read engine is Active, with the counter below a reload value that is
not 0; the compare value is `PULSE_TICKS` (R24, R26, R134, R143). -/
abbrev ReadPathOk (s : State) : Prop :=
  s.rdTim.ccr = BitVec.ofNat 16 s.cfg.pulseTicks ∧
  (s.rd.state = .active → s.rdTim.en = true ∧ s.rdDma.en = true ∧ s.pin = .af ∧ s.rdTim.cnt < s.rdTim.arr) ∧
  (s.rd.state ≠ .active → s.rdTim.en = false ∧ s.rdDma.en = false ∧ s.pin = .gpoIdle)

/-- The capture runs exactly in Starting and Active (R161, R172, R175, R176). -/
abbrev WritePathOk (a : Arch) : Prop :=
  (a.wr.state = .starting ∨ a.wr.state = .active → a.wrTim.en = true ∧ a.wrTim.cc1e = true ∧ a.wrDma.en = true) ∧
  (a.wr.state = .inactive ∨ a.wr.state = .stopping → a.wrTim.en = false ∧ a.wrTim.cc1e = false ∧ a.wrDma.en = false)

/-- The enables follow the image, and without an image everything rests (R38, R273, R323). -/
abbrev MountOk (a : Arch) : Prop :=
  a.irq.extiEn = a.image.loaded ∧ a.irq.dmaEn = a.image.loaded ∧
  (a.image.loaded = false →
    a.rd.state = .inactive ∧ a.wr.state = .inactive ∧ a.fgWait = none ∧ a.stepper.state = .idle ∧
    a.stepper.timer.armed = false ∧ a.index.timer.armed = false ∧
    a.irq.rdDma = false ∧ a.irq.wrDma = false ∧ a.irq.stepSoft = false)

/-- A busy-wait belongs to a start that is still possible or was just stopped (R134). -/
abbrev WaitOk (a : Arch) : Prop := a.fgWait ≠ none → a.rd.state = .starting ∨ a.rd.state = .stopping

/-- No step is lost: a pulse waits for its soft IRQ, a latched or settling step for its timer (R33, R221 to R227). -/
abbrev StepOk (a : Arch) : Prop :=
  (a.irq.stepSoft = true ↔ a.stepper.state = .started) ∧
  (a.stepper.state = .latched ∨ a.stepper.state = .settling → a.stepper.timer.armed = true) ∧
  (a.stepper.state = .idle → a.stepper.timer.armed = false)

/-- Everything that also holds inside an operation, at its preemption points. -/
abbrev CoreInv (s : State) : Prop :=
  s.cfg.Valid ∧ s.fault = none ∧ MemoryOk s ∧ MuxOk s.toArch ∧ DmaOk s.toArch ∧ ReadPathOk s ∧
  WritePathOk s.toArch ∧ MountOk s.toArch ∧ WaitOk s.toArch ∧ StepOk s.toArch

/-- The invariant of the block at operation boundaries: engine exclusion (R44), no fault, and the rest; the marks of
R261 are up to date. -/
abbrev Inv (s : State) : Prop := CoreInv s ∧ ¬ Overlap s.toArch ∧ s.owed.update s.toArch = s.owed

/-- A quiescent state (R337). -/
abbrev Quiescent (a : Arch) : Prop :=
  a.fault = none ∧ a.rd.state = .inactive ∧ a.wr.state = .inactive ∧ a.stepper.state = .idle ∧
  a.irq.rdDma = false ∧ a.irq.wrDma = false ∧ a.irq.stepSoft = false ∧ a.fgWait = none

/-! ## What claims say of an operation -/

/-- The operation is written as this event word, the word decodes to it, and it belongs to this agent (R80, R90). -/
abbrev EncodedAs (i : Instr) (w : Word) (g : Agent) : Prop := encode i = w ∧ decode w = .ok i ∧ agentOf i = g

/-- The operation answers a next state: its architectural state is `a`, it has called the image with `calls` and returned
`ret`; parameters and trace are what they were. -/
abbrev RunsTo (i : Instr) (s : State) (a : Arch) (calls : List ImageCall := []) (ret : Option Returned := s.env.ret) :
    Prop :=
  ∃ t, exec i s = .next t ∧ t.toArch = a ∧ t.cfg = s.cfg ∧ t.env.trace = s.env.trace ∧
    t.env.calls = s.env.calls ++ calls ∧ t.env.ret = ret

/-- The operations run one after the other, each up to its boundary; one that stops stops the rest. -/
def runAll : List Instr → State → Result
  | [], s => .next s
  | i :: rest, s => andThen (exec i s) (runAll rest)

/-- In a block without a fault the operation is refused outside its enabling condition (R94). -/
abbrev OnlyWhen (e : Prop) (i : Instr) (s : State) : Prop :=
  s.cfg.Valid → s.fault = none → ¬ e → exec i s = .refused .notEnabled

/-- Every content of memory reads as before, but for the entries of the read ring. -/
abbrev SameButRdBuf (m n : Memory) : Prop := (∀ j, n.wrEntry j = m.wrEntry j) ∧ (∀ b, n.mfmByte b = m.mfmByte b)

/-- Every content of memory reads as before, but for the entries of the write ring. -/
abbrev SameButWrBuf (m n : Memory) : Prop := (∀ j, n.rdEntry j = m.rdEntry j) ∧ (∀ b, n.mfmByte b = m.mfmByte b)

/-- Every content of memory reads as before, but for the bytes of `write_mfm.buf`. -/
abbrev SameButMfm (m n : Memory) : Prop := (∀ j, n.rdEntry j = m.rdEntry j) ∧ (∀ j, n.wrEntry j = m.wrEntry j)

/-- A handler other than a timer is owed, or a busy-wait is over (R261). -/
abbrev RequestOwed (a : Arch) : Prop := RdServiceOwed a ∨ WrServiceOwed a ∨ StepSoftirqOwed a ∨ waitOver a = true

/-- The block after `rdata_stop` (R143), `rev` being `REV`. -/
def readStopped (rev : Nat) (a : Arch) : Arch :=
  if a.rd.state = .inactive ∨ a.rd.state = .stopping then a
  else
    { a with
      rd.state := .stopping
      rdDma.en := false
      rdTim.en := false
      pin := .gpoIdle
      index.timer := if a.index.active then a.index.timer else { armed := true, deadline := a.index.prevTime + rev } }

/-- The channel after one beat (R105, R110): the flag HT is set at the half, TC at the full transfer (R25, R28). -/
def channelBeaten (d : DmaChannel) : DmaChannel :=
  { d with
    cndtr := if d.cndtr - 1 = 0 then 1024#11 else d.cndtr - 1
    req := false
    ht := d.ht || decide (d.cndtr - 1 = 512#11)
    tc := d.tc || decide (d.cndtr - 1 = 0#11) }

/-- The beat reaches the half or the full transfer. -/
def beatPends (d : DmaChannel) : Bool := decide (d.cndtr - 1 = 512#11) || decide (d.cndtr - 1 = 0#11)

/-! ## The words the decoder stores to (R167, R169), before they are taken mod `MFM_WORDS` -/

/-- The word `emit` stores to: one, when the 32nd bit arrives. -/
def emitStores (d : Decoder) : List Nat := if (d.bp + 1) % 32#32 = 0 then [((d.bp + 1) / 32#32 - 1).toNat] else []

/-- The words stored to while the zeros of an interval are emitted. -/
def zerosStores (c : Config) : Nat → Nat → Decoder → List Nat
  | 0, _, _ => []
  | fuel + 1, curr, d =>
    if cellThresh c < curr then emitStores d ++ zerosStores c fuel (curr - cell c) (emit c.mfmWords false d) else []

/-- The words stored to while new samples are decoded. -/
def samplesStores (c : Config) (syncword : Word) : List Sample → Sample → Decoder → List Nat
  | [], _, _ => []
  | next :: rest, prev, d =>
    let curr := (next - prev).toNat
    zerosStores c curr curr d ++ emitStores (emitZeros c curr curr d) ++
      samplesStores c syncword rest next (decodeInterval c syncword (next - prev) d)

/-- The word the partial commit stores to. -/
def partialStores (d : Decoder) : List Nat := if d.bp % 32#32 = 0 then [] else [(d.bp / 32#32).toNat]

/-- The decoder before a WR_SERVICE. -/
def decoderOf (s : State) : Decoder := { acc := s.wr.mfm, bp := s.mfm.prod, mem := s.mem }

/-- The words one WR_SERVICE stores to (R165). -/
def serviceStores (s : State) : List Nat :=
  samplesStores s.cfg s.image.syncword (newSamples s.toArch) s.wr.prevSample (decoderOf s) ++
    partialStores
      (decodeSamples s.cfg s.image.syncword (newSamples s.toArch) s.wr.prevSample (decoderOf s))

end Sys2Proof.Machine
end

