-- ==== Sys2Proof/Certificates/Slice0/Obligations.lean ====
section
/-! DEFINITION. Statements about the flux engine, for the provers. In each, `Ready s` is a block with parameters a block can
have, no fault and no forbidden pair of ring states (R44); what happens in every other state is said by
`FaultIsFinal`. `RunsTo i s a` says that operation `i` answers a next state whose architectural state is `a`, so
everything `a` does not change is the frame. -/

open Sys2Proof Sys2Proof.Machine

/-- O1. For every well-formed operation, with every operand at every value its field admits, decode (encode i) is i.
(30_encoding.md section 1, 30_encoding.md section 3) -/
def Obligations.DecodeEncodeRoundTrip : Prop :=
  ∀ i : Instr, i.wellFormed = true → decode (encode i) = .ok i

/-- O2. For every 32-bit word w: if w decodes to i then i is well-formed and encode i is w, so no two words name the
same operation and no bit of a word is ignored. (30_encoding.md section 1, 30_encoding.md section 3) -/
def Obligations.EncodeDecodeRoundTrip : Prop :=
  ∀ (w : Word) (i : Instr), decode w = .ok i → i.wellFormed = true ∧ encode i = w

/-- O3. For every word: if it meets the match/mask pair of a row of the opcode map it decodes to that row's operation
and every row it meets has the same pair; and if it decodes at all it meets the pair of a row that builds what it
decodes to. (30_encoding.md section 3) -/
def Obligations.OneRowPerWord : Prop :=
  ∀ w : Word,
    (∀ r ∈ opcodeRows, r.fits w = true →
      decode w = .ok (r.build w) ∧
        ∀ q ∈ opcodeRows, q.fits w = true → q.mask = r.mask ∧ q.matched = r.matched) ∧
    (∀ i, decode w = .ok i → ∃ r ∈ opcodeRows, r.fits w = true ∧ r.build w = i)

/-- O4. Every word that matches no row of the opcode map is refused: as a reserved word when its opcode byte is that
of a row (a must-be-zero bit is set), else as an unknown opcode; a step on such a word is refused with that name and
is no fault. (R93) -/
def Obligations.UnknownWordsRefused : Prop :=
  ∀ w : Word, (∀ r ∈ opcodeRows, r.fits w = false) →
    decode w = .error (if opField w ∈ opcodeRows.map (fun r => opField r.matched) then .reservedBits (opField w)
      else .unknownOpcode (opField w)) ∧
    ∀ (s : State) (e : Event) (rest : List Event), s.env.trace = e :: rest → e.word = w →
      ∃ r, decode w = .error r ∧ step s = .refused (.undecodable r)

/-- O5. Words written out bit by bit from the formats of the opcode map, one or more of every format and agent group,
decode to the operations they stand for. (30_encoding.md section 3, 95_test_vectors.md section 3) -/
def Obligations.SampleWordsDecode : Prop :=
  decode 0x01000001#32 = .ok (.step true) ∧ decode 0x01000000#32 = .ok (.step false) ∧
  decode 0x04000001#32 = .ok .wgate1 ∧ decode 0x04000000#32 = .ok .wgate0 ∧
  decode 0x10023280#32 = .ok (.tick 144000) ∧ decode 0x10FFFFFF#32 = .ok (.tick 16777215) ∧
  decode 0x22000000#32 = .ok .stepSoftirq ∧ decode 0x31000000#32 = .ok .rdSeek ∧
  decode 0x43000102#32 = .ok (.changeOutputs 0b00010#5 true) ∧
  decode 0x4300000C#32 = .ok (.changeOutputs 0b01100#5 false) ∧
  decode 0x00000000#32 = .error (.unknownOpcode 0x00#8) ∧ decode 0x04000002#32 = .error (.reservedBits 0x04#8)

/-- O6. When the event at the head of the trace decodes to i, a step is exec of i at the state with that event taken
from the trace and its annotation at hand; taking it changes nothing of the block; with an empty trace the step is
refused; a word placed by withFetchWord is what the very next step runs. (The trace is the model's own, log 7.)
(30_encoding.md section 1, 30_encoding.md section 4, 30_encoding.md section 5) -/
def Obligations.StepRunsDecodedOperation : Prop :=
  (∀ (s : State) (e : Event) (rest : List Event) (i : Instr), s.env.trace = e :: rest → decode e.word = .ok i →
    step s = exec i (s.taking e rest) ∧
    (s.taking e rest).toArch = s.toArch ∧ (s.taking e rest).cfg = s.cfg ∧ (s.taking e rest).owed = s.owed ∧
    (s.taking e rest).env = { s.env with trace := rest, note := e.note, ret := none }) ∧
  (∀ s : State, s.env.trace = [] → step s = .refused .endOfTrace) ∧
  (∀ (s : State) (nbits w : Nat) (i : Instr), w < 2 ^ 32 → decode (BitVec.ofNat 32 w) = .ok i →
    step (s.withFetchWord nbits w) =
      exec i { s with env := { s.env with note := Annotation.empty, ret := none } })

/-- O7. STEP d is the word 0x01000000 | d of the Host; it always runs: unheard it changes nothing, else it writes
inward, start = now, state Started and pends irq.step_soft, and changes nothing else. (Premise Ready: possible
parameters, no fault, no forbidden pair of ring states.) (R221) -/
def Obligations.StepPulseRule : Prop :=
  (∀ d, EncodedAs (.step d) (0x01000000#32 ||| (BitVec.ofBool d).setWidth 32) .host) ∧
  ∀ (d : Bool) (s : State), Ready s →
    (s.irq.extiEn = false ∨ (s.cfg.inputsNeedSel = true ∧ s.drive.sel = false) → RunsTo (.step d) s s.toArch) ∧
    (¬ (s.irq.extiEn = false ∨ (s.cfg.inputsNeedSel = true ∧ s.drive.sel = false)) →
      RunsTo (.step d) s
        { s.toArch with
          stepper := { s.stepper with inward := d, start := s.now, state := .started }
          irq.stepSoft := true })

/-- O8. STEP_SOFTIRQ is the word 0x22000000 of the Isr, enabled while irq.step_soft is pending; it clears the request
and, only in Started, goes Latched with the timer armed at start + STEP_LATCH (2 ms), whatever it was armed for;
nothing else changes. (Premise Ready: possible parameters, no fault, no forbidden pair of ring states.) (R223) -/
def Obligations.StepSoftirqRule : Prop :=
  EncodedAs .stepSoftirq 0x22000000#32 .isr ∧
  (∀ s : State, OnlyWhen (s.irq.stepSoft = true) .stepSoftirq s) ∧
  ∀ s : State, Ready s → s.irq.stepSoft = true →
    (s.stepper.state ≠ .started → RunsTo .stepSoftirq s { s.toArch with irq.stepSoft := false }) ∧
    (s.stepper.state = .started →
      RunsTo .stepSoftirq s
        { s.toArch with
          irq.stepSoft := false
          stepper := { s.stepper with
            state := .latched
            timer := { armed := true, deadline := s.stepper.start + 2 * 1000 * s.cfg.sysclkMhz } } })

/-- O9. STEP_FIRE is the word 0x14000000 of the StepTimer, enabled when the step timer is due. In Latched it counts a
click, moves the cylinder by step_cyl, drives the track-0 output by cyl = 0, arms the timer at start + SETTLE and goes
Settling; in Settling it goes Idle; in Started and Idle it only disarms the timer; nothing else changes. (Premise
Ready: possible parameters, no fault, no forbidden pair of ring states.) (R226, R227) -/
def Obligations.StepFireRule : Prop :=
  EncodedAs .stepFire 0x14000000#32 .stepTimer ∧
  (∀ s : State, OnlyWhen (s.stepper.timer.armed = true ∧ s.stepper.timer.deadline ≤ (s.now : Int)) .stepFire s) ∧
  ∀ s : State, Ready s → s.stepper.timer.armed = true → s.stepper.timer.deadline ≤ (s.now : Int) →
    (s.stepper.state = .latched →
      RunsTo .stepFire s
        { s.toArch with
          clicks := s.clicks + 1
          drive.cyl := stepCyl s.drive.cyl s.stepper.inward
          outs := muxOutputs 0b10000#5 (decide (stepCyl s.drive.cyl s.stepper.inward = 0)) s.drive.sel s.outs
          stepper := { s.stepper with
            state := .settling
            timer := { armed := true, deadline := s.stepper.start + s.cfg.settleMs * 1000 * s.cfg.sysclkMhz } } }) ∧
    (s.stepper.state = .settling →
      RunsTo .stepFire s { s.toArch with stepper := { s.stepper with state := .idle, timer.armed := false } }) ∧
    (s.stepper.state = .started ∨ s.stepper.state = .idle →
      RunsTo .stepFire s { s.toArch with stepper.timer.armed := false })

/-- O10. step_cyl outward gives 83 from every cylinder of 84 and above, cyl - 1 from 1 to 83 and 0 from 0; inward it
gives cyl + 1 below 255 and 255 at 255; and STEP_FIRE in Latched clicks and settles whatever step_cyl gives. (Premise
Ready: possible parameters, no fault, no forbidden pair of ring states.) (R228) -/
def Obligations.StepCylTable : Prop :=
  (∀ cyl : BitVec 8,
    (84 ≤ cyl.toNat → (stepCyl cyl false).toNat = 83) ∧
    (cyl.toNat < 84 → (stepCyl cyl false).toNat = cyl.toNat - 1) ∧
    (cyl.toNat < 255 → (stepCyl cyl true).toNat = cyl.toNat + 1) ∧
    (cyl.toNat = 255 → stepCyl cyl true = cyl)) ∧
  ∀ s : State, Ready s → s.stepper.timer.armed = true → s.stepper.timer.deadline ≤ (s.now : Int) →
    s.stepper.state = .latched →
    ∃ t, exec .stepFire s = .next t ∧ t.clicks = s.clicks + 1 ∧ t.stepper.state = .settling ∧
      t.drive.cyl = stepCyl s.drive.cyl s.stepper.inward

/-- O11. SIDE h is the word 0x02000000 | h of the Host; it always runs, sets Drive.head to h and changes nothing else.
(Premise Ready: possible parameters, no fault, no forbidden pair of ring states.) (R232) -/
def Obligations.SideSelectRule : Prop :=
  (∀ h, EncodedAs (.side h) (0x02000000#32 ||| (BitVec.ofBool h).setWidth 32) .host) ∧
  ∀ (h : Bool) (s : State), Ready s → RunsTo (.side h) s { s.toArch with drive.head := h }

/-- O12. SEL s is the word 0x03000000 | s of the Host; it always runs, sets Drive.sel, makes the port the shadow when
selected and 0 when not, and changes nothing else. (Premise Ready: possible parameters, no fault, no forbidden pair of
ring states.) (R242) -/
def Obligations.DriveSelectRule : Prop :=
  (∀ b, EncodedAs (.sel b) (0x03000000#32 ||| (BitVec.ofBool b).setWidth 32) .host) ∧
  ∀ (b : Bool) (s : State), Ready s →
    RunsTo (.sel b) s { s.toArch with drive.sel := b, outs.port := if b then s.outs.shadow else 0#5 }

/-- O13. CHANGE_OUTPUTS m, v is the word 0x43000000 | v << 8 | m of Control; it always runs, ors the mask into the
shadow or clears it there, copies the shadow to the port only while selected, changes nothing else, and done again
leaves the same shadow and port. (Premise Ready: possible parameters, no fault, no forbidden pair of ring states.)
(R240, R241) -/
def Obligations.ChangeOutputsRule : Prop :=
  (∀ (m : OutSet) (v : Bool), EncodedAs (.changeOutputs m v)
    (0x43000000#32 ||| (BitVec.ofBool v).setWidth 32 <<< 8 ||| m.setWidth 32) .control) ∧
  (∀ (m : OutSet) (v : Bool) (s : State), Ready s →
    let shadow := if v then s.outs.shadow ||| m else s.outs.shadow &&& ~~~m
    RunsTo (.changeOutputs m v) s
      { s.toArch with outs := { shadow := shadow, port := if s.drive.sel then shadow else s.outs.port } }) ∧
  ∀ (m : OutSet) (v : Bool) (s t : State), Ready s → exec (.changeOutputs m v) s = .next t →
    ∃ u, exec (.changeOutputs m v) t = .next u ∧ u.outs = t.outs

/-- O14. WGATE 1 is the word 0x04000001 of the Host and always runs. Unheard (EXTI disabled, no image, not selected
where inputs need it) it changes nothing; with the write engine not Inactive it only appends MissedWrite with the time
to the log; else it does RD_STOP, goes Starting with an empty ring and zeroed decoder, sets CNDTR to 1024, enables the
channel, capture and timer with CNT 0, and stores the rotational offset modulo one revolution in write_start; nothing
else changes. (That write_start keeps the low 32 bits of the offset is the model's choice, log 26.) (Premise Ready:
possible parameters, no fault, no forbidden pair of ring states.) (42_write_engine.md section 2 (R161, R162, R164)) -/
def Obligations.WriteGateOnRule : Prop :=
  EncodedAs .wgate1 0x04000001#32 .host ∧
  ∀ s : State, Ready s →
    let unheard := s.irq.extiEn = false ∨ s.image.loaded = false ∨ (s.cfg.inputsNeedSel = true ∧ s.drive.sel = false)
    (unheard → RunsTo .wgate1 s s.toArch) ∧
    (¬ unheard → s.wr.state ≠ .inactive →
      RunsTo .wgate1 s { s.toArch with log := s.log ++ [⟨.missedWrite, s.now⟩] }) ∧
    (¬ unheard → s.wr.state = .inactive →
      let a := readStopped (rev s.cfg) s.toArch
      RunsTo .wgate1 s
        { a with
          wr := { state := .starting, cons := 0, prevSample := 0, mfm := 0 }
          wrDma := { s.wrDma with cndtr := 1024#11, en := true }
          wrTim := { s.wrTim with cc1e := true, cnt := 0, en := true }
          image.writeStart :=
            BitVec.ofInt 32 (((s.now : Int) - s.index.prevTime) % ((200 * 1000 * s.cfg.sysclkMhz : Nat) : Int)) })

/-- O15. WGATE 0 is the word 0x04000000 of the Host and always runs, whatever Drive.sel is. With EXTI disabled or the
write engine Inactive or Stopping it changes nothing; else it goes Stopping, disables timer, capture and channel
(CNDTR kept), pends irq.wr_dma, and changes nothing else. (Premise Ready: possible parameters, no fault, no forbidden
pair of ring states.) (R175) -/
def Obligations.WriteGateOffRule : Prop :=
  EncodedAs .wgate0 0x04000000#32 .host ∧
  ∀ s : State, Ready s →
    (s.irq.extiEn = false ∨ s.wr.state = .inactive ∨ s.wr.state = .stopping → RunsTo .wgate0 s s.toArch) ∧
    (s.irq.extiEn = true → s.wr.state = .starting ∨ s.wr.state = .active →
      RunsTo .wgate0 s
        { s.toArch with
          wr.state := .stopping
          wrTim := { s.wrTim with en := false, cc1e := false }
          wrDma.en := false
          irq.wrDma := true })

/-- O16. WDATA_EDGE is the word 0x05000000 of the Host and always runs. Unless timer and capture are enabled it
changes nothing; else CCR1 takes CNT and, with the channel enabled, that value is stored at wr_pos() (every other
content of memory reads as before), CNDTR counts down with the circular reload, the half transfer sets HT and the full
transfer TC, and both pend irq.wr_dma; nothing else changes. (Premise Ready: possible parameters, no fault, no
forbidden pair of ring states.) (R109) -/
def Obligations.WriteDataEdgeRule : Prop :=
  EncodedAs .wdataEdge 0x05000000#32 .host ∧
  ∀ s : State, Ready s →
    (¬ (s.wrTim.en = true ∧ s.wrTim.cc1e = true) → RunsTo .wdataEdge s s.toArch) ∧
    (s.wrTim.en = true → s.wrTim.cc1e = true → s.wrDma.en = false →
      RunsTo .wdataEdge s { s.toArch with wrTim.ccr1 := s.wrTim.cnt }) ∧
    (s.wrTim.en = true → s.wrTim.cc1e = true → s.wrDma.en = true →
      ∃ m : Memory,
        RunsTo .wdataEdge s
          { s.toArch with
            mem := m
            wrTim.ccr1 := s.wrTim.cnt
            wrDma := channelBeaten s.wrDma
            irq.wrDma := s.irq.wrDma || beatPends s.wrDma } ∧
        m.wrEntry (wrPos s.toArch) = s.wrTim.cnt ∧
        (∀ j, j ≠ wrPos s.toArch → m.wrEntry j = s.mem.wrEntry j) ∧ SameButWrBuf s.mem m)

/-- O17. RD_BEAT is the word 0x11000000 of the RdDma, enabled with timer and channel enabled and a beat requested (the
request bit is the model's reading of 'an update event is due', log 9). A sample of 0 refuses the trace; else ARR
takes the sample at rd_pos(), CNDTR counts down with the circular reload, the half transfer sets HT and the full
transfer TC, and both pend irq.rd_dma; memory and everything else unchanged. (Premise Ready: possible parameters, no
fault, no forbidden pair of ring states.) (40_ring_dma.md section 2 (R105), 10_state.md section 3 (R25), 20_memory.md
section 3 (R67)) -/
def Obligations.ReadBeatRule : Prop :=
  EncodedAs .rdBeat 0x11000000#32 .rdDma ∧
  (∀ s : State, OnlyWhen (s.rdTim.en = true ∧ s.rdDma.en = true ∧ s.rdDma.req = true) .rdBeat s) ∧
  ∀ s : State, Ready s → s.rdTim.en = true → s.rdDma.en = true → s.rdDma.req = true →
    (s.mem.rdEntry (rdPos s.toArch) = 0 → exec .rdBeat s = .refused .zeroFluxSample) ∧
    (s.mem.rdEntry (rdPos s.toArch) ≠ 0 →
      RunsTo .rdBeat s
        { s.toArch with
          rdTim.arr := s.mem.rdEntry (rdPos s.toArch)
          rdDma := channelBeaten s.rdDma
          irq.rdDma := s.irq.rdDma || beatPends s.rdDma })

/-- O18. WR_BEAT is the word 0x12000000 of the WrDma, enabled with the channel enabled and a beat requested by a
capture (the request bit is the model's own, log 9). CCR1 is stored at wr_pos(), every other content of memory reads
as before, CNDTR counts down with the circular reload, the half transfer sets HT and the full transfer TC, and both
pend irq.wr_dma; nothing else changes. (Premise Ready: possible parameters, no fault, no forbidden pair of ring
states.) (40_ring_dma.md section 3 (R110), 10_state.md section 4 (R28), 20_memory.md section 3 (R67)) -/
def Obligations.WriteBeatRule : Prop :=
  EncodedAs .wrBeat 0x12000000#32 .wrDma ∧
  (∀ s : State, OnlyWhen (s.wrDma.en = true ∧ s.wrDma.req = true) .wrBeat s) ∧
  ∀ s : State, Ready s → s.wrDma.en = true → s.wrDma.req = true →
    ∃ m : Memory,
      RunsTo .wrBeat s
        { s.toArch with
          mem := m
          wrDma := channelBeaten s.wrDma
          irq.wrDma := s.irq.wrDma || beatPends s.wrDma } ∧
      m.wrEntry (wrPos s.toArch) = s.wrTim.ccr1 ∧
      (∀ j, j ≠ wrPos s.toArch → m.wrEntry j = s.mem.wrEntry j) ∧ SameButWrBuf s.mem m

/-- O19. IDX_FIRE is the word 0x13000000 of the IdxTimer, enabled when the index timer is due. Low phase: the index is
asserted, prev_time takes the deadline fired for (not now), the timer is armed INDEX_HIGH (2 ms) after it. High phase:
the index is deasserted and the timer armed REV (200 ms) after prev_time, but left unarmed while a read is Active.
Nothing else changes. (Premise Ready: possible parameters, no fault, no forbidden pair of ring states.) (R204) -/
def Obligations.IndexFireRule : Prop :=
  EncodedAs .idxFire 0x13000000#32 .idxTimer ∧
  (∀ s : State, OnlyWhen (s.index.timer.armed = true ∧ s.index.timer.deadline ≤ (s.now : Int)) .idxFire s) ∧
  ∀ s : State, Ready s → s.index.timer.armed = true → s.index.timer.deadline ≤ (s.now : Int) →
    (s.index.active = false →
      RunsTo .idxFire s
        { s.toArch with
          index := {
            active := true
            prevTime := s.index.timer.deadline
            timer := { armed := true, deadline := s.index.timer.deadline + 2 * 1000 * s.cfg.sysclkMhz } }
          outs := muxOutputs 0b00001#5 true s.drive.sel s.outs }) ∧
    (s.index.active = true →
      RunsTo .idxFire s
        { s.toArch with
          index := {
            active := false
            prevTime := s.index.prevTime
            timer := if s.rd.state = .active then { armed := false, deadline := s.index.timer.deadline }
              else { armed := true, deadline := s.index.prevTime + 200 * 1000 * s.cfg.sysclkMhz } }
          outs := muxOutputs 0b00001#5 false s.drive.sel s.outs })

/-- O20. TICK n is the word 0x10000000 | n of the Clock. TICK 0 changes nothing; from a state with the invariant TICK
(m + n) is TICK m and then TICK n (a refused part refuses the whole). TICK 1 where R261 allows it adds 1 to now,
counts the enabled PWM timer up to ARR where it clears CNT and, with the channel enabled, makes a beat (a sample of 0
refuses the trace), counts the enabled capture timer modulo 65536, and with latency 0 runs IDX_FIRE and then STEP_FIRE
if due; where R261 does not allow it, it is refused. (Premise Ready: possible parameters, no fault, no forbidden pair
of ring states.) (R262, R106, R111) -/
def Obligations.TickRule : Prop :=
  (∀ n, n < 2 ^ 24 → EncodedAs (.tick n) (0x10000000#32 ||| BitVec.ofNat 32 n) .clock) ∧
  (∀ s : State, Ready s → RunsTo (.tick 0) s s.toArch) ∧
  (∀ (m n : Nat) (s : State), Inv s →
    exec (.tick (m + n)) s = andThen (exec (.tick m) s) (fun t => exec (.tick n) t)) ∧
  ∀ s : State, Ready s →
    (tickAllowed s = false → exec (.tick 1) s = .refused .handlerOwed) ∧
    (tickAllowed s = true →
      let update : Bool := s.rdTim.en && decide (s.rdTim.cnt + 1 = s.rdTim.arr)
      let beat : Bool := update && s.rdDma.en
      let sample := s.mem.rdEntry (rdPos s.toArch)
      (beat = true → sample = 0 → exec (.tick 1) s = .refused .zeroFluxSample) ∧
      ((beat = true → sample ≠ 0) →
        let u : State := { s with
          now := s.now + 1
          rdTim := { s.rdTim with
            cnt := if update then 0 else if s.rdTim.en then s.rdTim.cnt + 1 else s.rdTim.cnt
            arr := if beat then sample else s.rdTim.arr }
          rdDma := if beat then channelBeaten s.rdDma else s.rdDma
          irq.rdDma := s.irq.rdDma || (beat && beatPends s.rdDma)
          wrTim.cnt := if s.wrTim.en then s.wrTim.cnt + 1 else s.wrTim.cnt }
        let v := if s.cfg.maxIrqLatency = 0 ∧ IdxFireOwed u.toArch then idxFire u else u
        let w := if s.cfg.maxIrqLatency = 0 ∧ StepFireOwed v.toArch then stepFire v else v
        RunsTo (.tick 1) s w.toArch))

/-- O21. A handler is owed as R261 lists it. With latency 0 a TICK of 1 or more is refused while any handler is owed
and TICK 1 is allowed when none is. With latency L > 0 each owed handler has a mark, the now at which it became owed
(kept while it stays owed, gone when it is not), and TICK 1 is allowed exactly while every mark is less than L ticks
old. (Premise Ready: possible parameters, no fault, no forbidden pair of ring states.) (R261) -/
def Obligations.TickWaitsForOwedHandlers : Prop :=
  (∀ (s : State) (n : Nat), Ready s → s.cfg.maxIrqLatency = 0 → AnyOwed s.toArch →
    exec (.tick (n + 1)) s = .refused .handlerOwed) ∧
  (∀ s : State, s.cfg.maxIrqLatency = 0 → (tickAllowed s = true ↔ ¬ AnyOwed s.toArch)) ∧
  (∀ s : State, 0 < s.cfg.maxIrqLatency →
    let o := s.owed.update s.toArch
    (tickAllowed s = true ↔
      ∀ t, t ∈ [o.rdService, o.wrService, o.stepSoftirq, o.idxFire, o.stepFire, o.rdStart] →
        ∀ k, t = some k → s.now - k < s.cfg.maxIrqLatency)) ∧
  (∀ (o : OwedSince) (a : Arch),
    (o.update a).rdService = (if a.irq.rdDma = true ∧ a.irq.dmaEn = true then some (o.rdService.getD a.now) else none) ∧
    (o.update a).wrService = (if a.irq.wrDma = true ∧ a.irq.dmaEn = true then some (o.wrService.getD a.now) else none) ∧
    (o.update a).stepSoftirq = (if a.irq.stepSoft = true then some (o.stepSoftirq.getD a.now) else none) ∧
    (o.update a).idxFire =
      (if a.index.timer.armed = true ∧ a.index.timer.deadline ≤ (a.now : Int) then some (o.idxFire.getD a.now)
        else none) ∧
    (o.update a).stepFire =
      (if a.stepper.timer.armed = true ∧ a.stepper.timer.deadline ≤ (a.now : Int) then some (o.stepFire.getD a.now)
        else none) ∧
    (o.update a).rdStart =
      (if ∃ w, a.fgWait = some w ∧ w ≤ (a.now : Int) then some (o.rdStart.getD a.now) else none)) ∧
  ∀ (i : Instr) (s t : State), exec i s = .next t → t.owed.update t.toArch = t.owed

/-- O22. In a block with latency 0, nothing owed, no PWM counting and no busy-wait, a TICK to the deadline of the
index timer (the step timer not due by then) has exactly the effect of counting and then IDX_FIRE; the same for the
step timer and STEP_FIRE; and a TICK that reaches neither deadline only counts. (Premise Ready: possible parameters,
no fault, no forbidden pair of ring states.) (43_index.md section on IDX_FIRE (R202), 44_step_status.md section 1
(R225), 45_control.md section 1 (R262)) -/
def Obligations.TimersFireOnTime : Prop :=
  ∀ (s : State) (n : Nat), Ready s → s.cfg.maxIrqLatency = 0 → ¬ AnyOwed s.toArch → s.rdTim.en = false →
    s.fgWait = none →
    let u : State := { s with
      now := s.now + (n + 1)
      wrTim.cnt := if s.wrTim.en then s.wrTim.cnt + BitVec.ofNat 16 (n + 1) else s.wrTim.cnt }
    (s.index.timer.armed = true → s.index.timer.deadline = (s.now : Int) + (n + 1) →
      ¬ s.stepper.timer.Due (s.now + (n + 1)) → RunsTo (.tick (n + 1)) s (idxFire u).toArch) ∧
    (s.stepper.timer.armed = true → s.stepper.timer.deadline = (s.now : Int) + (n + 1) →
      ¬ s.index.timer.Due (s.now + (n + 1)) → RunsTo (.tick (n + 1)) s (stepFire u).toArch) ∧
    (¬ s.index.timer.Due (s.now + (n + 1)) → ¬ s.stepper.timer.Due (s.now + (n + 1)) →
      RunsTo (.tick (n + 1)) s u.toArch)

/-- O23. pin_rdata shows a pulse exactly while the pin is AF, the timer enabled and CNT below CCR. In a running read
just after an update event (CNT = 0), with nothing owed and no timer due in between: a TICK of n, fewer than ARR,
ticks only counts, no update event comes, and with the pin AF the pulse shows exactly while n is below CCR; a TICK of
exactly ARR ticks brings the update event and its beat in the last tick: CNT is 0 again, ARR is the next sample of the
ring, CNDTR has counted once, and the next pulse shows (CCR not 0); so the interval from pulse start to pulse start
was the sample in ARR. (Premise Ready: possible parameters, no fault, no forbidden pair of ring states.) (R107, R108)
-/
def Obligations.ReadPeriodIsTheSample : Prop :=
  (∀ a : Arch, pinRdata a = true ↔ a.pin = .af ∧ a.rdTim.en = true ∧ a.rdTim.cnt.toNat < a.rdTim.ccr.toNat) ∧
  ∀ s : State, Ready s → ¬ AnyOwed s.toArch → s.rdTim.en = true → s.rdDma.en = true → s.rdTim.cnt = 0 →
    s.rdTim.arr ≠ 0 → s.fgWait = none →
    ¬ s.index.timer.Due (s.now + s.rdTim.arr.toNat) → ¬ s.stepper.timer.Due (s.now + s.rdTim.arr.toNat) →
    (∀ n, n < s.rdTim.arr.toNat →
      let a : Arch := { s.toArch with
        now := s.now + n
        rdTim.cnt := BitVec.ofNat 16 n
        wrTim.cnt := if s.wrTim.en then s.wrTim.cnt + BitVec.ofNat 16 n else s.wrTim.cnt }
      RunsTo (.tick n) s a ∧ (s.pin = .af → pinRdata a = decide (n < s.rdTim.ccr.toNat))) ∧
    (s.mem.rdEntry (rdPos s.toArch) ≠ 0 →
      let a : Arch := { s.toArch with
        now := s.now + s.rdTim.arr.toNat
        rdTim := { s.rdTim with cnt := 0, arr := s.mem.rdEntry (rdPos s.toArch) }
        rdDma := channelBeaten s.rdDma
        irq.rdDma := s.irq.rdDma || beatPends s.rdDma
        wrTim.cnt := if s.wrTim.en then s.wrTim.cnt + s.rdTim.arr else s.wrTim.cnt }
      RunsTo (.tick s.rdTim.arr.toNat) s a ∧ (s.pin = .af → s.rdTim.ccr ≠ 0 → pinRdata a = true))

/-- O24. RD_SEEK is the word 0x31000000 of the Foreground, enabled with an image, no busy-wait, both engines Inactive
and no step active. It calls seek_track with cyl * 2 + head and the position (now - prev_time + seek-ahead) mod REV,
the seek-ahead being 10 ms or the rest of the settle time if that is more. Busy: nothing is written, RETRY. Else
sync_time is prev_time + pos' (one REV later if that is past), track and last_tsi = 0 are written and the state is
Starting, AGAIN. With operations at the preemption points: after P2 the step, track and write tests decide between
Starting and Stopping. (Premise Ready: possible parameters, no fault, no forbidden pair of ring states.) (R131, R132)
-/
def Obligations.ReadSeekRule : Prop :=
  EncodedAs .rdSeek 0x31000000#32 .foreground ∧
  (∀ s : State, OnlyWhen (s.image.loaded = true ∧ s.fgWait = none ∧ s.rd.state = .inactive ∧ s.wr.state = .inactive ∧
    ¬ (s.stepper.state = .started ∨ s.stepper.state = .latched)) .rdSeek s) ∧
  ∀ s : State, Ready s → s.image.loaded = true → s.fgWait = none → s.rd.state = .inactive →
    s.wr.state = .inactive → ¬ (s.stepper.state = .started ∨ s.stepper.state = .latched) →
    let track : Track := BitVec.ofNat 9 (s.drive.cyl.toNat * 2 + s.drive.head.toNat)
    let ms : Int := 1000 * s.cfg.sysclkMhz
    let ahead : Int := if s.stepper.state = .settling then
      max (10 * ms) (s.stepper.start + s.cfg.settleMs * ms - s.now) else 10 * ms
    let pos : Int := (s.now - s.index.prevTime + ahead) % (200 * ms)
    let sync : Int := s.index.prevTime + (seekAnswer s).2.toNat
    let call := ImageCall.seekTrack track (some pos)
    (s.env.note.atP1 = [] → s.env.note.atP2 = [] →
      ((seekAnswer s).1 = true → RunsTo .rdSeek s s.toArch [call] (some .retry)) ∧
      ((seekAnswer s).1 = false →
        RunsTo .rdSeek s
          { s.toArch with
            rd := { s.rd with
              state := .starting
              syncTime := if sync - s.now < 0 then sync + 200 * ms else sync
              track := track
              lastTsi := 0 } }
          [call] (some .again))) ∧
    (∀ s1, preempt s.env.note.atP1 (askSeek track (some pos) s) = .next s1 → s1.fault = none →
      ((seekAnswer s).1 = true → s1.wr.state ≠ .active → s1.rd.state = .inactive →
        ∃ t, exec .rdSeek s = .next t ∧ t.toArch = s1.toArch ∧ t.env.ret = some .retry) ∧
      ((seekAnswer s).1 = false →
        let c : State := { s1 with rd := { s1.rd with
          state := .starting
          syncTime := if sync - s1.now < 0 then sync + 200 * ms else sync
          track := track
          lastTsi := 0 } }
        ∀ s2, preempt s1.env.note.atP2 c = .next s2 → s2.fault = none → s2.wr.state ≠ .active →
          s2.rd.state = .starting ∨ s2.rd.state = .stopping →
          ∃ t, exec .rdSeek s = .next t ∧ t.env.ret = some .again ∧
            t.toArch = { s2.toArch with
              rd.state :=
                if s2.stepper.state = .started ∨ s2.stepper.state = .latched ∨
                    s2.drive.cyl.toNat * 2 + s2.drive.head.toNat ≠ track.toNat ∨ s2.wr.state ≠ .inactive then .stopping
                else s2.rd.state }))

/-- O25. From any state at all, and with any operations at P1 and P2: if RD_SEEK answers a next state whose read state
is Starting, then no step is active in it, its drive is on the track that was asked for, and the write engine is
Inactive; and a STEP heard at P1 or at P2 leaves Stopping. (Premise Ready: possible parameters, no fault, no forbidden
pair of ring states.) (R45) -/
def Obligations.ReadSeekNeverStartsWhileStepping : Prop :=
  (∀ s t : State, exec .rdSeek s = .next t → t.rd.state = .starting →
    t.stepper.state ≠ .started ∧ t.stepper.state ≠ .latched ∧ trackOf t.drive = t.rd.track ∧
      t.wr.state = .inactive) ∧
  ∀ (s : State) (d : Bool), Ready s → RdSeekEnabled s.toArch → InputsHeard s → (seekAnswer s).1 = false →
    (s.env.note.atP1 = [.step d] ∧ s.env.note.atP2 = []) ∨ (s.env.note.atP1 = [] ∧ s.env.note.atP2 = [.step d]) →
    ∃ t, exec .rdSeek s = .next t ∧ t.rd.state = .stopping ∧ t.stepper.state = .started ∧ t.irq.stepSoft = true

/-- O26. RD_PREFILL is the word 0x32000000 of the Foreground, enabled in Starting with an image and no busy-wait while
prod < 512 or more than YIELD remains. It calls read_track and rdata_flux(nr), nr = min(1024 - prod, (0 - prod - 1)
mod 1024); the samples given are stored at prod and the following entries, prod advances by their number, every other
content of memory reads as before and nothing else changes. (That write_mfm.buf, whose upper half the image's read
buffer overlays, keeps its contents is the model's choice, log 31.) (Premise Ready: possible parameters, no fault, no
forbidden pair of ring states.) (41_read_engine.md section 3 (R133)) -/
def Obligations.ReadPrefillRule : Prop :=
  EncodedAs .rdPrefill 0x32000000#32 .foreground ∧
  (∀ s : State, OnlyWhen (s.image.loaded = true ∧ s.fgWait = none ∧ s.rd.state = .starting ∧
    (s.rd.prod.toNat < 512 ∨ s.rd.syncTime - s.now > 5 * 1000 * s.cfg.sysclkMhz)) .rdPrefill s) ∧
  ∀ s : State, Ready s → s.image.loaded = true → s.fgWait = none → s.rd.state = .starting →
    s.rd.prod.toNat < 512 ∨ s.rd.syncTime - s.now > 5 * 1000 * s.cfg.sysclkMhz →
    let nr := min (1024 - s.rd.prod.toNat) (0#10 - s.rd.prod - 1).toNat
    let got := fluxAnswer nr (askReadTrack s)
    got.length ≤ nr ∧
    ∃ m : Memory,
      RunsTo .rdPrefill s { s.toArch with mem := m, rd.prod := s.rd.prod + BitVec.ofNat 10 got.length }
        [.readTrack, .rdataFlux nr] ∧
      (∀ k (h : k < got.length), m.rdEntry (s.rd.prod + BitVec.ofNat 10 k) = got[k]) ∧
      (∀ j, (∀ k, k < got.length → j ≠ s.rd.prod + BitVec.ofNat 10 k) → m.rdEntry j = s.mem.rdEntry j) ∧
      SameButRdBuf s.mem m

/-- O27. rd_fill(c) asks for nr = min(1024 - prod, (c - prod - 1) mod 1024) samples, the image gives at most nr, they
are stored at prod onward, none past the wrap, and prod advances by their number; the other entries read as before. No
entry stored to is a queued one: c + j for j below (prod - c) mod 1024, so with prod other than c not c itself (with
prod = c the ring is empty and the entry at c is the next to fill). The samples then queued from c on are those queued
before plus the new ones, at most 1023. (R137) -/
def Obligations.FillStopsShortOfTheDma : Prop :=
  ∀ (c : RingIx) (s : State),
    let nr := min (1024 - s.rd.prod.toNat) (c - s.rd.prod - 1).toNat
    let got := fluxAnswer nr s
    let t := rdFill c s
    got.length ≤ nr ∧
    t.rd = { s.rd with prod := s.rd.prod + BitVec.ofNat 10 got.length } ∧
    t.env.calls = s.env.calls ++ [.rdataFlux nr] ∧
    (∀ k (h : k < got.length), t.mem.rdEntry (s.rd.prod + BitVec.ofNat 10 k) = got[k]) ∧
    (∀ j, (∀ k, k < got.length → j ≠ s.rd.prod + BitVec.ofNat 10 k) → t.mem.rdEntry j = s.mem.rdEntry j) ∧
    (∀ k, k < got.length → s.rd.prod.toNat + k < 1024 ∧ (s.rd.prod ≠ c → s.rd.prod + BitVec.ofNat 10 k ≠ c) ∧
      ∀ j, j < (s.rd.prod - c).toNat → s.rd.prod + BitVec.ofNat 10 k ≠ c + BitVec.ofNat 10 j) ∧
    (∀ j, j < (s.rd.prod - c).toNat →
      t.mem.rdEntry (c + BitVec.ofNat 10 j) = s.mem.rdEntry (c + BitVec.ofNat 10 j)) ∧
    (t.rd.prod - c).toNat = (s.rd.prod - c).toNat + got.length ∧ (t.rd.prod - c).toNat ≤ 1023

/-- O28. RD_START is the word 0x33000000 of the Foreground, enabled at the end of a busy-wait in Starting or Stopping,
or in Starting without one with half a ring and at most YIELD to go. With SLACK or more to go and no wait yet it only
sets fg_wait to sync_time. Else the wait is cleared; in Stopping nothing more; in Starting the state is Active, the
pin AF, channel and timer enabled, CNT 0, and the first beat loads ARR from the ring (a sample of 0 refuses the
trace). (Premise Ready: possible parameters, no fault, no forbidden pair of ring states.) (R134) -/
def Obligations.ReadStartRule : Prop :=
  EncodedAs .rdStart 0x33000000#32 .foreground ∧
  (∀ s : State, OnlyWhen (s.image.loaded = true ∧
    (((s.rd.state = .starting ∨ s.rd.state = .stopping) ∧ ∃ w, s.fgWait = some w ∧ w ≤ (s.now : Int)) ∨
      (s.rd.state = .starting ∧ s.fgWait = none ∧ 512 ≤ s.rd.prod.toNat ∧
        s.rd.syncTime - s.now ≤ 5 * 1000 * s.cfg.sysclkMhz))) .rdStart s) ∧
  (∀ s : State, Ready s → s.image.loaded = true → s.rd.state = .starting → s.fgWait = none →
    512 ≤ s.rd.prod.toNat → s.rd.syncTime - s.now ≤ 5 * 1000 * s.cfg.sysclkMhz →
    s.rd.syncTime - s.now ≥ s.cfg.sysclkMhz → RunsTo .rdStart s { s.toArch with fgWait := some s.rd.syncTime }) ∧
  (∀ s : State, Ready s → s.image.loaded = true → s.rd.state = .stopping →
    (∃ w, s.fgWait = some w ∧ w ≤ (s.now : Int)) → RunsTo .rdStart s { s.toArch with fgWait := none }) ∧
  ∀ s : State, Ready s → s.image.loaded = true → s.rd.state = .starting →
    (∃ w, s.fgWait = some w ∧ w ≤ (s.now : Int)) ∨
      (s.fgWait = none ∧ 512 ≤ s.rd.prod.toNat ∧ s.rd.syncTime - s.now < s.cfg.sysclkMhz) →
    (s.mem.rdEntry (rdPos s.toArch) = 0 → exec .rdStart s = .refused .zeroFluxSample) ∧
    (s.mem.rdEntry (rdPos s.toArch) ≠ 0 →
      RunsTo .rdStart s
        { s.toArch with
          fgWait := none
          rd.state := .active
          pin := .af
          rdDma := { channelBeaten s.rdDma with en := true }
          rdTim := { s.rdTim with en := true, cnt := 0, arr := s.mem.rdEntry (rdPos s.toArch) }
          irq.rdDma := s.irq.rdDma || beatPends s.rdDma })

/-- O29. RD_SERVICE is the word 0x20000000 of the Isr, enabled while irq.rd_dma is pending and DMA interrupts are
enabled. Outside Active it only clears the request. In Active, c being the DMA position: Underrun is logged exactly
when c moved and more was consumed than queued; cons is c; one rd_fill(c) is made; a short answer sets the kick; the
image's offset t is kept as last_tsi and, if it decreased, the index timer is armed at now + the ticks of R141. Only
RD_REPLENISH, RD_FINISH, MOUNT, CANCEL, INIT and FG_HANDLE clear the kick. (That write_mfm.buf, whose upper half the
image's read buffer overlays, keeps its contents is the model's choice, log 31.) (Premise Ready: possible parameters,
no fault, no forbidden pair of ring states.) (41_read_engine.md section 4 (R136, R138, R139)) -/
def Obligations.ReadServiceRule : Prop :=
  EncodedAs .rdService 0x20000000#32 .isr ∧
  (∀ s : State, OnlyWhen (s.irq.rdDma = true ∧ s.irq.dmaEn = true) .rdService s) ∧
  (∀ s : State, Ready s → s.irq.rdDma = true → s.irq.dmaEn = true → s.rd.state ≠ .active →
    RunsTo .rdService s { s.toArch with irq.rdDma := false }) ∧
  (∀ s : State, Ready s → s.irq.rdDma = true → s.irq.dmaEn = true → s.rd.state = .active →
    let c := rdPos s.toArch
    let under : Bool := decide (c ≠ s.rd.cons) && decide ((s.rd.prod - s.rd.cons).toNat < (c - s.rd.cons).toNat)
    let nr := min (1024 - s.rd.prod.toNat) (c - s.rd.prod - 1).toNat
    let got := fluxAnswer nr s
    let t := ticksAnswer (askFlux nr s)
    ∃ m : Memory,
      (let a : Arch := { s.toArch with
        irq.rdDma := false
        log := if under then s.log ++ [⟨.underrun, s.now⟩] else s.log
        mem := m
        rd := { s.rd with
          cons := c
          prod := s.rd.prod + BitVec.ofNat 10 got.length
          kick := s.rd.kick || decide (got.length < nr)
          lastTsi := t } }
      RunsTo .rdService s
        { a with index.timer := if t < s.rd.lastTsi then { armed := true, deadline := s.now + resyncTicks a t }
                                else s.index.timer }
        [.rdataFlux nr, .ticksSinceIndex]) ∧
      (∀ k (h : k < got.length), m.rdEntry (s.rd.prod + BitVec.ofNat 10 k) = got[k]) ∧
      (∀ j, (∀ k, k < got.length → j ≠ s.rd.prod + BitVec.ofNat 10 k) → m.rdEntry j = s.mem.rdEntry j) ∧
      SameButRdBuf s.mem m) ∧
  ∀ (i : Instr) (s t : State), exec i s = .next t → s.rd.kick = true → t.rd.kick = false →
    i = .rdReplenish ∨ i = .rdFinish ∨ i = .mount ∨ i = .cancel ∨ i = .init ∨ i = .fgHandle

/-- O30. index_resync(t) arms the index timer at now + (ARR - CNT) + the sum of the ring's samples from the DMA
position up to but not including prod - t, whatever Index.active is, and changes nothing else; the sum may be
negative. (R141) -/
def Obligations.IndexResyncTicks : Prop :=
  ∀ (t : Word) (s : State),
    let c := rdPos s.toArch
    let queued := ((List.range (s.rd.prod - c).toNat).map
      fun k => (s.mem.rdEntry (c + BitVec.ofNat 10 k)).toNat).sum
    let ticks : Int := (s.rdTim.arr.toNat : Int) - s.rdTim.cnt.toNat + queued - t.toNat
    resyncTicks s.toArch t = ticks ∧
    indexResync t s = { s with index.timer := { armed := true, deadline := s.now + ticks } }

/-- O31. RD_REPLENISH is the word 0x34000000 of the Foreground, enabled in Active with an image and no busy-wait. It
calls read_track; if that answers true and the kick is set, the kick is cleared and irq.rd_dma pended; nothing else
changes. (That write_mfm.buf, whose upper half the image's read buffer overlays, keeps its contents is the model's
choice, log 31.) (Premise Ready: possible parameters, no fault, no forbidden pair of ring states.) (41_read_engine.md
section 4 (R140)) -/
def Obligations.ReadReplenishRule : Prop :=
  EncodedAs .rdReplenish 0x34000000#32 .foreground ∧
  (∀ s : State, OnlyWhen (s.image.loaded = true ∧ s.fgWait = none ∧ s.rd.state = .active) .rdReplenish s) ∧
  ∀ s : State, Ready s → s.image.loaded = true → s.fgWait = none → s.rd.state = .active →
    (readTrackAnswer s = true → s.rd.kick = true →
      RunsTo .rdReplenish s { s.toArch with rd.kick := false, irq.rdDma := true } [.readTrack]) ∧
    (readTrackAnswer s = false ∨ s.rd.kick = false → RunsTo .rdReplenish s s.toArch [.readTrack])

/-- O32. RD_STOP is the word 0x35000000 of the Foreground, enabled with an image and no busy-wait in Starting or
Active when a step is active, the drive is on another track, or the write engine is not Inactive. It goes Stopping,
disables channel and timer, puts the pin at idle and, if the index is not active, arms the index timer at prev_time +
REV; nothing else changes and no pulse shows. In the same condition FG_HANDLE, with the write engine Inactive, does
the same; after WGATE 1 or CANCEL no read is running and no pulse shows, unless WGATE 1 is unheard or a missed write.
(Premise Ready: possible parameters, no fault, no forbidden pair of ring states.) (R143, R144) -/
def Obligations.ReadStopRule : Prop :=
  EncodedAs .rdStop 0x35000000#32 .foreground ∧
  (∀ s : State, OnlyWhen (s.image.loaded = true ∧ s.fgWait = none ∧ (s.rd.state = .starting ∨ s.rd.state = .active) ∧
    (s.stepper.state = .started ∨ s.stepper.state = .latched ∨ trackOf s.drive ≠ s.rd.track ∨
      s.wr.state ≠ .inactive)) .rdStop s) ∧
  (∀ s : State, Ready s → s.image.loaded = true → s.fgWait = none → s.rd.state = .starting ∨ s.rd.state = .active →
    s.stepper.state = .started ∨ s.stepper.state = .latched ∨ trackOf s.drive ≠ s.rd.track →
    let a : Arch := { s.toArch with
      rd.state := .stopping
      rdDma.en := false
      rdTim.en := false
      pin := .gpoIdle
      index.timer := if s.index.active then s.index.timer
        else { armed := true, deadline := s.index.prevTime + 200 * 1000 * s.cfg.sysclkMhz } }
    RunsTo .rdStop s a ∧ RunsTo .fgHandle s a [] (some (.reenter true)) ∧ pinRdata a = false) ∧
  (∀ s t : State, Ready s → exec .wgate1 s = .next t → s.wr.state = .inactive → t.wr.state = .starting →
    ¬ ReadRunning t.toArch ∧ (ReadRunning s.toArch → pinRdata t.toArch = false)) ∧
  ∀ s t : State, Ready s → exec .cancel s = .next t → t.rd.state = .inactive ∧ pinRdata t.toArch = false

/-- O33. RD_FINISH is the word 0x36000000 of the Foreground, enabled in Stopping with an image and no busy-wait. cons,
prod and the kick are cleared, CNDTR is 1024, the state Inactive; nothing else changes (the entries keep their
contents). (Premise Ready: possible parameters, no fault, no forbidden pair of ring states.) (R145) -/
def Obligations.ReadFinishRule : Prop :=
  EncodedAs .rdFinish 0x36000000#32 .foreground ∧
  (∀ s : State, OnlyWhen (s.image.loaded = true ∧ s.fgWait = none ∧ s.rd.state = .stopping) .rdFinish s) ∧
  ∀ s : State, Ready s → s.image.loaded = true → s.fgWait = none → s.rd.state = .stopping →
    RunsTo .rdFinish s
      { s.toArch with
        rd := { s.rd with state := .inactive, cons := 0, prod := 0, kick := false }
        rdDma.cndtr := 1024#11 }

/-- O34. WR_SERVICE is the word 0x21000000 of the Isr, enabled while irq.wr_dma is pending and DMA interrupts are
enabled. With the write engine Inactive it only clears the request. Else it decodes the samples from cons up to
wr_pos(): for each one, next, curr = next - prev mod 65536, a zero is emitted and 2 us taken off while curr > 3 us,
then a one is emitted and the position word-aligned on a syncword; then cons, prev_sample, mfm, write_mfm.prod are
kept and a partial word is committed. Memory reads as before but for the words of write_mfm.buf it stores to; nothing
else changes. (Premise Ready: possible parameters, no fault, no forbidden pair of ring states.) (R165) -/
def Obligations.WriteServiceRule : Prop :=
  EncodedAs .wrService 0x21000000#32 .isr ∧
  (∀ s : State, OnlyWhen (s.irq.wrDma = true ∧ s.irq.dmaEn = true) .wrService s) ∧
  (∀ s : State, Ready s → s.irq.wrDma = true → s.irq.dmaEn = true → s.wr.state = .inactive →
    RunsTo .wrService s { s.toArch with irq.wrDma := false }) ∧
  (∀ s : State, Ready s → s.irq.wrDma = true → s.irq.dmaEn = true → s.wr.state ≠ .inactive →
    let p := wrPos s.toArch
    let samples := (List.range (p - s.wr.cons).toNat).map fun k => s.mem.wrEntry (s.wr.cons + BitVec.ofNat 10 k)
    let d := decodeSamples s.cfg s.image.syncword samples s.wr.prevSample (decoderOf s)
    let m := (commitPartial s.cfg.mfmWords d).mem
    RunsTo .wrService s
      { s.toArch with
        irq.wrDma := false
        mem := m
        wr := { s.wr with cons := p, prevSample := samples.getLastD s.wr.prevSample, mfm := d.acc }
        mfm.prod := d.bp } ∧
    SameButMfm s.mem m ∧
    ∀ b, (∀ w ∈ serviceStores s, b / 4 ≠ w % s.cfg.mfmWords) → m.mfmByte b = s.mem.mfmByte b) ∧
  ∀ (c : Config) (syncword : Word) (prev next : Sample) (rest : List Sample) (d : Decoder),
    decodeSamples c syncword [] prev d = d ∧
    decodeSamples c syncword (next :: rest) prev d =
      decodeSamples c syncword rest next
        (alignSync syncword
          (emit c.mfmWords true (emitZeros c (next - prev).toNat (next - prev).toNat d)))

/-- O35. In a block with a running clock the zeros emitted for an interval of curr ticks are k in number, the least k
with curr - k * 2 * SYSCLK_MHZ at most 3 * SYSCLK_MHZ: none for an interval of at most 3 us, and each further 2 us or
part of it adds one. (42_write_engine.md section 3 (R165, R166)) -/
def Obligations.IntervalZeros : Prop :=
  ∀ (c : Config) (curr : Nat) (d : Decoder), 0 < c.sysclkMhz →
    ∃ k, emitZeros c curr curr d = (emit c.mfmWords false)^[k] d ∧
      (curr ≤ 3 * c.sysclkMhz → k = 0) ∧
      (3 * c.sysclkMhz < curr → 0 < k ∧ (k - 1) * (2 * c.sysclkMhz) + 3 * c.sysclkMhz < curr ∧
        curr ≤ k * (2 * c.sysclkMhz) + 3 * c.sysclkMhz)

/-- O36. emit(b) shifts the accumulator left by one with b in bit 0, adds 1 to the bit position and, when that is then
a multiple of 32 and only then, stores the accumulator as word (bp/32 - 1) mod MFM_WORDS, big-endian: read back it is
that word, and its first byte holds bits 31:24; every other word and both rings read as before. (At bit position 2^32
- 1 the position wraps to 0 and the word stored to is number 2^32 - 1: the model's choice, log 17.)
(42_write_engine.md section 3 (R167)) -/
def Obligations.EmitRule : Prop :=
  ∀ (words : Nat) (b : Bool) (d : Decoder), 0 < words →
    (emit words b d).acc = (d.acc <<< 1 ||| if b then 1#32 else 0#32) ∧
    (emit words b d).bp = d.bp + 1 ∧
    ((d.bp + 1) % 32#32 ≠ 0 → (emit words b d).mem = d.mem) ∧
    ((d.bp + 1) % 32#32 = 0 →
      let w := ((d.bp + 1) / 32#32 - 1).toNat
      (emit words b d).mem.mfmWord words w = (emit words b d).acc ∧
      (emit words b d).mem.mfmByte (4 * (w % words)) = (emit words b d).acc.extractLsb' 24 8 ∧
      (∀ v, v % words ≠ w % words → (emit words b d).mem.mfmWord words v = d.mem.mfmWord words v) ∧
      SameButMfm d.mem (emit words b d).mem)

/-- O37. On a match of all 32 bits with the syncword the bit position goes down to a multiple of 32 (less than 32
below), else it stays; accumulator and memory are kept. The partial commit stores nothing when bp is a multiple of 32;
else word bp/32 mod MFM_WORDS holds the r = bp mod 32 newest bits of acc from bit 31 down and zeros below, every other
word and both rings read as before, and neither acc nor bp changes. (R168, R169) -/
def Obligations.AlignAndPartialWord : Prop :=
  (∀ (syncword : Word) (d : Decoder),
    (alignSync syncword d).acc = d.acc ∧ (alignSync syncword d).mem = d.mem ∧
    (d.acc ≠ syncword → (alignSync syncword d).bp = d.bp) ∧
    (d.acc = syncword → (alignSync syncword d).bp.toNat = d.bp.toNat / 32 * 32)) ∧
  ∀ (words : Nat) (d : Decoder), 0 < words →
    let r := d.bp.toNat % 32
    let w := d.bp.toNat / 32
    (commitPartial words d).acc = d.acc ∧ (commitPartial words d).bp = d.bp ∧
    (r = 0 → (commitPartial words d).mem = d.mem) ∧
    (r ≠ 0 →
      (∀ k, k < 32 → ((commitPartial words d).mem.mfmWord words w).getLsbD k =
        if 32 - r ≤ k then d.acc.getLsbD (k - (32 - r)) else false) ∧
      (∀ v, v % words ≠ w % words → (commitPartial words d).mem.mfmWord words v = d.mem.mfmWord words v) ∧
      SameButMfm d.mem (commitPartial words d).mem)

/-- O38. A word stored to write_mfm.buf puts bits 31:24 in the first byte, 23:16, 15:8 and 7:0 in the next three, at
index w mod MFM_WORDS; read back it is that word; no other byte changes; and bit number p of the stream is bit 7 - p
mod 8 of byte p / 8 of the buffer taken as a ring, most significant bit first. (R62, R89) -/
def Obligations.MfmWordsAreBigEndian : Prop :=
  ∀ (m : Memory) (words w : Nat) (v : Word), 0 < words →
    let a := 4 * (w % words)
    (m.putMfm words w v).mfmByte a = v.extractLsb' 24 8 ∧
    (m.putMfm words w v).mfmByte (a + 1) = v.extractLsb' 16 8 ∧
    (m.putMfm words w v).mfmByte (a + 2) = v.extractLsb' 8 8 ∧
    (m.putMfm words w v).mfmByte (a + 3) = v.extractLsb' 0 8 ∧
    (m.putMfm words w v).mfmWord words w = v ∧
    (∀ b, b < a ∨ a + 4 ≤ b → (m.putMfm words w v).mfmByte b = m.mfmByte b) ∧
    ∀ p, m.mfmBit words p = (m.mfmWord words (p / 32)).getLsbD (31 - p % 32) ∧
      m.mfmBit words p = (m.mfmByte (p / 8 % (4 * words))).getLsbD (7 - p % 8)

/-- O39. WR_ACTIVATE is the word 0x37000000 of the Foreground, enabled in Starting with the read engine Inactive and
no busy-wait. It calls seek_track with cyl * 2 + head and no position; busy: nothing changes, RETRY; else the state is
Active; nothing else changes. A WGATE 0 at its preemption point leaves Stopping, with capture disabled and the decoder
pended: the CAS loses. Outside a fault, with a read Starting or Active, the operation's own assertion raises
Fatal(EngineOverlap). (Premise Ready: possible parameters, no fault, no forbidden pair of ring states.) (R171) -/
def Obligations.WriteActivateRule : Prop :=
  EncodedAs .wrActivate 0x37000000#32 .foreground ∧
  (∀ s : State, OnlyWhen (s.wr.state = .starting ∧ s.rd.state = .inactive ∧ s.fgWait = none) .wrActivate s) ∧
  (∀ s : State, Ready s → s.wr.state = .starting → s.rd.state = .inactive → s.fgWait = none →
    let call := ImageCall.seekTrack (BitVec.ofNat 9 (s.drive.cyl.toNat * 2 + s.drive.head.toNat)) none
    (s.env.note.atP1 = [] →
      ((seekAnswer s).1 = true → RunsTo .wrActivate s s.toArch [call] (some .retry)) ∧
      ((seekAnswer s).1 = false → RunsTo .wrActivate s { s.toArch with wr.state := .active } [call])) ∧
    (s.env.note.atP1 = [.wgate0] → s.irq.extiEn = true →
      ∃ r, RunsTo .wrActivate s
        { s.toArch with
          wr.state := .stopping
          wrTim := { s.wrTim with en := false, cc1e := false }
          wrDma.en := false
          irq.wrDma := true }
        [call] r)) ∧
  ∀ s : State, s.fault = none → ReadRunning s.toArch →
    wrActivate s = .next { s with fault := some .engineOverlap }

/-- O40. WR_PUMP is the word 0x38000000 of the Foreground, enabled in Active without a busy-wait. It calls
write_track(false); the image may advance write_mfm.cons to a value not beyond write_mfm.prod (to the one the trace
gives, if it gives such a one); nothing else changes. (Premise Ready: possible parameters, no fault, no forbidden pair
of ring states.) (R173) -/
def Obligations.WritePumpRule : Prop :=
  EncodedAs .wrPump 0x38000000#32 .foreground ∧
  (∀ s : State, OnlyWhen (s.wr.state = .active ∧ s.fgWait = none) .wrPump s) ∧
  ∀ s : State, Ready s → s.wr.state = .active → s.fgWait = none →
    ∃ c : Word,
      RunsTo .wrPump s { s.toArch with mfm.cons := c } [.writeTrack false] ∧
      (c = s.mfm.cons ∨ (s.mfm.cons.toNat ≤ c.toNat ∧ c.toNat ≤ s.mfm.prod.toNat)) ∧
      ∀ v rest, s.env.note.mfmConses = v :: rest → s.mfm.cons.toNat ≤ v.toNat → v.toNat ≤ s.mfm.prod.toNat → c = v

/-- O41. WR_DRAIN is the word 0x39000000 of the Foreground, enabled in Stopping with the read engine Inactive and no
busy-wait. With samples left (cons is not the DMA position) it calls write_track(false) and returns AGAIN, changing at
most write_mfm.cons, within prod; else it calls write_track(true) and file_sync, zeroes the four offsets and goes
Inactive; nothing else changes, write_mfm.buf included. (That dma_wr.cons is kept, as R177's pseudocode has it,
although R23 names WR_DRAIN among its writers, is the model's choice, log 30.) (Premise Ready: possible parameters, no
fault, no forbidden pair of ring states.) (42_write_engine.md section 6 (R177, R178)) -/
def Obligations.WriteDrainRule : Prop :=
  EncodedAs .wrDrain 0x39000000#32 .foreground ∧
  (∀ s : State, OnlyWhen (s.wr.state = .stopping ∧ s.rd.state = .inactive ∧ s.fgWait = none) .wrDrain s) ∧
  ∀ s : State, Ready s → s.wr.state = .stopping → s.rd.state = .inactive → s.fgWait = none →
    (s.wr.cons ≠ wrPos s.toArch →
      ∃ c : Word, RunsTo .wrDrain s { s.toArch with mfm.cons := c } [.writeTrack false] (some .again) ∧
        (c = s.mfm.cons ∨ (s.mfm.cons.toNat ≤ c.toNat ∧ c.toNat ≤ s.mfm.prod.toNat))) ∧
    (s.wr.cons = wrPos s.toArch →
      RunsTo .wrDrain s
        { s.toArch with
          mfm := { prod := 0, cons := 0 }
          data := { prod := 0, cons := 0 }
          wr.state := .inactive }
        [.writeTrack true, .fileSync])

/-- O42. INIT is the word 0x40000000 of Control. In any state, faulted or not, of a block with possible parameters it
answers the next state with every field at the value of R48's table, the parameters kept; the machine's own reset
state has the same values. (The model's choice, not R48's: the fields R48 leaves unspecified or does not name are 0,
log 4; the memories hold the unspecified contents of a new epoch, and trace and outputs are kept, log 19.)
(45_control.md section 2 (R266), 10_state.md section 10 (R48)) -/
def Obligations.InitRule : Prop :=
  EncodedAs .init 0x40000000#32 .control ∧
  (∀ s : State, s.cfg.Valid → RunsTo .init s (Arch.reset s.cfg (s.mem.epoch + 1))) ∧
  State.reset.toArch = Arch.reset State.reset.cfg 0 ∧
  ∀ (c : Config) (e : Nat),
    let a := Arch.reset c e
    a.rd.state = .inactive ∧ a.wr.state = .inactive ∧ a.rd.cons = 0 ∧ a.rd.prod = 0 ∧ a.wr.cons = 0 ∧
    a.rd.kick = false ∧ a.wr.prevSample = 0 ∧ a.wr.mfm = 0 ∧
    a.rdTim.en = false ∧ a.rdDma.en = false ∧ a.wrTim.en = false ∧ a.wrDma.en = false ∧ a.wrTim.cc1e = false ∧
    a.rdTim.cnt = 0 ∧ a.wrTim.cnt = 0 ∧ a.rdTim.ccr = BitVec.ofNat 16 c.pulseTicks ∧
    a.rdDma.cndtr.toNat = 1024 ∧ a.wrDma.cndtr.toNat = 1024 ∧ a.pin = .gpoIdle ∧
    a.mfm.prod = 0 ∧ a.mfm.cons = 0 ∧ a.data.prod = 0 ∧ a.data.cons = 0 ∧ a.image.loaded = false ∧
    a.drive.cyl = 0 ∧ a.drive.head = false ∧ a.drive.sel = false ∧ a.stepper.state = .idle ∧
    a.stepper.timer.armed = false ∧ a.index.timer.armed = false ∧ a.index.active = false ∧ a.index.prevTime = 0 ∧
    a.outs.shadow = 0b11100#5 ∧ a.outs.port = 0#5 ∧
    a.irq.rdDma = false ∧ a.irq.wrDma = false ∧ a.irq.stepSoft = false ∧ a.irq.extiEn = false ∧
    a.irq.dmaEn = false ∧ a.log = [] ∧ a.fault = none ∧ a.clicks = 0 ∧ a.now = 0 ∧ a.fgWait = none

/-- O43. MOUNT is the word 0x41000000 of Control, enabled with no image loaded. An open failure changes nothing. Else
the image's writable and syncword are taken, both rings are emptied (CNDTR 1024), the decoder and the four offsets
zeroed, the index starts its free run from now, ready is asserted and, for a writable image, write-protect deasserted,
EXTI and DMA interrupts enabled; nothing else changes. (Premise Ready: possible parameters, no fault, no forbidden
pair of ring states.) (R268, R269) -/
def Obligations.MountRule : Prop :=
  EncodedAs .mount 0x41000000#32 .control ∧
  (∀ s : State, OnlyWhen (s.image.loaded = false) .mount s) ∧
  ∀ s : State, Ready s → s.image.loaded = false →
    (openAnswer s = false → RunsTo .mount s s.toArch [.openImage]) ∧
    (openAnswer s = true →
      let writable := writableAnswer (askOpen s)
      let ready := muxOutputs 0b00010#5 true s.drive.sel s.outs
      RunsTo .mount s
        { s.toArch with
          image := {
            loaded := true
            writable := writable
            syncword := syncwordAnswer (askWritable (askOpen s))
            writeStart := s.image.writeStart }
          rd := { s.rd with cons := 0, prod := 0, kick := false }
          rdDma.cndtr := 1024#11
          wr := { s.wr with cons := 0, prevSample := 0, mfm := 0 }
          wrDma.cndtr := 1024#11
          mfm := { prod := 0, cons := 0 }
          data := { prod := 0, cons := 0 }
          index := {
            active := false
            prevTime := s.now
            timer := { armed := true, deadline := s.now + 200 * 1000 * s.cfg.sysclkMhz } }
          outs := if writable then muxOutputs 0b01000#5 false s.drive.sel ready else ready
          irq := { s.irq with extiEn := true, dmaEn := true } }
        [.openImage])

/-- O44. CANCEL is the word 0x42000000 of Control and runs in every state without a fault. Interrupts and requests are
cleared, both engines Inactive with their peripherals off and rings empty, both software timers unarmed, the step
machine Idle, the busy-wait gone, no image loaded; a write in progress is flushed (write_track(true), file_sync);
index and ready deasserted, disk-change and write-protect asserted; cylinder, head, selection, log, memory and
everything else unchanged. (R272) -/
def Obligations.CancelRule : Prop :=
  EncodedAs .cancel 0x42000000#32 .control ∧
  ∀ s : State, s.cfg.Valid → s.fault = none →
    RunsTo .cancel s
      { s.toArch with
        irq := { rdDma := false, wrDma := false, stepSoft := false, extiEn := false, dmaEn := false }
        index := { s.index with active := false, timer := { s.index.timer with armed := false } }
        rd := { s.rd with state := .inactive, cons := 0, prod := 0, kick := false }
        rdDma := { s.rdDma with en := false, cndtr := 1024#11 }
        rdTim.en := false
        pin := .gpoIdle
        wr := { s.wr with state := .inactive, cons := 0 }
        wrDma := { s.wrDma with en := false, cndtr := 1024#11 }
        wrTim := { s.wrTim with en := false, cc1e := false }
        mfm := { prod := 0, cons := 0 }
        data := { prod := 0, cons := 0 }
        stepper := { s.stepper with state := .idle, timer := { s.stepper.timer with armed := false } }
        fgWait := none
        image.loaded := false
        outs := muxOutputs 0b01100#5 true s.drive.sel (muxOutputs 0b00011#5 false s.drive.sel s.outs) }
      (if s.wr.state = .inactive then [] else [.writeTrack true, .fileSync])

/-- O45. In the state CANCEL leaves, STEP, WGATE 1 and WGATE 0 change nothing, SIDE and SEL write head and selection,
no timer is armed and no counter enabled, and FG_HANDLE changes nothing and returns false; and from every state
without an image and with interrupts disabled, every operation but MOUNT and INIT leaves it so. (Premise Ready:
possible parameters, no fault, no forbidden pair of ring states.) (R273) -/
def Obligations.AfterCancel : Prop :=
  (∀ s t : State, Ready s → exec .cancel s = .next t →
    (∀ d, RunsTo (.step d) t t.toArch) ∧ RunsTo .wgate1 t t.toArch ∧ RunsTo .wgate0 t t.toArch ∧
    (∀ h, RunsTo (.side h) t { t.toArch with drive.head := h }) ∧
    (∀ b, RunsTo (.sel b) t { t.toArch with drive.sel := b, outs.port := if b then t.outs.shadow else 0#5 }) ∧
    t.index.timer.armed = false ∧ t.stepper.timer.armed = false ∧ t.rdTim.en = false ∧ t.wrTim.en = false ∧
    RunsTo .fgHandle t t.toArch [] (some (.reenter false))) ∧
  ∀ (i : Instr) (s t : State), exec i s = .next t → s.image.loaded = false → s.irq.extiEn = false →
    s.irq.dmaEn = false → i ≠ .mount → i ≠ .init →
    t.image.loaded = false ∧ t.irq.extiEn = false ∧ t.irq.dmaEn = false

/-- O46. FG_HANDLE is the word 0x30000000 of the Foreground. Without an image it changes nothing and returns false;
inside a busy-wait that is not over it changes nothing and returns true; with both engines Inactive and a step active
it changes nothing and returns false. (Premise Ready: possible parameters, no fault, no forbidden pair of ring
states.) (45_control.md section 4 (R270, R271)) -/
def Obligations.ForegroundIdle : Prop :=
  EncodedAs .fgHandle 0x30000000#32 .foreground ∧
  ∀ s : State, Ready s →
    (s.image.loaded = false → RunsTo .fgHandle s s.toArch [] (some (.reenter false))) ∧
    (s.image.loaded = true → (∃ w, s.fgWait = some w ∧ (s.now : Int) < w) →
      RunsTo .fgHandle s s.toArch [] (some (.reenter true))) ∧
    (s.image.loaded = true → s.fgWait = none → s.rd.state = .inactive → s.wr.state = .inactive →
      s.stepper.state = .started ∨ s.stepper.state = .latched →
      RunsTo .fgHandle s s.toArch [] (some (.reenter false)))

/-- O47. With an image, in every row of the dispatch table but those that do nothing, FG_HANDLE has the architectural
effect, and makes the calls, of the operations of the row run one after the other, if these run; what it returns is
whether an engine is then not Inactive. Both engines Inactive, no step active: RD_SEEK. Read Inactive: WR_ACTIVATE,
WR_PUMP, WR_DRAIN by the write state, RD_SEEK after a WR_DRAIN that finds the ring empty with no step active. Read
Stopping: RD_FINISH, then WR_ACTIVATE, or WR_DRAIN, then RD_SEEK where the write engine is or becomes Inactive and no
step is active. Read Starting or Active: RD_STOP under the stop condition; else in Starting RD_PREFILL, RD_START or
both, in Active RD_REPLENISH. At the end of a busy-wait: RD_START, then what is due after it; in Starting that is
RD_REPLENISH, or RD_STOP under the stop condition. (Premise Ready: possible parameters, no fault, no forbidden pair of
ring states.) (45_control.md section 4 (R270), 95_test_vectors.md section 2.8) -/
def Obligations.ForegroundRunsWhatIsDue : Prop :=
  ∀ s : State, Ready s → s.image.loaded = true →
    let due : List Instr → Prop := fun l => ∀ t, runAll l s = .next t →
      ∃ u, exec .fgHandle s = .next u ∧ u.toArch = t.toArch ∧ u.env.calls = t.env.calls ∧
        u.env.ret = some (.reenter (decide (t.rd.state ≠ .inactive ∨ t.wr.state ≠ .inactive)))
    let drained := s.wr.cons = wrPos s.toArch
    (s.fgWait = none →
      (s.rd.state = .inactive →
        (s.wr.state = .inactive → ¬ StepActive s.toArch → due [.rdSeek]) ∧
        (s.wr.state = .starting → due [.wrActivate]) ∧
        (s.wr.state = .active → due [.wrPump]) ∧
        (s.wr.state = .stopping → ¬ drained ∨ StepActive s.toArch → due [.wrDrain]) ∧
        (s.wr.state = .stopping → drained → ¬ StepActive s.toArch → due [.wrDrain, .rdSeek])) ∧
      (s.rd.state = .stopping →
        (s.wr.state = .inactive → StepActive s.toArch → due [.rdFinish]) ∧
        (s.wr.state = .inactive → ¬ StepActive s.toArch → due [.rdFinish, .rdSeek]) ∧
        (s.wr.state = .starting → due [.rdFinish, .wrActivate]) ∧
        (s.wr.state = .stopping → ¬ drained ∨ StepActive s.toArch → due [.rdFinish, .wrDrain]) ∧
        (s.wr.state = .stopping → drained → ¬ StepActive s.toArch → due [.rdFinish, .wrDrain, .rdSeek])) ∧
      (s.rd.state = .starting → ¬ StopCondition s.toArch →
        (∀ t, exec .rdPrefill s = .next t → exec .rdStart t = .refused .notEnabled → due [.rdPrefill]) ∧
        due [.rdPrefill, .rdStart] ∧
        (exec .rdPrefill s = .refused .notEnabled → due [.rdStart])) ∧
      (s.rd.state = .active → ¬ StopCondition s.toArch → due [.rdReplenish]) ∧
      (ReadRunning s.toArch → StopCondition s.toArch → due [.rdStop])) ∧
    (s.fgWait ≠ none →
      (s.rd.state = .starting ∨ s.rd.state = .stopping → due [.rdStart, .fgHandle]) ∧
      (s.rd.state = .starting → ¬ StopCondition s.toArch → due [.rdStart, .rdReplenish]) ∧
      (s.rd.state = .starting → StopCondition s.toArch → due [.rdStart, .rdStop]))

/-- O48. With a read Active, WGATE 1 heard gives read Stopping, the pin silent and write Starting; one FG_HANDLE then,
with the image not busy (whatever position it gives) and nothing at the preemption point, finishes the read (ring
empty, Inactive) and makes the write Active, the pin still silent. (Premise Ready: possible parameters, no fault, no
forbidden pair of ring states.) (R179) -/
def Obligations.ForegroundTurnsReadIntoWrite : Prop :=
  ∀ s : State, Ready s → s.rd.state = .active → s.fgWait = none → s.image.loaded = true → InputsHeard s →
    ∃ t, exec .wgate1 s = .next t ∧ t.rd.state = .stopping ∧ t.wr.state = .starting ∧ pinRdata t.toArch = false ∧
      ∀ (n : Annotation) (pos : Word), n.atP1 = [] → n.seeks.head? = some (false, pos) →
        ∃ u, exec .fgHandle { t with env.note := n } = .next u ∧ u.rd.state = .inactive ∧ u.rd.cons = 0 ∧
          u.rd.prod = 0 ∧ u.rdDma.cndtr = 1024#11 ∧ u.wr.state = .active ∧ pinRdata u.toArch = false ∧
          u.wrTim = t.wrTim ∧ u.wrDma = t.wrDma ∧ u.mem = s.mem ∧ u.env.ret = some (.reenter true)

/-- O49. raise Fatal sets fault (kept if set) and nothing else. With fault set every operation but INIT is refused,
and INIT runs and clears it. Every operation that answers a state with a forbidden pair of ring states (R44) leaves
fault set; a write of a ring state outside the transitions of R21 sets fault and leaves the state. (That such a write
is not done, and that the first reason is the one kept, is the model's choice, log 12.) (60_exceptions.md section 1
(R286), 10_state.md section 8 (R39)) -/
def Obligations.FaultIsFinal : Prop :=
  (∀ (r : FatalReason) (s : State), (raiseFatal r s).toArch = { s.toArch with fault := some (s.fault.getD r) }) ∧
  (∀ (i : Instr) (s : State), s.cfg.Valid → s.fault ≠ none → i ≠ .init → exec i s = .refused .blockFaulted) ∧
  (∀ s : State, s.cfg.Valid → ∃ t, exec .init s = .next t ∧ t.fault = none) ∧
  (∀ (i : Instr) (s t : State), exec i s = .next t →
    ((t.rd.state = .starting ∨ t.rd.state = .active) ∧ t.wr.state ≠ .inactive) ∨
      (t.wr.state = .active ∧ t.rd.state ≠ .inactive) → t.fault ≠ none) ∧
  (∀ (n : RingState) (s : State), n ≠ s.rd.state → s.rd.state.canBecome n = false → s.fault = none →
    (setRdState n s).toArch = { s.toArch with fault := some .badTransition }) ∧
  ∀ (n : RingState) (s : State), n ≠ s.wr.state → s.wr.state.canBecome n = false → s.fault = none →
    (setWrState n s).toArch = { s.toArch with fault := some .badTransition }

/-- O50. The legal set is the five transitions. Every operation but RD_SEEK, FG_HANDLE, CANCEL and INIT (which make
more than one, each checked where it is made) leaves the read state or makes one legal transition; every operation but
RD_SEEK, FG_HANDLE, CANCEL and INIT (WR_ACTIVATE with whatever stands at its preemption point included) leaves the
write state or makes one legal transition; and no write of a ring state anywhere makes another. (R21) -/
def Obligations.RingStatesMoveLegally : Prop :=
  (∀ a b : RingState, a.canBecome b = true ↔
    (a, b) ∈ [(.inactive, .starting), (.starting, .active), (.starting, .stopping), (.active, .stopping),
      (.stopping, .inactive)]) ∧
  (∀ (i : Instr) (s t : State), exec i s = .next t → i ≠ .rdSeek → i ≠ .fgHandle → i ≠ .cancel → i ≠ .init →
    (t.rd.state = s.rd.state ∨ s.rd.state.canBecome t.rd.state = true) ∧
    (t.wr.state = s.wr.state ∨ s.wr.state.canBecome t.wr.state = true)) ∧
  ∀ (n : RingState) (s : State),
    ((setRdState n s).rd.state = s.rd.state ∨ s.rd.state.canBecome (setRdState n s).rd.state = true) ∧
    ((setWrState n s).wr.state = s.wr.state ∨ s.wr.state.canBecome (setWrState n s).wr.state = true)

/-- O51. A read leaves Inactive, and enters Starting, only by RD_SEEK; enters Active only by RD_START; enters Stopping
only by RD_SEEK (its re-check), RD_STOP or WGATE 1; leaves Stopping, and enters Inactive, only by RD_FINISH, CANCEL or
INIT; each of these also inside FG_HANDLE. A write leaves Inactive, and enters Starting, only by WGATE 1, alone or at
a preemption point of RD_SEEK, WR_ACTIVATE or FG_HANDLE; enters Active only by WR_ACTIVATE; enters Stopping only by
WGATE 0, alone or at such a preemption point; leaves Stopping, and enters Inactive, only by WR_DRAIN, CANCEL or INIT;
WR_ACTIVATE and WR_DRAIN also inside FG_HANDLE. (40_ring_dma.md section 1 (R104)) -/
def Obligations.OnlyTheNamedActorsMoveTheRings : Prop :=
  ∀ (i : Instr) (s t : State), exec i s = .next t →
    let preempted : Instr → Prop := fun j => (i = .rdSeek ∨ i = .fgHandle ∨ i = .wrActivate) ∧
      (j ∈ s.env.note.atP1 ∨ j ∈ s.env.note.atP2)
    (s.rd.state = .inactive → t.rd.state ≠ .inactive → i = .rdSeek ∨ i = .fgHandle) ∧
    (s.rd.state ≠ .starting → t.rd.state = .starting → i = .rdSeek ∨ i = .fgHandle) ∧
    (s.rd.state ≠ .active → t.rd.state = .active → i = .rdStart ∨ i = .fgHandle) ∧
    (s.rd.state ≠ .stopping → t.rd.state = .stopping → i = .rdSeek ∨ i = .rdStop ∨ i = .wgate1 ∨ i = .fgHandle) ∧
    (s.rd.state = .stopping → t.rd.state ≠ .stopping → i = .rdFinish ∨ i = .cancel ∨ i = .init ∨ i = .fgHandle) ∧
    (s.rd.state ≠ .inactive → t.rd.state = .inactive → i = .rdFinish ∨ i = .cancel ∨ i = .init ∨ i = .fgHandle) ∧
    (s.wr.state = .inactive → t.wr.state ≠ .inactive → i = .wgate1 ∨ preempted .wgate1) ∧
    (s.wr.state ≠ .starting → t.wr.state = .starting → i = .wgate1 ∨ preempted .wgate1) ∧
    (s.wr.state ≠ .active → t.wr.state = .active → i = .wrActivate ∨ i = .fgHandle) ∧
    (s.wr.state ≠ .stopping → t.wr.state = .stopping → i = .wgate0 ∨ preempted .wgate0) ∧
    (s.wr.state = .stopping → t.wr.state ≠ .stopping → i = .wrDrain ∨ i = .cancel ∨ i = .init ∨ i = .fgHandle) ∧
    (s.wr.state ≠ .inactive → t.wr.state = .inactive → i = .wrDrain ∨ i = .cancel ∨ i = .init ∨ i = .fgHandle)

/-- O52. If TICK n answers a next state its now is n more; every other operation leaves now (INIT, the reset, sets it
to 0). (R260) -/
def Obligations.OnlyTickMovesTime : Prop :=
  ∀ (i : Instr) (s t : State), exec i s = .next t →
    t.now = match i with
      | .tick n => s.now + n
      | .init => 0
      | _ => s.now

/-- O53. STEP_FIRE leaves Drive.cyl or moves it by one step_cyl in the direction of Step.inward. TICK n leaves it or,
with latency 0, may move it by one such step_cyl, however long it is (it may run STEP_FIRE inside); with a latency it
leaves it. Every other operation but INIT moves it by step_cyl only, at most as often as STEP_FIRE stands at its
preemption points; so with none there it leaves it. (44_step_status.md section 1 (R231)) -/
def Obligations.OnlyTheStepTimerMovesTheHead : Prop :=
  ∀ (i : Instr) (s t : State), exec i s = .next t → i ≠ .init →
    (i = .stepFire ∨ (∃ n, i = .tick n) →
      t.drive.cyl = s.drive.cyl ∨ t.drive.cyl = stepCyl s.drive.cyl s.stepper.inward) ∧
    ((∃ n, i = .tick n) → 0 < s.cfg.maxIrqLatency → t.drive.cyl = s.drive.cyl) ∧
    (i ≠ .stepFire → (∀ n, i ≠ .tick n) →
      ∃ ds : List Bool, ds.length ≤ (s.env.note.atP1 ++ s.env.note.atP2).count .stepFire ∧
        t.drive.cyl = ds.foldl stepCyl s.drive.cyl)

/-- O54. Every operation but INIT leaves the log as a beginning of the new log; what it appends are Underrun and
MissedWrite records whose time is now; and it never takes a click back. (10_state.md section 8 (R39), 60_exceptions.md
section 1 (R281, R287)) -/
def Obligations.LogOnlyGrows : Prop :=
  ∀ (i : Instr) (s t : State), exec i s = .next t → i ≠ .init →
    s.clicks ≤ t.clicks ∧
    ∃ added : List LogRecord, t.log = s.log ++ added ∧
      ∀ r ∈ added, r.time = s.now ∧ (r.kind = .underrun ∨ r.kind = .missedWrite)

/-- O55. From every state that has it, whatever else is wrong with that state, every step keeps the mux invariant; the
reset state has it. (R243) -/
def Obligations.MuxInvariantKept : Prop :=
  (∀ s t : State, (s.drive.sel = true → s.outs.port = s.outs.shadow) → (s.drive.sel = false → s.outs.port = 0) →
    step s = .next t →
    (t.drive.sel = true → t.outs.port = t.outs.shadow) ∧ (t.drive.sel = false → t.outs.port = 0)) ∧
  (State.reset.drive.sel = true → State.reset.outs.port = State.reset.outs.shadow) ∧
  (State.reset.drive.sel = false → State.reset.outs.port = 0)

/-- O56. If a step answers a next state, its trace is what stood behind the first event (that the trace stands in
State and a step takes one event from it is the model's choice, log 7), and the parameters, which are no state of the
block (log 1), are unchanged. (30_encoding.md section 1 (R80), 10_state.md section 8 (R43)) -/
def Obligations.StepTakesOneEvent : Prop :=
  ∀ s t : State, step s = .next t → ∃ e, s.env.trace = e :: t.env.trace ∧ t.cfg = s.cfg

/-- O57. State.reset has the invariant Inv and is quiescent (R337); so has the state INIT leaves, from any state with
possible parameters. (10_state.md section 9, 70_reset_and_hazards.md section 1) -/
def Obligations.ResetHasTheInvariant : Prop :=
  Inv State.reset ∧ Quiescent State.reset.toArch ∧
  ∀ s t : State, exec .init s = .next t → Inv t ∧ Quiescent t.toArch

/-- O58. From every state with Inv, if a step answers a next state, that state has Inv: no fault is set, the engines
exclude each other (R44), memory keeps its canonical form, the port follows the shadow (R243), CNDTR stays in 1..1024
and no beat is left over, the read peripherals run exactly while a read is Active with the counter below a reload
value that is not 0, the capture runs exactly in Starting and Active, the enables follow the image and without one
everything rests, a busy-wait belongs to a start, a pulse waits for its soft IRQ and a latched or settling step for
its timer, and the marks of R261 are up to date. (10_state.md section 9 (R44 to R47), 40_ring_dma.md section 1 (R102),
44_step_status.md section 3 (R243), 70_reset_and_hazards.md section 3) -/
def Obligations.EveryStepKeepsTheInvariant : Prop :=
  ∀ s t : State, Inv s → step s = .next t → Inv t
end

