-- ==== Sys2Proof/Laws/Memory.lean ====
section
/-! SUPPORT. The memories: a read after a write, the frame of a write, and that every memory operation keeps the
canonical form. -/

namespace Sys2Proof.Machine

variable {α : Type}

theorem Cells.get_put_same (m : List (Nat × α)) (i : Nat) (v : α) : Cells.get (Cells.put m i v) i = some v := by
  induction m with
  | nil => simp [Cells.put, Cells.get]
  | cons c m ih =>
    obtain ⟨j, w⟩ := c
    simp only [Cells.put]
    split
    · simp [Cells.get]
    · split
      · simp [Cells.get]
      · next h1 h2 => simp [Cells.get, Ne.symm h2, ih]

theorem Cells.get_put_other (m : List (Nat × α)) {i k : Nat} (v : α) (h : i ≠ k) :
    Cells.get (Cells.put m i v) k = Cells.get m k := by
  induction m with
  | nil => simp [Cells.put, Cells.get, h]
  | cons c m ih =>
    obtain ⟨j, w⟩ := c
    simp only [Cells.put]
    split
    · simp [Cells.get, h]
    · split
      · next h1 h2 => subst h2; simp [Cells.get, h]
      · simp [Cells.get, ih]

/-- A write between the bounds keeps the canonical form. -/
theorem Cells.put_wf (m : List (Nat × α)) {lo hi i : Nat} (v : α) (h : Cells.wf lo hi m = true) (hl : lo ≤ i)
    (hh : i < hi) : Cells.wf lo hi (Cells.put m i v) = true := by
  induction m generalizing lo with
  | nil => simp [Cells.put, Cells.wf, hl, hh]
  | cons c m ih =>
    obtain ⟨j, w⟩ := c
    simp only [Cells.wf, Bool.and_eq_true, decide_eq_true_eq] at h
    simp only [Cells.put]
    split
    · simp only [Cells.wf, Bool.and_eq_true, decide_eq_true_eq]; exact ⟨⟨hl, hh⟩, ⟨by omega, h.1.2⟩, h.2⟩
    · split
      · next h2 => subst h2; simp only [Cells.wf, Bool.and_eq_true, decide_eq_true_eq]; exact ⟨⟨hl, hh⟩, h.2⟩
      · simp only [Cells.wf, Bool.and_eq_true, decide_eq_true_eq]
        exact ⟨h.1, ih h.2 (by omega)⟩

theorem Memory.wf_iff (words : Nat) (m : Memory) :
    m.wf words = true ↔ Cells.wf 0 1024 m.rdBuf = true ∧ Cells.wf 0 1024 m.wrBuf = true ∧
      Cells.wf 0 (4 * words) m.mfmBuf = true := by
  simp [Memory.wf, Config.cap, and_assoc]

/-! The rings. -/

@[simp] theorem Memory.rdEntry_putRd (m : Memory) (i j : RingIx) (v : Sample) :
    (m.putRd i v).rdEntry j = if i = j then v else m.rdEntry j := by
  unfold Memory.rdEntry Memory.putRd
  split
  · next h => subst h; simp [Cells.get_put_same]
  · next h => rw [Cells.get_put_other _ _ (fun e => h (BitVec.eq_of_toNat_eq e))]

@[simp] theorem Memory.wrEntry_putWr (m : Memory) (i j : RingIx) (v : Sample) :
    (m.putWr i v).wrEntry j = if i = j then v else m.wrEntry j := by
  unfold Memory.wrEntry Memory.putWr
  split
  · next h => subst h; simp [Cells.get_put_same]
  · next h => rw [Cells.get_put_other _ _ (fun e => h (BitVec.eq_of_toNat_eq e))]

@[simp] theorem Memory.wrEntry_putRd (m : Memory) (i j : RingIx) (v : Sample) :
    (m.putRd i v).wrEntry j = m.wrEntry j := rfl
@[simp] theorem Memory.mfmByte_putRd (m : Memory) (i : RingIx) (a : Nat) (v : Sample) :
    (m.putRd i v).mfmByte a = m.mfmByte a := rfl
@[simp] theorem Memory.rdEntry_putWr (m : Memory) (i j : RingIx) (v : Sample) :
    (m.putWr i v).rdEntry j = m.rdEntry j := rfl
@[simp] theorem Memory.mfmByte_putWr (m : Memory) (i : RingIx) (a : Nat) (v : Sample) :
    (m.putWr i v).mfmByte a = m.mfmByte a := rfl
@[simp] theorem Memory.rdEntry_putMfm (m : Memory) (n w : Nat) (v : Word) (i : RingIx) :
    (m.putMfm n w v).rdEntry i = m.rdEntry i := rfl
@[simp] theorem Memory.wrEntry_putMfm (m : Memory) (n w : Nat) (v : Word) (i : RingIx) :
    (m.putMfm n w v).wrEntry i = m.wrEntry i := rfl
@[simp] theorem Memory.rdBuf_putMfm (m : Memory) (n w : Nat) (v : Word) : (m.putMfm n w v).rdBuf = m.rdBuf := rfl
@[simp] theorem Memory.wrBuf_putMfm (m : Memory) (n w : Nat) (v : Word) : (m.putMfm n w v).wrBuf = m.wrBuf := rfl
@[simp] theorem Memory.epoch_putMfm (m : Memory) (n w : Nat) (v : Word) : (m.putMfm n w v).epoch = m.epoch := rfl

/-! The MFM buffer. -/

/-- Byte `j` of the word just written. -/
theorem Memory.mfmByte_putMfm_same (m : Memory) (n w : Nat) (v : Word) {j : Nat} (hj : j < 4) :
    (m.putMfm n w v).mfmByte (4 * (w % n) + j) = byteOf v j := by
  unfold Memory.mfmByte Memory.putMfm
  obtain rfl | rfl | rfl | rfl : j = 0 ∨ j = 1 ∨ j = 2 ∨ j = 3 := by omega
  all_goals simp [Cells.get_put_same, Cells.get_put_other]

/-- Every other byte. -/
theorem Memory.mfmByte_putMfm_other (m : Memory) (n w : Nat) (v : Word) {a : Nat}
    (ha : a < 4 * (w % n) ∨ 4 * (w % n) + 4 ≤ a) : (m.putMfm n w v).mfmByte a = m.mfmByte a := by
  unfold Memory.mfmByte Memory.putMfm
  simp only
  rw [Cells.get_put_other _ _ (by omega), Cells.get_put_other _ _ (by omega), Cells.get_put_other _ _ (by omega),
    Cells.get_put_other _ _ (by omega)]

/-! The canonical form. -/

theorem Memory.putRd_wf {n : Nat} {m : Memory} (h : m.wf n = true) (i : RingIx) (v : Sample) :
    (m.putRd i v).wf n = true := by
  rw [Memory.wf_iff] at *
  exact ⟨Cells.put_wf _ _ h.1 (Nat.zero_le _) i.isLt, h.2⟩

theorem Memory.putWr_wf {n : Nat} {m : Memory} (h : m.wf n = true) (i : RingIx) (v : Sample) :
    (m.putWr i v).wf n = true := by
  rw [Memory.wf_iff] at *
  exact ⟨h.1, Cells.put_wf _ _ h.2.1 (Nat.zero_le _) i.isLt, h.2.2⟩

theorem Memory.putMfm_wf {n : Nat} {m : Memory} (hn : 0 < n) (h : m.wf n = true) (w : Nat) (v : Word) :
    (m.putMfm n w v).wf n = true := by
  rw [Memory.wf_iff] at *
  have hw := Nat.mod_lt w hn
  refine ⟨h.1, h.2.1, ?_⟩
  apply Cells.put_wf _ _ _ (by omega) (by omega)
  apply Cells.put_wf _ _ _ (by omega) (by omega)
  apply Cells.put_wf _ _ _ (by omega) (by omega)
  exact Cells.put_wf _ _ h.2.2 (by omega) (by omega)

theorem Memory.putSamples_wf {n : Nat} {m : Memory} (h : m.wf n = true) (vs : List Sample) (i : RingIx) :
    (m.putSamples vs i).wf n = true := by
  induction vs generalizing m i with
  | nil => exact h
  | cons v vs ih => exact ih (Memory.putRd_wf h i v) (i + 1)

@[simp] theorem Memory.putSamples_wrBuf (m : Memory) (vs : List Sample) (i : RingIx) :
    (m.putSamples vs i).wrBuf = m.wrBuf := by
  induction vs generalizing m i with
  | nil => rfl
  | cons v vs ih => exact ih (m.putRd i v) (i + 1)

@[simp] theorem Memory.putSamples_mfmBuf (m : Memory) (vs : List Sample) (i : RingIx) :
    (m.putSamples vs i).mfmBuf = m.mfmBuf := by
  induction vs generalizing m i with
  | nil => rfl
  | cons v vs ih => exact ih (m.putRd i v) (i + 1)

@[simp] theorem Memory.putSamples_epoch (m : Memory) (vs : List Sample) (i : RingIx) :
    (m.putSamples vs i).epoch = m.epoch := by
  induction vs generalizing m i with
  | nil => rfl
  | cons v vs ih => exact ih (m.putRd i v) (i + 1)

/-- An entry that is not among those written. -/
theorem Memory.rdEntry_putSamples_other (m : Memory) (vs : List Sample) (i j : RingIx)
    (h : ∀ k, k < vs.length → j ≠ i + BitVec.ofNat 10 k) : (m.putSamples vs i).rdEntry j = m.rdEntry j := by
  induction vs generalizing m i with
  | nil => rfl
  | cons v vs ih =>
    have h0 : j ≠ i := by simpa using h 0 (by simp)
    refine (ih (m.putRd i v) (i + 1) fun k hk => ?_).trans ?_
    · have := h (k + 1) (by simpa using hk)
      rwa [BitVec.ofNat_add, BitVec.add_comm (BitVec.ofNat 10 k), ← BitVec.add_assoc] at this
    · rw [Memory.rdEntry_putRd, if_neg fun e => h0 e.symm]

/-- Sample number `k` of those written, where no entry is written twice. -/
theorem Memory.rdEntry_putSamples_same (m : Memory) (vs : List Sample) (i : RingIx) (hl : vs.length ≤ 1024) {k : Nat}
    (hk : k < vs.length) : (m.putSamples vs i).rdEntry (i + BitVec.ofNat 10 k) = vs[k] := by
  induction vs generalizing m i k with
  | nil => simp at hk
  | cons v vs ih =>
    rw [List.length_cons] at hl hk
    cases k with
    | zero =>
      refine (Memory.rdEntry_putSamples_other (m.putRd i v) vs (i + 1) _ fun k hk' e => ?_).trans ?_
      · have : (i + BitVec.ofNat 10 0).toNat = (i + 1 + BitVec.ofNat 10 k).toNat := by rw [e]
        rw [BitVec.add_assoc] at this
        simp only [BitVec.toNat_add, BitVec.toNat_ofNat, show (1 : RingIx).toNat = 1 from rfl] at this
        omega
      · rw [Memory.rdEntry_putRd, if_pos (by simp)]
        rfl
    | succ k =>
      have := ih (m.putRd i v) (i + 1) (k := k) (by omega) (by omega)
      rw [BitVec.ofNat_add, BitVec.add_comm (BitVec.ofNat 10 k), ← BitVec.add_assoc]
      exact this

/-- The samples at `n` indices, by number. -/
theorem Memory.rdSamples_eq (m : Memory) (n : Nat) (i : RingIx) :
    m.rdSamples n i = (List.range n).map fun k => m.rdEntry (i + BitVec.ofNat 10 k) := by
  induction n generalizing i with
  | zero => rfl
  | succ n ih =>
    rw [List.range_succ_eq_map, List.map_cons, List.map_map, Memory.rdSamples, ih]
    congr 1
    · simp
    · refine List.map_congr_left fun k _ => ?_
      simp only [Function.comp, Nat.succ_eq_add_one]
      rw [BitVec.ofNat_add, BitVec.add_comm (BitVec.ofNat 10 k), ← BitVec.add_assoc]
      rfl

theorem Memory.wrSamples_eq (m : Memory) (n : Nat) (i : RingIx) :
    m.wrSamples n i = (List.range n).map fun k => m.wrEntry (i + BitVec.ofNat 10 k) := by
  induction n generalizing i with
  | zero => rfl
  | succ n ih =>
    rw [List.range_succ_eq_map, List.map_cons, List.map_map, Memory.wrSamples, ih]
    congr 1
    · simp
    · refine List.map_congr_left fun k _ => ?_
      simp only [Function.comp, Nat.succ_eq_add_one]
      rw [BitVec.ofNat_add, BitVec.add_comm (BitVec.ofNat 10 k), ← BitVec.add_assoc]
      rfl

/-- A word just written reads back. -/
theorem Memory.mfmWord_putMfm_same (m : Memory) (n w : Nat) (v : Word) : (m.putMfm n w v).mfmWord n w = v := by
  unfold Memory.mfmWord
  have h0 := Memory.mfmByte_putMfm_same m n w v (j := 0) (by omega)
  rw [Nat.add_zero] at h0
  dsimp only
  rw [h0, Memory.mfmByte_putMfm_same m n w v (j := 1) (by omega), Memory.mfmByte_putMfm_same m n w v (j := 2) (by omega),
    Memory.mfmByte_putMfm_same m n w v (j := 3) (by omega)]
  unfold byteOf
  ext k hk
  simp only [BitVec.getElem_append, BitVec.getElem_extractLsb']
  split
  · rw [show 24 - 8 * 3 + k = k by omega]; exact BitVec.getLsbD_eq_getElem (by omega)
  · split
    · next h1 h => rw [show 8 + (k - 8) = k by omega]; simp [hk]
    · split
      · next h2 h1 h => rw [show 16 + (k - 8 - 8) = k by omega]; simp [hk]
      · next h2 h1 h => rw [show 24 + (k - 8 - 8 - 8) = k by omega]; simp [hk]

/-- Every other word. -/
theorem Memory.mfmWord_putMfm_other (m : Memory) (n w x : Nat) (v : Word) (h : x % n ≠ w % n) :
    (m.putMfm n w v).mfmWord n x = m.mfmWord n x := by
  unfold Memory.mfmWord
  dsimp only
  rw [Memory.mfmByte_putMfm_other _ _ _ _ (by omega), Memory.mfmByte_putMfm_other _ _ _ _ (by omega),
    Memory.mfmByte_putMfm_other _ _ _ _ (by omega), Memory.mfmByte_putMfm_other _ _ _ _ (by omega)]

end Sys2Proof.Machine
end

