-- ==== Sys2Proof/Laws/State.lean ====
section
/-! SUPPORT. What each named update of the state does to each part of the state: the architectural state (one equation
gives every field of it), the parameters, the marks of R261, the trace and the annotation. -/

namespace Sys2Proof.Machine

@[simp] theorem DmaChannel.beat_en (d : DmaChannel) : d.beat.en = d.en := rfl
@[simp] theorem DmaChannel.beat_req (d : DmaChannel) : d.beat.req = false := rfl
@[simp] theorem DmaChannel.beat_cndtr (d : DmaChannel) :
    d.beat.cndtr = if FullTransfer (d.cndtr - 1) then capCount else d.cndtr - 1 := rfl
@[simp] theorem DmaChannel.beat_ht (d : DmaChannel) : d.beat.ht = (d.ht || decide (HalfTransfer (d.cndtr - 1))) := rfl
@[simp] theorem DmaChannel.beat_tc (d : DmaChannel) : d.beat.tc = (d.tc || decide (FullTransfer (d.cndtr - 1))) := rfl

@[simp] theorem logError_toArch (k : ErrorKind) (s : State) :
    (logError k s).toArch = { s.toArch with log := s.log ++ [⟨k, s.now⟩] } := rfl
@[simp] theorem logError_cfg (k : ErrorKind) (s : State) : (logError k s).cfg = s.cfg := rfl
@[simp] theorem logError_owed (k : ErrorKind) (s : State) : (logError k s).owed = s.owed := rfl
@[simp] theorem logError_env (k : ErrorKind) (s : State) : (logError k s).env = s.env := rfl

@[simp] theorem raiseFatal_toArch (r : FatalReason) (s : State) :
    (raiseFatal r s).toArch = { s.toArch with fault := some (s.fault.getD r) } := rfl
@[simp] theorem raiseFatal_cfg (r : FatalReason) (s : State) : (raiseFatal r s).cfg = s.cfg := rfl
@[simp] theorem raiseFatal_owed (r : FatalReason) (s : State) : (raiseFatal r s).owed = s.owed := rfl
@[simp] theorem raiseFatal_env (r : FatalReason) (s : State) : (raiseFatal r s).env = s.env := rfl

@[simp] theorem barrier_toArch (s : State) :
    (barrier s).toArch = s.toArch := rfl
@[simp] theorem barrier_cfg (s : State) : (barrier s).cfg = s.cfg := rfl
@[simp] theorem barrier_owed (s : State) : (barrier s).owed = s.owed := rfl
@[simp] theorem barrier_env (s : State) : (barrier s).env = s.env := rfl

@[simp] theorem pendRd_toArch (s : State) :
    (pendRd s).toArch = { s.toArch with irq.rdDma := true } := rfl
@[simp] theorem pendRd_cfg (s : State) : (pendRd s).cfg = s.cfg := rfl
@[simp] theorem pendRd_owed (s : State) : (pendRd s).owed = s.owed := rfl
@[simp] theorem pendRd_env (s : State) : (pendRd s).env = s.env := rfl

@[simp] theorem pendWr_toArch (s : State) :
    (pendWr s).toArch = { s.toArch with irq.wrDma := true } := rfl
@[simp] theorem pendWr_cfg (s : State) : (pendWr s).cfg = s.cfg := rfl
@[simp] theorem pendWr_owed (s : State) : (pendWr s).owed = s.owed := rfl
@[simp] theorem pendWr_env (s : State) : (pendWr s).env = s.env := rfl

@[simp] theorem pendStep_toArch (s : State) :
    (pendStep s).toArch = { s.toArch with irq.stepSoft := true } := rfl
@[simp] theorem pendStep_cfg (s : State) : (pendStep s).cfg = s.cfg := rfl
@[simp] theorem pendStep_owed (s : State) : (pendStep s).owed = s.owed := rfl
@[simp] theorem pendStep_env (s : State) : (pendStep s).env = s.env := rfl

@[simp] theorem setOutputs_toArch (m : OutSet) (v : Bool) (s : State) :
    (setOutputs m v s).toArch = { s.toArch with outs := muxOutputs m v s.drive.sel s.outs } := rfl
@[simp] theorem setOutputs_cfg (m : OutSet) (v : Bool) (s : State) : (setOutputs m v s).cfg = s.cfg := rfl
@[simp] theorem setOutputs_owed (m : OutSet) (v : Bool) (s : State) : (setOutputs m v s).owed = s.owed := rfl
@[simp] theorem setOutputs_env (m : OutSet) (v : Bool) (s : State) : (setOutputs m v s).env = s.env := rfl

@[simp] theorem called_toArch (c : ImageCall) (s : State) :
    (called c s).toArch = s.toArch := rfl
@[simp] theorem called_cfg (c : ImageCall) (s : State) : (called c s).cfg = s.cfg := rfl
@[simp] theorem called_owed (c : ImageCall) (s : State) : (called c s).owed = s.owed := rfl
@[simp] theorem called_atP1 (c : ImageCall) (s : State) : (called c s).env.note.atP1 = s.env.note.atP1 := rfl
@[simp] theorem called_atP2 (c : ImageCall) (s : State) : (called c s).env.note.atP2 = s.env.note.atP2 := rfl
@[simp] theorem called_trace (c : ImageCall) (s : State) : (called c s).env.trace = s.env.trace := rfl

@[simp] theorem askOpen_toArch (s : State) :
    (askOpen s).toArch = s.toArch := rfl
@[simp] theorem askOpen_cfg (s : State) : (askOpen s).cfg = s.cfg := rfl
@[simp] theorem askOpen_owed (s : State) : (askOpen s).owed = s.owed := rfl
@[simp] theorem askOpen_atP1 (s : State) : (askOpen s).env.note.atP1 = s.env.note.atP1 := rfl
@[simp] theorem askOpen_atP2 (s : State) : (askOpen s).env.note.atP2 = s.env.note.atP2 := rfl
@[simp] theorem askOpen_trace (s : State) : (askOpen s).env.trace = s.env.trace := rfl

@[simp] theorem askWritable_toArch (s : State) :
    (askWritable s).toArch = s.toArch := rfl
@[simp] theorem askWritable_cfg (s : State) : (askWritable s).cfg = s.cfg := rfl
@[simp] theorem askWritable_owed (s : State) : (askWritable s).owed = s.owed := rfl
@[simp] theorem askWritable_atP1 (s : State) : (askWritable s).env.note.atP1 = s.env.note.atP1 := rfl
@[simp] theorem askWritable_atP2 (s : State) : (askWritable s).env.note.atP2 = s.env.note.atP2 := rfl
@[simp] theorem askWritable_trace (s : State) : (askWritable s).env.trace = s.env.trace := rfl

@[simp] theorem askSyncword_toArch (s : State) :
    (askSyncword s).toArch = s.toArch := rfl
@[simp] theorem askSyncword_cfg (s : State) : (askSyncword s).cfg = s.cfg := rfl
@[simp] theorem askSyncword_owed (s : State) : (askSyncword s).owed = s.owed := rfl
@[simp] theorem askSyncword_atP1 (s : State) : (askSyncword s).env.note.atP1 = s.env.note.atP1 := rfl
@[simp] theorem askSyncword_atP2 (s : State) : (askSyncword s).env.note.atP2 = s.env.note.atP2 := rfl
@[simp] theorem askSyncword_trace (s : State) : (askSyncword s).env.trace = s.env.trace := rfl

@[simp] theorem askSeek_toArch (k : Track) (p : Option Int) (s : State) :
    (askSeek k p s).toArch = s.toArch := rfl
@[simp] theorem askSeek_cfg (k : Track) (p : Option Int) (s : State) : (askSeek k p s).cfg = s.cfg := rfl
@[simp] theorem askSeek_owed (k : Track) (p : Option Int) (s : State) : (askSeek k p s).owed = s.owed := rfl
@[simp] theorem askSeek_atP1 (k : Track) (p : Option Int) (s : State) : (askSeek k p s).env.note.atP1 = s.env.note.atP1 := rfl
@[simp] theorem askSeek_atP2 (k : Track) (p : Option Int) (s : State) : (askSeek k p s).env.note.atP2 = s.env.note.atP2 := rfl
@[simp] theorem askSeek_trace (k : Track) (p : Option Int) (s : State) : (askSeek k p s).env.trace = s.env.trace := rfl

@[simp] theorem askFlux_toArch (n : Nat) (s : State) :
    (askFlux n s).toArch = s.toArch := rfl
@[simp] theorem askFlux_cfg (n : Nat) (s : State) : (askFlux n s).cfg = s.cfg := rfl
@[simp] theorem askFlux_owed (n : Nat) (s : State) : (askFlux n s).owed = s.owed := rfl
@[simp] theorem askFlux_atP1 (n : Nat) (s : State) : (askFlux n s).env.note.atP1 = s.env.note.atP1 := rfl
@[simp] theorem askFlux_atP2 (n : Nat) (s : State) : (askFlux n s).env.note.atP2 = s.env.note.atP2 := rfl
@[simp] theorem askFlux_trace (n : Nat) (s : State) : (askFlux n s).env.trace = s.env.trace := rfl

@[simp] theorem askReadTrack_toArch (s : State) :
    (askReadTrack s).toArch = s.toArch := rfl
@[simp] theorem askReadTrack_cfg (s : State) : (askReadTrack s).cfg = s.cfg := rfl
@[simp] theorem askReadTrack_owed (s : State) : (askReadTrack s).owed = s.owed := rfl
@[simp] theorem askReadTrack_atP1 (s : State) : (askReadTrack s).env.note.atP1 = s.env.note.atP1 := rfl
@[simp] theorem askReadTrack_atP2 (s : State) : (askReadTrack s).env.note.atP2 = s.env.note.atP2 := rfl
@[simp] theorem askReadTrack_trace (s : State) : (askReadTrack s).env.trace = s.env.trace := rfl

@[simp] theorem askTicks_toArch (s : State) :
    (askTicks s).toArch = s.toArch := rfl
@[simp] theorem askTicks_cfg (s : State) : (askTicks s).cfg = s.cfg := rfl
@[simp] theorem askTicks_owed (s : State) : (askTicks s).owed = s.owed := rfl
@[simp] theorem askTicks_atP1 (s : State) : (askTicks s).env.note.atP1 = s.env.note.atP1 := rfl
@[simp] theorem askTicks_atP2 (s : State) : (askTicks s).env.note.atP2 = s.env.note.atP2 := rfl
@[simp] theorem askTicks_trace (s : State) : (askTicks s).env.trace = s.env.trace := rfl

@[simp] theorem askWriteTrack_toArch (f : Bool) (s : State) :
    (askWriteTrack f s).toArch = { s.toArch with mfm.cons := consAnswer s } := rfl
@[simp] theorem askWriteTrack_cfg (f : Bool) (s : State) : (askWriteTrack f s).cfg = s.cfg := rfl
@[simp] theorem askWriteTrack_owed (f : Bool) (s : State) : (askWriteTrack f s).owed = s.owed := rfl
@[simp] theorem askWriteTrack_atP1 (f : Bool) (s : State) : (askWriteTrack f s).env.note.atP1 = s.env.note.atP1 := rfl
@[simp] theorem askWriteTrack_atP2 (f : Bool) (s : State) : (askWriteTrack f s).env.note.atP2 = s.env.note.atP2 := rfl
@[simp] theorem askWriteTrack_trace (f : Bool) (s : State) : (askWriteTrack f s).env.trace = s.env.trace := rfl

@[simp] theorem fileSync_toArch (s : State) :
    (fileSync s).toArch = s.toArch := rfl
@[simp] theorem fileSync_cfg (s : State) : (fileSync s).cfg = s.cfg := rfl
@[simp] theorem fileSync_owed (s : State) : (fileSync s).owed = s.owed := rfl
@[simp] theorem fileSync_atP1 (s : State) : (fileSync s).env.note.atP1 = s.env.note.atP1 := rfl
@[simp] theorem fileSync_atP2 (s : State) : (fileSync s).env.note.atP2 = s.env.note.atP2 := rfl
@[simp] theorem fileSync_trace (s : State) : (fileSync s).env.trace = s.env.trace := rfl

@[simp] theorem returning_toArch (r : Returned) (s : State) :
    (returning r s).toArch = s.toArch := rfl
@[simp] theorem returning_cfg (r : Returned) (s : State) : (returning r s).cfg = s.cfg := rfl
@[simp] theorem returning_owed (r : Returned) (s : State) : (returning r s).owed = s.owed := rfl
@[simp] theorem returning_atP1 (r : Returned) (s : State) : (returning r s).env.note.atP1 = s.env.note.atP1 := rfl
@[simp] theorem returning_atP2 (r : Returned) (s : State) : (returning r s).env.note.atP2 = s.env.note.atP2 := rfl
@[simp] theorem returning_trace (r : Returned) (s : State) : (returning r s).env.trace = s.env.trace := rfl

/-! Calls and return values. -/

@[simp] theorem askOpen_calls (s : State) : (askOpen s).env.calls = s.env.calls ++ [.openImage] := rfl
@[simp] theorem askOpen_ret (s : State) : (askOpen s).env.ret = s.env.ret := rfl
@[simp] theorem askSeek_calls (k : Track) (p : Option Int) (s : State) : (askSeek k p s).env.calls = s.env.calls ++ [.seekTrack k p] := rfl
@[simp] theorem askSeek_ret (k : Track) (p : Option Int) (s : State) : (askSeek k p s).env.ret = s.env.ret := rfl
@[simp] theorem askFlux_calls (n : Nat) (s : State) : (askFlux n s).env.calls = s.env.calls ++ [.rdataFlux n] := rfl
@[simp] theorem askFlux_ret (n : Nat) (s : State) : (askFlux n s).env.ret = s.env.ret := rfl
@[simp] theorem askReadTrack_calls (s : State) : (askReadTrack s).env.calls = s.env.calls ++ [.readTrack] := rfl
@[simp] theorem askReadTrack_ret (s : State) : (askReadTrack s).env.ret = s.env.ret := rfl
@[simp] theorem askTicks_calls (s : State) : (askTicks s).env.calls = s.env.calls ++ [.ticksSinceIndex] := rfl
@[simp] theorem askTicks_ret (s : State) : (askTicks s).env.ret = s.env.ret := rfl
@[simp] theorem askWriteTrack_calls (f : Bool) (s : State) : (askWriteTrack f s).env.calls = s.env.calls ++ [.writeTrack f] := rfl
@[simp] theorem askWriteTrack_ret (f : Bool) (s : State) : (askWriteTrack f s).env.ret = s.env.ret := rfl
@[simp] theorem fileSync_calls (s : State) : (fileSync s).env.calls = s.env.calls ++ [.fileSync] := rfl
@[simp] theorem fileSync_ret (s : State) : (fileSync s).env.ret = s.env.ret := rfl
@[simp] theorem askWritable_calls (s : State) : (askWritable s).env.calls = s.env.calls := rfl
@[simp] theorem askWritable_ret (s : State) : (askWritable s).env.ret = s.env.ret := rfl
@[simp] theorem askSyncword_calls (s : State) : (askSyncword s).env.calls = s.env.calls := rfl
@[simp] theorem askSyncword_ret (s : State) : (askSyncword s).env.ret = s.env.ret := rfl
@[simp] theorem returning_calls (r : Returned) (s : State) : (returning r s).env.calls = s.env.calls := rfl
@[simp] theorem returning_ret (r : Returned) (s : State) : (returning r s).env.ret = some r := rfl

end Sys2Proof.Machine
end

