-- ==== Sys2Proof/Laws/Flow.lean ====
section
/-! SUPPORT. Sequencing and the frame of an operation: when an operation answers a next state, and which. -/

namespace Sys2Proof.Machine

@[simp] theorem andThen_next (s : State) (f : State → Result) : andThen (.next s) f = f s := rfl
@[simp] theorem andThen_fault (e : Fault) (f : State → Result) : andThen (.fault e) f = .fault e := rfl
@[simp] theorem andThen_refused (e : Refusal) (f : State → Result) : andThen (.refused e) f = .refused e := rfl

@[simp] theorem runAll_nil (s : State) : runAll [] s = .next s := rfl
@[simp] theorem runAll_cons (i : Instr) (l : List Instr) (s : State) :
    runAll (i :: l) s = andThen (exec i s) (runAll l) := rfl

theorem andThen_assoc (r : Result) (f g : State → Result) :
    andThen (andThen r f) g = andThen r fun s => andThen (f s) g := by
  cases r <;> rfl

theorem andThen_eq_next {r : Result} {f : State → Result} {t : State} :
    andThen r f = .next t ↔ ∃ u, r = .next u ∧ f u = .next t := by
  cases r <;> simp [andThen]

/-- When an operation answers a next state, and which. -/
theorem operation_eq_next {s t : State} {e : Prop} [Decidable e] {r : Result} :
    operation s e r = .next t ↔ s.cfg.Valid ∧ s.fault = none ∧ e ∧ ∃ u, r = .next u ∧ t = boundary u := by
  unfold operation
  by_cases hc : s.cfg.Valid
  · by_cases hf : s.fault = none
    · by_cases he : e
      · rw [if_neg (not_not_intro hc), if_neg (not_not_intro hf), if_pos he, andThen_eq_next]
        constructor
        · rintro ⟨u, hu, h⟩
          exact ⟨hc, hf, he, u, hu, (Host.Outcome.next.inj h).symm⟩
        · rintro ⟨-, -, -, u, hu, rfl⟩
          exact ⟨u, hu, rfl⟩
      · rw [if_neg (not_not_intro hc), if_neg (not_not_intro hf), if_neg he]
        exact ⟨nofun, fun h => absurd h.2.2.1 he⟩
    · rw [if_neg (not_not_intro hc), if_pos hf]
      exact ⟨nofun, fun h => absurd h.2.1 hf⟩
  · rw [if_pos hc]
    exact ⟨nofun, fun h => absurd h.1 hc⟩

theorem operation_run {s : State} {e : Prop} [Decidable e] {r : Result} (hc : s.cfg.Valid) (hf : s.fault = none)
    (he : e) : operation s e r = andThen r fun t => .next (boundary t) := by
  unfold operation
  rw [if_neg (not_not_intro hc), if_neg (by simp [hf]), if_pos he]

theorem attempt_eq_next {s t : State} {e : Prop} [Decidable e] {r : Result} :
    attempt s e r = .next t ↔ s.fault = none ∧ e ∧ r = .next t := by
  unfold attempt
  split
  · next h => simp [h]
  · next h =>
    simp only [ne_eq, Decidable.not_not] at h
    split
    · next h3 => simp [h, h3]
    · next h3 => simp [h3]

theorem ifEnabled_eq_next {s t : State} {e : Prop} [Decidable e] {r : Result} :
    ifEnabled s e r = .next t ↔ (e ∧ r = .next t) ∨ (¬ e ∧ t = s) := by
  unfold ifEnabled
  split
  · next h => simp [h]
  · next h => simp [h, eq_comm]

/-- At a boundary with no forbidden pair of ring states only the marks of R261 change. -/
theorem boundary_of_clear {s : State} (h : ¬ Overlap s.toArch) :
    boundary s = { s with owed := s.owed.update s.toArch } := by
  unfold boundary
  simp only [if_neg h]

@[simp] theorem boundary_cfg (s : State) : (boundary s).cfg = s.cfg := by
  unfold boundary; dsimp only; split <;> rfl
@[simp] theorem boundary_env (s : State) : (boundary s).env = s.env := by
  unfold boundary; dsimp only; split <;> rfl

/-- A boundary changes nothing of the architectural state but `fault`. -/
theorem boundary_toArch (s : State) :
    (boundary s).toArch = if Overlap s.toArch then { s.toArch with fault := some (s.fault.getD .engineOverlap) }
      else s.toArch := by
  unfold boundary; dsimp only; split <;> rfl

theorem owedMark_idem (b : Bool) (o : Option Nat) (n : Nat) : owedMark b (owedMark b o n) n = owedMark b o n := by
  cases b <;> rfl

/-- Bringing the marks up to date twice is bringing them up to date once. -/
theorem OwedSince.update_idem (o : OwedSince) (a : Arch) : (o.update a).update a = o.update a := by
  simp [OwedSince.update, owedMark_idem]

end Sys2Proof.Machine
end

