-- ==== Sys2Proof/Laws/Tick.lean ====
section
/-! SUPPORT. TICK: counting quiet stretches at once is the same as taking every tick by itself (R262). -/

namespace Sys2Proof.Machine

theorem tickTimes_add (m n : Nat) (s : State) : tickTimes (m + n) s = andThen (tickTimes m s) (tickTimes n) := by
  induction m generalizing s with
  | zero => simp [tickTimes]
  | succ m ih =>
    rw [Nat.add_right_comm, tickTimes, tickTimes, andThen_assoc]
    congr 1
    funext u
    exact ih u

/-- A span that is not 0 begins in a state where nothing is owed and no fault or forbidden pair stands. -/
theorem quietSpan_pos {n : Nat} {s : State} (h : 0 < quietSpan n s) :
    s.fault = none ∧ ¬ Overlap s.toArch ∧ ¬ AnyOwed s.toArch := by
  unfold quietSpan at h
  split at h
  · simp at h
  · next hq => simpa only [ne_eq, not_or, Decidable.not_not] using hq

/-- With nothing owed every mark is none. -/
theorem OwedSince.update_clear {a : Arch} (o : OwedSince) (h : ¬ AnyOwed a) : o.update a = OwedSince.none := by
  simp only [not_or] at h
  obtain ⟨h1, h2, h3, h4, h5, h6⟩ := h
  simp only [OwedSince.update, decide_eq_false h1, decide_eq_false h2, decide_eq_false h3, decide_eq_false h4,
    decide_eq_false h5, Bool.not_eq_true _ ▸ h6, owedMark, OwedSince.none]
  simp

/-- What a quiet span says of the counters and deadlines. -/
theorem quietSpan_le {n : Nat} {s : State} (h : 0 < quietSpan n s) :
    quietSpan n s ≤ updateGap n s.rdTim ∧ quietSpan n s ≤ timerGap n s.index.timer s.now ∧
      quietSpan n s ≤ timerGap n s.stepper.timer s.now ∧ quietSpan n s ≤ waitGap n s.fgWait s.now := by
  unfold quietSpan at h ⊢
  split at h
  · simp at h
  · next hq =>
    rw [if_neg hq]
    omega

/-- A software timer whose gap is not over stays not due one tick later. -/
theorem timer_notDue_succ {n : Nat} {t : SoftTimer} {now : Nat} (h : 0 < timerGap n t now) : ¬ t.Due (now + 1 : Nat) := by
  unfold timerGap at h
  rintro ⟨ha, hd⟩
  rw [if_pos ha] at h
  push_cast at hd
  omega

theorem waitOver_succ {n : Nat} {a : Arch} (h : 0 < waitGap n a.fgWait a.now) :
    waitOver { a with now := a.now + 1 } = false := by
  unfold waitGap at h
  unfold waitOver
  split
  · rfl
  · next w hw =>
    dsimp only at hw ⊢
    rw [hw] at h
    dsimp only at h
    simp only [decide_eq_false_iff_not, not_le]
    push_cast
    omega

theorem update_notDue_succ {n : Nat} {t : ReadTimer} (he : t.en = true) (h : 0 < updateGap n t) : t.cnt + 1 ≠ t.arr := by
  unfold updateGap at h
  rw [if_pos he] at h
  rintro hc
  have : t.arr - t.cnt - 1#16 = 0#16 := by rw [← hc]; bv_omega
  have h0 : (t.arr - t.cnt - 1#16).toNat = 0 := by rw [this]; rfl
  exact absurd h (by change ¬ 0 < min n (t.arr - t.cnt - 1#16).toNat; omega)

/-- After one quiet tick nothing is owed. -/
theorem tickQuiet_notOwed {n : Nat} {s : State} (h : 0 < quietSpan n s) : ¬ AnyOwed (tickQuiet 1 s).toArch := by
  obtain ⟨-, -, ho⟩ := quietSpan_pos h
  obtain ⟨-, hi, hs, hw⟩ := quietSpan_le h
  simp only [not_or] at ho
  have h6 := waitOver_succ (n := n) (a := s.toArch) (by omega)
  have h4 := timer_notDue_succ (n := n) (t := s.index.timer) (now := s.now) (by omega)
  have h5 := timer_notDue_succ (n := n) (t := s.stepper.timer) (now := s.now) (by omega)
  simp only [not_or]
  refine ⟨ho.1, ho.2.1, ho.2.2.1, h4, h5, ?_⟩
  rw [Bool.not_eq_true]
  exact h6

/-- A quiet tick only counts. -/
theorem tickStep_quiet {n : Nat} {s : State} (h : 0 < quietSpan n s) : tickStep s = .next (tickQuiet 1 s) := by
  obtain ⟨hf, hov, ho⟩ := quietSpan_pos h
  obtain ⟨hu, hi, hs, hw⟩ := quietSpan_le h
  have hq := tickQuiet_notOwed h
  have hal : tickAllowed s = true := by
    simp only [tickAllowed, OwedSince.update_clear _ ho, OwedSince.none, mayWait, Bool.and_self]
  have h4 := timer_notDue_succ (n := n) (t := s.index.timer) (now := s.now) (by omega)
  have h5 := timer_notDue_succ (n := n) (t := s.stepper.timer) (now := s.now) (by omega)
  have hone : tickOne s = .next { tickQuiet 1 s with owed := s.owed } := by
    have hrd : tickRdTim { s with now := s.now + 1 } =
        .next { s with now := s.now + 1, rdTim.cnt := if s.rdTim.en then s.rdTim.cnt + 1 else s.rdTim.cnt } := by
      unfold tickRdTim
      cases he : s.rdTim.en
      · simp only [if_true, Bool.false_eq_true, if_false]
      · have := update_notDue_succ he (by omega : 0 < updateGap n s.rdTim)
        simp only [Bool.true_eq_false, if_false, if_true, this]
    have hti : ∀ u : State, u.index.timer = s.index.timer → u.stepper.timer = s.stepper.timer → u.now = s.now + 1 →
        tickTimers u = u := by
      intro u e1 e2 e3
      unfold tickTimers IdxFireOwed StepFireOwed
      rw [e1, e3, if_neg h4]
      dsimp only
      rw [e2, e3, if_neg h5]
      simp
    unfold tickOne
    rw [hrd, andThen_next]
    have hwt : ∀ u : State, (tickWrTim u).index = u.index ∧ (tickWrTim u).stepper = u.stepper ∧
        (tickWrTim u).now = u.now := by
      intro u
      unfold tickWrTim
      cases u.wrTim.en <;> exact ⟨rfl, rfl, rfl⟩
    rw [hti _ (by rw [(hwt _).1]) (by rw [(hwt _).2.1]) (by rw [(hwt _).2.2])]
    unfold tickWrTim tickQuiet
    cases he : s.wrTim.en
    · simp only [if_false, Bool.false_eq_true, Nat.one_ne_zero]
      rfl
    · simp only [if_true, if_false, Nat.one_ne_zero]
      rfl
  unfold tickStep
  rw [if_neg (not_not_intro hf), if_pos hal, hone, andThen_next,
    boundary_of_clear (s := { tickQuiet 1 s with owed := s.owed }) hov]
  dsimp only
  rw [OwedSince.update_clear _ hq]
  rfl

theorem tickQuiet_succ (k : Nat) (s : State) : tickQuiet k (tickQuiet 1 s) = tickQuiet (k + 1) s := by
  unfold tickQuiet
  rcases k with _ | k
  · simp
  · have hb : ∀ x : BitVec 16, x + BitVec.ofNat 16 1 + BitVec.ofNat 16 (k + 1) = x + BitVec.ofNat 16 (k + 1 + 1) := by
      intro x
      rw [BitVec.add_assoc, ← BitVec.ofNat_add, Nat.add_comm 1]
    have hn : s.now + 1 + (k + 1) = s.now + (k + 1 + 1) := by omega
    cases h1 : s.rdTim.en <;> cases h2 : s.wrTim.en <;>
      simp only [h1, h2, hb, hn, if_true, if_false, Nat.succ_ne_zero, Bool.false_eq_true]

theorem timerGap_succ (n : Nat) (t : SoftTimer) (now : Nat) : timerGap n t now ≤ timerGap n t (now + 1) + 1 := by
  unfold timerGap
  split <;> push_cast <;> omega

theorem waitGap_succ (n : Nat) (w : Option Int) (now : Nat) : waitGap n w now ≤ waitGap n w (now + 1) + 1 := by
  unfold waitGap
  cases w <;> dsimp only <;> push_cast <;> omega

theorem updateGap_succ {n : Nat} {t : ReadTimer} (h : 0 < updateGap n t) :
    updateGap n t ≤ updateGap n { t with cnt := if t.en then t.cnt + 1 else t.cnt } + 1 := by
  unfold updateGap at *
  cases he : t.en
  · simp
  · simp only [he, if_true] at *
    have : (t.arr - (t.cnt + 1) - 1).toNat + 1 = (t.arr - t.cnt - 1).toNat := by bv_omega
    omega

/-- A quiet tick uses up one tick of the span. -/
theorem quietSpan_succ {n : Nat} {s : State} (h : 0 < quietSpan n s) : quietSpan n s ≤ quietSpan n (tickQuiet 1 s) + 1 := by
  obtain ⟨hf, hov, ho⟩ := quietSpan_pos h
  obtain ⟨hu, hi, hs, hw⟩ := quietSpan_le h
  have hq := tickQuiet_notOwed h
  have hu' := updateGap_succ (n := n) (t := s.rdTim) (by omega)
  have hi' := timerGap_succ n s.index.timer s.now
  have hs' := timerGap_succ n s.stepper.timer s.now
  have hw' := waitGap_succ n s.fgWait s.now
  have : quietSpan n (tickQuiet 1 s) = min (updateGap n (tickQuiet 1 s).rdTim)
      (min (timerGap n (tickQuiet 1 s).index.timer (tickQuiet 1 s).now)
        (min (timerGap n (tickQuiet 1 s).stepper.timer (tickQuiet 1 s).now)
          (waitGap n (tickQuiet 1 s).fgWait (tickQuiet 1 s).now))) := by
    unfold quietSpan
    rw [if_neg]
    rintro (hc | hc | hc)
    · exact hc hf
    · exact hov hc
    · exact hq hc
  rw [this]
  clear this
  change _ ≤ min (updateGap n { s.rdTim with cnt := if s.rdTim.en then s.rdTim.cnt + 1 else s.rdTim.cnt })
      (min (timerGap n s.index.timer (s.now + 1)) (min (timerGap n s.stepper.timer (s.now + 1))
        (waitGap n s.fgWait (s.now + 1)))) + 1
  dsimp only at hu' ⊢
  omega

/-- A quiet stretch, tick by tick. -/
theorem tickTimes_quiet {n : Nat} (k : Nat) {s : State} (h : k ≤ quietSpan n s) :
    tickTimes k s = .next (tickQuiet k s) := by
  induction k generalizing s with
  | zero => simp [tickTimes, tickQuiet]
  | succ k ih =>
    have hpos : 0 < quietSpan n s := by omega
    rw [tickTimes, tickStep_quiet hpos, andThen_next, ih (by have := quietSpan_succ hpos; omega), tickQuiet_succ]

theorem quietSpan_le_count (n : Nat) (s : State) : quietSpan n s ≤ n := by
  unfold quietSpan updateGap
  split
  · omega
  · split <;> omega

/-- `TICK n` is `n` times `TICK 1` (R262). -/
theorem tickMany_eq_tickTimes (fuel : Nat) {n : Nat} (s : State) (h : n ≤ fuel) : tickMany fuel n s = tickTimes n s := by
  induction fuel generalizing n s with
  | zero => obtain rfl : n = 0 := by omega
            rfl
  | succ fuel ih =>
    cases n with
    | zero => rfl
    | succ n =>
      have hk := quietSpan_le_count n s
      have hsplit : n + 1 = quietSpan n s + ((n - quietSpan n s) + 1) := by omega
      rw [tickMany, hsplit, tickTimes_add, tickTimes_quiet _ (Nat.le_refl _), andThen_next, tickTimes]
      congr 1
      funext u
      exact ih u (by omega)

/-- `TICK n` by its rule. -/
theorem execTick_eq (n : Nat) (s : State) : execTick n s = operation s True (tickTimes n s) := by
  rw [execTick, tickMany_eq_tickTimes n s (Nat.le_refl n)]

end Sys2Proof.Machine
end

