-- ==== Sys2Proof/Laws/Invariant.lean ====
section
/-! SUPPORT. What every operation does to the invariant of Safety.lean: for each named operation a lemma `…_core` (it
keeps CoreInv), for those that touch a ring state a lemma `…_clear` (no forbidden pair of ring states comes of it) or
`…_rel` (what may happen at a preemption point). -/

namespace Sys2Proof.Machine

/-! ## Ring states under a guarded write -/

theorem setRdState_same {s : State} {n : RingState} (h : s.rd.state = n) : setRdState n s = s := by
  unfold setRdState; rw [if_pos h.symm]

theorem setRdState_legal {s : State} {n : RingState} (h : s.rd.state.canBecome n = true) :
    setRdState n s = { s with rd.state := n } := by
  unfold setRdState
  rw [if_neg (by rintro rfl; revert h; cases s.rd.state <;> simp [RingState.canBecome]), if_pos h]

theorem setWrState_same {s : State} {n : RingState} (h : s.wr.state = n) : setWrState n s = s := by
  unfold setWrState; rw [if_pos h.symm]

theorem setWrState_legal {s : State} {n : RingState} (h : s.wr.state.canBecome n = true) :
    setWrState n s = { s with wr.state := n } := by
  unfold setWrState
  rw [if_neg (by rintro rfl; revert h; cases s.wr.state <;> simp [RingState.canBecome]), if_pos h]

/-! ## Consequences of the invariant -/

theorem CoreInv.loaded_of_read {s : State} (h : CoreInv s) (hr : s.rd.state ≠ .inactive) : s.image.loaded = true := by
  by_contra hc
  exact hr (h.2.2.2.2.2.2.2.1.2.2 (by simpa using hc)).1

theorem CoreInv.loaded_of_write {s : State} (h : CoreInv s) (hw : s.wr.state ≠ .inactive) : s.image.loaded = true := by
  by_contra hc
  exact hw (h.2.2.2.2.2.2.2.1.2.2 (by simpa using hc)).2.1

theorem MountOk.loaded {a : Arch} (hl : a.image.loaded = true) (h1 : a.irq.extiEn = a.image.loaded)
    (h2 : a.irq.dmaEn = a.image.loaded) : MountOk a :=
  ⟨h1, h2, fun he => absurd (hl.symm.trans he) nofun⟩

/-! ## Outputs, select, side, step -/

theorem muxOutputs_ok (m : OutSet) (v sel : Bool) (o : OutputRegs) (h : o.port = if sel then o.shadow else 0) :
    (muxOutputs m v sel o).port = if sel then (muxOutputs m v sel o).shadow else 0 := by
  cases sel
  · simpa [muxOutputs] using h
  · simp [muxOutputs]

theorem setOutputs_core {s : State} (m : OutSet) (v : Bool) (h : CoreInv s) : CoreInv (setOutputs m v s) := by
  obtain ⟨hc, hf, hm, hx, hd, hr, hw, hl, hwt, hs⟩ := h
  exact ⟨hc, hf, hm, muxOutputs_ok m v _ _ hx, hd, hr, hw, hl, hwt, hs⟩

theorem driveSelect_core {s : State} (b : Bool) (h : CoreInv s) : CoreInv (driveSelect b s) := by
  obtain ⟨hc, hf, hm, hx, hd, hr, hw, hl, hwt, hs⟩ := h
  exact ⟨hc, hf, hm, by cases b <;> rfl, hd, hr, hw, hl, hwt, hs⟩

theorem sideSelect_core {s : State} (b : Bool) (h : CoreInv s) : CoreInv (sideSelect b s) := h

theorem stepPulse_core {s : State} (d : Bool) (h : CoreInv s) : CoreInv (stepPulse d s) := by
  have h0 := h
  obtain ⟨hc, hf, hm, hx, hd, hr, hw, hl, hwt, hs⟩ := h
  unfold stepPulse
  split
  · exact h0
  · next hi =>
    rw [not_not] at hi
    refine ⟨hc, hf, hm, hx, hd, hr, hw, ?_, hwt, ?_⟩
    · exact MountOk.loaded (a := (pendStep _).toArch) (hl.1.symm.trans hi.1) hl.1 hl.2.1
    · simp [StepOk, pendStep]

theorem stepSoftirq_core {s : State} (h : CoreInv s) : CoreInv (stepSoftirq s) := by
  obtain ⟨hc, hf, hm, hx, hd, hr, hw, hl, hwt, hs⟩ := h
  unfold stepSoftirq
  dsimp only
  split
  · next hi =>
    refine ⟨hc, hf, hm, hx, hd, hr, hw, ?_, hwt, ?_⟩
    · refine ⟨hl.1, hl.2.1, fun he => ?_⟩
      obtain ⟨q1, q2, q3, q4, q5, q6, q7, q8, -⟩ := hl.2.2 he
      exact ⟨q1, q2, q3, q4, q5, q6, q7, q8, rfl⟩
    · exact ⟨⟨nofun, fun he => absurd he hi⟩, hs.2.1, hs.2.2⟩
  · next hi =>
    rw [ne_eq, not_not] at hi
    refine ⟨hc, hf, hm, hx, hd, hr, hw, ?_, hwt, ?_⟩
    · exact ⟨hl.1, hl.2.1, fun he => absurd (hl.2.2 he).2.2.2.1 (by rw [hi]; nofun)⟩
    · exact ⟨⟨nofun, nofun⟩, fun _ => rfl, nofun⟩

theorem stepFire_core {s : State} (h : CoreInv s) (hdue : StepFireOwed s.toArch) : CoreInv (stepFire s) := by
  obtain ⟨hc, hf, hm, hx, hd, hr, hw, hl, hwt, hs⟩ := h
  have hld : s.image.loaded = true := by
    by_contra hcon
    exact absurd (hdue.1.symm.trans (hl.2.2 (by simpa using hcon)).2.2.2.2.1) nofun
  have hst : ∀ u : StepState, u = s.stepper.state → CoreInv (match u with
      | .latched => latchedFire { s with stepper.timer.armed := false, owed.stepFire := none }
      | .settling => settlingFire { s with stepper.timer.armed := false, owed.stepFire := none }
      | .started => { s with stepper.timer.armed := false, owed.stepFire := none }
      | .idle => { s with stepper.timer.armed := false, owed.stepFire := none }) := by
    rintro (_ | _ | _ | _) hst
    · exact ⟨hc, hf, hm, hx, hd, hr, hw, MountOk.loaded hld hl.1 hl.2.1, hwt, hs.1,
        fun hn => by rw [← hst] at hn; exact absurd hn (by decide), fun _ => rfl⟩
    · exact ⟨hc, hf, hm, hx, hd, hr, hw, MountOk.loaded hld hl.1 hl.2.1, hwt, hs.1,
        fun hn => by rw [← hst] at hn; exact absurd hn (by decide), fun _ => rfl⟩
    · have hn : s.irq.stepSoft ≠ true := fun hn => by have := hst.trans (hs.1.mp hn); exact absurd this nofun
      exact ⟨hc, hf, hm, muxOutputs_ok _ _ _ _ hx, hd, hr, hw,
        MountOk.loaded (a := (latchedFire _).toArch) hld hl.1 hl.2.1, hwt,
        ⟨fun he => absurd he hn, nofun⟩, fun _ => rfl, nofun⟩
    · have hn : s.irq.stepSoft ≠ true := fun hn => by have := hst.trans (hs.1.mp hn); exact absurd this nofun
      have : settlingFire { s with stepper.timer.armed := false, owed.stepFire := none } =
          { s with stepper.timer.armed := false, stepper.state := .idle, owed.stepFire := none } := by
        simp [settlingFire, casStep, ← hst]
      dsimp only
      rw [this]
      exact ⟨hc, hf, hm, hx, hd, hr, hw, MountOk.loaded hld hl.1 hl.2.1, hwt,
        ⟨fun he => absurd he hn, nofun⟩, fun he => by rcases he with he | he <;> exact absurd he nofun, fun _ => rfl⟩
  exact hst _ rfl

/-! ## Index -/

theorem idxFire_core {s : State} (h : CoreInv s) (hdue : IdxFireOwed s.toArch) : CoreInv (idxFire s) := by
  obtain ⟨hc, hf, hm, hx, hd, hr, hw, hl, hwt, hs⟩ := h
  have hld : s.image.loaded = true := by
    by_contra hcon
    exact absurd (hdue.1.symm.trans (hl.2.2 (by simpa using hcon)).2.2.2.2.2.1) nofun
  unfold idxFire
  dsimp only
  split
  · unfold indexDeassert
    dsimp only
    split
    · exact ⟨hc, hf, hm, muxOutputs_ok _ _ _ _ hx, hd, hr, hw,
        MountOk.loaded (a := (setOutputs _ _ _).toArch) hld hl.1 hl.2.1, hwt, hs⟩
    · exact ⟨hc, hf, hm, muxOutputs_ok _ _ _ _ hx, hd, hr, hw, MountOk.loaded hld hl.1 hl.2.1, hwt, hs⟩
  · exact ⟨hc, hf, hm, muxOutputs_ok _ _ _ _ hx, hd, hr, hw,
      MountOk.loaded (a := (indexAssert _).toArch) hld hl.1 hl.2.1, hwt, hs⟩

/-! ## Beats -/

theorem DmaChannel.beat_ok {d : DmaChannel} (h : CountOk d) : CountOk d.beat := by
  unfold DmaChannel.beat CountOk at *
  dsimp only
  split
  · simp [capCount, Config.cap]
  · next hz =>
    constructor
    · by_contra hcon
      exact hz (BitVec.eq_of_toNat_eq (by simp only [BitVec.toNat_ofNat]; omega))
    · bv_omega

theorem rdBeatWith_core {s : State} {v : Sample} (h : CoreInv { s with rdTim.arr := v, rdDma.req := false })
    (hld : s.image.loaded = true) : CoreInv (rdBeatWith v s) := by
  obtain ⟨hc, hf, hm, hx, hd, hr, hw, hl, hwt, hs⟩ := h
  have hb := DmaChannel.beat_ok (d := s.rdDma) hd.1
  unfold rdBeatWith
  dsimp only
  split
  · exact ⟨hc, hf, hm, hx, ⟨hb, hd.2.1, rfl, hd.2.2.2⟩, hr, hw,
      MountOk.loaded (a := (pendRd _).toArch) hld hl.1 hl.2.1, hwt, hs⟩
  · exact ⟨hc, hf, hm, hx, ⟨hb, hd.2.1, rfl, hd.2.2.2⟩, hr, hw, hl, hwt, hs⟩

theorem wdataEdge_core {s : State} (h : CoreInv s) : CoreInv (wdataEdge s) := by
  have h0 := h
  obtain ⟨hc, hf, hm, hx, hd, hr, hw, hl, hwt, hs⟩ := h
  unfold wdataEdge
  split
  · next he =>
    dsimp only
    have hwr : s.wr.state ≠ .inactive := fun hcon => absurd ((hw.2 (Or.inl hcon)).1.symm.trans he.1) nofun
    have hld := h0.loaded_of_write hwr
    split
    · have hb := DmaChannel.beat_ok (d := { s.wrDma with req := true }) hd.2.1
      have hm' : MemoryOk { s with mem := s.mem.putWr (wrPos s.toArch) s.wrTim.cnt } := Memory.putWr_wf hm _ _
      unfold requestWrBeat wrBeat
      dsimp only
      split
      · exact ⟨hc, hf, hm', hx, ⟨hd.1, hb, hd.2.2.1, rfl⟩, hr, hw,
          MountOk.loaded (a := (pendWr _).toArch) hld hl.1 hl.2.1, hwt, hs⟩
      · exact ⟨hc, hf, hm', hx, ⟨hd.1, hb, hd.2.2.1, rfl⟩, hr, hw, hl, hwt, hs⟩
    · exact ⟨hc, hf, hm, hx, hd, hr, hw, hl, hwt, hs⟩
  · exact h0

/-! ## The read engine -/

theorem rdStop_core {s : State} (h : CoreInv s) : CoreInv (rdStop s) := by
  have h0 := h
  obtain ⟨hc, hf, hm, hx, hd, hr, hw, hl, hwt, hs⟩ := h
  unfold rdStop
  split
  · exact h0
  · next hi =>
    rw [not_or] at hi
    have hld := h0.loaded_of_read hi.1
    rw [setRdState_legal (by revert hi; cases s.rd.state <;> simp [RingState.canBecome])]
    cases hac : s.index.active
    all_goals
      refine ⟨hc, hf, hm, hx, hd, ?_, hw, MountOk.loaded hld hl.1 hl.2.1, fun _ => Or.inr rfl, hs⟩
      exact ⟨hr.1, nofun, fun _ => ⟨rfl, rfl, rfl⟩⟩

theorem rdFill_core {s : State} (c : RingIx) (h : CoreInv s) : CoreInv (rdFill c s) := by
  obtain ⟨hc, hf, hm, hx, hd, hr, hw, hl, hwt, hs⟩ := h
  exact ⟨hc, hf, Memory.putSamples_wf hm _ _, hx, hd, hr, hw, hl, hwt, hs⟩

theorem indexResync_core {s : State} (t : Word) (h : CoreInv s) (hld : s.image.loaded = true) :
    CoreInv (indexResync t s) := by
  obtain ⟨hc, hf, hm, hx, hd, hr, hw, hl, hwt, hs⟩ := h
  exact ⟨hc, hf, hm, hx, hd, hr, hw, MountOk.loaded hld hl.1 hl.2.1, hwt, hs⟩

theorem CoreInv.ite {p : Prop} [Decidable p] {s t : State} (h1 : p → CoreInv s) (h2 : ¬ p → CoreInv t) :
    CoreInv (if p then s else t) := by
  split
  · next hp => exact h1 hp
  · next hp => exact h2 hp

/-- The cons, kick and last_tsi fields of the read ring are free of the invariant. -/
theorem CoreInv.scratch {s : State} (h : CoreInv s) (c : RingIx) (k : Bool) (t : Word) :
    CoreInv { s with rd := { s.rd with cons := c, kick := k, lastTsi := t } } := h

theorem rdServiceActive_core {s : State} (h : CoreInv s) (ha : s.rd.state = .active) : CoreInv (rdServiceActive s) := by
  have hld := h.loaded_of_read (by rw [ha]; nofun)
  unfold rdServiceActive
  dsimp only
  have h1 : ∀ c, CoreInv (if UnderrunAt s.toArch c then logError .underrun s else s) := fun c =>
    CoreInv.ite (fun _ => h) (fun _ => h)
  have hl1 : ∀ c, (if UnderrunAt s.toArch c then logError .underrun s else s).image.loaded = true := by
    intro c; split <;> exact hld
  generalize hu : (if UnderrunAt s.toArch (rdPos s.toArch) then logError .underrun s else s) = u
  have hu1 : CoreInv u := hu ▸ h1 _
  have hu2 : u.image.loaded = true := hu ▸ hl1 _
  have h2 : CoreInv (rdFill (rdPos s.toArch) { u with rd.cons := rdPos s.toArch }) :=
    rdFill_core _ (hu1.scratch _ u.rd.kick u.rd.lastTsi)
  generalize hv : rdFill (rdPos s.toArch) { u with rd.cons := rdPos s.toArch } = v at h2
  have hv2 : v.image.loaded = true := by rw [← hv]; exact hu2
  generalize hw : (if (fluxAnswer (fillRequest (rdPos s.toArch) u.rd.prod)
    { u with rd.cons := rdPos s.toArch }).length < fillRequest (rdPos s.toArch) u.rd.prod then
      { v with rd.kick := true } else v) = w
  have hw1 : CoreInv w := by
    rw [← hw]
    exact CoreInv.ite (fun _ => h2.scratch v.rd.cons true v.rd.lastTsi) (fun _ => h2)
  have hw2 : w.image.loaded = true := by rw [← hw]; split <;> exact hv2
  have h3 : CoreInv (if ticksAnswer w < (askTicks w).rd.lastTsi then indexResync (ticksAnswer w) (askTicks w)
      else askTicks w) := CoreInv.ite (fun _ => indexResync_core _ hw1 hw2) (fun _ => hw1)
  exact h3.scratch _ _ _

theorem rdService_core {s : State} (h : CoreInv s) : CoreInv (rdService s) := by
  obtain ⟨hc, hf, hm, hx, hd, hr, hw, hl, hwt, hs⟩ := h
  have h1 : CoreInv { s with irq.rdDma := false, owed.rdService := none } :=
    ⟨hc, hf, hm, hx, hd, hr, hw, ⟨hl.1, hl.2.1, fun he => by
      obtain ⟨q1, q2, q3, q4, q5, q6, -, q8, q9⟩ := hl.2.2 he
      exact ⟨q1, q2, q3, q4, q5, q6, rfl, q8, q9⟩⟩, hwt, hs⟩
  exact CoreInv.ite (fun ha => rdServiceActive_core h1 ha) (fun _ => h1)

theorem rdPrefill_core {s : State} (h : CoreInv s) : CoreInv (rdPrefill s) := rdFill_core 0 (s := askReadTrack s) h

theorem rdReplenish_core {s : State} (h : CoreInv s) (ha : s.rd.state = .active) : CoreInv (rdReplenish s) := by
  have hld := h.loaded_of_read (by rw [ha]; nofun)
  obtain ⟨hc, hf, hm, hx, hd, hr, hw, hl, hwt, hs⟩ := h
  unfold rdReplenish
  dsimp only
  split
  · exact ⟨hc, hf, hm, hx, hd, hr, hw, MountOk.loaded (a := (pendRd _).toArch) hld hl.1 hl.2.1, hwt, hs⟩
  · exact ⟨hc, hf, hm, hx, hd, hr, hw, hl, hwt, hs⟩

theorem rdFinish_core {s : State} (h : CoreInv s) (ha : s.rd.state = .stopping) (hfg : s.fgWait = none) :
    CoreInv (rdFinish s) := by
  have hld := h.loaded_of_read (by rw [ha]; nofun)
  obtain ⟨hc, hf, hm, hx, hd, hr, hw, hl, hwt, hs⟩ := h
  unfold rdFinish
  rw [setRdState_legal (by change s.rd.state.canBecome _ = true; rw [ha]; rfl)]
  exact ⟨hc, hf, hm, hx, ⟨by simp [CountOk, capCount, Config.cap], hd.2⟩,
    ⟨hr.1, nofun, fun _ => hr.2.2 (by rw [ha]; nofun)⟩, hw, MountOk.loaded hld hl.1 hl.2.1, fun hn => absurd hfg hn, hs⟩

theorem rdStartNow_core {s t : State} (h : CoreInv s) (ha : s.rd.state = .starting ∨ s.rd.state = .stopping)
    (ht : rdStartNow s = .next t) : CoreInv t := by
  have hld := h.loaded_of_read (by rcases ha with ha | ha <;> rw [ha] <;> nofun)
  obtain ⟨hc, hf, hm, hx, hd, hr, hw, hl, hwt, hs⟩ := h
  unfold rdStartNow at ht
  rcases ha with ha | ha
  · have hset := setRdState_legal (s := { s with fgWait := none, owed.rdStart := none }) (n := .active)
      (by change s.rd.state.canBecome _ = true; rw [ha]; rfl)
    simp only [casRd, ha, if_true, hset, requestRdBeat, rdBeat] at ht
    split at ht
    · exact absurd ht nofun
    · next hz =>
      rw [← Host.Outcome.next.inj ht]
      refine rdBeatWith_core ?_ hld
      refine ⟨hc, hf, hm, hx, ⟨hd.1, hd.2.1, rfl, hd.2.2.2⟩, ⟨hr.1, fun _ => ⟨rfl, rfl, rfl, ?_⟩,
          fun hn => absurd rfl hn⟩, hw, MountOk.loaded hld hl.1 hl.2.1, fun hn => absurd rfl hn, hs⟩
      bv_omega
  · simp only [casRd, ha, reduceCtorEq, if_false, Bool.false_eq_true] at ht
    rw [← Host.Outcome.next.inj ht]
    exact ⟨hc, hf, hm, hx, hd, ⟨hr.1, fun hn => absurd (ha.symm.trans hn) nofun, fun _ => hr.2.2 (by rw [ha]; nofun)⟩,
      hw, MountOk.loaded hld hl.1 hl.2.1, fun hn => absurd rfl hn, hs⟩

theorem rdStart_core {s t : State} (h : CoreInv s) (he : RdStartEnabled s) (ht : rdStart s = .next t) : CoreInv t := by
  unfold rdStart at ht
  split at ht
  · next hw =>
    rw [← Host.Outcome.next.inj ht]
    obtain ⟨hc, hf, hm, hx, hd, hr, hwp, hl, hwt, hs⟩ := h
    have hst : s.rd.state = .starting ∨ s.rd.state = .stopping := by
      rcases he.2.2 with ⟨q, -⟩ | ⟨q, -⟩
      · exact q
      · exact Or.inl q
    exact ⟨hc, hf, hm, hx, hd, hr, hwp, MountOk.loaded he.2.1 hl.1 hl.2.1, fun _ => hst, hs⟩
  · refine rdStartNow_core h ?_ ht
    rcases he.2.2 with ⟨q, -⟩ | ⟨q, -⟩
    · exact q
    · exact Or.inl q

/-! ## The write engine -/

theorem emit_mem_wf {n : Nat} {d : Decoder} (b : Bool) (hn : 0 < n) (h : d.mem.wf n = true) :
    (emit n b d).mem.wf n = true := by
  unfold emit
  dsimp only
  split
  · exact Memory.putMfm_wf hn h _ _
  · exact h

theorem emitZeros_mem_wf {c : Config} (f curr : Nat) {d : Decoder} (hn : 0 < c.mfmWords)
    (h : d.mem.wf c.mfmWords = true) : (emitZeros c f curr d).mem.wf c.mfmWords = true := by
  induction f generalizing curr d with
  | zero => exact h
  | succ f ih =>
    unfold emitZeros
    split
    · exact ih _ (emit_mem_wf false hn h)
    · exact h

theorem alignSync_mem (w : Word) (d : Decoder) : (alignSync w d).mem = d.mem := by
  unfold alignSync; split <;> rfl

theorem decodeSamples_mem_wf {c : Config} (w : Word) (l : List Sample) (prev : Sample) {d : Decoder}
    (hn : 0 < c.mfmWords) (h : d.mem.wf c.mfmWords = true) :
    (decodeSamples c w l prev d).mem.wf c.mfmWords = true := by
  induction l generalizing prev d with
  | nil => exact h
  | cons v l ih =>
    refine ih _ ?_
    rw [decodeInterval, alignSync_mem]
    exact emit_mem_wf true hn (emitZeros_mem_wf _ _ hn h)

theorem commitPartial_mem_wf {n : Nat} {d : Decoder} (hn : 0 < n) (h : d.mem.wf n = true) :
    (commitPartial n d).mem.wf n = true := by
  unfold commitPartial
  split
  · exact h
  · exact Memory.putMfm_wf hn h _ _

theorem decodeNew_mem_wf {s : State} (h : CoreInv s) : (decodeNew s).mem.wf s.cfg.mfmWords = true :=
  commitPartial_mem_wf h.1.2.2.1 (decodeSamples_mem_wf _ _ _ h.1.2.2.1 h.2.2.1)

theorem wrServiceDecode_core {s : State} (h : CoreInv s) : CoreInv (wrServiceDecode s) := by
  have hw' := decodeNew_mem_wf h
  obtain ⟨hc, hf, hm, hx, hd, hr, hw, hl, hwt, hs⟩ := h
  dsimp only [CoreInv, wrServiceDecode]
  refine ⟨hc, hf, ?_, hx, hd, hr, hw, hl, hwt, hs⟩
  dsimp only [MemoryOk]
  exact hw'

theorem wrService_core {s : State} (h : CoreInv s) : CoreInv (wrService s) := by
  obtain ⟨hc, hf, hm, hx, hd, hr, hw, hl, hwt, hs⟩ := h
  have h1 : CoreInv { s with irq.wrDma := false, owed.wrService := none } :=
    ⟨hc, hf, hm, hx, hd, hr, hw, ⟨hl.1, hl.2.1, fun he => by
      obtain ⟨q1, q2, q3, q4, q5, q6, q7, -, q9⟩ := hl.2.2 he
      exact ⟨q1, q2, q3, q4, q5, q6, q7, rfl, q9⟩⟩, hwt, hs⟩
  exact CoreInv.ite (fun _ => h1) (fun _ => wrServiceDecode_core h1)

theorem wgate0_core {s : State} (h : CoreInv s) : CoreInv (wgate0 s) := by
  have h0 := h
  unfold wgate0
  split
  · exact h
  · split
    · exact h
    · next hi =>
      rw [not_or] at hi
      have hld := h0.loaded_of_write hi.1
      rw [setWrState_legal (by revert hi; cases s.wr.state <;> simp [RingState.canBecome])]
      obtain ⟨hc, hf, hm, hx, hd, hr, hw, hl, hwt, hs⟩ := h
      exact ⟨hc, hf, hm, hx, hd, hr, ⟨fun he => by rcases he with he | he <;> exact absurd he nofun,
        fun _ => ⟨rfl, rfl, rfl⟩⟩, MountOk.loaded (a := (pendWr _).toArch) hld hl.1 hl.2.1, hwt, hs⟩

@[simp] theorem rdStop_wr (s : State) : (rdStop s).wr = s.wr := by
  unfold rdStop setRdState raiseFatal
  split
  · rfl
  · dsimp only; split <;> split <;> (try split) <;> rfl

@[simp] theorem rdStop_image (s : State) : (rdStop s).image = s.image := by
  unfold rdStop setRdState raiseFatal
  split
  · rfl
  · dsimp only; split <;> split <;> (try split) <;> rfl

theorem wgate1_core {s : State} (h : CoreInv s) : CoreInv (wgate1 s) := by
  unfold wgate1
  split
  · exact h
  · next hi =>
    split
    · exact h
    · next hwr =>
      rw [ne_eq, not_not] at hwr
      rw [not_or, not_not, Bool.not_eq_false] at hi
      unfold wdataStart
      have h1 := rdStop_core h
      rw [setWrState_legal (by rw [rdStop_wr, hwr]; rfl)]
      have hld : (rdStop s).image.loaded = true := by rw [rdStop_image]; exact hi.2
      obtain ⟨hc, hf, hm, hx, hd, hr, hw, hl, hwt, hs⟩ := h1
      exact ⟨hc, hf, hm, hx, ⟨hd.1, by simp [CountOk, capCount, Config.cap], hd.2.2⟩, hr,
        ⟨fun _ => ⟨rfl, rfl, rfl⟩, fun he => by rcases he with he | he <;> exact absurd he nofun⟩,
        MountOk.loaded hld hl.1 hl.2.1, hwt, hs⟩

theorem wrDrain_core {s : State} (h : CoreInv s) (ha : s.wr.state = .stopping) : CoreInv (wrDrain s) := by
  have hld := h.loaded_of_write (by rw [ha]; nofun)
  unfold wrDrain
  dsimp only
  split
  · exact h
  · obtain ⟨hc, hf, hm, hx, hd, hr, hw, hl, hwt, hs⟩ := h
    rw [setWrState_legal (by change s.wr.state.canBecome _ = true; rw [ha]; rfl)]
    exact ⟨hc, hf, hm, hx, hd, hr, ⟨fun he => by rcases he with he | he <;> exact absurd he nofun,
        fun _ => hw.2 (Or.inr ha)⟩, MountOk.loaded hld hl.1 hl.2.1, hwt, hs⟩

theorem casWr_core {s : State} (h : CoreInv s) : CoreInv (casWr .starting .active s).2 := by
  unfold casWr
  split
  · next ha =>
    have hld := h.loaded_of_write (by rw [ha]; nofun)
    obtain ⟨hc, hf, hm, hx, hd, hr, hw, hl, hwt, hs⟩ := h
    dsimp only
    rw [setWrState_legal (by rw [ha]; rfl)]
    exact ⟨hc, hf, hm, hx, hd, hr, ⟨fun _ => hw.1 (Or.inl ha),
      fun he => by rcases he with he | he <;> exact absurd he nofun⟩, MountOk.loaded hld hl.1 hl.2.1, hwt, hs⟩
  · exact h

/-! ## Preemption -/

/-- What the operations at a preemption point do to the ring states. -/
structure PreemptRel (s t : State) : Prop where
  rd : t.rd.state = s.rd.state ∨ (ReadRunning s.toArch ∧ t.rd.state = .stopping)
  wr : s.wr.state ≠ .active → t.wr.state ≠ .active
  loaded : t.image.loaded = s.image.loaded
  wait : t.fgWait = s.fgWait

theorem PreemptRel.of_eq {s t : State} (h1 : t.rd.state = s.rd.state) (h2 : t.wr.state = s.wr.state)
    (h3 : t.image.loaded = s.image.loaded) (h4 : t.fgWait = s.fgWait) : PreemptRel s t :=
  ⟨Or.inl h1, fun h => h2 ▸ h, h3, h4⟩

theorem PreemptRel.trans {s t u : State} (h1 : PreemptRel s t) (h2 : PreemptRel t u) : PreemptRel s u := by
  obtain ⟨a1, b1, c1, d1⟩ := h1
  obtain ⟨a2, b2, c2, d2⟩ := h2
  refine ⟨?_, fun h => b2 (b1 h), c2.trans c1, d2.trans d1⟩
  rcases a1 with a1 | ⟨a1, a1'⟩
  · rcases a2 with a2 | ⟨a2, a2'⟩
    · exact Or.inl (a2.trans a1)
    · exact Or.inr ⟨by rcases a2 with q | q <;> rw [a1] at q <;> simp [ReadRunning, q], a2'⟩
  · rcases a2 with a2 | ⟨a2, a2'⟩
    · exact Or.inr ⟨a1, a2.trans a1'⟩
    · exact Or.inr ⟨a1, a2'⟩

theorem stepPulse_rel (d : Bool) (s : State) : PreemptRel s (stepPulse d s) := by
  unfold stepPulse; split <;> exact .of_eq rfl rfl rfl rfl

theorem stepSoftirq_rel (s : State) : PreemptRel s (stepSoftirq s) := by
  unfold stepSoftirq; dsimp only; split <;> exact .of_eq rfl rfl rfl rfl

theorem stepFire_rel (s : State) : PreemptRel s (stepFire s) := by
  unfold stepFire settlingFire casStep
  dsimp only
  split
  · exact .of_eq rfl rfl rfl rfl
  · split <;> exact .of_eq rfl rfl rfl rfl
  · exact .of_eq rfl rfl rfl rfl
  · exact .of_eq rfl rfl rfl rfl

theorem idxFire_rel (s : State) : PreemptRel s (idxFire s) := by
  unfold idxFire indexDeassert
  dsimp only
  split
  · split <;> exact .of_eq rfl rfl rfl rfl
  · exact .of_eq rfl rfl rfl rfl

theorem wdataEdge_rel (s : State) : PreemptRel s (wdataEdge s) := by
  unfold wdataEdge requestWrBeat wrBeat
  split
  · dsimp only
    split
    · split <;> exact .of_eq rfl rfl rfl rfl
    · exact .of_eq rfl rfl rfl rfl
  · exact .of_eq rfl rfl rfl rfl

theorem rdFill_rel (c : RingIx) (s : State) : PreemptRel s (rdFill c s) :=
  .of_eq (by dsimp only [rdFill, askFlux, called]) (by dsimp only [rdFill, askFlux, called])
    (by dsimp only [rdFill, askFlux, called]) (by dsimp only [rdFill, askFlux, called])

theorem PreemptRel.ite {p : Prop} [Decidable p] {s t u : State} (h1 : PreemptRel s t) (h2 : PreemptRel s u) :
    PreemptRel s (if p then t else u) := by
  split
  · exact h1
  · exact h2

theorem rdServiceActive_rel (s : State) : PreemptRel s (rdServiceActive s) := by
  have h1 : PreemptRel s (if UnderrunAt s.toArch (rdPos s.toArch) then logError .underrun s else s) :=
    .ite (.of_eq rfl rfl rfl rfl) (.of_eq rfl rfl rfl rfl)
  unfold rdServiceActive
  dsimp only
  generalize (if UnderrunAt s.toArch (rdPos s.toArch) then logError .underrun s else s) = u at h1
  have ha : PreemptRel u { u with rd.cons := rdPos s.toArch } := .of_eq rfl rfl rfl rfl
  have h2 := h1.trans (ha.trans (rdFill_rel (rdPos s.toArch) _))
  generalize rdFill (rdPos s.toArch) { u with rd.cons := rdPos s.toArch } = v at h2
  have h3 : ∀ p : Prop, ∀ _ : Decidable p, PreemptRel s (if p then { v with rd.kick := true } else v) := fun p _ =>
    .ite (h2.trans (.of_eq rfl rfl rfl rfl)) h2
  generalize hw : (if (fluxAnswer (fillRequest (rdPos s.toArch) u.rd.prod)
    { u with rd.cons := rdPos s.toArch }).length < fillRequest (rdPos s.toArch) u.rd.prod then
      { v with rd.kick := true } else v) = w
  have h4 : PreemptRel s w := hw ▸ h3 _ _
  have h5 : PreemptRel s (askTicks w) := h4.trans (.of_eq rfl rfl rfl rfl)
  refine PreemptRel.trans (t := if ticksAnswer w < (askTicks w).rd.lastTsi then
    indexResync (ticksAnswer w) (askTicks w) else askTicks w) (.ite (h5.trans (.of_eq rfl rfl rfl rfl)) h5) ?_
  exact .of_eq rfl rfl rfl rfl

theorem rdService_rel (s : State) : PreemptRel s (rdService s) := by
  have h : PreemptRel s { s with irq.rdDma := false, owed.rdService := none } := .of_eq rfl rfl rfl rfl
  exact .ite (h.trans (rdServiceActive_rel _)) h

theorem wrService_rel (s : State) : PreemptRel s (wrService s) := by
  have h : PreemptRel s { s with irq.wrDma := false, owed.wrService := none } := .of_eq rfl rfl rfl rfl
  refine .ite h (h.trans (.of_eq ?_ ?_ ?_ ?_)) <;> dsimp only [wrServiceDecode]

theorem wgate0_rel (s : State) : PreemptRel s (wgate0 s) := by
  unfold wgate0
  split
  · exact .of_eq rfl rfl rfl rfl
  · split
    · exact .of_eq rfl rfl rfl rfl
    · next hi =>
      rw [not_or] at hi
      rw [setWrState_legal (by revert hi; cases s.wr.state <;> simp [RingState.canBecome])]
      exact ⟨Or.inl rfl, fun _ => nofun, rfl, rfl⟩

theorem rdStop_rel (s : State) : PreemptRel s (rdStop s) := by
  unfold rdStop
  split
  · exact .of_eq rfl rfl rfl rfl
  · next hi =>
    rw [not_or] at hi
    rw [setRdState_legal (by revert hi; cases s.rd.state <;> simp [RingState.canBecome])]
    have hr : ReadRunning s.toArch := by
      unfold ReadRunning
      revert hi; cases s.rd.state <;> simp
    dsimp only
    split <;> exact ⟨Or.inr ⟨hr, rfl⟩, fun h => h, rfl, rfl⟩

theorem wgate1_rel (s : State) : PreemptRel s (wgate1 s) := by
  unfold wgate1
  split
  · exact .of_eq rfl rfl rfl rfl
  · split
    · exact .of_eq rfl rfl rfl rfl
    · next hwr =>
      rw [ne_eq, not_not] at hwr
      unfold wdataStart
      rw [setWrState_legal (by rw [rdStop_wr, hwr]; rfl)]
      have h := rdStop_rel s
      exact ⟨h.1, fun _ => nofun, h.loaded, h.wait⟩

theorem runPreempting_spec {i : Instr} {s t : State} (h : CoreInv s) (ht : runPreempting i s = .next t) :
    CoreInv t ∧ PreemptRel s t := by
  have key : ∀ {e : Prop} {_ : Decidable e} {u : State}, (e → CoreInv u ∧ PreemptRel s u) →
      attempt s e (.next u) = .next t → CoreInv t ∧ PreemptRel s t := by
    intro e _ u hu ha
    obtain ⟨-, he, ha⟩ := attempt_eq_next.mp ha
    obtain rfl := Host.Outcome.next.inj ha
    exact hu he
  cases i with
  | step d => exact key (fun _ => ⟨stepPulse_core d h, stepPulse_rel d s⟩) ht
  | side b => exact key (fun _ => ⟨sideSelect_core b h, .of_eq rfl rfl rfl rfl⟩) ht
  | sel b => exact key (fun _ => ⟨driveSelect_core b h, .of_eq rfl rfl rfl rfl⟩) ht
  | wgate1 => exact key (fun _ => ⟨wgate1_core h, wgate1_rel s⟩) ht
  | wgate0 => exact key (fun _ => ⟨wgate0_core h, wgate0_rel s⟩) ht
  | wdataEdge => exact key (fun _ => ⟨wdataEdge_core h, wdataEdge_rel s⟩) ht
  | idxFire => exact key (fun he => ⟨idxFire_core h he, idxFire_rel s⟩) ht
  | stepFire => exact key (fun he => ⟨stepFire_core h he, stepFire_rel s⟩) ht
  | rdService => exact key (fun _ => ⟨rdService_core h, rdService_rel s⟩) ht
  | wrService => exact key (fun _ => ⟨wrService_core h, wrService_rel s⟩) ht
  | stepSoftirq => exact key (fun _ => ⟨stepSoftirq_core h, stepSoftirq_rel s⟩) ht
  | tick _ | rdBeat | wrBeat | fgHandle | rdSeek | rdPrefill | rdStart | rdReplenish | rdStop | rdFinish
  | wrActivate | wrPump | wrDrain | init | mount | cancel | changeOutputs _ _ => exact absurd ht nofun

theorem preempt_spec {l : List Instr} {s t : State} (h : CoreInv s) (ht : preempt l s = .next t) :
    CoreInv t ∧ PreemptRel s t := by
  induction l generalizing s with
  | nil => obtain rfl := Host.Outcome.next.inj ht
           exact ⟨h, .of_eq rfl rfl rfl rfl⟩
  | cons i l ih =>
    obtain ⟨u, hu, ht⟩ := andThen_eq_next.mp ht
    obtain ⟨h1, h2⟩ := runPreempting_spec h hu
    obtain ⟨h3, h4⟩ := ih h1 ht
    exact ⟨h3, h2.trans h4⟩

/-! ## Operations with preemption points -/

theorem askSeek_core {s : State} (k : Track) (p : Option Int) (h : CoreInv s) : CoreInv (askSeek k p s) := h
theorem returning_core {s : State} (r : Returned) (h : CoreInv s) : CoreInv (returning r s) := h

theorem seekCommit_core {s : State} (i : Int) (k : Track) (p : Word) (h : CoreInv s) (hr : s.rd.state = .inactive)
    (hl : s.image.loaded = true) (hw : s.fgWait = none) :
    CoreInv (seekCommit i k p s) ∧ (seekCommit i k p s).rd.state = .starting ∧
      (seekCommit i k p s).wr = s.wr ∧ (seekCommit i k p s).fgWait = none := by
  unfold seekCommit
  rw [setRdState_legal (by change s.rd.state.canBecome _ = true; rw [hr]; rfl)]
  obtain ⟨hc, hf, hm, hx, hd, hrp, hwp, hlm, hwt, hs⟩ := h
  exact ⟨⟨hc, hf, hm, hx, hd, ⟨hrp.1, nofun, fun _ => hrp.2.2 (by rw [hr]; nofun)⟩, hwp, MountOk.loaded hl hlm.1 hlm.2.1,
    fun hn => absurd hw hn, hs⟩, rfl, rfl, hw⟩

theorem seekRecheck_core {s : State} (k : Track) (h : CoreInv s)
    (hr : s.rd.state = .starting ∨ s.rd.state = .stopping) (hw : s.wr.state ≠ .active) :
    CoreInv (seekRecheck k s) ∧ ¬ Overlap (seekRecheck k s).toArch := by
  have hld := h.loaded_of_read (by rcases hr with hr | hr <;> rw [hr] <;> nofun)
  unfold seekRecheck
  split
  · rcases hr with hr | hr
    · rw [setRdState_legal (by rw [hr]; rfl)]
      obtain ⟨hc, hf, hm, hx, hd, hrp, hwp, hlm, hwt, hs⟩ := h
      refine ⟨⟨hc, hf, hm, hx, hd, ⟨hrp.1, nofun, fun _ => hrp.2.2 (by rw [hr]; nofun)⟩, hwp,
        MountOk.loaded hld hlm.1 hlm.2.1, fun _ => Or.inr rfl, hs⟩, ?_⟩
      rintro (⟨hn | hn, -⟩ | ⟨hn, -⟩)
      · exact absurd hn nofun
      · exact absurd hn nofun
      · exact hw hn
    · rw [setRdState_same hr]
      refine ⟨h, ?_⟩
      rintro (⟨hn, -⟩ | ⟨hn, -⟩)
      · simp [ReadRunning, hr] at hn
      · exact hw hn
  · next hcond =>
    simp only [not_or, ne_eq, not_not] at hcond
    refine ⟨h, ?_⟩
    rintro (⟨-, hn⟩ | ⟨hn, -⟩)
    · exact hn hcond.2.2
    · exact hw hn

theorem rdSeek_core {s t : State} (h : CoreInv s) (he : RdSeekEnabled s.toArch) (ht : rdSeek s = .next t) :
    CoreInv t ∧ ¬ Overlap t.toArch := by
  obtain ⟨⟨-, hl, hfw⟩, hr, hw, -⟩ := he
  unfold rdSeek at ht
  obtain ⟨s1, hp1, ht⟩ := andThen_eq_next.mp ht
  obtain ⟨h1, hrel⟩ := preempt_spec (askSeek_core _ _ h) hp1
  have hr1 : s1.rd.state = .inactive := by
    rcases hrel.rd with q | ⟨q, -⟩
    · exact q.trans hr
    · rw [ReadRunning] at q; change s.rd.state = _ ∨ s.rd.state = _ at q; rw [hr] at q; simp at q
  have hw1 : s1.wr.state ≠ .active := hrel.wr (by change s.wr.state ≠ _; rw [hw]; nofun)
  have hf1 : s1.fgWait = none := hrel.wait.trans hfw
  by_cases hb : (seekAnswer s).1 = true
  · rw [if_pos hb] at ht
    obtain rfl := Host.Outcome.next.inj ht
    refine ⟨h1, ?_⟩
    rintro (⟨hn, -⟩ | ⟨hn, -⟩)
    · change s1.rd.state = _ ∨ s1.rd.state = _ at hn; rw [hr1] at hn; simp at hn
    · exact hw1 hn
  · rw [if_neg hb] at ht
    obtain ⟨s2, hp2, ht⟩ := andThen_eq_next.mp ht
    obtain ⟨c1, c2, c3, c4⟩ := seekCommit_core s.index.prevTime (trackOf s.drive) (seekAnswer s).2 h1 hr1
      (hrel.loaded.trans hl) hf1
    obtain ⟨h2, hrel2⟩ := preempt_spec (s := seekCommit _ _ _ s1) c1 hp2
    obtain rfl := Host.Outcome.next.inj ht
    refine seekRecheck_core (trackOf s.drive) h2 ?_ (hrel2.wr (by rw [c3]; exact hw1))
    rcases hrel2.rd with q | ⟨-, q⟩
    · exact Or.inl (q.trans c2)
    · exact Or.inr q

theorem wrActivate_core {s t : State} (h : CoreInv s) (hr : s.rd.state = .inactive)
    (ht : wrActivate s = .next t) : CoreInv t ∧ t.rd.state = .inactive := by
  unfold wrActivate at ht
  rw [if_neg (by simp [ReadRunning, hr])] at ht
  obtain ⟨s1, hp1, ht⟩ := andThen_eq_next.mp ht
  obtain ⟨h1, hrel⟩ := preempt_spec (askSeek_core _ _ h) hp1
  have hr1 : s1.rd.state = .inactive := by
    rcases hrel.rd with q | ⟨q, -⟩
    · exact q.trans hr
    · rw [ReadRunning] at q; change s.rd.state = _ ∨ s.rd.state = _ at q; rw [hr] at q; simp at q
  by_cases hb : (seekAnswer s).1 = true
  · rw [if_pos hb] at ht
    obtain rfl := Host.Outcome.next.inj ht
    exact ⟨h1, hr1⟩
  · rw [if_neg hb] at ht
    obtain rfl := Host.Outcome.next.inj ht
    refine ⟨casWr_core h1, ?_⟩
    unfold casWr setWrState raiseFatal
    split
    · dsimp only
      split
      · exact hr1
      · split <;> exact hr1
    · exact hr1

/-! ## Control -/

theorem mountImage_core {s : State} (h : CoreInv s) (he : s.image.loaded = false) :
    CoreInv (mountImage s) ∧ (mountImage s).rd.state = .inactive ∧ (mountImage s).wr.state = .inactive := by
  obtain ⟨q1, q2, q3, q4, q5, q6, q7, q8, q9⟩ := h.2.2.2.2.2.2.2.1.2.2 he
  have hcount : CountOk { en := s.rdDma.en, cndtr := capCount, req := s.rdDma.req, ht := s.rdDma.ht, tc := s.rdDma.tc } := by
    simp [CountOk, capCount, Config.cap]
  have hcount2 : CountOk { en := s.wrDma.en, cndtr := capCount, req := s.wrDma.req, ht := s.wrDma.ht, tc := s.wrDma.tc } := by
    simp [CountOk, capCount, Config.cap]
  obtain ⟨hc, hf, hm, hx, hd, hrp, hwp, hlm, hwt, hs⟩ := h
  unfold mountImage
  split
  · unfold mounted
    dsimp only
    split
    · exact ⟨⟨hc, hf, hm, muxOutputs_ok _ _ _ _ (muxOutputs_ok _ _ _ _ hx), ⟨hcount, hcount2, hd.2.2⟩, hrp, hwp,
        MountOk.loaded rfl rfl rfl, hwt, hs⟩, q1, q2⟩
    · exact ⟨⟨hc, hf, hm, muxOutputs_ok _ _ _ _ hx, ⟨hcount, hcount2, hd.2.2⟩, hrp, hwp,
        MountOk.loaded rfl rfl rfl, hwt, hs⟩, q1, q2⟩
  · exact ⟨⟨hc, hf, hm, hx, hd, hrp, hwp, hlm, hwt, hs⟩, q1, q2⟩

/-- A ring that is Inactive or Stopping goes to Inactive. -/
theorem setRdState_inactive {s : State} (h : s.rd.state = .inactive ∨ s.rd.state = .stopping) :
    setRdState .inactive s = { s with rd.state := .inactive } := by
  rcases h with h | h
  · rw [setRdState_same h]
    exact h.symm ▸ rfl
  · exact setRdState_legal (by rw [h]; rfl)

theorem setWrState_inactive {s : State} (h : s.wr.state = .inactive ∨ s.wr.state = .stopping) :
    setWrState .inactive s = { s with wr.state := .inactive } := by
  rcases h with h | h
  · rw [setWrState_same h]
    exact h.symm ▸ rfl
  · exact setWrState_legal (by rw [h]; rfl)

theorem cancelRead_eq (s : State) : cancelRead s =
    { s with rd := { s.rd with state := .inactive, cons := 0, prod := 0, kick := false },
             rdDma := { s.rdDma with en := false, cndtr := capCount }, rdTim.en := false, pin := .gpoIdle } := by
  unfold cancelRead
  dsimp only
  by_cases hr : ReadRunning s.toArch
  · rw [if_pos hr, setRdState_legal (s := s) (n := .stopping) (by rcases hr with hr | hr <;> rw [hr] <;> rfl),
      setRdState_inactive (Or.inr rfl)]
  · rw [if_neg hr, setRdState_inactive]
    change s.rd.state = _ ∨ s.rd.state = _
    rw [ReadRunning, not_or] at hr
    revert hr
    cases s.rd.state <;> simp

/-- What CANCEL does to the write side, but for the image's answer to the last call. -/
theorem cancelWrite_eq (s : State) : ∃ e : Env, cancelWrite s =
    { s with wr := { s.wr with state := .inactive, cons := 0 }, wrDma := { s.wrDma with en := false, cndtr := capCount },
             wrTim := { s.wrTim with en := false, cc1e := false }, mfm := { prod := 0, cons := 0 },
             data := { prod := 0, cons := 0 }, env := e } := by
  have h1 : ∃ w : RingState, (w = .inactive ∨ w = .stopping) ∧
      (if s.wr.state = .starting ∨ s.wr.state = .active then setWrState .stopping s else s) =
        { s with wr.state := w } := by
    by_cases hr : s.wr.state = .starting ∨ s.wr.state = .active
    · rw [if_pos hr, setWrState_legal (by rcases hr with hr | hr <;> rw [hr] <;> rfl)]
      exact ⟨_, Or.inr rfl, rfl⟩
    · rw [if_neg hr]
      refine ⟨s.wr.state, ?_, rfl⟩
      revert hr
      cases s.wr.state <;> simp
  obtain ⟨w, hw, h1⟩ := h1
  unfold cancelWrite
  dsimp only
  rw [h1]
  by_cases hn : s.wr.state ≠ .inactive
  · simp only [if_pos hn]
    rw [setWrState_inactive hw]
    exact ⟨_, rfl⟩
  · simp only [if_neg hn]
    rw [setWrState_inactive hw]
    exact ⟨_, rfl⟩

theorem cancelAll_eq (s : State) : ∃ e : Env, cancelAll s =
    { s with
      rd := { s.rd with state := .inactive, cons := 0, prod := 0, kick := false }
      rdDma := { s.rdDma with en := false, cndtr := capCount }
      rdTim.en := false
      pin := .gpoIdle
      wr := { s.wr with state := .inactive, cons := 0 }
      wrDma := { s.wrDma with en := false, cndtr := capCount }
      wrTim := { s.wrTim with en := false, cc1e := false }
      mfm := { prod := 0, cons := 0 }
      data := { prod := 0, cons := 0 }
      irq := { rdDma := false, wrDma := false, stepSoft := false, extiEn := false, dmaEn := false }
      index := { s.index with timer := { s.index.timer with armed := false }, active := false }
      stepper := { s.stepper with state := .idle, timer := { s.stepper.timer with armed := false } }
      fgWait := none
      image.loaded := false
      outs := muxOutputs (pinDskchg ||| pinWrprot) true s.drive.sel
        (muxOutputs (pinIndex ||| pinRdy) false s.drive.sel s.outs)
      env := e } := by
  unfold cancelAll
  dsimp only
  obtain ⟨e, he⟩ := cancelWrite_eq (cancelRead { s with
    irq := { rdDma := false, wrDma := false, stepSoft := false, extiEn := false, dmaEn := false }
    index := { s.index with timer := { s.index.timer with armed := false }, active := false } })
  rw [he, cancelRead_eq]
  exact ⟨e, rfl⟩

theorem cancelAll_core {s : State} (h : CoreInv s) :
    CoreInv (cancelAll s) ∧ (cancelAll s).rd.state = .inactive ∧ (cancelAll s).wr.state = .inactive := by
  have h1 : CountOk { en := false, cndtr := capCount, req := s.rdDma.req, ht := s.rdDma.ht, tc := s.rdDma.tc } := by
    simp [CountOk, capCount, Config.cap]
  have h2 : CountOk { en := false, cndtr := capCount, req := s.wrDma.req, ht := s.wrDma.ht, tc := s.wrDma.tc } := by
    simp [CountOk, capCount, Config.cap]
  obtain ⟨hc, hf, hm, hx, hd, hrp, hwp, hlm, hwt, hs⟩ := h
  obtain ⟨e, he⟩ := cancelAll_eq s
  rw [he]
  refine ⟨⟨hc, hf, hm, muxOutputs_ok _ _ _ _ (muxOutputs_ok _ _ _ _ hx), ⟨h1, h2, hd.2.2⟩,
    ⟨hrp.1, nofun, fun _ => ⟨rfl, rfl, rfl⟩⟩, ⟨fun hn => ?_, fun _ => ⟨rfl, rfl, rfl⟩⟩,
    ⟨rfl, rfl, fun _ => ⟨rfl, rfl, rfl, rfl, rfl, rfl, rfl, rfl, rfl⟩⟩, fun hn => absurd rfl hn,
    ⟨⟨nofun, nofun⟩, fun hn => ?_, fun _ => rfl⟩⟩, rfl, rfl⟩
  · rcases hn with hn | hn <;> exact absurd hn nofun
  · rcases hn with hn | hn <;> exact absurd hn nofun

theorem reset_inv_of {c : Config} (hc : c.Valid) (e : Nat) (v : Env) :
    Inv { toArch := Arch.reset c e, cfg := c, owed := OwedSince.none, env := v } := by
  have h1 : CountOk { en := false, cndtr := 1024#11, req := false, ht := false, tc := false } := by decide
  refine ⟨⟨hc, rfl, rfl, rfl, ⟨h1, h1, rfl, rfl⟩, ⟨rfl, nofun, fun _ => ⟨rfl, rfl, rfl⟩⟩,
    ⟨fun hn => ?_, fun _ => ⟨rfl, rfl, rfl⟩⟩, ⟨rfl, rfl, fun _ => ⟨rfl, rfl, rfl, rfl, rfl, rfl, rfl, rfl, rfl⟩⟩,
    fun hn => absurd rfl hn, ⟨⟨nofun, nofun⟩, fun hn => ?_, fun _ => rfl⟩⟩, ?_, ?_⟩
  · rcases hn with hn | hn <;> exact absurd hn nofun
  · rcases hn with hn | hn <;> exact absurd hn nofun
  · rintro (⟨hn | hn, -⟩ | ⟨hn, -⟩) <;> exact absurd hn nofun
  · rfl

/-! ## TICK -/

theorem CoreInv.counting {s : State} (h : CoreInv s) (n : Nat) (c : Sample)
    (hc : s.rd.state = .active → c < s.rdTim.arr) : CoreInv { s with now := n, rdTim.cnt := c } := by
  obtain ⟨hcf, hf, hm, hx, hd, hr, hw, hl, hwt, hs⟩ := h
  exact ⟨hcf, hf, hm, hx, hd, ⟨hr.1, fun ha => ⟨(hr.2.1 ha).1, (hr.2.1 ha).2.1, (hr.2.1 ha).2.2.1, hc ha⟩, hr.2.2⟩,
    hw, hl, hwt, hs⟩

theorem tickRdTim_core {s t : State} (h : CoreInv s) (ht : tickRdTim s = .next t) :
    CoreInv t ∧ t.rd.state = s.rd.state ∧ t.wr.state = s.wr.state := by
  unfold tickRdTim at ht
  split at ht
  · obtain rfl := Host.Outcome.next.inj ht
    exact ⟨h, rfl, rfl⟩
  · next hen =>
    have ha : s.rd.state = .active := by
      by_contra hn
      exact hen (h.2.2.2.2.2.1.2.2 hn).1
    have hlt := (h.2.2.2.2.2.1.2.1 ha).2.2.2
    have hde := (h.2.2.2.2.2.1.2.1 ha).2.1
    have hld := h.loaded_of_read (by rw [ha]; nofun)
    split at ht
    · rw [if_pos hde] at ht
      unfold requestRdBeat rdBeat at ht
      dsimp only at ht
      split at ht
      · exact absurd ht nofun
      · next hz =>
        obtain rfl := Host.Outcome.next.inj ht
        have hlt0 : (0#16 : Sample) < Memory.rdEntry s.mem (rdPos { s with rdTim.cnt := 0, rdDma.req := true }.toArch) := by
          bv_omega
        refine ⟨rdBeatWith_core ?_ hld, ?_, ?_⟩
        · obtain ⟨hcf, hf, hm, hx, hd, hr, hw, hl, hwt, hs⟩ := h
          exact ⟨hcf, hf, hm, hx, ⟨hd.1, hd.2.1, rfl, hd.2.2.2⟩, ⟨hr.1,
            fun ha => ⟨(hr.2.1 ha).1, (hr.2.1 ha).2.1, (hr.2.1 ha).2.2.1, hlt0⟩, hr.2.2⟩, hw, hl, hwt, hs⟩
        · unfold rdBeatWith; dsimp only; split <;> rfl
        · unfold rdBeatWith; dsimp only; split <;> rfl
    · next hne =>
      obtain rfl := Host.Outcome.next.inj ht
      exact ⟨CoreInv.counting h s.now _ (fun _ => by bv_omega), rfl, rfl⟩

theorem tickWrTim_core {s : State} (h : CoreInv s) : CoreInv (tickWrTim s) := by
  unfold tickWrTim
  split
  · obtain ⟨hcf, hf, hm, hx, hd, hr, hw, hl, hwt, hs⟩ := h
    exact ⟨hcf, hf, hm, hx, hd, hr, hw, hl, hwt, hs⟩
  · exact h

theorem idxFire_wr (s : State) : (idxFire s).wr = s.wr ∧ (idxFire s).rd = s.rd := by
  unfold idxFire indexDeassert
  dsimp only
  split
  · split <;> exact ⟨rfl, rfl⟩
  · exact ⟨rfl, rfl⟩

theorem stepFire_wr (s : State) : (stepFire s).wr = s.wr ∧ (stepFire s).rd = s.rd := by
  unfold stepFire settlingFire casStep
  dsimp only
  split
  · exact ⟨rfl, rfl⟩
  · split <;> exact ⟨rfl, rfl⟩
  · exact ⟨rfl, rfl⟩
  · exact ⟨rfl, rfl⟩

theorem tickTimers_core {s : State} (h : CoreInv s) :
    CoreInv (tickTimers s) ∧ (tickTimers s).wr = s.wr ∧ (tickTimers s).rd = s.rd := by
  have h1 : ∀ u, CoreInv u → CoreInv (if StepFireOwed u.toArch then stepFire u else u) ∧
      (if StepFireOwed u.toArch then stepFire u else u).wr = u.wr ∧
      (if StepFireOwed u.toArch then stepFire u else u).rd = u.rd := by
    intro u hu
    split
    · next hd => exact ⟨stepFire_core hu hd, stepFire_wr u⟩
    · exact ⟨hu, rfl, rfl⟩
  unfold tickTimers
  split
  · dsimp only
    split
    · next hd =>
      obtain ⟨q1, q2, q3⟩ := h1 _ (idxFire_core h hd)
      exact ⟨q1, q2.trans (idxFire_wr s).1, q3.trans (idxFire_wr s).2⟩
    · exact h1 _ h
  · exact ⟨h, rfl, rfl⟩

theorem Overlap_congr {a b : Arch} (h1 : a.rd.state = b.rd.state) (h2 : a.wr.state = b.wr.state) :
    Overlap a ↔ Overlap b := by
  simp only [Overlap, ReadRunning, h1, h2]

theorem boundary_inv {s : State} (h : CoreInv s) (ho : ¬ Overlap s.toArch) : Inv (boundary s) := by
  rw [boundary_of_clear ho]
  exact ⟨h, ho, OwedSince.update_idem _ _⟩

theorem tickStep_inv {s t : State} (h : CoreInv s) (ho : ¬ Overlap s.toArch) (ht : tickStep s = .next t) : Inv t := by
  unfold tickStep at ht
  rw [if_neg (by simp [h.2.1])] at ht
  split at ht
  · obtain ⟨u, hu, ht⟩ := andThen_eq_next.mp ht
    obtain rfl := Host.Outcome.next.inj ht
    obtain ⟨v, hv, hu⟩ := andThen_eq_next.mp hu
    obtain rfl := Host.Outcome.next.inj hu
    have h0 : CoreInv { s with now := s.now + 1 } := h
    obtain ⟨hv1, hv2, hv3⟩ := tickRdTim_core h0 hv
    obtain ⟨q1, q2, q3⟩ := tickTimers_core (tickWrTim_core hv1)
    refine boundary_inv q1 ?_
    have e : ∀ u : State, (tickWrTim u).rd = u.rd ∧ (tickWrTim u).wr = u.wr := by
      intro u; unfold tickWrTim; split <;> exact ⟨rfl, rfl⟩
    rw [Overlap_congr (b := s.toArch)]
    · exact ho
    · rw [q3, (e v).1]; exact hv2
    · rw [q2, (e v).2]; exact hv3
  · exact absurd ht nofun

theorem tickTimes_inv (n : Nat) {s t : State} (h : Inv s) (ht : tickTimes n s = .next t) : Inv t := by
  induction n generalizing s with
  | zero => obtain rfl := Host.Outcome.next.inj ht
            exact h
  | succ n ih =>
    obtain ⟨u, hu, ht⟩ := andThen_eq_next.mp ht
    exact ih (tickStep_inv h.1 h.2.1 hu) ht

/-! ## FG_HANDLE -/

theorem not_Overlap_of_write {a : Arch} (h : a.wr.state = .inactive) : ¬ Overlap a := by
  simp [Overlap, h]

theorem not_Overlap_of_read {a : Arch} (h : a.rd.state = .inactive) : ¬ Overlap a := by
  simp [Overlap, ReadRunning, h]

theorem not_Overlap_stopping {a : Arch} (h : a.rd.state = .stopping) (hw : a.wr.state ≠ .active) : ¬ Overlap a := by
  simp [Overlap, ReadRunning, h, hw]

theorem write_inactive_of {a : Arch} (h : ¬ Overlap a) (hr : ReadRunning a) : a.wr.state = .inactive := by
  by_contra hn
  exact h (Or.inl ⟨hr, hn⟩)

theorem rdStart_frame {s t : State} (ht : rdStart s = .next t) :
    t.wr = s.wr ∧ t.image = s.image ∧ (t.rd.state = s.rd.state ∨ (s.rd.state = .starting ∧ t.rd.state = .active)) := by
  unfold rdStart at ht
  split at ht
  · obtain rfl := Host.Outcome.next.inj ht
    exact ⟨rfl, rfl, Or.inl rfl⟩
  · unfold rdStartNow casRd at ht
    by_cases ha : s.rd.state = .starting
    · have hset := setRdState_legal (s := { s with fgWait := none, owed.rdStart := none }) (n := .active)
        (by change s.rd.state.canBecome _ = true; rw [ha]; rfl)
      simp only [ha, if_true, hset, requestRdBeat, rdBeat] at ht
      split at ht
      · exact absurd ht nofun
      · obtain rfl := Host.Outcome.next.inj ht
        unfold rdBeatWith
        dsimp only
        split <;> exact ⟨rfl, rfl, Or.inr ⟨ha, rfl⟩⟩
    · simp only [ha, if_false, Bool.false_eq_true] at ht
      obtain rfl := Host.Outcome.next.inj ht
      exact ⟨rfl, rfl, Or.inl rfl⟩

theorem rdStart_clear {s t : State} (ho : ¬ Overlap s.toArch) (ht : rdStart s = .next t) : ¬ Overlap t.toArch := by
  obtain ⟨hw, -, hr | ⟨hr, ha⟩⟩ := rdStart_frame ht
  · rwa [Overlap_congr (b := s.toArch) hr (by rw [hw])]
  · exact not_Overlap_of_write (by rw [hw]; exact write_inactive_of ho (Or.inl hr))

theorem ifEnabled_inv {s t : State} {e : Prop} {_ : Decidable e} {r : Result} {P : State → Prop} (h : P s)
    (hr : e → r = .next t → P t) (ht : ifEnabled s e r = .next t) : P t := by
  rcases ifEnabled_eq_next.mp ht with ⟨he, ht⟩ | ⟨-, rfl⟩
  · exact hr he ht
  · exact h

theorem fgWrite_core {s t : State} (h : CoreInv s ∧ ¬ Overlap s.toArch) (ht : fgWrite s = .next t) :
    CoreInv t ∧ ¬ Overlap t.toArch := by
  unfold fgWrite at ht
  split at ht
  · next hw =>
    refine ifEnabled_inv (P := fun u => CoreInv u ∧ ¬ Overlap u.toArch) h (fun he hr => ?_) ht
    have hri : s.rd.state = .inactive := by
      have h1 := h.2
      simp only [Overlap, ReadRunning, hw] at h1
      have h2 := he.2.2
      revert h1 h2
      cases s.rd.state <;> simp
    obtain ⟨q1, q2⟩ := wrActivate_core h.1 hri hr
    exact ⟨q1, not_Overlap_of_read q2⟩
  · refine ifEnabled_inv (P := fun u => CoreInv u ∧ ¬ Overlap u.toArch) h (fun _ hr => ?_) ht
    obtain rfl := Host.Outcome.next.inj hr
    exact h
  · refine ifEnabled_inv (P := fun u => CoreInv u ∧ ¬ Overlap u.toArch) h (fun he hr => ?_) ht
    obtain rfl := Host.Outcome.next.inj hr
    refine ⟨wrDrain_core h.1 he.2.1, not_Overlap_of_read ?_⟩
    unfold wrDrain
    dsimp only
    split
    · exact he.2.2.1
    · rw [setWrState_legal (by change s.wr.state.canBecome _ = true; rw [he.2.1]; rfl)]
      exact he.2.2.1
  · obtain rfl := Host.Outcome.next.inj ht
    exact h

theorem rdStop_clear {s : State} (ho : ¬ Overlap s.toArch) (hr : ReadRunning s.toArch) : ¬ Overlap (rdStop s).toArch :=
  not_Overlap_of_write (by rw [rdStop_wr]; exact write_inactive_of ho hr)

theorem fgRead_core {s t : State} (h : CoreInv s ∧ ¬ Overlap s.toArch) (ht : fgRead s = .next t) :
    CoreInv t ∧ ¬ Overlap t.toArch := by
  have stop : ∀ {e : Prop} {_ : Decidable e}, (e → ReadRunning s.toArch) →
      ifEnabled s e (.next (rdStop s)) = .next t → CoreInv t ∧ ¬ Overlap t.toArch := fun he ht =>
    ifEnabled_inv (P := fun u => CoreInv u ∧ ¬ Overlap u.toArch) h (fun hp hr => by
      obtain rfl := Host.Outcome.next.inj hr
      exact ⟨rdStop_core h.1, rdStop_clear h.2 (he hp)⟩) ht
  unfold fgRead at ht
  split at ht
  · exact ifEnabled_inv (P := fun u => CoreInv u ∧ ¬ Overlap u.toArch) h (fun he hr => rdSeek_core h.1 he hr) ht
  · split at ht
    · exact stop (fun he => he.2.1) ht
    · obtain ⟨u, hu, ht⟩ := andThen_eq_next.mp ht
      have h1 := ifEnabled_inv (P := fun u => CoreInv u ∧ ¬ Overlap u.toArch) h (fun _ hr => by
        obtain rfl := Host.Outcome.next.inj hr
        exact ⟨rdPrefill_core h.1, h.2⟩) hu
      exact ifEnabled_inv (P := fun u => CoreInv u ∧ ¬ Overlap u.toArch) h1 (fun he hr =>
        ⟨rdStart_core h1.1 he hr, rdStart_clear h1.2 hr⟩) ht
  · split at ht
    · exact stop (fun he => he.2.1) ht
    · next ha _ =>
      exact ifEnabled_inv (P := fun u => CoreInv u ∧ ¬ Overlap u.toArch) h (fun _ hr => by
        obtain rfl := Host.Outcome.next.inj hr
        refine ⟨rdReplenish_core h.1 ha, ?_⟩
        rw [Overlap_congr (b := s.toArch)]
        · exact h.2
        · unfold rdReplenish; dsimp only; split <;> rfl
        · unfold rdReplenish; dsimp only; split <;> rfl) ht
  · obtain rfl := Host.Outcome.next.inj ht
    exact h

theorem fgParts_core {s t : State} (h : CoreInv s ∧ ¬ Overlap s.toArch) (ht : fgParts s = .next t) :
    CoreInv t ∧ ¬ Overlap t.toArch := by
  unfold fgParts at ht
  obtain ⟨s1, h1, ht⟩ := andThen_eq_next.mp ht
  obtain ⟨s2, h2, ht⟩ := andThen_eq_next.mp ht
  obtain ⟨s3, h3, ht⟩ := andThen_eq_next.mp ht
  obtain rfl := Host.Outcome.next.inj ht
  have q1 := ifEnabled_inv (P := fun u => CoreInv u ∧ ¬ Overlap u.toArch) h (fun he hr => by
    obtain rfl := Host.Outcome.next.inj hr
    refine ⟨rdFinish_core h.1 he.2 he.1.2.2, not_Overlap_of_read ?_⟩
    unfold rdFinish
    rw [setRdState_legal (by change s.rd.state.canBecome _ = true; rw [he.2]; rfl)]) h1
  have q2 := fgRead_core (fgWrite_core q1 h2) h3
  exact q2

theorem fgHandle_core {s t : State} (h : CoreInv s ∧ ¬ Overlap s.toArch) (ht : fgHandle s = .next t) :
    CoreInv t ∧ ¬ Overlap t.toArch := by
  unfold fgHandle at ht
  split at ht
  · obtain rfl := Host.Outcome.next.inj ht
    exact h
  · split at ht
    · exact fgParts_core h ht
    · split at ht
      · obtain ⟨u, hu, ht⟩ := andThen_eq_next.mp ht
        exact fgParts_core (ifEnabled_inv (P := fun u => CoreInv u ∧ ¬ Overlap u.toArch) h (fun he hr =>
          ⟨rdStart_core h.1 he hr, rdStart_clear h.2 hr⟩) hu) ht
      · obtain rfl := Host.Outcome.next.inj ht
        exact h

/-! ## Every operation -/

theorem operation_inv {s t : State} {e : Prop} {_ : Decidable e} {r : Result}
    (h : ∀ u, e → r = .next u → CoreInv u ∧ ¬ Overlap u.toArch) (ht : operation s e r = .next t) : Inv t := by
  obtain ⟨-, -, he, u, hu, rfl⟩ := operation_eq_next.mp ht
  exact boundary_inv (h u he hu).1 (h u he hu).2

theorem not_running {s : State} (ho : ¬ Overlap s.toArch) (hw : s.wr.state ≠ .inactive) : ¬ ReadRunning s.toArch :=
  fun hr => hw (write_inactive_of ho hr)

theorem wgate0_clear {s : State} (ho : ¬ Overlap s.toArch) : ¬ Overlap (wgate0 s).toArch := by
  unfold wgate0
  split
  · exact ho
  · split
    · exact ho
    · next hi =>
      rw [not_or] at hi
      have hr := not_running ho hi.1
      rw [setWrState_legal (by revert hi; cases s.wr.state <;> simp [RingState.canBecome])]
      rintro (⟨hn, -⟩ | ⟨hn, -⟩)
      · exact hr hn
      · exact absurd hn nofun

theorem rdStop_notRunning (s : State) : ¬ ReadRunning (rdStop s).toArch := by
  unfold rdStop
  split
  · next h => rcases h with h | h <;> simp [ReadRunning, h]
  · next hi =>
    rw [not_or] at hi
    rw [setRdState_legal (by revert hi; cases s.rd.state <;> simp [RingState.canBecome])]
    dsimp only
    split <;> simp [ReadRunning]

theorem wgate1_clear {s : State} (ho : ¬ Overlap s.toArch) : ¬ Overlap (wgate1 s).toArch := by
  unfold wgate1
  split
  · exact ho
  · split
    · exact ho
    · next hwr =>
      rw [ne_eq, not_not] at hwr
      unfold wdataStart
      rw [setWrState_legal (by rw [rdStop_wr, hwr]; rfl)]
      rintro (⟨hn, -⟩ | ⟨hn, -⟩)
      · exact rdStop_notRunning s hn
      · exact absurd hn nofun

theorem wdataEdge_state (s : State) : (wdataEdge s).wr.state = s.wr.state := by
  unfold wdataEdge requestWrBeat wrBeat
  split
  · dsimp only
    split
    · split <;> rfl
    · rfl
  · rfl

theorem stepSoftirq_state (s : State) : (stepSoftirq s).wr.state = s.wr.state := by
  unfold stepSoftirq; dsimp only; split <;> rfl

theorem rdFill_wr (c : RingIx) (s : State) : (rdFill c s).wr = s.wr := by dsimp only [rdFill, askFlux, called]

theorem rdServiceActive_wr (s : State) : (rdServiceActive s).wr = s.wr := by
  have h1 : (if UnderrunAt s.toArch (rdPos s.toArch) then logError .underrun s else s).wr = s.wr := by split <;> rfl
  unfold rdServiceActive
  dsimp only
  generalize (if UnderrunAt s.toArch (rdPos s.toArch) then logError .underrun s else s) = u at h1
  have h2 := rdFill_wr (rdPos s.toArch) { u with rd.cons := rdPos s.toArch }
  generalize rdFill (rdPos s.toArch) { u with rd.cons := rdPos s.toArch } = v at h2
  rw [← h1]
  split <;> split <;> exact h2

theorem rdService_wr (s : State) : (rdService s).wr = s.wr := by
  unfold rdService
  dsimp only
  split
  · exact rdServiceActive_wr _
  · rfl

theorem wrService_state (s : State) : (wrService s).wr.state = s.wr.state := by
  unfold wrService
  dsimp only
  split
  · rfl
  · dsimp only [wrServiceDecode]

end Sys2Proof.Machine
end

