-- ==== Sys2Proof/Laws/Claims.lean ====
section
/-! SUPPORT. From what an operation computes to what claims say of it (Safety.lean): when `RunsTo` and `OnlyWhen` hold,
and the helpers of the claims beside the model's own functions. -/

namespace Sys2Proof.Machine

/-- An operation in its frame runs to the architectural state it computes. -/
theorem runsTo_of {i : Instr} {s u : State} {a : Arch} {calls : List ImageCall} {ret : Option Returned} {e : Prop}
    {_ : Decidable e} {r : Result} (hx : exec i s = operation s e r) (hs : Ready s) (he : e) (hr : r = .next u)
    (ha : u.toArch = a) (ho : ¬ Overlap a) (hc : u.cfg = s.cfg) (ht : u.env.trace = s.env.trace)
    (hk : u.env.calls = s.env.calls ++ calls) (hq : u.env.ret = ret) : RunsTo i s a calls ret := by
  refine ⟨boundary u, ?_, ?_, ?_, ?_, ?_, ?_⟩
  · rw [hx, operation_run hs.1 hs.2.1 he, hr]; rfl
  · rw [boundary_toArch, if_neg (ha ▸ ho)]; exact ha
  · rw [boundary_cfg]; exact hc
  · rw [boundary_env]; exact ht
  · rw [boundary_env]; exact hk
  · rw [boundary_env]; exact hq

/-- The same for an operation that calls nothing and returns nothing. -/
theorem runsTo_plain {i : Instr} {s u : State} {a : Arch} {e : Prop} {_ : Decidable e}
    (hx : exec i s = operation s e (.next u)) (hs : Ready s) (he : e) (ha : u.toArch = a) (ho : ¬ Overlap a)
    (hc : u.cfg = s.cfg) (hv : u.env = s.env) : RunsTo i s a :=
  runsTo_of hx hs he rfl ha ho hc (by rw [hv]) (by rw [hv, List.append_nil]) (by rw [hv])

theorem operation_refused {s : State} {e : Prop} {_ : Decidable e} {r : Result} (hc : s.cfg.Valid)
    (hf : s.fault = none) (he : ¬ e) : operation s e r = .refused .notEnabled := by
  unfold operation
  rw [if_neg (not_not_intro hc), if_neg (by simp [hf]), if_neg he]

/-- `rdata_stop` as the claims word it. -/
theorem rdStop_toArch (s : State) : (rdStop s).toArch = readStopped (rev s.cfg) s.toArch := by
  unfold rdStop readStopped
  split
  · rfl
  · next hi =>
    rw [not_or] at hi
    rw [setRdState_legal (by revert hi; cases s.rd.state <;> simp [RingState.canBecome])]
    dsimp only
    split <;> rfl

theorem rdStop_env (s : State) : (rdStop s).env = s.env ∧ (rdStop s).cfg = s.cfg := by
  unfold rdStop
  split
  · exact ⟨rfl, rfl⟩
  · next hi =>
    rw [not_or] at hi
    rw [setRdState_legal (by revert hi; cases s.rd.state <;> simp [RingState.canBecome])]
    dsimp only
    split <;> exact ⟨rfl, rfl⟩

theorem beat_eq_channelBeaten (d : DmaChannel) : d.beat = channelBeaten d := rfl

theorem beatPends_iff (d : DmaChannel) : beatPends d = true ↔ d.BeatPends := by
  unfold beatPends DmaChannel.BeatPends HalfTransfer FullTransfer halfCount
  rw [Bool.or_eq_true, decide_eq_true_iff, decide_eq_true_iff]

/-- The read beat as the claims word it. -/
theorem rdBeatWith_toArch (v : Sample) (s : State) : (rdBeatWith v s).toArch =
    { s.toArch with
      rdTim.arr := v
      rdDma := channelBeaten s.rdDma
      irq.rdDma := s.irq.rdDma || beatPends s.rdDma } := by
  unfold rdBeatWith
  dsimp only
  split
  · next hb => rw [(beatPends_iff _).mpr hb, Bool.or_true]; rfl
  · next hb => rw [Bool.eq_false_iff.mpr (fun h => hb ((beatPends_iff _).mp h)), Bool.or_false]; rfl

theorem rdBeatWith_env (v : Sample) (s : State) : (rdBeatWith v s).env = s.env ∧ (rdBeatWith v s).cfg = s.cfg := by
  unfold rdBeatWith; dsimp only; split <;> exact ⟨rfl, rfl⟩

/-- The write beat as the claims word it. -/
theorem wrBeat_toArch (s : State) : (wrBeat s).toArch =
    { s.toArch with
      mem := s.mem.putWr (wrPos s.toArch) s.wrTim.ccr1
      wrDma := channelBeaten s.wrDma
      irq.wrDma := s.irq.wrDma || beatPends s.wrDma } := by
  unfold wrBeat
  dsimp only
  split
  · next hb => rw [(beatPends_iff _).mpr hb, Bool.or_true]; rfl
  · next hb => rw [Bool.eq_false_iff.mpr (fun h => hb ((beatPends_iff _).mp h)), Bool.or_false]; rfl

theorem wrBeat_env (s : State) : (wrBeat s).env = s.env ∧ (wrBeat s).cfg = s.cfg := by
  unfold wrBeat; dsimp only; split <;> exact ⟨rfl, rfl⟩

/-! ## TICK -/

/-- A TICK of which every inner tick is allowed. -/
theorem execTick_runs {n : Nat} {s u : State} {a : Arch} (hs : Ready s) (h : tickTimes n s = .next u) (ha :
    u.toArch = a)
    (ho : ¬ Overlap a) (hc : u.cfg = s.cfg) (hv : u.env = s.env) : RunsTo (.tick n) s a :=
  runsTo_of (execTick_eq n s) hs trivial h ha ho hc (by rw [hv]) (by rw [hv, List.append_nil]) (by rw [hv])

theorem tickQuiet_cfg (k : Nat) (s : State) : (tickQuiet k s).cfg = s.cfg := by unfold tickQuiet; split <;> rfl
theorem tickQuiet_env (k : Nat) (s : State) : (tickQuiet k s).env = s.env := by unfold tickQuiet; split <;> rfl
/-- What a quiet stretch changes. -/
theorem tickQuiet_toArch (k : Nat) (s : State) : (tickQuiet k s).toArch = { s.toArch with
    now := s.now + k
    rdTim.cnt := if s.rdTim.en then s.rdTim.cnt + BitVec.ofNat 16 k else s.rdTim.cnt
    wrTim.cnt := if s.wrTim.en then s.wrTim.cnt + BitVec.ofNat 16 k else s.wrTim.cnt } := by
  unfold tickQuiet
  split
  · next h => subst h; simp
  · rfl

/-- A software timer lets pass every tick before it is due. -/
theorem timer_le_gap {k n : Nat} {t : SoftTimer} {now : Nat} (hk : k ≤ n) (h : ¬ t.Due (now + k)) :
    k ≤ timerGap n t now := by
  unfold timerGap
  split
  · next ha =>
    have : ¬ t.deadline ≤ ((now + k : Nat) : Int) := fun q => h ⟨ha, q⟩
    push_cast at this
    omega
  · exact hk

/-- When `k` ticks only count. -/
theorem le_quietSpan {k n : Nat} {s : State} (hs : Ready s) (hq : ¬ AnyOwed s.toArch) (hw : s.fgWait = none)
    (hi : ¬ s.index.timer.Due (s.now + k)) (ht : ¬ s.stepper.timer.Due (s.now + k)) (hu : k ≤ updateGap n s.rdTim)
    (hk : k ≤ n) : k ≤ quietSpan n s := by
  unfold quietSpan
  rw [if_neg]
  · have h1 := timer_le_gap hk hi
    have h2 := timer_le_gap hk ht
    have h3 : waitGap n s.fgWait s.now = n := by rw [hw]; rfl
    omega
  · rintro (h | h | h)
    · exact h hs.2.1
    · exact hs.2.2 h
    · exact hq h

/-- The last tick of a TICK. -/
theorem tickTimes_last (n : Nat) {s u : State} (h : tickTimes n s = .next u) : tickTimes (n + 1) s = tickStep u := by
  rw [tickTimes_add, h, andThen_next]
  rw [tickTimes]
  cases tickStep u <;> rfl

/-- With nothing owed time may pass (R261). -/
theorem tickAllowed_of {s : State} (h : ¬ AnyOwed s.toArch) : tickAllowed s = true := by
  simp only [tickAllowed, OwedSince.update_clear _ h, OwedSince.none, mayWait, Bool.and_self]

/-- After a quiet stretch nothing is owed. -/
theorem notOwed_quiet {k : Nat} {s : State} (hq : ¬ AnyOwed s.toArch) (hw : s.fgWait = none)
    (hi : ¬ s.index.timer.Due (s.now + k)) (ht : ¬ s.stepper.timer.Due (s.now + k)) : ¬ AnyOwed
        (tickQuiet k s).toArch := by
  rw [tickQuiet_toArch]
  simp only [not_or] at hq ⊢
  refine ⟨hq.1, hq.2.1, hq.2.2.1, hi, ht, ?_⟩
  simp [waitOver, hw]

/-- What is not due later is not due earlier. -/
theorem due_mono {t : SoftTimer} {a b : Nat} (h : a ≤ b) (hd : ¬ t.Due b) : ¬ t.Due a :=
  fun q => hd ⟨q.1, by have := q.2; omega⟩

/-- With no timer due a tick fires none. -/
theorem tickTimers_none {u : State} (hi : ¬ u.index.timer.Due u.now) (ht : ¬ u.stepper.timer.Due u.now) :
    tickTimers u = u := by
  unfold tickTimers IdxFireOwed StepFireOwed
  rw [if_neg hi]
  dsimp only
  rw [if_neg ht]
  simp

theorem tickWrTim_toArch (u : State) : (tickWrTim u).toArch = { u.toArch with
    wrTim.cnt := if u.wrTim.en then u.wrTim.cnt + 1 else u.wrTim.cnt } := by
  unfold tickWrTim; split <;> rfl
theorem tickWrTim_cfg (u : State) : (tickWrTim u).cfg = u.cfg ∧ (tickWrTim u).env = u.env := by
  unfold tickWrTim; split <;> exact ⟨rfl, rfl⟩

/-- The tick of an update event, with its beat (R106). -/
theorem tickOne_update {v : State} (he : v.rdTim.en = true) (hu : v.rdTim.cnt + 1 = v.rdTim.arr) (hd :
    v.rdDma.en = true)
    (hz : v.mem.rdEntry (rdPos v.toArch) ≠ 0) (hi : ¬ v.index.timer.Due (v.now + 1)) (ht : ¬ v.stepper.timer.Due
        (v.now + 1)) :
    ∃ u : State, tickOne v = .next u ∧ u.toArch = { v.toArch with
      now := v.now + 1
      rdTim := { v.rdTim with cnt := 0, arr := v.mem.rdEntry (rdPos v.toArch) }
      rdDma := channelBeaten v.rdDma
      irq.rdDma := v.irq.rdDma || beatPends v.rdDma
      wrTim.cnt := if v.wrTim.en then v.wrTim.cnt + 1 else v.wrTim.cnt } ∧ u.cfg = v.cfg ∧ u.env = v.env := by
  have h1 : tickRdTim { v with now := v.now + 1 } = .next (rdBeatWith (v.mem.rdEntry (rdPos v.toArch))
      { v with now := v.now + 1, rdTim.cnt := 0, rdDma.req := true }) := by
    unfold tickRdTim
    rw [if_neg (by simp [he]), if_pos hu]
    dsimp only
    rw [if_pos hd]
    unfold requestRdBeat rdBeat
    dsimp only
    exact if_neg hz
  have ha := rdBeatWith_toArch (v.mem.rdEntry (rdPos v.toArch))
      { v with now := v.now + 1, rdTim.cnt := 0, rdDma.req := true }
  have hb := rdBeatWith_env (v.mem.rdEntry (rdPos v.toArch))
      { v with now := v.now + 1, rdTim.cnt := 0, rdDma.req := true }
  generalize rdBeatWith _ _ = w at h1 ha hb
  refine ⟨tickWrTim w, ?_, ?_, ?_, ?_⟩
  · unfold tickOne
    rw [h1, andThen_next, tickTimers_none]
    · rw [tickWrTim_toArch, ha]; exact hi
    · rw [tickWrTim_toArch, ha]; exact ht
  · rw [tickWrTim_toArch, ha]; simp [channelBeaten, beatPends]
  · rw [(tickWrTim_cfg w).1, hb.2]
  · rw [(tickWrTim_cfg w).2, hb.1]

/-- A tick without the PWM timer (R111). -/
theorem tickOne_count {v : State} (he : v.rdTim.en = false) : ∃ u : State, tickOne v = .next (tickTimers u) ∧
    u.toArch = { v.toArch with now := v.now + 1, wrTim.cnt := if v.wrTim.en then v.wrTim.cnt + 1 else v.wrTim.cnt } ∧
    u.cfg = v.cfg ∧ u.env = v.env := by
  refine ⟨tickWrTim { v with now := v.now + 1 }, ?_, ?_, ?_, ?_⟩
  · unfold tickOne tickRdTim
    rw [if_pos (by exact he)]
    rfl
  · rw [tickWrTim_toArch]
  · exact (tickWrTim_cfg _).1
  · exact (tickWrTim_cfg _).2

theorem idxFire_keeps (u : State) : (idxFire u).cfg = u.cfg ∧ (idxFire u).env = u.env ∧
    (idxFire u).stepper = u.stepper ∧ (idxFire u).now = u.now := by
  unfold idxFire indexAssert indexDeassert; dsimp only; split
  · split <;> exact ⟨rfl, rfl, rfl, rfl⟩
  · exact ⟨rfl, rfl, rfl, rfl⟩
theorem stepFire_keeps (u : State) : (stepFire u).cfg = u.cfg ∧ (stepFire u).env = u.env := by
  unfold stepFire; dsimp only; split <;> try exact ⟨rfl, rfl⟩
  unfold settlingFire casStep; split <;> exact ⟨rfl, rfl⟩

/-- IDX_FIRE looks at the architectural state and the parameters only. -/
theorem idxFire_congr {u v : State} (h : u.toArch = v.toArch) (hc : u.cfg = v.cfg) : (idxFire u).toArch =
    (idxFire v).toArch := by
  obtain ⟨a, c, o, e⟩ := u
  obtain ⟨a', c', o', e'⟩ := v
  obtain rfl : a = a' := h
  obtain rfl : c = c' := hc
  unfold idxFire indexAssert indexDeassert
  cases h1 : a.index.active
  · simp [h1]
  · by_cases h2 : a.rd.state = .active <;> simp [h1, h2, setOutputs]
/-- STEP_FIRE looks at the architectural state and the parameters only. -/
theorem stepFire_congr {u v : State} (h : u.toArch = v.toArch) (hc : u.cfg = v.cfg) : (stepFire u).toArch =
    (stepFire v).toArch := by
  obtain ⟨a, c, o, e⟩ := u
  obtain ⟨a', c', o', e'⟩ := v
  obtain rfl : a = a' := h
  obtain rfl : c = c' := hc
  unfold stepFire; dsimp only; split <;> try rfl
  unfold settlingFire casStep; split <;> rfl

/-- After an update event ARR ticks pass before the next. -/
theorem updateGap_eq {n : Nat} {t : ReadTimer} (he : t.en = true) (hc : t.cnt = 0) (h : n < t.arr.toNat) :
    n ≤ updateGap n t := by
  unfold updateGap
  rw [if_pos he, hc]
  have : (t.arr - 0 - 1).toNat = t.arr.toNat - 1 := by bv_omega
  omega

end Sys2Proof.Machine
end

