-- ==== Sys2Proof/Laws/Moves.lean ====
section
/-! SUPPORT. Who moves the ring states and the head (R104, R231): said once for every operation, so that a proof about
them splits no operation again. `Still` is an operation with no say in it, `WriteMoves l` what one may do to the write
ring and the head that runs the operations `l` at its preemption points, `PreemptMoves l` what `l` itself does there,
`TickMoves` what a TICK does. -/

namespace Sys2Proof.Machine

/-! ## The relations -/

/-- Ring states, cylinder and the operations still to run at the preemption points are what they were. -/
structure Still (s t : State) : Prop where
  rd : t.rd.state = s.rd.state
  wr : t.wr.state = s.wr.state
  cyl : t.drive.cyl = s.drive.cyl
  atP1 : t.env.note.atP1 = s.env.note.atP1
  atP2 : t.env.note.atP2 = s.env.note.atP2

/-- The write ring leaves Inactive, and enters Starting, only by a WGATE 1 of `l`, enters Stopping only by a WGATE 0 of
`l`; the head moves by `step_cyl` only, at most as often as STEP_FIRE stands in `l`. -/
structure WriteMoves (l : List Instr) (s t : State) : Prop where
  leavesInactive : s.wr.state = .inactive → t.wr.state ≠ .inactive → .wgate1 ∈ l
  entersStarting : s.wr.state ≠ .starting → t.wr.state = .starting → .wgate1 ∈ l
  entersStopping : s.wr.state ≠ .stopping → t.wr.state = .stopping → .wgate0 ∈ l
  head : ∃ ds : List Bool, ds.length ≤ l.count .stepFire ∧ t.drive.cyl = ds.foldl stepCyl s.drive.cyl
  atP1 : t.env.note.atP1 = s.env.note.atP1
  atP2 : t.env.note.atP2 = s.env.note.atP2

/-- What the operations `l` do at a preemption point: besides, the read ring goes Stopping at most, by a WGATE 1; the
write ring does not become Active or Inactive and does not leave Stopping. -/
structure PreemptMoves (l : List Instr) (s t : State) : Prop extends WriteMoves l s t where
  read : t.rd.state = s.rd.state ∨ (t.rd.state = .stopping ∧ ReadRunning s.toArch ∧ .wgate1 ∈ l)
  notActive : s.wr.state ≠ .active → t.wr.state ≠ .active
  notInactive : s.wr.state ≠ .inactive → t.wr.state ≠ .inactive
  stopping : s.wr.state = .stopping → t.wr.state = .stopping
  fromStarting : s.wr.state = .starting → t.wr.state = .starting ∨ t.wr.state = .stopping

theorem Still.rfl {s : State} : Still s s := ⟨Eq.refl _, Eq.refl _, Eq.refl _, Eq.refl _, Eq.refl _⟩

theorem Still.trans {s t u : State} (h : Still s t) (k : Still t u) : Still s u :=
  ⟨k.rd.trans h.rd, k.wr.trans h.wr, k.cyl.trans h.cyl, k.atP1.trans h.atP1, k.atP2.trans h.atP2⟩

theorem Still.ite {s t u : State} {c : Prop} {_ : Decidable c} (h : Still s t) (k : Still s u) :
    Still s (if c then t else u) := by split <;> assumption

/-- For `rfl`: an update of other fields. -/
theorem Still.of_eq {s t : State} (h1 : t.rd.state = s.rd.state) (h2 : t.wr.state = s.wr.state)
    (h3 : t.drive.cyl = s.drive.cyl) (h4 : t.env.note.atP1 = s.env.note.atP1)
    (h5 : t.env.note.atP2 = s.env.note.atP2) : Still s t := ⟨h1, h2, h3, h4, h5⟩

theorem WriteMoves.of_wr {s t : State} (l : List Instr) (h : t.wr.state = s.wr.state) (hc : t.drive.cyl = s.drive.cyl)
    (h1 : t.env.note.atP1 = s.env.note.atP1) (h2 : t.env.note.atP2 = s.env.note.atP2) : WriteMoves l s t :=
  ⟨fun a b => absurd (h.trans a) b, fun a b => absurd (h ▸ b) a, fun a b => absurd (h ▸ b) a, ⟨[], by simp, hc⟩, h1, h2⟩

theorem Still.moves {s t : State} (h : Still s t) (l : List Instr) : PreemptMoves l s t :=
  { WriteMoves.of_wr l h.wr h.cyl h.atP1 h.atP2 with
    read := .inl h.rd
    notActive := fun a => by rwa [h.wr]
    notInactive := fun a => by rwa [h.wr]
    stopping := fun a => by rwa [h.wr]
    fromStarting := fun a => .inl (by rwa [h.wr]) }

theorem Still.write {s t : State} (h : Still s t) (l : List Instr) : WriteMoves l s t := (h.moves l).toWriteMoves

theorem WriteMoves.trans {l m : List Instr} {s t u : State} (a : WriteMoves l s t) (b : WriteMoves m t u) :
    WriteMoves (l ++ m) s u := by
  refine ⟨fun h h' => ?_, fun h h' => ?_, fun h h' => ?_, ?_, b.atP1.trans a.atP1, b.atP2.trans a.atP2⟩
  · by_cases ht : t.wr.state = .inactive
    · exact List.mem_append_right _ (b.leavesInactive ht h')
    · exact List.mem_append_left _ (a.leavesInactive h ht)
  · by_cases ht : t.wr.state = .starting
    · exact List.mem_append_left _ (a.entersStarting h ht)
    · exact List.mem_append_right _ (b.entersStarting ht h')
  · by_cases ht : t.wr.state = .stopping
    · exact List.mem_append_left _ (a.entersStopping h ht)
    · exact List.mem_append_right _ (b.entersStopping ht h')
  · obtain ⟨x, hx, ex⟩ := a.head
    obtain ⟨y, hy, ey⟩ := b.head
    refine ⟨x ++ y, ?_, by rw [ey, ex, List.foldl_append]⟩
    rw [List.length_append, List.count_append]
    omega

theorem WriteMoves.append {l : List Instr} {s t : State} (a : WriteMoves l s t) (m : List Instr) :
    WriteMoves (l ++ m) s t := a.trans (Still.rfl.write m)

theorem WriteMoves.still {l : List Instr} {s t u : State} (a : WriteMoves l s t) (b : Still t u) : WriteMoves l s u := by
  simpa using a.trans (b.write [])

/-- First a part without preemption points, then one that runs what the annotation gives. -/
theorem WriteMoves.then {s t u : State} (a : WriteMoves [] s t)
    (b : WriteMoves (t.env.note.atP1 ++ t.env.note.atP2) t u) :
    WriteMoves (s.env.note.atP1 ++ s.env.note.atP2) s u := by
  have h := a.trans b
  rwa [List.nil_append, a.atP1, a.atP2] at h

theorem PreemptMoves.trans {l m : List Instr} {s t u : State} (a : PreemptMoves l s t) (b : PreemptMoves m t u) :
    PreemptMoves (l ++ m) s u := by
  refine { a.toWriteMoves.trans b.toWriteMoves with
    read := ?_, notActive := b.notActive ∘ a.notActive, notInactive := b.notInactive ∘ a.notInactive
    stopping := b.stopping ∘ a.stopping, fromStarting := fun h => ?_ }
  · rcases b.read with h | ⟨h, hr, hm⟩
    · exact a.read.imp h.trans fun k => ⟨h.trans k.1, k.2.1, List.mem_append_left _ k.2.2⟩
    · refine .inr ⟨h, ?_, List.mem_append_right _ hm⟩
      rcases a.read with k | ⟨-, k, -⟩
      · unfold ReadRunning at *
        rwa [k] at hr
      · exact k
  · exact (a.fromStarting h).elim b.fromStarting fun k => .inr (b.stopping k)

/-! ## What may stand at a preemption point -/

theorem stepPulse_still (d : Bool) (s : State) : Still s (stepPulse d s) := by
  unfold stepPulse; split <;> exact .of_eq rfl rfl rfl rfl rfl

theorem stepSoftirq_still (s : State) : Still s (stepSoftirq s) := by
  unfold stepSoftirq; dsimp only; split <;> exact .of_eq rfl rfl rfl rfl rfl

theorem idxFire_still (s : State) : Still s (idxFire s) := by
  unfold idxFire indexAssert indexDeassert; dsimp only
  split
  · split <;> exact .of_eq rfl rfl rfl rfl rfl
  · exact .of_eq rfl rfl rfl rfl rfl

theorem wrBeat_still (s : State) : Still s (wrBeat s) := by
  unfold wrBeat; dsimp only; split <;> exact .of_eq rfl rfl rfl rfl rfl

theorem wdataEdge_still (s : State) : Still s (wdataEdge s) := by
  unfold wdataEdge; dsimp only
  split
  · have h : Still s { s with wrTim.ccr1 := s.wrTim.cnt } := .of_eq rfl rfl rfl rfl rfl
    have k : Still { s with wrTim.ccr1 := s.wrTim.cnt } { s with wrTim.ccr1 := s.wrTim.cnt, wrDma.req := true } :=
      .of_eq rfl rfl rfl rfl rfl
    exact .ite (h.trans (k.trans (wrBeat_still _))) h
  · exact .rfl

theorem rdFill_still (c : RingIx) (s : State) : Still s (rdFill c s) := by
  constructor <;> dsimp only [rdFill, askFlux, called]

theorem rdServiceActive_still (s : State) : Still s (rdServiceActive s) := by
  have h1 : Still s (if UnderrunAt s.toArch (rdPos s.toArch) then logError .underrun s else s) :=
    .ite (.of_eq rfl rfl rfl rfl rfl) .rfl
  unfold rdServiceActive
  dsimp only
  generalize (if UnderrunAt s.toArch (rdPos s.toArch) then logError .underrun s else s) = u at h1
  have ha : Still u { u with rd.cons := rdPos s.toArch } := .of_eq rfl rfl rfl rfl rfl
  have h2 := h1.trans (ha.trans (rdFill_still (rdPos s.toArch) _))
  generalize rdFill (rdPos s.toArch) { u with rd.cons := rdPos s.toArch } = v at h2
  have h3 : ∀ p : Prop, ∀ _ : Decidable p, Still s (if p then { v with rd.kick := true } else v) := fun p _ =>
    .ite (h2.trans (.of_eq rfl rfl rfl rfl rfl)) h2
  generalize hw : (if (fluxAnswer (fillRequest (rdPos s.toArch) u.rd.prod)
    { u with rd.cons := rdPos s.toArch }).length < fillRequest (rdPos s.toArch) u.rd.prod then
      { v with rd.kick := true } else v) = w
  have h4 : Still s w := hw ▸ h3 _ _
  have h5 : Still s (askTicks w) := h4.trans (.of_eq rfl rfl rfl rfl rfl)
  refine Still.trans (t := if ticksAnswer w < (askTicks w).rd.lastTsi then
    indexResync (ticksAnswer w) (askTicks w) else askTicks w) (.ite (h5.trans (.of_eq rfl rfl rfl rfl rfl)) h5) ?_
  exact .of_eq rfl rfl rfl rfl rfl

theorem rdService_still (s : State) : Still s (rdService s) := by
  have h : Still s { s with irq.rdDma := false, owed.rdService := none } := .of_eq rfl rfl rfl rfl rfl
  exact .ite (h.trans (rdServiceActive_still _)) h

theorem wrService_still (s : State) : Still s (wrService s) := by
  unfold wrService wrServiceDecode; dsimp only; split <;> exact .of_eq rfl rfl rfl rfl rfl

/-- STEP_FIRE leaves the rings, and moves the head by one `step_cyl` or not at all. -/
theorem stepFire_moves (s : State) : PreemptMoves [.stepFire] s (stepFire s) ∧
    ((stepFire s).drive.cyl = s.drive.cyl ∨ (stepFire s).drive.cyl = stepCyl s.drive.cyl s.stepper.inward) := by
  have still : ∀ t, Still s t → PreemptMoves [.stepFire] s t ∧
      (t.drive.cyl = s.drive.cyl ∨ t.drive.cyl = stepCyl s.drive.cyl s.stepper.inward) := fun t h =>
    ⟨h.moves _, .inl h.cyl⟩
  unfold stepFire; dsimp only
  split
  · exact ⟨{ Still.rfl.moves (s := s) [.stepFire] with head := ⟨[s.stepper.inward], by simp, rfl⟩ }, .inr rfl⟩
  · refine still _ ?_
    unfold settlingFire casStep
    split <;> exact .of_eq rfl rfl rfl rfl rfl
  · exact still _ (.of_eq rfl rfl rfl rfl rfl)
  · exact still _ (.of_eq rfl rfl rfl rfl rfl)

/-- `rdata_stop` (R143): a running read goes Stopping, nothing else here moves. -/
theorem rdStop_spec (s : State) : (rdStop s).wr = s.wr ∧ (rdStop s).drive = s.drive ∧ (rdStop s).env = s.env ∧
    ((¬ ReadRunning s.toArch ∧ (rdStop s).rd.state = s.rd.state) ∨
      (ReadRunning s.toArch ∧ (rdStop s).rd.state = .stopping)) := by
  rw [rdStop_toArch, (rdStop_env s).1]
  unfold readStopped
  split
  · next h => exact ⟨rfl, rfl, rfl, .inl ⟨by rcases h with q | q <;> simp [ReadRunning, q], rfl⟩⟩
  · next h => exact ⟨rfl, rfl, rfl, .inr ⟨by revert h; simp only [ReadRunning]; cases s.rd.state <;> simp, rfl⟩⟩

theorem rdStop_write (s : State) : WriteMoves [] s (rdStop s) := by
  obtain ⟨hw, hd, he, -⟩ := rdStop_spec s
  exact .of_wr [] (by rw [hw]) (by rw [hd]) (by rw [he]) (by rw [he])

theorem setWrState_done {n : RingState} {s : State} (h : s.wr.state.canBecome n = true) :
    (setWrState n s).wr.state = n := by rw [setWrState_legal h]

theorem setRdState_done {n : RingState} {s : State} (h : s.rd.state.canBecome n = true) :
    (setRdState n s).rd.state = n := by rw [setRdState_legal h]

/-- A guarded write of the write ring's state touches neither the read ring nor the head, and is done or not. -/
theorem setWrState_spec (n : RingState) (s : State) :
    (setWrState n s).rd = s.rd ∧ (setWrState n s).drive = s.drive ∧ (setWrState n s).env = s.env ∧
    ((setWrState n s).wr.state = s.wr.state ∨ (setWrState n s).wr.state = n) := by
  unfold setWrState
  split
  · exact ⟨rfl, rfl, rfl, .inl rfl⟩
  · split
    · exact ⟨rfl, rfl, rfl, .inr rfl⟩
    · exact ⟨rfl, rfl, rfl, .inl rfl⟩

/-- A guarded write of the read ring's state touches neither the write ring nor the head, and is done or not. -/
theorem setRdState_spec (n : RingState) (s : State) :
    (setRdState n s).wr = s.wr ∧ (setRdState n s).drive = s.drive ∧ (setRdState n s).env = s.env ∧
    ((setRdState n s).rd.state = s.rd.state ∨ (setRdState n s).rd.state = n) := by
  unfold setRdState
  split
  · exact ⟨rfl, rfl, rfl, .inl rfl⟩
  · split
    · exact ⟨rfl, rfl, rfl, .inr rfl⟩
    · exact ⟨rfl, rfl, rfl, .inl rfl⟩

theorem setRdState_write (n : RingState) (s : State) : WriteMoves [] s (setRdState n s) := by
  obtain ⟨hw, hd, he, -⟩ := setRdState_spec n s
  exact .of_wr [] (by rw [hw]) (by rw [hd]) (by rw [he]) (by rw [he])

theorem wgate0_moves (s : State) : PreemptMoves [.wgate0] s (wgate0 s) := by
  unfold wgate0
  split
  · exact Still.rfl.moves _
  split
  · exact Still.rfl.moves _
  next h =>
    have hn : s.wr.state ≠ .inactive ∧ s.wr.state ≠ .stopping := by simpa using h
    have hc : s.wr.state.canBecome .stopping = true := by revert hn; cases s.wr.state <;> simp [RingState.canBecome]
    obtain ⟨hr, hd, he, -⟩ := setWrState_spec .stopping s
    have hw := setWrState_done hc
    generalize setWrState .stopping s = u at *
    dsimp only [pendWr]
    exact {
      leavesInactive := fun a => absurd a hn.1, entersStarting := fun _ b => by simp [hw] at b
      entersStopping := fun _ _ => by simp, head := ⟨[], by simp, by rw [hd]; rfl⟩, atP1 := by rw [he], atP2 := by rw [he]
      read := .inl (by rw [hr]), notActive := fun _ => by simp [hw], notInactive := fun _ => by simp [hw]
      stopping := fun _ => hw, fromStarting := fun _ => .inr hw }

theorem wgate1_moves (s : State) : PreemptMoves [.wgate1] s (wgate1 s) := by
  unfold wgate1
  split
  · exact Still.rfl.moves _
  split
  · exact (Still.of_eq rfl rfl rfl rfl rfl : Still s (logError .missedWrite s)).moves _
  next h =>
    have hi : s.wr.state = .inactive := by simpa using h
    obtain ⟨hw, hd, he, hr⟩ := rdStop_spec s
    unfold wdataStart
    generalize rdStop s = u at *
    obtain ⟨kr, kd, ke, -⟩ := setWrState_spec .starting u
    have hs : (setWrState .starting u).wr.state = .starting := setWrState_done (by rw [hw, hi]; rfl)
    generalize setWrState .starting u = v at *
    dsimp only
    exact {
      leavesInactive := fun _ _ => by simp, entersStarting := fun _ _ => by simp
      entersStopping := fun _ b => by simp [hs] at b, head := ⟨[], by simp, by rw [kd, hd]; rfl⟩
      atP1 := by rw [ke, he], atP2 := by rw [ke, he]
      read := hr.imp (fun q => by rw [kr]; exact q.2) fun q => ⟨by rw [kr]; exact q.2, q.1, by simp⟩
      notActive := fun _ => by simp [hs], notInactive := fun _ => by simp [hs]
      stopping := fun a => by simp [hi] at a, fromStarting := fun _ => .inl hs }

theorem runPreempting_moves {i : Instr} {s t : State} (h : runPreempting i s = .next t) : PreemptMoves [i] s t := by
  cases i <;> simp only [runPreempting] at h <;> try (cases h)
  all_goals
    obtain ⟨-, -, h⟩ := attempt_eq_next.1 h
    obtain rfl := Host.Outcome.next.inj h
  case step d h => exact (stepPulse_still d s).moves _
  case side b h => exact (Still.of_eq rfl rfl rfl rfl rfl : Still s (sideSelect b s)).moves _
  case sel b h => exact (Still.of_eq rfl rfl rfl rfl rfl : Still s (driveSelect b s)).moves _
  case wgate1 => exact wgate1_moves s
  case wgate0 => exact wgate0_moves s
  case wdataEdge => exact (wdataEdge_still s).moves _
  case idxFire => exact (idxFire_still s).moves _
  case stepFire => exact (stepFire_moves s).1
  case rdService => exact (rdService_still s).moves _
  case wrService => exact (wrService_still s).moves _
  case stepSoftirq => exact (stepSoftirq_still s).moves _

/-- What the operations at a preemption point do, all together. -/
theorem preempt_moves (l : List Instr) {s t : State} (h : preempt l s = .next t) : PreemptMoves l s t := by
  induction l generalizing s with
  | nil =>
    obtain rfl := Host.Outcome.next.inj h
    exact Still.rfl.moves _
  | cons i l ih =>
    obtain ⟨u, hu, ht⟩ := andThen_eq_next.1 h
    exact (runPreempting_moves hu).trans (ih ht)

/-! ## The foreground operations -/

theorem rdPrefill_still (s : State) : Still s (rdPrefill s) :=
  (.of_eq rfl rfl rfl rfl rfl : Still s (askReadTrack s)).trans (rdFill_still 0 _)

theorem rdReplenish_still (s : State) : Still s (rdReplenish s) := by
  unfold rdReplenish; dsimp only; split <;> exact .of_eq rfl rfl rfl rfl rfl

theorem wrPump_still (s : State) : Still s (wrPump s) := .of_eq rfl rfl rfl rfl rfl

theorem rdBeat_still {s t : State} (h : rdBeat s = .next t) : Still s t := by
  unfold rdBeat at h; dsimp only at h
  split at h
  · cases h
  obtain rfl := Host.Outcome.next.inj h
  refine .of_eq ?_ ?_ ?_ ?_ ?_ <;> first | rw [rdBeatWith_toArch] | rw [(rdBeatWith_env _ _).1]

/-- RD_START leaves the read ring, or takes it from Starting to Active; the rest here stands still. -/
theorem rdStart_moves {s t : State} (h : rdStart s = .next t) :
    WriteMoves [] s t ∧ t.wr.state = s.wr.state ∧
      (t.rd.state = s.rd.state ∨ (s.rd.state = .starting ∧ t.rd.state = .active)) := by
  have still : ∀ u, Still s u → WriteMoves [] s u ∧ u.wr.state = s.wr.state ∧
      (u.rd.state = s.rd.state ∨ (s.rd.state = .starting ∧ u.rd.state = .active)) := fun u k =>
    ⟨k.write [], k.wr, .inl k.rd⟩
  unfold rdStart at h
  split at h
  · obtain rfl := Host.Outcome.next.inj h
    exact still _ (.of_eq rfl rfl rfl rfl rfl)
  · unfold rdStartNow casRd at h
    dsimp only at h
    split at h
    · next hs =>
      have hs : s.rd.state = .starting := hs
      simp only [setRdState, hs, RingState.canBecome, reduceCtorEq, reduceIte] at h
      have k := rdBeat_still h
      exact ⟨.of_wr [] k.wr k.cyl k.atP1 k.atP2, k.wr, .inr ⟨hs, k.rd⟩⟩
    · simp only [Bool.false_eq_true, if_false] at h
      obtain rfl := Host.Outcome.next.inj h
      exact still _ (.of_eq rfl rfl rfl rfl rfl)

theorem rdFinish_write (s : State) : WriteMoves [] s (rdFinish s) ∧ (rdFinish s).wr = s.wr ∧
    (s.rd.state = .stopping → (rdFinish s).rd.state = .inactive) :=
  have h : Still s { s with rd.cons := 0, rd.prod := 0, rdDma.cndtr := capCount, rd.kick := false } :=
    .of_eq rfl rfl rfl rfl rfl
  ⟨(h.write []).trans (setRdState_write .inactive _),
    (setRdState_spec _ _).1, fun h => setRdState_done (by dsimp only; rw [h]; rfl)⟩

/-- WR_DRAIN goes Inactive or stays Stopping. -/
theorem wrDrain_moves {s : State} (hs : s.wr.state = .stopping) : WriteMoves [] s (wrDrain s) ∧
    (wrDrain s).rd.state = s.rd.state ∧ ((wrDrain s).wr.state = .stopping ∨ (wrDrain s).wr.state = .inactive) := by
  unfold wrDrain; dsimp only
  split
  · have k : Still s (returning .again (askWriteTrack (decide (s.wr.cons = wrPos s.toArch)) (barrier s))) :=
      .of_eq rfl rfl rfl rfl rfl
    exact ⟨k.write [], k.rd, .inl (k.wr.trans hs)⟩
  · generalize hu : fileSync { askWriteTrack (decide (s.wr.cons = wrPos s.toArch)) (barrier s) with
      mfm := { prod := 0, cons := 0 }, data := { prod := 0, cons := 0 } } = u
    have k : Still s u := hu ▸ ⟨rfl, rfl, rfl, rfl, rfl⟩
    obtain ⟨kr, kd, ke, -⟩ := setWrState_spec .inactive u
    have kw : (setWrState .inactive u).wr.state = .inactive := setWrState_done (by rw [k.wr, hs]; rfl)
    refine ⟨⟨fun a => by simp [hs] at a, fun _ b => by simp [kw] at b, fun a => absurd hs a, ⟨[], by simp, ?_⟩, ?_, ?_⟩,
      by rw [kr]; exact k.rd, .inr kw⟩
    · rw [kd]; exact k.cyl
    · rw [ke]; exact k.atP1
    · rw [ke]; exact k.atP2

/-- WR_ACTIVATE from Starting: the write ring stays, goes Active, or was sent Stopping at P1. -/
theorem wrActivate_moves {s t : State} (hs : s.wr.state = .starting) (h : wrActivate s = .next t) :
    WriteMoves s.env.note.atP1 s t ∧ (t.rd.state = s.rd.state ∨ (t.rd.state = .stopping ∧ ReadRunning s.toArch)) ∧
      (t.wr.state = .starting ∨ t.wr.state = .active ∨ t.wr.state = .stopping) := by
  unfold wrActivate at h
  split at h
  · obtain rfl := Host.Outcome.next.inj h
    have k : Still s (raiseFatal .engineOverlap s) := .of_eq rfl rfl rfl rfl rfl
    exact ⟨k.write _, .inl k.rd, .inl hs⟩
  obtain ⟨u, hu, h⟩ := andThen_eq_next.1 h
  have hm : PreemptMoves s.env.note.atP1 s u :=
    ((⟨rfl, rfl, rfl, rfl, rfl⟩ : Still s (askSeek (trackOf s.drive) none s)).moves []).trans (preempt_moves _ hu)
  have hr : u.rd.state = s.rd.state ∨ (u.rd.state = .stopping ∧ ReadRunning s.toArch) :=
    hm.read.imp id fun q => ⟨q.1, q.2.1⟩
  split at h
  · obtain rfl := Host.Outcome.next.inj h
    have k : Still u (returning .retry u) := .of_eq rfl rfl rfl rfl rfl
    exact ⟨hm.toWriteMoves.still k, hr, (hm.fromStarting hs).imp id .inr⟩
  · obtain rfl := Host.Outcome.next.inj h
    unfold casWr
    split
    · next hu =>
      obtain ⟨kr, kd, ke, -⟩ := setWrState_spec .active u
      have kw : (setWrState .active u).wr.state = .active := setWrState_done (by rw [hu]; rfl)
      exact ⟨⟨fun a => by simp [hs] at a, fun a => absurd hs a, fun _ b => by simp [kw] at b, by rw [kd]; exact hm.head,
        by rw [ke]; exact hm.atP1, by rw [ke]; exact hm.atP2⟩, by rw [kr]; exact hr, .inr (.inl kw)⟩
    · next hu => exact ⟨hm.toWriteMoves, hr, (hm.fromStarting hs).elim (fun q => absurd q hu) fun q => .inr (.inr q)⟩

/-- The read is not Active and the write ring has not become Active, gone Inactive, or left Stopping. -/
structure SeekKeeps (s t : State) : Prop where
  read : s.rd.state ≠ .active → t.rd.state ≠ .active
  notActive : s.wr.state ≠ .active → t.wr.state ≠ .active
  notInactive : s.wr.state ≠ .inactive → t.wr.state ≠ .inactive
  stopping : s.wr.state = .stopping → t.wr.state = .stopping

theorem SeekKeeps.trans {s t u : State} (a : SeekKeeps s t) (b : SeekKeeps t u) : SeekKeeps s u :=
  ⟨b.read ∘ a.read, b.notActive ∘ a.notActive, b.notInactive ∘ a.notInactive, b.stopping ∘ a.stopping⟩

theorem PreemptMoves.seekKeeps {l : List Instr} {s t : State} (h : PreemptMoves l s t) : SeekKeeps s t :=
  ⟨fun a => h.read.elim (fun q => by rwa [q]) fun q => by simp [q.1], h.notActive, h.notInactive, h.stopping⟩

theorem setRdState_seekKeeps {n : RingState} (hn : n ≠ .active) (s : State) : SeekKeeps s (setRdState n s) := by
  obtain ⟨hw, -, -, hr⟩ := setRdState_spec n s
  exact ⟨fun a => hr.elim (fun q => by rwa [q]) fun q => by rwa [q], fun a => by rwa [hw], fun a => by rwa [hw],
    fun a => by rwa [hw]⟩

/-- RD_SEEK with whatever stands at P1 and P2. -/
theorem rdSeek_moves {s t : State} (h : rdSeek s = .next t) :
    WriteMoves (s.env.note.atP1 ++ s.env.note.atP2) s t ∧ SeekKeeps s t := by
  unfold rdSeek at h
  dsimp only at h
  obtain ⟨u, hu, h⟩ := andThen_eq_next.1 h
  have ha : Still s (askSeek (trackOf s.drive) (some (syncPosition s.index.prevTime s)) s) := ⟨rfl, rfl, rfl, rfl, rfl⟩
  have hm : PreemptMoves s.env.note.atP1 s u := (ha.moves []).trans (preempt_moves _ hu)
  split at h
  · obtain rfl := Host.Outcome.next.inj h
    have k : Still u (returning .retry u) := .of_eq rfl rfl rfl rfl rfl
    exact ⟨(hm.toWriteMoves.still k).append _, hm.seekKeeps.trans (k.moves []).seekKeeps⟩
  obtain ⟨v, hv, h⟩ := andThen_eq_next.1 h
  obtain rfl := Host.Outcome.next.inj h
  have hb : Still u { u with rd.syncTime := syncTimeFor s.index.prevTime (seekAnswer s).2 u,
                             rd.track := trackOf s.drive, rd.lastTsi := 0 } := .of_eq rfl rfl rfl rfl rfl
  have hc : WriteMoves [] u (barrier (seekCommit s.index.prevTime (trackOf s.drive) (seekAnswer s).2 u)) ∧
      SeekKeeps u (barrier (seekCommit s.index.prevTime (trackOf s.drive) (seekAnswer s).2 u)) :=
    ⟨(hb.write []).trans (setRdState_write .starting _),
      (hb.moves []).seekKeeps.trans (setRdState_seekKeeps (n := .starting) (by simp) _)⟩
  have hp := preempt_moves _ hv
  rw [hm.atP2] at hp
  have hr : WriteMoves [] v (seekRecheck (trackOf s.drive) v) ∧ SeekKeeps v (seekRecheck (trackOf s.drive) v) := by
    unfold seekRecheck
    split
    · exact ⟨setRdState_write _ _, setRdState_seekKeeps (by simp) _⟩
    · exact ⟨Still.rfl.write _, (Still.rfl.moves []).seekKeeps⟩
  generalize seekRecheck (trackOf s.drive) v = w at *
  have k : Still w (returning .again w) := .of_eq rfl rfl rfl rfl rfl
  refine ⟨?_, ((hm.seekKeeps.trans hc.2).trans hp.seekKeeps).trans (hr.2.trans (k.moves []).seekKeeps)⟩
  simpa using ((hm.toWriteMoves.trans hc.1).trans hp.toWriteMoves).trans (hr.1.still k)

/-! ## FG_HANDLE -/

theorem ifEnabled_write {l : List Instr} {s t : State} {e : Prop} {_ : Decidable e} {r : Result}
    (h : ifEnabled s e r = .next t) (hr : e → ∀ u, r = .next u → WriteMoves l s u) : WriteMoves l s t := by
  rcases ifEnabled_eq_next.1 h with ⟨he, h⟩ | ⟨-, rfl⟩
  · exact hr he _ h
  · exact Still.rfl.write l

theorem WriteMoves.next {l : List Instr} {s u v : State} (h : WriteMoves l s u)
    (e : (Host.Outcome.next u : Result) = .next v) : WriteMoves l s v := Host.Outcome.next.inj e ▸ h

/-- The write part runs what stands at P1 only if it leaves the write ring not Inactive. -/
theorem fgWrite_moves {s t : State} (h : fgWrite s = .next t) :
    WriteMoves [] s t ∨ (WriteMoves s.env.note.atP1 s t ∧ t.wr.state ≠ .inactive) := by
  unfold fgWrite at h
  split at h
  · next hs =>
    rcases ifEnabled_eq_next.1 h with ⟨-, h⟩ | ⟨-, rfl⟩
    · obtain ⟨hg, -, hw⟩ := wrActivate_moves hs h
      exact .inr ⟨hg, by rcases hw with q | q | q <;> rw [q] <;> simp⟩
    · exact .inl (Still.rfl.write _)
  · exact .inl (ifEnabled_write h fun _ _ => ((wrPump_still s).write []).next)
  · next hs => exact .inl (ifEnabled_write h fun _ _ => (wrDrain_moves hs).1.next)
  · exact .inl ((Still.rfl.write []).next h)

/-- The read part runs what stands at P1 and P2 only with the write ring Inactive. -/
theorem fgRead_moves {s t : State} (h : fgRead s = .next t) :
    WriteMoves [] s t ∨ (s.wr.state = .inactive ∧ WriteMoves (s.env.note.atP1 ++ s.env.note.atP2) s t) := by
  unfold fgRead at h
  split at h
  · rcases ifEnabled_eq_next.1 h with ⟨he, h⟩ | ⟨-, rfl⟩
    · exact .inr ⟨he.2.2.1, (rdSeek_moves h).1⟩
    · exact .inl (Still.rfl.write _)
  · left
    split at h
    · exact ifEnabled_write h fun _ _ => (rdStop_write s).next
    · obtain ⟨v, hv, h⟩ := andThen_eq_next.1 h
      exact (ifEnabled_write hv fun _ _ => ((rdPrefill_still s).write []).next).trans
        (ifEnabled_write h fun _ _ hu => (rdStart_moves hu).1)
  · left
    split at h
    · exact ifEnabled_write h fun _ _ => (rdStop_write s).next
    · exact ifEnabled_write h fun _ _ => ((rdReplenish_still s).write []).next
  · exact .inl ((Still.rfl.write []).next h)

theorem fgParts_moves {s t : State} (h : fgParts s = .next t) :
    WriteMoves (s.env.note.atP1 ++ s.env.note.atP2) s t := by
  unfold fgParts at h
  obtain ⟨u, hu, h⟩ := andThen_eq_next.1 h
  obtain ⟨v, hv, h⟩ := andThen_eq_next.1 h
  obtain ⟨w, hw, h⟩ := andThen_eq_next.1 h
  obtain rfl := Host.Outcome.next.inj h
  have h1 : WriteMoves [] s u := ifEnabled_write hu fun _ _ => (rdFinish_write s).1.next
  have h4 : Still w (fgReturn w) := .of_eq rfl rfl rfl rfl rfl
  refine h1.then (WriteMoves.still ?_ h4)
  rcases fgWrite_moves hv with h2 | ⟨h2, hn⟩
  · exact h2.then ((fgRead_moves hw).elim (fun h3 => h3.append _) fun h3 => h3.2)
  · rcases fgRead_moves hw with h3 | ⟨hi, -⟩
    · have h23 := h2.trans h3
      rw [List.append_nil] at h23
      exact h23.append _
    · exact absurd hi hn

/-- FG_HANDLE, with whatever stands at the preemption points of its parts. -/
theorem fgHandle_moves {s t : State} (h : fgHandle s = .next t) :
    WriteMoves (s.env.note.atP1 ++ s.env.note.atP2) s t := by
  have still : ∀ r, WriteMoves (s.env.note.atP1 ++ s.env.note.atP2) s (returning r s) := fun r =>
    (Still.of_eq rfl rfl rfl rfl rfl : Still s (returning r s)).write _
  unfold fgHandle at h
  split at h
  · exact (still _).next h
  split at h
  · exact fgParts_moves h
  split at h
  · obtain ⟨u, hu, h⟩ := andThen_eq_next.1 h
    exact (ifEnabled_write hu fun _ _ hx => (rdStart_moves hx).1).then (fgParts_moves h)
  · exact (still _).next h

/-! ## MOUNT and CANCEL -/

theorem mountImage_still (s : State) : Still s (mountImage s) := by
  unfold mountImage
  split
  · unfold mounted; dsimp only; split <;> exact ⟨rfl, rfl, rfl, rfl, rfl⟩
  · exact ⟨rfl, rfl, rfl, rfl, rfl⟩

theorem cancelRead_spec (s : State) : (cancelRead s).wr = s.wr ∧ (cancelRead s).drive = s.drive ∧
    (cancelRead s).rd.state = .inactive := by
  have h1 : ∃ u, (if ReadRunning s.toArch then setRdState .stopping s else s) = u ∧ u.wr = s.wr ∧ u.drive = s.drive ∧
      (u.rd.state = .inactive ∨ u.rd.state = .stopping) := by
    refine ⟨_, rfl, ?_⟩
    split
    · next h =>
      obtain ⟨a, b, -, -⟩ := setRdState_spec .stopping s
      exact ⟨a, b, .inr (setRdState_done (by rcases h with q | q <;> rw [q] <;> rfl))⟩
    · next h => exact ⟨rfl, rfl, by revert h; simp only [ReadRunning]; cases s.rd.state <;> simp⟩
  obtain ⟨u, hu, hw, hd, hr⟩ := h1
  unfold cancelRead
  dsimp only
  rw [hu]
  generalize hv : ({ u with rdDma.en := false, rdTim.en := false, pin := .gpoIdle, rd.cons := 0, rd.prod := 0,
                            rdDma.cndtr := capCount, rd.kick := false } : State) = v
  obtain ⟨a, b, -, c⟩ := setRdState_spec .inactive v
  subst hv
  refine ⟨a.trans hw, b.trans hd, ?_⟩
  rcases hr with q | q
  · exact c.elim (fun k => k.trans q) id
  · exact setRdState_done (by dsimp only; rw [q]; rfl)

theorem cancelWrite_spec (s : State) : (cancelWrite s).rd = s.rd ∧ (cancelWrite s).drive = s.drive ∧
    (cancelWrite s).wr.state = .inactive := by
  have h1 : ∃ u, (if s.wr.state = .starting ∨ s.wr.state = .active then setWrState .stopping s else s) = u ∧
      u.rd = s.rd ∧ u.drive = s.drive ∧ (u.wr.state = .inactive ∨ u.wr.state = .stopping) := by
    refine ⟨_, rfl, ?_⟩
    split
    · next h =>
      obtain ⟨a, b, -, -⟩ := setWrState_spec .stopping s
      exact ⟨a, b, .inr (setWrState_done (by rcases h with q | q <;> rw [q] <;> rfl))⟩
    · next h => exact ⟨rfl, rfl, by revert h; cases s.wr.state <;> simp⟩
  have fin : ∀ x : State, x.wr.state = .inactive ∨ x.wr.state = .stopping →
      (setWrState .inactive x).rd = x.rd ∧ (setWrState .inactive x).drive = x.drive ∧
        (setWrState .inactive x).wr.state = .inactive := fun x hx => by
    obtain ⟨a, b, -, c⟩ := setWrState_spec .inactive x
    refine ⟨a, b, ?_⟩
    rcases hx with q | q
    · exact c.elim (fun k => k.trans q) id
    · exact setWrState_done (by rw [q]; rfl)
  obtain ⟨u, hu, hr, hd, hw⟩ := h1
  unfold cancelWrite
  dsimp only
  rw [hu]
  split
  all_goals
    refine ⟨(fin _ ?_).1.trans hr, (fin _ ?_).2.1.trans hd, (fin _ ?_).2.2⟩ <;> exact hw

/-- CANCEL leaves both rings Inactive and the head where it is. -/
theorem cancelAll_moves (s : State) : (cancelAll s).rd.state = .inactive ∧ (cancelAll s).wr.state = .inactive ∧
    (cancelAll s).drive.cyl = s.drive.cyl := by
  unfold cancelAll
  dsimp only
  generalize hq : ({ s with
    irq := { rdDma := false, wrDma := false, stepSoft := false, extiEn := false, dmaEn := false }
    index := { s.index with timer := { s.index.timer with armed := false }, active := false } } : State) = q
  obtain ⟨-, hd, hr⟩ := cancelRead_spec q
  obtain ⟨kr, kd, kw⟩ := cancelWrite_spec (cancelRead q)
  refine ⟨?_, kw, ?_⟩
  · change (cancelWrite (cancelRead q)).rd.state = _
    rw [kr, hr]
  · change (cancelWrite (cancelRead q)).drive.cyl = _
    rw [kd, hd, ← hq]

/-! ## TICK -/

/-- A TICK leaves the rings and the direction of the step; with latency 0 it may move the head, and then ends the Latched
state, so that it does so at most once. -/
structure TickMoves (s t : State) : Prop where
  rd : t.rd.state = s.rd.state
  wr : t.wr.state = s.wr.state
  inward : t.stepper.inward = s.stepper.inward
  cfg : t.cfg = s.cfg
  head : (t.drive.cyl = s.drive.cyl ∧ (s.stepper.state ≠ .latched → t.stepper.state ≠ .latched)) ∨
    (s.stepper.state = .latched ∧ s.cfg.maxIrqLatency = 0 ∧ t.drive.cyl = stepCyl s.drive.cyl s.stepper.inward ∧
      t.stepper.state ≠ .latched)

theorem TickMoves.of_eq {s t : State} (h1 : t.rd.state = s.rd.state) (h2 : t.wr.state = s.wr.state)
    (h3 : t.drive = s.drive) (h4 : t.stepper = s.stepper) (h5 : t.cfg = s.cfg) : TickMoves s t :=
  ⟨h1, h2, by rw [h4], h5, .inl ⟨by rw [h3], by rw [h4]; exact id⟩⟩

theorem TickMoves.trans {s t u : State} (a : TickMoves s t) (b : TickMoves t u) : TickMoves s u := by
  refine ⟨b.rd.trans a.rd, b.wr.trans a.wr, b.inward.trans a.inward, b.cfg.trans a.cfg, ?_⟩
  rcases a.head with ⟨h1, h2⟩ | ⟨h1, h2, h3, h4⟩
  · rcases b.head with ⟨k1, k2⟩ | ⟨k1, k2, k3, k4⟩
    · exact .inl ⟨k1.trans h1, fun h => k2 (h2 h)⟩
    · exact .inr ⟨by_contra fun h => h2 h k1, by rw [← a.cfg]; exact k2, by rw [k3, h1, a.inward], k4⟩
  · rcases b.head with ⟨k1, k2⟩ | ⟨k1, -, -, -⟩
    · exact .inr ⟨h1, h2, k1.trans h3, k2 h4⟩
    · exact absurd k1 h4

theorem idxFire_tick (s : State) : TickMoves s (idxFire s) := by
  unfold idxFire indexAssert indexDeassert; dsimp only
  split
  · split <;> exact .of_eq rfl rfl rfl rfl rfl
  · exact .of_eq rfl rfl rfl rfl rfl

theorem stepFire_tick {s : State} (hl : s.cfg.maxIrqLatency = 0) : TickMoves s (stepFire s) := by
  unfold stepFire; dsimp only
  split
  · next h => exact ⟨rfl, rfl, rfl, rfl, .inr ⟨h, hl, rfl, by simp [latchedFire]⟩⟩
  · next h =>
    unfold settlingFire casStep
    rw [if_pos h]
    exact ⟨rfl, rfl, rfl, rfl, .inl ⟨rfl, by simp⟩⟩
  · exact ⟨rfl, rfl, rfl, rfl, .inl ⟨rfl, id⟩⟩
  · exact ⟨rfl, rfl, rfl, rfl, .inl ⟨rfl, id⟩⟩

theorem tickTimers_tick (s : State) : TickMoves s (tickTimers s) := by
  unfold tickTimers
  split
  · next hl =>
    have h1 : TickMoves s (if IdxFireOwed s.toArch then idxFire s else s) := by
      split
      · exact idxFire_tick s
      · exact .of_eq rfl rfl rfl rfl rfl
    dsimp only
    generalize (if IdxFireOwed s.toArch then idxFire s else s) = u at h1
    split
    · exact h1.trans (stepFire_tick (by rw [h1.cfg]; exact hl))
    · exact h1
  · exact .of_eq rfl rfl rfl rfl rfl

theorem rdBeat_tick {s t : State} (h : rdBeat s = .next t) : TickMoves s t := by
  unfold rdBeat at h; dsimp only at h
  split at h
  · cases h
  obtain rfl := Host.Outcome.next.inj h
  refine .of_eq ?_ ?_ ?_ ?_ (rdBeatWith_env _ _).2 <;> rw [rdBeatWith_toArch]

theorem tickRdTim_tick {s t : State} (h : tickRdTim s = .next t) : TickMoves s t := by
  unfold tickRdTim at h
  split at h
  · exact Host.Outcome.next.inj h ▸ .of_eq rfl rfl rfl rfl rfl
  split at h
  · dsimp only at h
    split at h
    · refine TickMoves.trans (t := { s with rdTim.cnt := 0, rdDma.req := true }) (.of_eq rfl rfl rfl rfl rfl) ?_
      exact rdBeat_tick h
    · exact Host.Outcome.next.inj h ▸ .of_eq rfl rfl rfl rfl rfl
  · exact Host.Outcome.next.inj h ▸ .of_eq rfl rfl rfl rfl rfl

theorem boundary_tick (s : State) : TickMoves s (boundary s) := by
  refine .of_eq ?_ ?_ ?_ ?_ (boundary_cfg s) <;> rw [boundary_toArch] <;> split <;> rfl

theorem tickStep_tick {s t : State} (h : tickStep s = .next t) : TickMoves s t := by
  unfold tickStep at h
  split at h
  · cases h
  split at h
  · obtain ⟨u, hu, h⟩ := andThen_eq_next.1 h
    obtain rfl := Host.Outcome.next.inj h
    obtain ⟨v, hv, h⟩ := andThen_eq_next.1 hu
    obtain rfl := Host.Outcome.next.inj h
    have h1 : TickMoves s v := .trans (t := { s with now := s.now + 1 }) (.of_eq rfl rfl rfl rfl rfl) (tickRdTim_tick hv)
    have h2 : TickMoves v (tickWrTim v) := by unfold tickWrTim; split <;> exact .of_eq rfl rfl rfl rfl rfl
    exact h1.trans (h2.trans ((tickTimers_tick _).trans (boundary_tick _)))
  · cases h

theorem tickTimes_tick (n : Nat) {s t : State} (h : tickTimes n s = .next t) : TickMoves s t := by
  induction n generalizing s with
  | zero => exact Host.Outcome.next.inj h ▸ .of_eq rfl rfl rfl rfl rfl
  | succ n ih =>
    obtain ⟨u, hu, h⟩ := andThen_eq_next.1 h
    exact (tickStep_tick hu).trans (ih h)

/-- `TICK n`, however long. -/
theorem execTick_moves {n : Nat} {s t : State} (h : execTick n s = .next t) : TickMoves s t := by
  rw [execTick_eq] at h
  obtain ⟨-, -, -, u, hu, rfl⟩ := operation_eq_next.1 h
  exact (tickTimes_tick n hu).trans (boundary_tick u)

/-! ## Every other operation -/

theorem boundary_still (s : State) : Still s (boundary s) := by
  refine .of_eq ?_ ?_ ?_ (by rw [boundary_env]) (by rw [boundary_env]) <;> rw [boundary_toArch] <;> split <;> rfl

/-- An operation that answers was enabled, and its boundary moves nothing here. -/
theorem operation_next {s t : State} {e : Prop} {_ : Decidable e} {r : Result} (h : operation s e r = .next t) :
    e ∧ ∃ u, r = .next u ∧ Still u t := by
  obtain ⟨-, -, he, u, hu, rfl⟩ := operation_eq_next.1 h
  exact ⟨he, u, hu, boundary_still u⟩

theorem operation_still {s t u : State} {e : Prop} {_ : Decidable e} (h : operation s e (.next u) = .next t)
    (hs : Still s u) : Still s t := by
  obtain ⟨-, v, hv, k⟩ := operation_next h
  obtain rfl := Host.Outcome.next.inj hv
  exact hs.trans k

/-- The operations that move neither a ring nor the head. -/
theorem exec_still {i : Instr} {s t : State} (h : exec i s = .next t)
    (hi : (match i with
      | .wgate1 | .wgate0 | .tick _ | .stepFire | .fgHandle | .rdSeek | .rdStart | .rdStop | .rdFinish | .wrActivate
      | .wrDrain | .init | .cancel => False
      | _ => True)) : Still s t := by
  cases i <;> try exact hi.elim
  case step d => exact operation_still h (stepPulse_still d s)
  case side b => exact operation_still h (.of_eq rfl rfl rfl rfl rfl)
  case sel b => exact operation_still h (.of_eq rfl rfl rfl rfl rfl)
  case wdataEdge => exact operation_still h (wdataEdge_still s)
  case rdBeat =>
    obtain ⟨-, u, hu, k⟩ := operation_next h
    exact (rdBeat_still hu).trans k
  case wrBeat => exact operation_still h (wrBeat_still s)
  case idxFire => exact operation_still h (idxFire_still s)
  case rdService => exact operation_still h (rdService_still s)
  case wrService => exact operation_still h (wrService_still s)
  case stepSoftirq => exact operation_still h (stepSoftirq_still s)
  case rdPrefill => exact operation_still h (rdPrefill_still s)
  case rdReplenish => exact operation_still h (rdReplenish_still s)
  case wrPump => exact operation_still h (wrPump_still s)
  case mount => exact operation_still h (mountImage_still s)
  case changeOutputs m v => exact operation_still h (.of_eq rfl rfl rfl rfl rfl)

end Sys2Proof.Machine
end

