-- ==== Sys2Proof/Laws/PerInstr.lean ====
section
/-! SUPPORT. What holds of every operation as syntax, one lemma per constructor: the top nibble of its event word names
the group of its agent (R83). -/

namespace Sys2Proof.Laws.AgentGroup

/-- Bits 31:28 of the event word are the group of the operation's agent (R83). -/
def Statement (i : Instr) : Prop := (encode i).extractLsb' 28 4 = agentGroup (agentOf i)

/-- The top nibble of an event word is that of its opcode byte. -/
theorem top_nibble (op : BitVec 8) (arg : BitVec 24) : (eventWord op arg).extractLsb' 28 4 = op.extractLsb' 4 4 := by
  unfold eventWord
  ext k hk
  simp only [BitVec.getElem_extractLsb', BitVec.getLsbD_append]
  rw [if_neg (by omega)]
  congr 1
  omega

theorem step (d : Bool) : Statement (.step d) := top_nibble _ _
theorem side (h : Bool) : Statement (.side h) := top_nibble _ _
theorem sel (b : Bool) : Statement (.sel b) := top_nibble _ _
theorem wgate1 : Statement .wgate1 := top_nibble _ _
theorem wgate0 : Statement .wgate0 := top_nibble _ _
theorem wdataEdge : Statement .wdataEdge := top_nibble _ _
theorem tick (n : Nat) : Statement (.tick n) := top_nibble _ _
theorem rdBeat : Statement .rdBeat := top_nibble _ _
theorem wrBeat : Statement .wrBeat := top_nibble _ _
theorem idxFire : Statement .idxFire := top_nibble _ _
theorem stepFire : Statement .stepFire := top_nibble _ _
theorem rdService : Statement .rdService := top_nibble _ _
theorem wrService : Statement .wrService := top_nibble _ _
theorem stepSoftirq : Statement .stepSoftirq := top_nibble _ _
theorem fgHandle : Statement .fgHandle := top_nibble _ _
theorem rdSeek : Statement .rdSeek := top_nibble _ _
theorem rdPrefill : Statement .rdPrefill := top_nibble _ _
theorem rdStart : Statement .rdStart := top_nibble _ _
theorem rdReplenish : Statement .rdReplenish := top_nibble _ _
theorem rdStop : Statement .rdStop := top_nibble _ _
theorem rdFinish : Statement .rdFinish := top_nibble _ _
theorem wrActivate : Statement .wrActivate := top_nibble _ _
theorem wrPump : Statement .wrPump := top_nibble _ _
theorem wrDrain : Statement .wrDrain := top_nibble _ _
theorem init : Statement .init := top_nibble _ _
theorem mount : Statement .mount := top_nibble _ _
theorem cancel : Statement .cancel := top_nibble _ _
theorem changeOutputs (m : OutSet) (v : Bool) : Statement (.changeOutputs m v) := top_nibble _ _

end Sys2Proof.Laws.AgentGroup
end

