-- ==== Sys2Proof/Tests/Slice0.lean ====
section
/-! SUPPORT. Tests: expected results are the vectors of 95_test_vectors.md (named by their labels) or hand calculation
from the encoding tables; and a witness for the hypotheses of every obligation that has any. -/

namespace Sys2Proof.Tests

open Sys2Proof.Machine

/-! ## Helpers -/

/-- The operation answers a next state with this property. -/
def checks (r : Result) (p : State → Bool) : Bool :=
  match r with
  | .next t => p t
  | .fault _ => false
  | .refused _ => false

theorem exists_next {r : Result} {p : State → Bool} (h : checks r p = true) : ∃ t, r = .next t ∧ p t = true := by
  cases r with
  | next t => exact ⟨t, rfl, h⟩
  | fault e => simp [checks] at h
  | refused e => simp [checks] at h

/-- The operation is refused for this reason. -/
def refusedWith (r : Result) (e : Refusal) : Bool :=
  match r with
  | .refused x => decide (x = e)
  | .next _ => false
  | .fault _ => false

/-- The state with this annotation at hand. -/
def noted (n : Annotation) (s : State) : State := { s with env.note := n }

/-- The state at another time. -/
def atTime (t : Nat) (s : State) : State := { s with now := t }

/-- A DMA channel without a flag. -/
def channel (en : Bool) (cndtr : Count) (req : Bool) : DmaChannel :=
  { en := en, cndtr := cndtr, req := req, ht := false, tc := false }

/-- `M0` of 95 section 0: the mounted idle drive. -/
def mountedIdle : State := { State.reset with
  image := { loaded := true, writable := true, syncword := 0x44894489#32, writeStart := 0 }
  drive := { cyl := 0, head := false, sel := true }
  outs := { shadow := 0b10110#5, port := 0b10110#5 }
  index := { active := false, prevTime := 0, timer := { armed := true, deadline := 14400000 } }
  irq := { rdDma := false, wrDma := false, stepSoft := false, extiEn := true, dmaEn := true } }

/-- A read in Starting, with sync time 4,320,000 (95 section 2.3). -/
def readStarting (now : Nat) (prod : RingIx) (wait : Option Int) : State := { mountedIdle with
  now := now
  rd := { state := .starting, cons := 0, prod := prod, kick := false, syncTime := 4320000, track := 0, lastTsi := 0 }
  mem := { rdBuf := [(0, 288), (1, 432), (2, 576)], wrBuf := [], mfmBuf := [], epoch := 0 }
  fgWait := wait }

/-- `A0` of 95 section 0: a read just started. -/
def readActive : State := { readStarting 4320000 1023 none with
  rd := { state := .active, cons := 0, prod := 1023, kick := false, syncTime := 4320000, track := 0, lastTsi := 0 }
  rdTim := { en := true, cnt := 0, arr := 288, ccr := 28 }
  rdDma := channel true 1023#11 false
  pin := .af }

/-- A read in Stopping. -/
def readStopping : State := { readActive with
  rd := { readActive.rd with state := .stopping }
  rdTim := { readActive.rdTim with en := false }
  rdDma := { readActive.rdDma with en := false }
  pin := .gpoIdle }

/-- A write in Starting, `wr_tim` counting from 1,000,000. -/
def writeStarting : State := { mountedIdle with
  now := 1000291
  wr := { state := .starting, cons := 0, prevSample := 0, mfm := 0 }
  wrDma := channel true 1024#11 false
  wrTim := { en := true, cnt := 0x0123#16, cc1e := true, ccr1 := 0 }
  image := { mountedIdle.image with writeStart := 1000000 } }

/-- The same write in Active. -/
def writeActive : State := { writeStarting with wr := { writeStarting.wr with state := .active } }

/-- The samples of vector D1, not yet decoded, the write in Stopping. -/
def writeStopping : State := { writeActive with
  wr := { writeActive.wr with state := .stopping }
  wrDma := channel false 1021#11 false
  wrTim := { en := false, cnt := 1008, cc1e := false, ccr1 := 1008 }
  mem := { rdBuf := [], wrBuf := [(0, 288), (1, 576), (2, 1008)], mfmBuf := [], epoch := 0 }
  irq := { mountedIdle.irq with wrDma := true } }

/-- A step pulse was heard, its soft IRQ is pending. -/
def stepStarted : State := { mountedIdle with
  now := 1000000
  stepper := { state := .started, start := 1000000, inward := true, timer := { armed := false, deadline := 0 } }
  irq := { mountedIdle.irq with stepSoft := true } }

/-- Its timer is armed, and due (vector S3). -/
def stepLatched : State := { mountedIdle with
  now := 1144000
  stepper := { state := .latched, start := 1000000, inward := true, timer := { armed := true, deadline := 1144000 } } }

/-- The settle time is over (vector S4). -/
def stepSettled : State := { mountedIdle with
  now := 1864000
  stepper := { state := .settling, start := 1000000, inward := true, timer := { armed := true, deadline := 1864000 } } }

/-- A faulted block. -/
def faulted : State := { mountedIdle with fault := some .engineOverlap }

/-! ## WellFormed: the check refuses the ill-formed -/

theorem test_wellFormed_tick_too_long : (Instr.tick (2 ^ 24)).wellFormed = false := by decide
theorem test_wellFormed_tick_longest : (Instr.tick (2 ^ 24 - 1)).wellFormed = true := by decide

/-! ## Decoding: words written out from R80, R81 and R90; 95 section 2.1 -/

theorem test_decode_step :
    decode 0x01000000#32 = .ok (.step false) ∧ decode 0x01000001#32 = .ok (.step true) ∧
    decode 0x01000002#32 = .error (.reservedBits 0x01#8) := by decide
theorem test_decode_side :
    decode 0x02000000#32 = .ok (.side false) ∧ decode 0x02000001#32 = .ok (.side true) := by decide
theorem test_decode_sel : decode 0x03000000#32 = .ok (.sel false) ∧ decode 0x03000001#32 = .ok (.sel true) := by decide
theorem test_decode_wgate :
    decode 0x04000001#32 = .ok .wgate1 ∧ decode 0x04000000#32 = .ok .wgate0 ∧
    decode 0x04000003#32 = .error (.reservedBits 0x04#8) := by decide
theorem test_decode_wdataEdge :
    decode 0x05000000#32 = .ok .wdataEdge ∧ decode 0x05000001#32 = .error (.reservedBits 0x05#8) := by decide
theorem test_decode_tick :
    decode 0x10000000#32 = .ok (.tick 0) ∧ decode 0x10023280#32 = .ok (.tick 144000) ∧
    decode 0x10DBBA00#32 = .ok (.tick 14400000) ∧ decode 0x10FFFFFF#32 = .ok (.tick 16777215) := by decide
theorem test_decode_hardware :
    decode 0x11000000#32 = .ok .rdBeat ∧ decode 0x12000000#32 = .ok .wrBeat ∧ decode 0x13000000#32 = .ok .idxFire ∧
    decode 0x14000000#32 = .ok .stepFire := by decide
theorem test_decode_isr :
    decode 0x20000000#32 = .ok .rdService ∧ decode 0x21000000#32 = .ok .wrService ∧
    decode 0x22000000#32 = .ok .stepSoftirq := by decide
theorem test_decode_foreground :
    decode 0x30000000#32 = .ok .fgHandle ∧ decode 0x31000000#32 = .ok .rdSeek ∧ decode 0x32000000#32 = .ok .rdPrefill ∧
    decode 0x33000000#32 = .ok .rdStart ∧ decode 0x34000000#32 = .ok .rdReplenish ∧
    decode 0x35000000#32 = .ok .rdStop ∧ decode 0x36000000#32 = .ok .rdFinish ∧
    decode 0x37000000#32 = .ok .wrActivate ∧ decode 0x38000000#32 = .ok .wrPump ∧
    decode 0x39000000#32 = .ok .wrDrain := by decide
theorem test_decode_control :
    decode 0x40000000#32 = .ok .init ∧ decode 0x41000000#32 = .ok .mount ∧ decode 0x42000000#32 = .ok .cancel := by
  decide
theorem test_decode_changeOutputs :
    decode 0x43000102#32 = .ok (.changeOutputs 0b00010#5 true) ∧
    decode 0x4300001F#32 = .ok (.changeOutputs 0b11111#5 false) ∧
    decode 0x43000020#32 = .error (.reservedBits 0x43#8) ∧ decode 0x43000200#32 = .error (.reservedBits 0x43#8) := by
  decide
theorem test_decode_unknown :
    ([0x06000000#32, 0x15000000#32, 0x23000000#32, 0x3A000000#32, 0x44000000#32, 0x00000000#32, 0xFF000000#32].map
      fun w => match decode w with | .error (.unknownOpcode op) => op == opField w | _ => false) =
      List.replicate 7 true := by decide
/-- The encoder, on words written out by hand. -/
theorem test_encode :
    encode (.step true) = 0x01000001#32 ∧ encode (.tick 288) = 0x10000120#32 ∧
    encode (.changeOutputs 0b01100#5 false) = 0x4300000C#32 ∧ encode (.changeOutputs 0b11111#5 true) = 0x4300011F#32 ∧
    encode .wgate0 = 0x04000000#32 := by decide
/-- The agent of an operation is in the group the top nibble names (R83). -/
theorem test_agent_groups :
    opcodeRows.map (fun r => (opField r.matched).extractLsb' 4 4) =
      opcodeRows.map (fun r => agentGroup (agentOf (r.build 0))) := by decide
/-- `WAIT_MS 200`, `WAIT_MS 400`, `FLUX 288` of 95 section 2.1. -/
theorem test_pseudo :
    (Pseudo.waitMs 200).expand Config.default = [.tick 14400000] ∧
    (Pseudo.waitMs 400).expand Config.default = [.tick 14400000, .tick 14400000] ∧
    (Pseudo.flux 288).expand Config.default = [.tick 288, .wdataEdge] := by decide
/-- R9, R10: `PULSE_TICKS` is `RDATA_PULSE_NS` = 400 in ticks of 72 MHz, cut: 28. -/
theorem test_pulseTicks : Config.default.pulseTicks = 28 := by decide
theorem test_decodeTableWord :
    decodeTableWord 32 0x10023280 = some (.tick 144000) ∧ decodeTableWord 32 0x00000000 = none ∧
    decodeTableWord 32 0x1010023280 = none := by decide
theorem test_step_runs_fetch_word :
    checks (step (State.reset.withFetchWord 32 0x02000001)) (fun t => t.drive.head && decide
        (t.env.trace = [])) = true ∧
    refusedWith (step (State.reset.withFetchWord 32 0x44000000)) (.undecodable (.unknownOpcode 0x44#8)) = true ∧
    refusedWith (step State.reset) .endOfTrace = true := by decide

/-! ## Host operations: 95 sections 1.3, 2.4, 2.6, 2.7 -/

/-- S1, and S10 (not selected). -/
theorem test_step :
    checks (exec (.step true) (atTime 1000000 mountedIdle)) (fun t =>
      decide (t.stepper = { stepStarted.stepper with start := 1000000 }) && t.irq.stepSoft) = true ∧
    checks (exec (.step true) { mountedIdle with drive.sel := false }) (fun t =>
      decide (t.stepper = mountedIdle.stepper) && !t.irq.stepSoft) = true := by decide
/-- S7: a second pulse before the soft IRQ. -/
theorem test_step_twice :
    checks (exec (.step false) (atTime 1000500 stepStarted)) (fun t =>
      !t.stepper.inward && decide (t.stepper.start = 1000500 ∧ t.stepper.state = .started)) = true := by decide
/-- S12. -/
theorem test_side : checks (exec (.side true) mountedIdle) (fun t => t.drive.head && t.drive.sel) = true := by decide
/-- O4 and O5. -/
theorem test_sel :
    checks (exec (.sel true) { State.reset with outs := { shadow := 0b00010#5, port := 0 } })
      (fun t => decide (t.outs.port = 0b00010#5)) = true ∧
    checks (exec (.sel false) mountedIdle) (fun t =>
      decide (t.outs = { shadow := 0b10110#5, port := 0 } ∧ t.drive.sel = false)) = true := by decide
/-- Scenario 4, word 1. -/
theorem test_wgate1_over_a_read :
    checks (exec .wgate1 (atTime 4320820 readActive)) (fun t =>
      decide (t.rd.state = .stopping ∧ t.rdDma.en = false ∧ t.rdTim.en = false ∧ t.pin = .gpoIdle ∧
        t.wr = { state := .starting, cons := 0, prevSample := 0, mfm := 0 } ∧
        t.wrDma = channel true 1024#11 false ∧
        t.wrTim = { en := true, cnt := 0, cc1e := true, ccr1 := 0 } ∧ t.image.writeStart = 4320820#32 ∧
        t.index.timer = { armed := true, deadline := 14400000 })) = true := by decide
/-- W2 and W3. -/
theorem test_wgate1_missed :
    checks (exec .wgate1 writeActive) (fun t => decide (t.log = [⟨.missedWrite, 1000291⟩] ∧ t.wr = writeActive.wr)) =
      true ∧
    checks (exec .wgate1 { mountedIdle with drive.sel := false }) (fun t => decide (t.wr.state = .inactive)) =
      true := by decide
/-- W9 and W11 in one. -/
theorem test_wgate0 :
    checks (exec .wgate0 { writeActive with wrDma.cndtr := 900#11, drive.sel := false, outs.port := 0 }) (fun t =>
      decide (t.wr.state = .stopping ∧ t.wrTim.en = false ∧ t.wrTim.cc1e = false ∧
        t.wrDma = channel false 900#11 false ∧ t.irq.wrDma = true)) = true := by decide
/-- B10 and B11. -/
theorem test_wdataEdge :
    checks (exec .wdataEdge writeStarting) (fun t =>
      decide (t.wrTim.ccr1 = 0x0123#16 ∧ t.mem.wrBuf = [(0, 0x0123#16)] ∧ t.wrDma.cndtr = 1023#11)) = true ∧
    checks (exec .wdataEdge mountedIdle) (fun t => decide (t.toArch = mountedIdle.toArch)) = true := by decide

/-! ## Hardware agents: 95 sections 2.2, 2.5, 2.6, 2.8 -/

/-- B7: an update event and its beat (B7's numbers in ring entry 24). -/
theorem test_tick_update :
    checks (exec (.tick 1) { readActive with
        rdTim := { en := true, cnt := 143, arr := 144, ccr := 28 }
        rdDma.cndtr := 1000#11
        mem.rdBuf := [(24, 216)] })
      (fun t => decide (t.rdTim = { en := true, cnt := 0, arr := 216, ccr := 28 } ∧ t.rdDma.cndtr = 999#11) &&
        pinRdata t.toArch) = true := by decide
/-- K10 and K9. -/
theorem test_tick_timers :
    checks (exec (.tick 2000) (atTime 14399000 mountedIdle)) (fun t =>
      decide (t.now = 14401000 ∧ t.index.prevTime = 14400000 ∧ t.index.timer.deadline = 14544000)) = true ∧
    refusedWith (exec (.tick 1) stepStarted) .handlerOwed = true := by decide
/-- B2 and B4; the half transfer sets HT (R25). -/
theorem test_rdBeat :
    checks (exec .rdBeat
        { readActive with rdDma := channel true 513#11 true, mem.rdBuf := [(511, 288)] })
      (fun t => decide (t.rdTim.arr = 288 ∧ t.rdDma = { channel true 512#11 false with ht := true } ∧ t.irq.rdDma = true)) = true ∧
    refusedWith
      (exec .rdBeat { readActive with rdDma := channel true 700#11 true, mem.rdBuf := [(324, 0)] })
      .zeroFluxSample = true := by decide
/-- B1 and B3: the circular reload; the full transfer sets TC (R25). -/
theorem test_rdBeat_reload :
    checks (exec .rdBeat
        { readActive with rdDma := channel true 1024#11 true, mem.rdBuf := [(0, 144)] })
      (fun t => decide (t.rdTim.arr = 144 ∧ t.rdDma = channel true 1023#11 false ∧ t.irq.rdDma = false)) = true ∧
    checks (exec .rdBeat
        { readActive with rdDma := channel true 1#11 true, mem.rdBuf := [(1023, 432)] })
      (fun t => decide (t.rdTim.arr = 432 ∧ t.rdDma = { channel true 1024#11 false with tc := true } ∧ t.irq.rdDma = true)) = true := by decide
/-- B12 and B13; HT and TC (R28). -/
theorem test_wrBeat :
    checks (exec .wrBeat { writeActive with wrDma := channel true 513#11 true, wrTim.ccr1 := 7 })
      (fun t => decide (t.mem.wrBuf = [(511, 7)] ∧ t.wrDma = { channel true 512#11 false with ht := true } ∧ t.irq.wrDma = true)) = true ∧
    checks (exec .wrBeat
        { writeActive with wrDma := channel true 1#11 true, wrTim.ccr1 := 0xFFF0#16 })
      (fun t => decide (t.mem.wrBuf = [(1023, 0xFFF0#16)] ∧ t.wrDma = { channel true 1024#11 false with tc := true } ∧
        t.irq.wrDma = true)) = true := by decide
/-- X2 and X1. -/
theorem test_idxFire_low :
    checks (exec .idxFire { mountedIdle with now := 14400100, cfg.maxIrqLatency := 200 }) (fun t =>
      decide (t.index = { active := true, prevTime := 14400000, timer := { armed := true, deadline := 14544000 } } ∧
        t.outs = { shadow := 0b10111#5, port := 0b10111#5 })) = true ∧
    refusedWith (exec .idxFire (atTime 14399999 mountedIdle)) .notEnabled = true := by decide
/-- X3: the high phase ends while a read is Active. -/
theorem test_idxFire_high :
    checks (exec .idxFire { readActive with
        now := 14544000
        index := { active := true, prevTime := 14400000, timer := { armed := true, deadline := 14544000 } } })
      (fun t => !t.index.active && !t.index.timer.armed && !t.outs.port.getLsbD 0) = true := by decide
/-- S3 and S4. -/
theorem test_stepFire :
    checks (exec .stepFire stepLatched) (fun t =>
      decide (t.clicks = 1 ∧ t.drive.cyl = 1 ∧ t.outs.shadow = 0b00110#5 ∧ t.stepper.state = .settling ∧
        t.stepper.timer = { armed := true, deadline := 1864000 })) = true ∧
    checks (exec .stepFire stepSettled) (fun t =>
      decide (t.stepper.state = .idle ∧ t.stepper.timer.armed = false ∧ t.clicks = 0)) = true := by decide
/-- Scenarios 1 and 2: from 255 outward, and at track 0. -/
theorem test_stepFire_outward :
    checks (exec .stepFire
        { stepLatched with stepper.inward := false, drive.cyl := 255, outs := ⟨0b00110#5, 0b00110#5⟩ })
      (fun t => decide (t.drive.cyl = 83 ∧ t.outs.shadow = 0b00110#5)) = true ∧
    checks (exec .stepFire { stepLatched with stepper.inward := false })
      (fun t => decide (t.drive.cyl = 0 ∧ t.outs.shadow = 0b10110#5 ∧ t.clicks = 1)) = true := by decide
/-- The table of `step_cyl` (95 section 2.6). -/
theorem test_stepCyl_table :
    [255#8, 85#8, 84#8, 83#8, 1#8, 0#8].map (stepCyl · false) = [83#8, 83#8, 83#8, 82#8, 0#8, 0#8] ∧
    [0#8, 83#8, 84#8, 254#8, 255#8].map (stepCyl · true) = [1#8, 84#8, 85#8, 255#8, 255#8] := by decide

/-! ## Handlers -/

/-- Scenario 6, word 2: a short answer, no underrun. -/
theorem test_rdService :
    checks (exec .rdService (noted { Annotation.empty with fluxes := [[]], ticks := [1000#32] }
        { readActive with rdDma.cndtr := 512#11, irq.rdDma := true })) (fun t =>
      decide (t.rd.cons = 512 ∧ t.rd.prod = 1023 ∧ t.rd.kick = true ∧ t.rd.lastTsi = 1000#32 ∧ t.log = [] ∧
        t.irq.rdDma = false ∧ t.env.calls = [.rdataFlux 1, .ticksSinceIndex])) = true := by decide
/-- Scenario 6, word 4: the underrun. -/
theorem test_rdService_underrun :
    checks (exec .rdService (noted { Annotation.empty with fluxes := [[288]], ticks := [2000#32] }
        { readActive with
          now := 4614624
          rd := { readActive.rd with cons := 512, kick := true, lastTsi := 1000#32 }
          rdDma.cndtr := 1024#11
          irq.rdDma := true })) (fun t =>
      decide (t.log = [⟨.underrun, 4614624⟩] ∧ t.rd.cons = 0 ∧ t.rd.prod = 1023 ∧ t.rd.kick = true ∧
        t.index.timer.deadline = 14400000 ∧ t.env.calls.head? = some (.rdataFlux 0))) = true := by decide
/-- D1, and D2 after it. -/
theorem test_wrService :
    checks (exec .wrService writeStopping) (fun t =>
      decide (t.mfm.prod = 7#32 ∧ t.wr = { state := .stopping, cons := 3, prevSample := 1008, mfm := 0x29#32 } ∧
        t.mem.mfmBuf = [(0, 0x52#8), (1, 0#8), (2, 0#8), (3, 0#8)])) = true ∧
    checks (exec .wrService { writeStopping with
        mem.wrBuf := [(3, 1152)]
        mfm.prod := 7#32
        wr := { state := .active, cons := 3, prevSample := 1008, mfm := 0x29#32 }
        wrDma.cndtr := 1020#11 }) (fun t =>
      decide (t.mfm.prod = 8#32 ∧ t.wr.cons = 4 ∧ t.wr.mfm = 0x53#32 ∧
          t.mem.mfmWord 1024 0 = 0x53000000#32)) = true := by
  decide
set_option maxRecDepth 4000 in
/-- D7: five bits, the syncword, the alignment, two bits more. -/
theorem test_wrService_aligns :
    checks (exec .wrService { writeStopping with
        mem.wrBuf := [(0, 144), (1, 288), (2, 432), (3, 720), (4, 1008), (5, 1584), (6, 2016), (7, 2592), (8, 3024),
          (9, 3312), (10, 3888), (11, 4320), (12, 4896), (13, 5328), (14, 5616)]
        wrDma.cndtr := 1009#11 }) (fun t =>
      decide (t.mfm.prod = 34#32 ∧ t.wr.mfm = 0x12251225#32 ∧ t.mem.mfmWord 1024 0 = 0xEA244A24#32 ∧
        t.mem.mfmWord 1024 1 = 0x40000000#32)) = true := by decide
/-- S2 and S9. -/
theorem test_stepSoftirq :
    checks (exec .stepSoftirq stepStarted) (fun t =>
      decide (t.stepper.state = .latched ∧ t.stepper.timer = { armed := true, deadline := 1144000 }) &&
        !t.irq.stepSoft) = true ∧
    checks (exec .stepSoftirq { mountedIdle with irq.stepSoft := true }) (fun t =>
      decide (t.stepper = mountedIdle.stepper) && !t.irq.stepSoft) = true := by decide

/-! ## Foreground -/

/-- Scenario 4, word 2: finish the read, activate the write. -/
theorem test_fgHandle :
    checks (exec .fgHandle (noted { Annotation.empty with seeks := [(false, 0#32)] }
        { readStopping with wr.state := .starting })) (fun t =>
      decide (t.rd.state = .inactive ∧ t.rd.prod = 0 ∧ t.wr.state = .active ∧ t.env.ret = some (.reenter true))) =
      true := by decide
/-- Scenario 3, word 3: finish, and seek again on the new side. -/
theorem test_fgHandle_side :
    checks (exec .fgHandle (noted { Annotation.empty with seeks := [(false, 5000000#32)] }
        { readStopping with drive.head := true })) (fun t =>
      decide (t.rd.state = .starting ∧ t.rd.track = 1 ∧ t.rd.cons = 0 ∧ t.rd.syncTime = 5000000)) = true := by decide
/-- Scenario 5. -/
theorem test_rdSeek :
    checks (exec .rdSeek (noted { Annotation.empty with seeks := [(true, 0#32)] } (atTime 3600000 mountedIdle)))
        (fun t =>
      decide (t.toArch = (atTime 3600000 mountedIdle).toArch ∧ t.env.ret = some .retry)) = true ∧
    checks (exec .rdSeek (noted { Annotation.empty with seeks := [(false, 4320000#32)] } (atTime 3600000 mountedIdle)))
      (fun t => decide (t.rd.syncTime = 4320000 ∧ t.rd.track = 0 ∧ t.rd.state = .starting ∧
        t.env.calls = [.seekTrack 0 (some 4320000)])) = true := by decide
/-- The re-check: `STEP 1`, and `WGATE 1`, at P2. -/
theorem test_rdSeek_preempted :
    checks (exec .rdSeek (noted { Annotation.empty with seeks := [(false, 4320000#32)], atP2 := [.step true] }
        (atTime 3600000 mountedIdle))) (fun t => decide (t.rd.state = .stopping ∧ t.stepper.state = .started)) = true ∧
    checks (exec .rdSeek (noted { Annotation.empty with seeks := [(false, 4320000#32)], atP2 := [.wgate1] }
        (atTime 3600000 mountedIdle))) (fun t => decide (t.rd.state = .stopping ∧ t.wr.state = .starting)) = true := by
  decide
/-- The table of `sync_position` (95 section 2.3): now, prev_time, state, start; position and sync time. -/
theorem test_syncPosition_table :
    ([(3600000, 0, StepState.idle, 0), (3200000, 0, .settling, 3000000), (3200000, 0, .settling, 3150000),
        (14000000, 0, .idle, 0), (20000000, 14400000, .idle, 0)].map
      fun (q : Nat × Int × StepState × Int) =>
        let s := { atTime q.1 mountedIdle with stepper.state := q.2.2.1, stepper.start := q.2.2.2 }
        let p := syncPosition q.2.1 s
        (p, syncTimeFor q.2.1 (BitVec.ofInt 32 p) s)) =
      [(4320000, 4320000), (3920000, 3920000), (4014000, 4014000), (320000, 14720000), (6320000, 20720000)] := by
  decide
/-- 95 section 2.3: 423 samples are asked for at `prod` = 600; three are given. -/
theorem test_rdPrefill :
    checks (exec .rdPrefill (noted { Annotation.empty with readTracks := [true], fluxes := [[288, 432, 576]] }
        (readStarting 3600000 600 none))) (fun t =>
      decide (t.rd.prod = 603 ∧ t.env.calls = [.readTrack, .rdataFlux 423] ∧
        t.mem.rdEntry 600 = 288 ∧ t.mem.rdEntry 602 = 576)) = true ∧
    refusedWith (exec .rdPrefill (readStarting 3960000 600 none)) .notEnabled = true := by decide
/-- 95 section 2.3: `delta` = 72 waits, `delta` = 71 starts at once. -/
theorem test_rdStart :
    checks (exec .rdStart (readStarting 4319928 600 none)) (fun t =>
      decide (t.fgWait = some 4320000 ∧ t.rd.state = .starting)) = true ∧
    checks (exec .rdStart (readStarting 4319929 600 none)) (fun t =>
      decide (t.rd.state = .active ∧ t.pin = .af ∧ t.rdDma.cndtr = 1023#11 ∧ t.rdTim.arr = 288)) = true := by decide
/-- 95 section 2.3: the wait is over; and it is over in Stopping. -/
theorem test_rdStart_after_wait :
    checks (exec .rdStart (readStarting 4320000 600 (some 4320000))) (fun t =>
      decide (t.rd.state = .active ∧ t.fgWait = none ∧ t.rdTim.en = true)) = true ∧
    checks (exec .rdStart { readStarting 4320000 600 (some 4320000) with rd.state := .stopping }) (fun t =>
      decide (t.rd.state = .stopping ∧ t.fgWait = none ∧ t.rdTim.en = false ∧ t.pin = .gpoIdle)) = true := by decide
/-- Scenario 6, word 5. -/
theorem test_rdReplenish :
    checks (exec .rdReplenish
        (noted { Annotation.empty with readTracks := [true] } { readActive with rd.kick := true }))
      (fun t => decide (t.rd.kick = false ∧ t.irq.rdDma = true)) = true ∧
    checks (exec .rdReplenish
        (noted { Annotation.empty with readTracks := [false] } { readActive with rd.kick := true }))
      (fun t => decide (t.rd.kick = true ∧ t.irq.rdDma = false)) = true := by decide
/-- 95 section 2.3, RD_STOP: index not active, and active. -/
theorem test_rdStop :
    checks (exec .rdStop { readActive with drive.head := true, index.prevTime := 14400000 }) (fun t =>
      decide (t.rd.state = .stopping ∧ t.pin = .gpoIdle ∧ t.index.timer = { armed := true, deadline := 28800000 })) =
      true ∧
    checks (exec .rdStop { readActive with drive.head := true, index.prevTime := 14400000, index.active := true })
      (fun t => decide (t.rd.state = .stopping ∧ t.index.timer = readActive.index.timer)) = true := by decide
/-- 95 section 2.3, RD_FINISH. -/
theorem test_rdFinish :
    checks (exec .rdFinish { readStopping with rd := { readStopping.rd with prod := 700, cons := 512, kick := true } })
      (fun t => decide (t.rd.prod = 0 ∧ t.rd.cons = 0 ∧ t.rd.kick = false ∧ t.rdDma.cndtr = 1024#11 ∧
        t.rd.state = .inactive)) = true := by decide
/-- W6, W7 and W8. -/
theorem test_wrActivate :
    checks (exec .wrActivate (noted { Annotation.empty with seeks := [(true, 0#32)] } writeStarting)) (fun t =>
      decide (t.wr.state = .starting ∧ t.env.ret = some .retry)) = true ∧
    checks (exec .wrActivate (noted { Annotation.empty with seeks := [(false, 0#32)] } writeStarting)) (fun t =>
      decide (t.wr.state = .active)) = true ∧
    checks (exec .wrActivate (noted
        { Annotation.empty with seeks := [(false, 0#32)], atP1 := [.wgate0] } writeStarting))
      (fun t => decide (t.wr.state = .stopping ∧ t.irq.wrDma = true)) = true := by decide
/-- W5. -/
theorem test_wrActivate_waits :
    refusedWith (exec .wrActivate { writeStarting with rd.state := .stopping }) .notEnabled = true := by decide
/-- R173: the image takes 5 of 7 bits. -/
theorem test_wrPump :
    checks (exec .wrPump (noted { Annotation.empty with mfmConses := [5#32] } { writeActive with mfm.prod := 7#32 }))
      (fun t => decide (t.mfm = { prod := 7#32, cons := 5#32 } ∧ t.env.calls = [.writeTrack false])) = true := by decide
/-- W12 and W13. -/
theorem test_wrDrain :
    checks (exec .wrDrain { writeStopping with wr.cons := 100, wrDma.cndtr := 900#11 }) (fun t =>
      decide (t.wr.state = .stopping ∧ t.env.ret = some .again ∧ t.env.calls = [.writeTrack false])) = true ∧
    checks (exec .wrDrain { writeStopping with wr.cons := 124, wrDma.cndtr := 900#11, mfm.prod := 7#32 }) (fun t =>
      decide (t.wr.state = .inactive ∧ t.mfm = { prod := 0, cons := 0 } ∧
        t.env.calls = [.writeTrack true, .fileSync])) = true := by decide

/-! ## Control: 95 sections 2.7, 2.8 -/

/-- K1. -/
theorem test_init :
    checks (exec .init { faulted with now := 77, log := [⟨.underrun, 5⟩] }) (fun t =>
      decide (t.outs = { shadow := 0b11100#5, port := 0 } ∧ t.now = 0 ∧ t.fault = none ∧
          t.log = [])) = true := by decide
/-- K4 and K2. -/
theorem test_mount :
    checks (exec .mount (noted
        { Annotation.empty with opens := [true], writables := [true], syncwords := [0x44894489#32] }
        { State.reset with drive.sel := true })) (fun t => decide (t.toArch = mountedIdle.toArch)) = true ∧
    checks (exec .mount (noted { Annotation.empty with opens := [false] } State.reset)) (fun t =>
      decide (t.toArch = State.reset.toArch)) = true := by decide
/-- K3 and K5. -/
theorem test_mount_write_protected :
    checks (exec .mount (noted { Annotation.empty with opens := [true], writables := [false], syncwords := [7#32] }
        State.reset)) (fun t =>
      decide (t.outs = { shadow := 0b11110#5, port := 0 } ∧ t.index.timer = { armed := true, deadline := 14400000 } ∧
        t.image.syncword = 7#32 ∧ t.irq.extiEn = true ∧ t.irq.dmaEn = true)) = true ∧
    refusedWith (exec .mount mountedIdle) .notEnabled = true := by decide
/-- K6. -/
theorem test_cancel :
    checks (exec .cancel { readActive with drive.cyl := 3, outs := { shadow := 0b00110#5, port := 0b00110#5 } })
        (fun t =>
      decide (t.rd.state = .inactive ∧ t.wr.state = .inactive ∧ t.pin = .gpoIdle ∧
        t.outs = { shadow := 0b01100#5, port := 0b01100#5 } ∧ t.index.timer.armed = false ∧
        t.image.loaded = false ∧ t.drive.cyl = 3)) = true := by decide
/-- K7. -/
theorem test_cancel_write :
    checks (exec .cancel { writeActive with wrDma.cndtr := 984#11 }) (fun t =>
      decide (t.env.calls = [.writeTrack true, .fileSync] ∧ t.wr.state = .inactive ∧ t.wr.cons = 0 ∧
        t.mem.mfmBuf = [])) = true := by decide
/-- O1, O3 and O7. -/
theorem test_changeOutputs :
    checks (exec (.changeOutputs 0b00010#5 true) { mountedIdle with outs :=
        { shadow := 0b01100#5, port := 0b01100#5 } })
      (fun t => decide (t.outs = { shadow := 0b01110#5, port := 0b01110#5 })) = true ∧
    checks (exec (.changeOutputs 0b01100#5 false) { State.reset with outs := { shadow := 0b01110#5, port := 0 } })
      (fun t => decide (t.outs = { shadow := 0b00010#5, port := 0 })) = true ∧
    checks (exec (.changeOutputs 0b11111#5 true) { mountedIdle with outs := { shadow := 0, port := 0 } })
      (fun t => decide (t.outs = { shadow := 0b11111#5, port := 0b11111#5 })) = true := by decide

/-! ## Shared operations: the tables of 95 sections 2.2 to 2.4 -/

/-- B15. -/
theorem test_positions :
    [1024#11, 1023#11, 512#11, 1#11].map (fun k => (channel true k false).pos) = [0, 1, 512, 1023] := by decide
/-- The `nr` of `rd_fill`: (prod, c). -/
theorem test_fillRequest_table :
    [(0, 0), (600, 0), (1023, 512), (0, 512), (511, 512), (512, 0), (1023, 0), (100, 100)].map
      (fun (q : RingIx × RingIx) => fillRequest q.2 q.1) = [1023, 423, 1, 511, 0, 511, 0, 924] := by decide
/-- The underrun test: (cons, prod, c). -/
theorem test_underrun_table :
    [(0, 1023, 512), (0, 400, 512), (512, 511, 0), (512, 1023, 0), (512, 0, 0), (300, 300, 300), (300, 300, 301)].map
      (fun (q : RingIx × RingIx × RingIx) =>
        decide (UnderrunAt { readActive.toArch with rd := { readActive.rd with cons := q.1, prod := q.2.1 } } q.2.2)) =
      [false, true, false, true, false, false, true] := by decide
/-- `index_resync(500)` and `index_resync(2000)`. -/
theorem test_indexResync :
    [500#32, 2000#32].map (fun t => resyncTicks { readActive.toArch with
      rd := { readActive.rd with prod := 13 }
      rdTim := { en := true, cnt := 100, arr := 288, ccr := 28 }
      rdDma := channel true 1014#11 false
      mem := { rdBuf := [(10, 288), (11, 432), (12, 576)], wrBuf := [], mfmBuf := [], epoch := 0 } } t) = [984,
          -516] := by
  decide
/-- The bits of one interval (95 section 2.4): accumulator and bit count. -/
theorem test_interval_table :
    [0#16, 144#16, 216#16, 217#16, 360#16, 361#16, 504#16, 505#16, 720#16].map
      (fun v => (decodeInterval Config.default 0xFFFFFFFF#32 v ⟨0, 0, State.reset.mem⟩).bp.toNat) =
      [1, 1, 1, 2, 2, 3, 3, 4, 5] := by decide
/-- B5, B6 and B9: the pin. -/
theorem test_pinRdata :
    pinRdata { readActive.toArch with rdTim := { en := true, cnt := 27, arr := 144, ccr := 28 } } = true ∧
    pinRdata { readActive.toArch with rdTim := { en := true, cnt := 28, arr := 144, ccr := 28 } } = false ∧
    pinRdata { readActive.toArch with rdTim := { en := true, cnt := 3, arr := 144, ccr := 28 }, pin := .gpoIdle } =
      false := by decide

/-! ## Witnesses: states and operands that meet the hypotheses of the obligations, clause by clause -/

theorem next_of {r : Result} {p : State → Prop} [DecidablePred p] (h : checks r (fun t => decide (p t)) = true) :
    ∃ t, r = .next t ∧ p t := by
  obtain ⟨t, ht, hp⟩ := exists_next h
  exact ⟨t, ht, of_decide_eq_true hp⟩

/-- A busy-wait that is over, as the statements word it. -/
theorem wait_over {a : Arch} (h : waitOver a = true) : ∃ w, a.fgWait = some w ∧ w ≤ (a.now : Int) := by
  unfold waitOver at h
  split at h
  · cases h
  · exact ⟨_, by assumption, by simpa using h⟩

/-- One event in the trace, with nothing assumed. -/
def traced (w : Word) (s : State) : State := { s with env.trace := [⟨w, Annotation.empty⟩] }

theorem mountedIdle_inv : Inv mountedIdle := by
  refine ⟨⟨?_, ?_, ?_, ?_, ?_, ?_, ?_, ?_, ?_, ?_⟩, ?_, ?_⟩ <;> decide
theorem readActive_inv : Inv readActive := by
  refine ⟨⟨?_, ?_, ?_, ?_, ?_, ?_, ?_, ?_, ?_, ?_⟩, ?_, ?_⟩ <;> decide
theorem writeActive_inv : Inv writeActive := by
  refine ⟨⟨?_, ?_, ?_, ?_, ?_, ?_, ?_, ?_, ?_, ?_⟩, ?_, ?_⟩ <;> decide

theorem witness_DecodeEncodeRoundTrip :
    (Instr.tick (2 ^ 24 - 1)).wellFormed = true ∧ (Instr.changeOutputs 31 true).wellFormed = true := by decide
theorem witness_EncodeDecodeRoundTrip :
    decode 0x10FFFFFF#32 = .ok (.tick 16777215) ∧ decode 0x4300011F#32 = .ok (.changeOutputs 31 true) := by decide
theorem witness_OneRowPerWord :
    (∃ r ∈ opcodeRows, r.fits 0x10FFFFFF#32 = true) ∧ (∃ r ∈ opcodeRows, r.fits 0x04000001#32 = true) ∧
    decode 0x04000001#32 = .ok .wgate1 := by decide
theorem witness_UnknownWordsRefused :
    ((∀ r ∈ opcodeRows, r.fits 0x04000002#32 = false) ∧ ∀ r ∈ opcodeRows, r.fits 0xFFFFFFFF#32 = false) ∧
    (traced 0x04000002#32 State.reset).env.trace = [⟨0x04000002#32, Annotation.empty⟩] := by decide
theorem witness_StepRunsDecodedOperation :
    (traced 0x10FFFFFF#32 State.reset).env.trace = [⟨0x10FFFFFF#32, Annotation.empty⟩] ∧
    decode 0x10FFFFFF#32 = .ok (.tick 16777215) ∧ State.reset.env.trace = [] ∧
    0x4300011F < 2 ^ 32 ∧ decode (BitVec.ofNat 32 0x4300011F) = .ok (.changeOutputs 31 true) := by decide
theorem witness_StepPulseRule :
    (Ready State.reset ∧ State.reset.irq.extiEn = false) ∧
    (let s := { mountedIdle with drive.sel := false }
     Ready s ∧ s.cfg.inputsNeedSel = true ∧ s.drive.sel = false) ∧
    (Ready mountedIdle ∧ ¬ (mountedIdle.irq.extiEn = false ∨
      (mountedIdle.cfg.inputsNeedSel = true ∧ mountedIdle.drive.sel = false))) := by decide
theorem witness_StepSoftirqRule :
    (State.reset.cfg.Valid ∧ State.reset.fault = none ∧ ¬ State.reset.irq.stepSoft = true) ∧
    (Ready stepStarted ∧ stepStarted.irq.stepSoft = true ∧ stepStarted.stepper.state = .started) ∧
    (let s := { mountedIdle with irq.stepSoft := true }
     Ready s ∧ s.irq.stepSoft = true ∧ s.stepper.state ≠ .started) := by decide
theorem witness_StepFireRule :
    (let s := atTime 1143999 stepLatched
     s.cfg.Valid ∧ s.fault = none ∧ ¬ (s.stepper.timer.armed = true ∧ s.stepper.timer.deadline ≤ (s.now : Int))) ∧
    (∀ st ∈ [StepState.latched, .settling, .started, .idle],
      let s := { stepLatched with stepper.state := st }
      Ready s ∧ s.stepper.timer.armed = true ∧ s.stepper.timer.deadline ≤ (s.now : Int)) := by decide
theorem witness_StepCylTable :
    84 ≤ (84#8).toNat ∧ (83#8).toNat < 84 ∧ (254#8).toNat < 255 ∧ (255#8).toNat = 255 ∧
    Ready stepLatched ∧ stepLatched.stepper.timer.armed = true ∧
    stepLatched.stepper.timer.deadline ≤ (stepLatched.now : Int) ∧ stepLatched.stepper.state = .latched := by decide
theorem witness_SideSelectRule : Ready readActive := by decide
theorem witness_DriveSelectRule : Ready mountedIdle := by decide
theorem witness_ChangeOutputsRule :
    Ready mountedIdle ∧ ∃ t, exec (.changeOutputs 31 true) mountedIdle = .next t ∧ t.outs.port = 31#5 :=
  ⟨by decide, next_of (by decide)⟩
theorem witness_WriteGateOnRule :
    Ready State.reset ∧ State.reset.irq.extiEn = false ∧ State.reset.image.loaded = false ∧
    (∀ s ∈ [mountedIdle, readActive, writeActive], Ready s ∧ ¬ (s.irq.extiEn = false ∨ s.image.loaded = false ∨
      (s.cfg.inputsNeedSel = true ∧ s.drive.sel = false))) ∧
    writeActive.wr.state ≠ .inactive ∧ readActive.wr.state = .inactive ∧ mountedIdle.wr.state = .inactive := by decide
theorem witness_WriteGateOffRule :
    (Ready State.reset ∧ State.reset.irq.extiEn = false) ∧ (Ready mountedIdle ∧ mountedIdle.wr.state = .inactive) ∧
    (Ready writeStopping ∧ writeStopping.wr.state = .stopping) ∧
    (∀ s ∈ [writeStarting, writeActive], Ready s ∧ s.irq.extiEn = true ∧
        (s.wr.state = .starting ∨ s.wr.state = .active)) := by
  decide
theorem witness_WriteDataEdgeRule :
    (Ready mountedIdle ∧ ¬ (mountedIdle.wrTim.en = true ∧ mountedIdle.wrTim.cc1e = true)) ∧
    (let s := { writeActive with wrDma.en := false }
     Ready s ∧ s.wrTim.en = true ∧ s.wrTim.cc1e = true ∧ s.wrDma.en = false) ∧
    (let s := { writeActive with wrDma.cndtr := 1#11 }
     Ready s ∧ s.wrTim.en = true ∧ s.wrTim.cc1e = true ∧ s.wrDma.en = true ∧ wrPos s.toArch = 1023) := by decide
/-- A requested beat on the last entry of the ring, holding `v`. -/
def lastBeat (v : Sample) : State :=
  { readActive with rdDma := channel true 1#11 true, mem.rdBuf := [(1023, v)] }
theorem witness_ReadBeatRule :
    (readActive.cfg.Valid ∧ readActive.fault = none ∧
      ¬ (readActive.rdTim.en = true ∧ readActive.rdDma.en = true ∧ readActive.rdDma.req = true)) ∧
    (∀ q ∈ [(lastBeat 0, 0#16), (lastBeat 65535, 65535#16)], Ready q.1 ∧ q.1.rdTim.en = true ∧ q.1.rdDma.en = true ∧
      q.1.rdDma.req = true ∧ q.1.mem.rdEntry (rdPos q.1.toArch) = q.2) := by decide
theorem witness_WriteBeatRule :
    (writeActive.cfg.Valid ∧ writeActive.fault = none ∧ ¬ (writeActive.wrDma.en = true ∧
        writeActive.wrDma.req = true)) ∧
    (let s := { writeActive with wrDma := channel true 1#11 true }
     Ready s ∧ s.wrDma.en = true ∧ s.wrDma.req = true ∧ wrPos s.toArch = 1023 ∧ (0 :
         RingIx) ≠ wrPos s.toArch) := by decide
theorem witness_IndexFireRule :
    (let s := atTime 14399999 mountedIdle
     s.cfg.Valid ∧ s.fault = none ∧ ¬ (s.index.timer.armed = true ∧ s.index.timer.deadline ≤ (s.now : Int))) ∧
    (∀ q ∈ [(mountedIdle, false), (mountedIdle, true), (readActive, true)],
      let s := { atTime 14400000 q.1 with index.active := q.2 }
      Ready s ∧ s.index.timer.armed = true ∧ s.index.timer.deadline ≤ (s.now : Int)) := by decide
/-- One tick before the update event whose beat reads `v`. -/
def beforeUpdate (v : Sample) : State := { readActive with rdTim.cnt := 287, mem.rdBuf := [(1, v)] }
theorem witness_TickRule : Inv mountedIdle ∧
    (2 ^ 24 - 1 < 2 ^ 24 ∧ Ready mountedIdle ∧ Ready stepStarted ∧ tickAllowed stepStarted = false ∧
      tickAllowed mountedIdle = true ∧ ¬ (mountedIdle.rdTim.en = true)) ∧
    ∀ q ∈ [(beforeUpdate 0, 0#16), (beforeUpdate 65535, 65535#16)], Ready q.1 ∧ tickAllowed q.1 = true ∧
      (q.1.rdTim.en && decide (q.1.rdTim.cnt + 1 = q.1.rdTim.arr) && q.1.rdDma.en) = true ∧
      q.1.mem.rdEntry (rdPos q.1.toArch) = q.2 :=
  ⟨mountedIdle_inv, by decide, by decide⟩
theorem witness_TickWaitsForOwedHandlers :
    (Ready stepStarted ∧ stepStarted.cfg.maxIrqLatency = 0 ∧ AnyOwed stepStarted.toArch ∧
      ¬ AnyOwed mountedIdle.toArch) ∧
    (∀ L ∈ [1, 100], let s :=
        { stepStarted with now := 1000099, owed.stepSoftirq := some 1000000, cfg.maxIrqLatency := L }
      0 < s.cfg.maxIrqLatency ∧ tickAllowed s = decide (L = 100)) ∧
    ∃ t, exec (.side true) mountedIdle = .next t ∧ t.drive.head = true :=
  ⟨by decide, by decide, next_of (by decide)⟩
theorem witness_TimersFireOnTime :
    (∀ s ∈ [atTime 14399999 mountedIdle, atTime 1143999 stepLatched, mountedIdle],
      Ready s ∧ s.cfg.maxIrqLatency = 0 ∧ ¬ AnyOwed s.toArch ∧ s.rdTim.en = false ∧ s.fgWait = none) ∧
    (let s := atTime 14399999 mountedIdle
     s.index.timer.armed = true ∧ s.index.timer.deadline = (s.now : Int) + ((0 : Nat) + 1) ∧
       ¬ s.stepper.timer.Due (s.now + (0 + 1))) ∧
    (let s := atTime 1143999 stepLatched
     s.stepper.timer.armed = true ∧ s.stepper.timer.deadline = (s.now : Int) + ((0 : Nat) + 1) ∧
       ¬ s.index.timer.Due (s.now + (0 + 1))) ∧
    ¬ mountedIdle.index.timer.Due (mountedIdle.now + (14399998 + 1)) ∧
    ¬ mountedIdle.stepper.timer.Due (mountedIdle.now + (14399998 + 1)) := by decide
theorem witness_ReadPeriodIsTheSample :
    Ready readActive ∧ ¬ AnyOwed readActive.toArch ∧ readActive.rdTim.en = true ∧ readActive.rdDma.en = true ∧
    readActive.rdTim.cnt = 0 ∧ readActive.rdTim.arr ≠ 0 ∧ readActive.fgWait = none ∧
    ¬ readActive.index.timer.Due (readActive.now + readActive.rdTim.arr.toNat) ∧
    ¬ readActive.stepper.timer.Due (readActive.now + readActive.rdTim.arr.toNat) ∧
    27 < readActive.rdTim.ccr.toNat ∧ ¬ 28 < readActive.rdTim.ccr.toNat ∧ readActive.pin = .af ∧
    readActive.rdTim.ccr ≠ 0 ∧ 287 < readActive.rdTim.arr.toNat ∧ readActive.mem.rdEntry (rdPos readActive.toArch) ≠ 0 := by decide
/-- A seek that is answered with this, with these operations at P1 and P2. -/
def seeking (busy : Bool) (p1 p2 : List Instr) : State :=
  noted { Annotation.empty with seeks := [(busy, 4320000#32)], atP1 := p1, atP2 := p2 } (atTime 3600000 mountedIdle)
theorem witness_ReadSeekRule :
    (mountedIdle.cfg.Valid ∧ mountedIdle.fault = none ∧
      ∀ s ∈ [State.reset, readActive, writeActive, stepStarted, { mountedIdle with fgWait := some 5 }],
        ¬ (s.image.loaded = true ∧ s.fgWait = none ∧ s.rd.state = .inactive ∧ s.wr.state = .inactive ∧
          ¬ (s.stepper.state = .started ∨ s.stepper.state = .latched))) ∧
    (∀ b ∈ [true, false], let s := seeking b [] []
      Ready s ∧ s.image.loaded = true ∧ s.fgWait = none ∧ s.rd.state = .inactive ∧ s.wr.state = .inactive ∧
        ¬ (s.stepper.state = .started ∨ s.stepper.state = .latched) ∧ s.env.note.atP1 = [] ∧ s.env.note.atP2 = [] ∧
        (seekAnswer s).1 = b) ∧
    (let s := seeking true [.step true] []
     ∃ s1, preempt s.env.note.atP1 (askSeek 0 (some 4320000) s) = .next s1 ∧
       (s1.fault = none ∧ (seekAnswer s).1 = true ∧ s1.wr.state ≠ .active ∧ s1.rd.state = .inactive)) ∧
    (let s := seeking false [.side false] [.wgate1]
     ∃ s1, preempt s.env.note.atP1 (askSeek 0 (some 4320000) s) = .next s1 ∧
       (s1.fault = none ∧ (seekAnswer s).1 = false ∧
         checks (preempt s1.env.note.atP2 { s1 with rd := { s1.rd with
             state := .starting, syncTime := 4320000, track := 0, lastTsi := 0 } })
           (fun s2 => decide (s2.fault = none ∧ s2.wr.state ≠ .active ∧ s2.rd.state = .stopping)) = true)) :=
  ⟨by decide, by decide, next_of (by decide), next_of (by decide)⟩
theorem witness_ReadSeekNeverStartsWhileStepping :
    (∃ t, exec .rdSeek (seeking false [] []) = .next t ∧ t.rd.state = .starting) ∧
    (∀ s ∈ [seeking false [.step true] [], seeking false [] [.step false]],
      Ready s ∧ RdSeekEnabled s.toArch ∧ InputsHeard s ∧ (seekAnswer s).1 = false) :=
  ⟨next_of (by decide), by decide⟩
theorem witness_ReadPrefillRule :
    (let s := readStarting 3960000 512 none
     s.cfg.Valid ∧ s.fault = none ∧ ¬ (s.image.loaded = true ∧ s.fgWait = none ∧ s.rd.state = .starting ∧
       (s.rd.prod.toNat < 512 ∨ s.rd.syncTime - s.now > 5 * 1000 * s.cfg.sysclkMhz))) ∧
    (∀ s ∈ [readStarting 3960000 511 none, readStarting 3959999 1023 none],
      Ready s ∧ s.image.loaded = true ∧ s.fgWait = none ∧ s.rd.state = .starting ∧
      (s.rd.prod.toNat < 512 ∨ s.rd.syncTime - s.now > 5 * 1000 * s.cfg.sysclkMhz)) := by decide
/-- The image offers two samples and two are taken: queued up to the wrap, one entry short of the DMA position, and into
an empty ring (prod = c); and one where only one fits. -/
theorem witness_FillStopsShortOfTheDma :
    (∀ q ∈ [((1022 : RingIx), (512 : RingIx), 2), (509, 512, 2), (0, 0, 2), (1023, 512, 1), (510, 512, 1)],
      let s := noted { Annotation.empty with fluxes := [[288, 432]] } { readActive with rd.prod := q.1 }
      (fluxAnswer (fillRequest q.2.1 q.1) s).length = q.2.2) ∧
    (0 < ((1022 : RingIx) - 512).toNat ∧ (1022 : RingIx) ≠ 512 ∧ ((0 : RingIx) - 0).toNat = 0) ∧
    (let s := noted { Annotation.empty with fluxes := [[288, 432]] } { readActive with rd.prod := 0 }
     (rdFill 0 s).mem.rdEntry 0 = 288 ∧ (rdFill 0 s).rd.prod = 2) := by decide
/-- The read starts at once, with first sample `v`. -/
abbrev startingWith (v : Sample) : Prop :=
  let s := { readStarting 4319929 512 none with mem.rdBuf := [(0, v)] }
  Ready s ∧ s.image.loaded = true ∧ s.rd.state = .starting ∧ s.fgWait = none ∧ 512 ≤ s.rd.prod.toNat ∧
    s.rd.syncTime - s.now < s.cfg.sysclkMhz ∧ s.mem.rdEntry (rdPos s.toArch) = v
theorem witness_ReadStartRule :
    (let s := readStarting 3960000 511 none
     s.cfg.Valid ∧ s.fault = none ∧ s.fgWait = none ∧ ¬ 512 ≤ s.rd.prod.toNat) ∧
    (∀ s ∈ [readStarting 3960000 512 none, readStarting 4319928 1023 none], Ready s ∧ s.image.loaded = true ∧
        s.rd.state = .starting ∧ s.fgWait = none ∧ 512 ≤ s.rd.prod.toNat ∧
      s.rd.syncTime - s.now ≤ 5 * 1000 * s.cfg.sysclkMhz ∧ s.rd.syncTime - s.now ≥ s.cfg.sysclkMhz) ∧
    (let s := { readStopping with fgWait := some 4320000 }
     Ready s ∧ s.image.loaded = true ∧ s.rd.state = .stopping ∧ waitOver s.toArch = true) ∧
    (let s := readStarting 4320000 512 (some 4320000)
     Ready s ∧ s.image.loaded = true ∧ s.rd.state = .starting ∧ waitOver s.toArch = true ∧
       s.mem.rdEntry (rdPos s.toArch) ≠ 0) ∧
    startingWith 0 ∧ startingWith 288 :=
  ⟨by decide, by decide, by decide, by decide, by decide, by decide⟩
theorem witness_ReadStartRule_wait : ∃ w, (readStarting 4320000 512 (some 4320000)).fgWait = some w ∧
    w ≤ ((readStarting 4320000 512 (some 4320000)).now : Int) := wait_over (by decide)
theorem witness_ReadServiceRule :
    (readActive.cfg.Valid ∧ readActive.fault = none ∧ ¬ (readActive.irq.rdDma = true ∧ readActive.irq.dmaEn = true)) ∧
    (∀ q ∈ [readActive, readStopping], let s := { q with irq.rdDma := true }
      Ready s ∧ s.irq.rdDma = true ∧ s.irq.dmaEn = true) ∧
    readStopping.rd.state ≠ .active ∧ readActive.rd.state = .active ∧
    ∃ t, exec .rdReplenish (noted { Annotation.empty with readTracks := [true] } { readActive with rd.kick := true }) =
      .next t ∧ t.rd.kick = false :=
  ⟨by decide, by decide, by decide, by decide, next_of (by decide)⟩
theorem witness_ReadReplenishRule :
    (mountedIdle.cfg.Valid ∧ mountedIdle.fault = none ∧
      ¬ (mountedIdle.image.loaded = true ∧ mountedIdle.fgWait = none ∧ mountedIdle.rd.state = .active)) ∧
    ∀ b ∈ [true, false], let s := noted { Annotation.empty with readTracks := [b] } { readActive with rd.kick := true }
      Ready s ∧ s.image.loaded = true ∧ s.fgWait = none ∧ s.rd.state = .active ∧ readTrackAnswer s = b ∧
          s.rd.kick = true := by
  decide
theorem witness_ReadStopRule :
    (readActive.cfg.Valid ∧ readActive.fault = none ∧ ¬ StopCondition readActive.toArch) ∧
    (∀ s ∈ [{ readActive with drive.head := true }, { readActive with stepper.state := .latched },
        { readStarting 4000000 512 none with drive.cyl := 255 }],
      Ready s ∧ s.image.loaded = true ∧ s.fgWait = none ∧ (s.rd.state = .starting ∨ s.rd.state = .active) ∧
        (s.stepper.state = .started ∨ s.stepper.state = .latched ∨ trackOf s.drive ≠ s.rd.track)) ∧
    Ready readActive ∧ readActive.wr.state = .inactive ∧ (∃ t, exec .wgate1 readActive = .next t ∧
        t.wr.state = .starting) ∧
    ∃ t, exec .cancel readActive = .next t ∧ t.rd.state = .inactive :=
  ⟨by decide, by decide, by decide, by decide, next_of (by decide), next_of (by decide)⟩
theorem witness_ReadFinishRule :
    (readActive.cfg.Valid ∧ readActive.fault = none ∧
      ¬ (readActive.image.loaded = true ∧ readActive.fgWait = none ∧ readActive.rd.state = .stopping)) ∧
    Ready readStopping ∧ readStopping.image.loaded = true ∧ readStopping.fgWait = none ∧
    readStopping.rd.state = .stopping := by decide
theorem witness_WriteServiceRule :
    (mountedIdle.cfg.Valid ∧ mountedIdle.fault = none ∧ ¬ (mountedIdle.irq.wrDma = true ∧
        mountedIdle.irq.dmaEn = true)) ∧
    (let s := { mountedIdle with irq.wrDma := true }
     Ready s ∧ s.irq.wrDma = true ∧ s.irq.dmaEn = true ∧ s.wr.state = .inactive) ∧
    (Ready writeStopping ∧ writeStopping.irq.wrDma = true ∧ writeStopping.irq.dmaEn = true ∧
      writeStopping.wr.state ≠ .inactive) ∧
    ∀ w ∈ serviceStores writeStopping, 4 / 4 ≠ w % writeStopping.cfg.mfmWords := by decide
theorem witness_IntervalZeros : 0 < Config.default.sysclkMhz ∧ 216 ≤ 3 * Config.default.sysclkMhz ∧
    3 * Config.default.sysclkMhz < 217 := by decide
theorem witness_EmitRule : 0 < 1024 ∧
    ((Decoder.mk 0 31 State.reset.mem).bp + 1) % 32#32 = 0 ∧ ((Decoder.mk 0 30 State.reset.mem).bp + 1) % 32#32 ≠ 0 ∧
    1 % 1024 ≠ ((Decoder.mk 0 31 State.reset.mem).bp / 32#32).toNat % 1024 := by decide
/-- At the last bit position the position wraps (log 17). -/
theorem witness_EmitRule_wrap : (0xFFFFFFFF#32 + 1) % 32#32 = 0 ∧ ((0xFFFFFFFF#32 + 1) / 32#32 - 1).toNat = 2 ^ 32 - 1 :=
  ⟨rfl, rfl⟩
theorem witness_AlignAndPartialWord :
    (Decoder.mk 7 37 State.reset.mem).acc = 7#32 ∧ (Decoder.mk 7 37 State.reset.mem).acc ≠ 8#32 ∧ 0 < 1024 ∧
    (Decoder.mk 7 64 State.reset.mem).bp.toNat % 32 = 0 ∧ (Decoder.mk 7 63 State.reset.mem).bp.toNat % 32 ≠ 0 ∧
    31 < 32 ∧ 32 - 31 ≤ 1 ∧ ¬ 32 - 31 ≤ 0 ∧ 0 % 1024 ≠ 1 % 1024 := by decide
theorem witness_MfmWordsAreBigEndian : 0 < 1024 ∧ 3 < 4 * (1025 % 1024) ∧ 4 * (1025 % 1024) + 4 ≤ 8 := by decide
theorem witness_WriteActivateRule :
    (mountedIdle.cfg.Valid ∧ mountedIdle.fault = none ∧
      ¬ (mountedIdle.wr.state = .starting ∧ mountedIdle.rd.state = .inactive ∧ mountedIdle.fgWait = none)) ∧
    (∀ n ∈ [{ Annotation.empty with seeks := [(true, 0#32)] }, { Annotation.empty with seeks := [(false, 0#32)] },
        { Annotation.empty with atP1 := [.wgate0] }], let s := noted n writeStarting
      Ready s ∧ s.wr.state = .starting ∧ s.rd.state = .inactive ∧ s.fgWait = none ∧ s.irq.extiEn = true) ∧
    (seekAnswer (noted { Annotation.empty with seeks := [(true, 0#32)] } writeStarting)).1 = true ∧
    (seekAnswer (noted { Annotation.empty with seeks := [(false, 0#32)] } writeStarting)).1 = false ∧
    (let s := { writeStarting with rd.state := .active }
     s.fault = none ∧ ReadRunning s.toArch) := by decide
theorem witness_WritePumpRule :
    (mountedIdle.cfg.Valid ∧ mountedIdle.fault = none ∧ ¬ (mountedIdle.wr.state = .active ∧
        mountedIdle.fgWait = none)) ∧
    (let s := noted { Annotation.empty with mfmConses := [7#32] } { writeActive with mfm.prod := 7#32 }
     Ready s ∧ s.wr.state = .active ∧ s.fgWait = none ∧ s.env.note.mfmConses = [7#32] ∧
       s.mfm.cons.toNat ≤ (7#32).toNat ∧ (7#32).toNat ≤ s.mfm.prod.toNat) := by decide
theorem witness_WriteDrainRule :
    (writeActive.cfg.Valid ∧ writeActive.fault = none ∧ ¬ writeActive.wr.state = .stopping) ∧
    (∀ q ∈ [({ writeStopping with wr.cons := 2 }, false), ({ writeStopping with wr.cons := 3 }, true)],
      Ready q.1 ∧ q.1.wr.state = .stopping ∧ q.1.rd.state = .inactive ∧ q.1.fgWait = none ∧
        decide (q.1.wr.cons = wrPos q.1.toArch) = q.2) := by decide
theorem witness_InitRule : faulted.cfg.Valid ∧ faulted.fault ≠ none := by decide
theorem witness_MountRule :
    (mountedIdle.cfg.Valid ∧ mountedIdle.fault = none ∧ ¬ mountedIdle.image.loaded = false) ∧
    ∀ b ∈ [true, false], let s := noted { Annotation.empty with opens := [b] } State.reset
      Ready s ∧ s.image.loaded = false ∧ openAnswer s = b := by decide
theorem witness_CancelRule : (∀ s ∈ [readActive, writeActive], s.cfg.Valid ∧ s.fault = none) ∧
    writeActive.wr.state ≠ .inactive ∧
    readActive.wr.state = .inactive := by decide
theorem witness_AfterCancel :
    Ready readActive ∧ (∃ t, exec .cancel readActive = .next t ∧ t.image.loaded = false) ∧
    (∃ t, exec (.tick 16777215) State.reset = .next t ∧ t.now = 16777215) ∧ State.reset.image.loaded = false ∧
    State.reset.irq.extiEn = false ∧ State.reset.irq.dmaEn = false :=
  ⟨by decide, next_of (by decide), next_of (by decide), by decide, by decide, by decide⟩
theorem witness_ForegroundIdle :
    (Ready State.reset ∧ State.reset.image.loaded = false) ∧
    (Ready (readStarting 4319999 600 (some 4320000)) ∧ (readStarting 4319999 600 (some 4320000)).image.loaded = true ∧
      ∃ w, (readStarting 4319999 600 (some 4320000)).fgWait = some w ∧
        ((readStarting 4319999 600 (some 4320000)).now : Int) < w) ∧
    ∀ s ∈ [stepStarted, stepLatched], Ready s ∧ s.image.loaded = true ∧ s.fgWait = none ∧ s.rd.state = .inactive ∧
      s.wr.state = .inactive ∧ (s.stepper.state = .started ∨ s.stepper.state = .latched) :=
  ⟨by decide, ⟨by decide, by decide, 4320000, rfl, by decide⟩, by decide⟩
/-- `read_track` answers true. -/
def reading : Annotation := { Annotation.empty with readTracks := [true] }
/-- In `s`, with an image, the operations `l` run one after the other, and FG_HANDLE does what they do (the table of 95
section 2.8). -/
def runsRow (s : State) (l : List Instr) : Bool :=
  decide (Ready s ∧ s.image.loaded = true) &&
    checks (runAll l s) fun t => checks (exec .fgHandle s) fun u => decide (u.toArch = t.toArch ∧ u.env.calls = t.env.calls)
/-- The image is not busy, gives samples, and buffers more. -/
def answering (s : State) : State :=
  noted { reading with seeks := [(false, 4320000#32)], fluxes := [[288]], mfmConses := [0] } s
theorem witness_ForegroundRunsWhatIsDue_inactive :
    (let s := answering mountedIdle
     s.fgWait = none ∧ s.rd.state = .inactive ∧ s.wr.state = .inactive ∧ ¬ StepActive s.toArch ∧
       runsRow s [.rdSeek] = true) ∧
    (let s := answering writeStarting
     s.fgWait = none ∧ s.rd.state = .inactive ∧ s.wr.state = .starting ∧ runsRow s [.wrActivate] = true) ∧
    (let s := answering writeActive
     s.fgWait = none ∧ s.rd.state = .inactive ∧ s.wr.state = .active ∧ runsRow s [.wrPump] = true) := by decide
theorem witness_ForegroundRunsWhatIsDue_draining :
    (let s := answering writeStopping
     s.rd.state = .inactive ∧ s.wr.state = .stopping ∧ s.wr.cons ≠ wrPos s.toArch ∧ runsRow s [.wrDrain] = true) ∧
    (let s := answering { writeStopping with wr.cons := 3, stepper.state := .latched }
     s.wr.cons = wrPos s.toArch ∧ StepActive s.toArch ∧ runsRow s [.wrDrain] = true) ∧
    (let s := answering { writeStopping with wr.cons := 3 }
     s.wr.cons = wrPos s.toArch ∧ ¬ StepActive s.toArch ∧ runsRow s [.wrDrain, .rdSeek] = true) := by decide
theorem witness_ForegroundRunsWhatIsDue_stopping :
    (let s := answering { readStopping with stepper.state := .latched }
     s.fgWait = none ∧ s.rd.state = .stopping ∧ s.wr.state = .inactive ∧ StepActive s.toArch ∧
       runsRow s [.rdFinish] = true) ∧
    (let s := answering readStopping
     s.wr.state = .inactive ∧ ¬ StepActive s.toArch ∧ runsRow s [.rdFinish, .rdSeek] = true) ∧
    (let s := answering { readStopping with wr.state := .starting }
     s.wr.state = .starting ∧ runsRow s [.rdFinish, .wrActivate] = true) ∧
    (let s := answering { readStopping with wr := { readStopping.wr with state := .stopping, cons := 5 } }
     s.wr.state = .stopping ∧ s.wr.cons ≠ wrPos s.toArch ∧ runsRow s [.rdFinish, .wrDrain] = true) ∧
    (let s := answering { readStopping with wr.state := .stopping }
     s.wr.cons = wrPos s.toArch ∧ ¬ StepActive s.toArch ∧ runsRow s [.rdFinish, .wrDrain, .rdSeek] = true) := by decide
theorem witness_ForegroundRunsWhatIsDue_starting :
    (let s := answering (readStarting 3600000 0 none)
     s.fgWait = none ∧ s.rd.state = .starting ∧ ¬ StopCondition s.toArch ∧ runsRow s [.rdPrefill] = true ∧
       checks (exec .rdPrefill s) (fun t => refusedWith (exec .rdStart t) .notEnabled) = true) ∧
    (let s := answering (readStarting 3960000 511 none)
     ¬ StopCondition s.toArch ∧ runsRow s [.rdPrefill, .rdStart] = true) ∧
    (let s := answering (readStarting 3960000 512 none)
     ¬ StopCondition s.toArch ∧ refusedWith (exec .rdPrefill s) .notEnabled = true ∧ runsRow s [.rdStart] = true) ∧
    (∀ q ∈ [readStarting 3600000 0 none, readActive], let s := answering { q with drive.head := true }
     ReadRunning s.toArch ∧ StopCondition s.toArch ∧ runsRow s [.rdStop] = true) ∧
    (let s := answering readActive
     s.rd.state = .active ∧ ¬ StopCondition s.toArch ∧ runsRow s [.rdReplenish] = true) := by decide
theorem witness_ForegroundRunsWhatIsDue_waiting :
    (∀ q ∈ [(false, Instr.rdReplenish), (true, .rdStop)],
      let s := answering { readStarting 4320000 600 (some 4320000) with drive.head := q.1 }
      s.fgWait ≠ none ∧ s.rd.state = .starting ∧ (q.1 = true ↔ StopCondition s.toArch) ∧
        runsRow s [.rdStart, q.2] = true ∧ runsRow s [.rdStart, .fgHandle] = true) ∧
    (let s := answering { readStopping with fgWait := some 4320000 }
     s.fgWait ≠ none ∧ s.rd.state = .stopping ∧ runsRow s [.rdStart, .fgHandle] = true) := by decide
theorem witness_ForegroundTurnsReadIntoWrite :
    Ready readActive ∧ readActive.rd.state = .active ∧ readActive.fgWait = none ∧ readActive.image.loaded = true ∧
    InputsHeard readActive ∧ (let n : Annotation := { Annotation.empty with seeks := [(false, 720000#32)] }
      n.atP1 = [] ∧ n.seeks.head? = some (false, 720000#32)) := by decide
theorem witness_FaultIsFinal :
    faulted.cfg.Valid ∧ faulted.fault ≠ none ∧ Instr.cancel ≠ .init ∧
    (let s := { readActive with wr.state := .stopping }
     ∃ t, exec (.side true) s = .next t ∧ (t.rd.state = .active ∧ t.wr.state ≠ .inactive)) ∧
    (RingState.active ≠ mountedIdle.rd.state ∧ mountedIdle.rd.state.canBecome .active = false ∧
        mountedIdle.fault = none) ∧
    (RingState.active ≠ writeStopping.wr.state ∧ writeStopping.wr.state.canBecome .active = false) :=
  ⟨by decide, by decide, by decide, next_of (by decide), by decide, by decide⟩
theorem witness_RingStatesMoveLegally :
    (∃ t, exec .rdStart (readStarting 4319929 600 none) = .next t ∧ t.rd.state = .active) ∧
    (∃ t, exec .wgate0 writeActive = .next t ∧ t.wr.state = .stopping) ∧
    (∃ t, exec .wrActivate (answering writeStarting) = .next t ∧ t.wr.state = .active) ∧
    ∃ t, exec .wrActivate (noted { (answering writeStarting).env.note with atP1 := [.wgate0] } writeStarting) = .next t ∧
      t.wr.state = .stopping :=
  ⟨next_of (by decide), next_of (by decide), next_of (by decide), next_of (by decide)⟩
theorem witness_OnlyTheNamedActorsMoveTheRings_read :
    (mountedIdle.rd.state = .inactive ∧ ∃ t, exec .rdSeek (seeking false [] []) = .next t ∧ t.rd.state = .starting) ∧
    (∃ t, exec .rdStart (readStarting 4319929 600 none) = .next t ∧ t.rd.state = .active) ∧
    (∃ t, exec .rdSeek (seeking false [] [.step true]) = .next t ∧ t.rd.state = .stopping) ∧
    (readActive.rd.state ≠ .stopping ∧ ∃ t, exec .wgate1 readActive = .next t ∧ t.rd.state = .stopping) ∧
    (∃ t, exec .rdStop { readActive with drive.head := true } = .next t ∧ t.rd.state = .stopping) ∧
    (readStopping.rd.state = .stopping ∧ ∃ t, exec .rdFinish readStopping = .next t ∧ t.rd.state = .inactive) ∧
    ∃ t, exec .cancel readActive = .next t ∧ t.rd.state = .inactive :=
  ⟨⟨by decide, next_of (by decide)⟩, next_of (by decide), next_of (by decide), ⟨by decide, next_of (by decide)⟩,
    next_of (by decide), ⟨by decide, next_of (by decide)⟩, next_of (by decide)⟩
theorem witness_OnlyTheNamedActorsMoveTheRings_write :
    (mountedIdle.wr.state = .inactive ∧ ∃ t, exec .wgate1 mountedIdle = .next t ∧ t.wr.state = .starting) ∧
    (∃ t, exec .rdSeek (seeking false [.wgate1] []) = .next t ∧ t.wr.state = .starting) ∧
    (∃ t, exec .wrActivate (answering writeStarting) = .next t ∧ t.wr.state = .active) ∧
    (writeActive.wr.state ≠ .stopping ∧ ∃ t, exec .wgate0 writeActive = .next t ∧ t.wr.state = .stopping) ∧
    (∃ t, exec .wrActivate (noted { (answering writeStarting).env.note with atP1 := [.wgate0] } writeStarting) = .next t ∧
      t.wr.state = .stopping) ∧
    (writeStopping.wr.state = .stopping ∧
      ∃ t, exec .wrDrain { writeStopping with wr.cons := 3 } = .next t ∧ t.wr.state = .inactive) ∧
    ∃ t, exec .cancel writeActive = .next t ∧ t.wr.state = .inactive :=
  ⟨⟨by decide, next_of (by decide)⟩, next_of (by decide), next_of (by decide), ⟨by decide, next_of (by decide)⟩,
    next_of (by decide), ⟨by decide, next_of (by decide)⟩, next_of (by decide)⟩
theorem witness_OnlyTickMovesTime :
    (∃ t, exec (.tick 16777215) State.reset = .next t ∧ t.now = 16777215) ∧
    ∃ t, exec .init (atTime 9 mountedIdle) = .next t ∧ t.now = 0 := ⟨next_of (by decide), next_of (by decide)⟩
theorem witness_OnlyTheStepTimerMovesTheHead :
    (∃ t, exec .stepFire stepLatched = .next t ∧ t.drive.cyl = stepCyl stepLatched.drive.cyl true) ∧
    (∃ t, exec (.tick 1000000) (atTime 1143999 stepLatched) = .next t ∧ t.drive.cyl = 1) ∧
    (∃ t, exec .rdSeek (seeking false [.step true] [.side true]) = .next t ∧ t.drive.head = true) ∧
    (let s := { mountedIdle with cfg.maxIrqLatency := 1 }
     0 < s.cfg.maxIrqLatency ∧ ∃ t, exec (.tick 5) s = .next t ∧ t.now = 5) ∧
    ∃ t, exec .wrActivate (noted { Annotation.empty with seeks := [(false, 0#32)], atP1 := [.stepFire] }
      { writeStarting with now := 1144000, stepper := stepLatched.stepper }) = .next t ∧ t.drive.cyl = 1 :=
  ⟨next_of (by decide), next_of (by decide), next_of (by decide), ⟨by decide, next_of (by decide)⟩, next_of (by decide)⟩
theorem witness_LogOnlyGrows : ∃ t, exec .wgate1 writeActive = .next t ∧ t.log ≠ writeActive.log := next_of (by decide)
theorem witness_MuxInvariantKept :
    (let s := traced 0x43000101#32 mountedIdle
     (s.drive.sel = true → s.outs.port = s.outs.shadow) ∧ (s.drive.sel = false → s.outs.port = 0)) ∧
    ∃ t, step (traced 0x43000101#32 mountedIdle) = .next t ∧ t.outs.port = 0b10111#5 := ⟨by decide, next_of (by decide)⟩
theorem witness_StepTakesOneEvent : ∃ t, step (traced 0x10000001#32 mountedIdle) = .next t ∧ t.now = 1 :=
  next_of (by decide)
theorem witness_ResetHasTheInvariant : ∃ t, exec .init faulted = .next t ∧ t.fault = none := next_of (by decide)
theorem witness_EveryStepKeepsTheInvariant : Inv mountedIdle ∧ Inv readActive ∧ Inv writeActive ∧
    ∃ t, step (traced 0x04000001#32 mountedIdle) = .next t ∧ t.wr.state = .starting :=
  ⟨mountedIdle_inv, readActive_inv, writeActive_inv, next_of (by decide)⟩

end Sys2Proof.Tests
end

section
/-! The invariant of the block, assembled from the `…_core` and `…_clear` lemmas of Laws/Invariant.lean: every
operation keeps it, and so does every step. -/

namespace Sys2Proof.Machine

/-- What a step that answers a next state has done: it took the first event of the trace and ran its operation. -/
theorem step_eq_next {s t : State} : step s = .next t ↔
    ∃ e rest i, s.env.trace = e :: rest ∧ decode e.word = .ok i ∧ exec i (s.taking e rest) = .next t := by
  unfold step
  cases htr : s.env.trace with
  | nil => simp
  | cons e rest => cases hd : decode e.word <;> simp [hd]

theorem Still.clear {s t : State} (k : Still s t) (ho : ¬ Overlap s.toArch) : ¬ Overlap t.toArch := by
  rwa [Overlap_congr k.rd k.wr]

theorem stepFire_clear {s : State} (ho : ¬ Overlap s.toArch) : ¬ Overlap (stepFire s).toArch := by
  obtain ⟨hw, hr⟩ := stepFire_wr s
  rwa [Overlap_congr (b := s.toArch) (by rw [hr]) (by rw [hw])]

/-- No beat is left over from an operation (log 9), so RD_BEAT and WR_BEAT alone are not enabled. -/
theorem CoreInv.no_beat_left {s : State} (h : CoreInv s) : ¬ RdBeatEnabled s.toArch ∧ ¬ WrBeatEnabled s.toArch := by
  obtain ⟨-, -, -, -, ⟨-, -, hrd, hwr⟩, -⟩ := h
  simp [hrd, hwr]

/-- An operation that ends in the state `u` it computes: `operation_inv` for it. -/
theorem operation_next_inv {s t u : State} {e : Prop} {_ : Decidable e}
    (h : e → CoreInv u ∧ ¬ Overlap u.toArch) (ht : operation s e (.next u) = .next t) : Inv t :=
  operation_inv (fun _ he hv => Host.Outcome.next.inj hv ▸ h he) ht

theorem execTick_inv {n : Nat} {s t : State} (h : Inv s) (ht : execTick n s = .next t) : Inv t := by
  rw [execTick_eq] at ht
  refine operation_inv (fun u _ hu => ?_) ht
  obtain ⟨hc, ho, -⟩ := tickTimes_inv n h hu
  exact ⟨hc, ho⟩

theorem execInit_inv {s t : State} (ht : execInit s = .next t) : Inv t := by
  unfold execInit at ht
  split at ht
  · next hc =>
    obtain rfl := Host.Outcome.next.inj ht
    exact reset_inv_of hc _ _
  · cases ht

/-- Every operation keeps the invariant. -/
theorem exec_inv {i : Instr} {s t : State} (h : Inv s) (ht : exec i s = .next t) : Inv t := by
  have ⟨hc, ho, _⟩ := h
  cases i with
  | step d => exact operation_next_inv (fun _ => ⟨stepPulse_core d hc, (stepPulse_still d s).clear ho⟩) ht
  | side b => exact operation_next_inv (fun _ => ⟨sideSelect_core b hc, ho⟩) ht
  | sel b => exact operation_next_inv (fun _ => ⟨driveSelect_core b hc, ho⟩) ht
  | wgate1 => exact operation_next_inv (fun _ => ⟨wgate1_core hc, wgate1_clear ho⟩) ht
  | wgate0 => exact operation_next_inv (fun _ => ⟨wgate0_core hc, wgate0_clear ho⟩) ht
  | wdataEdge => exact operation_next_inv (fun _ => ⟨wdataEdge_core hc, (wdataEdge_still s).clear ho⟩) ht
  | tick n => exact execTick_inv h ht
  | rdBeat => exact operation_inv (fun _ he _ => absurd he hc.no_beat_left.1) ht
  | wrBeat => exact operation_inv (fun _ he _ => absurd he hc.no_beat_left.2) ht
  | idxFire => exact operation_next_inv (fun he => ⟨idxFire_core hc he, (idxFire_still s).clear ho⟩) ht
  | stepFire => exact operation_next_inv (fun he => ⟨stepFire_core hc he, stepFire_clear ho⟩) ht
  | rdService => exact operation_next_inv (fun _ => ⟨rdService_core hc, (rdService_still s).clear ho⟩) ht
  | wrService => exact operation_next_inv (fun _ => ⟨wrService_core hc, (wrService_still s).clear ho⟩) ht
  | stepSoftirq => exact operation_next_inv (fun _ => ⟨stepSoftirq_core hc, (stepSoftirq_still s).clear ho⟩) ht
  | fgHandle => exact operation_inv (fun _ _ => fgHandle_core ⟨hc, ho⟩) ht
  | rdSeek => exact operation_inv (fun _ he => rdSeek_core hc he) ht
  | rdPrefill => exact operation_next_inv (fun _ => ⟨rdPrefill_core hc, (rdPrefill_still s).clear ho⟩) ht
  | rdStart => exact operation_inv (fun _ he hu => ⟨rdStart_core hc he hu, rdStart_clear ho hu⟩) ht
  | rdReplenish => exact operation_next_inv (fun he => ⟨rdReplenish_core hc he.2, (rdReplenish_still s).clear ho⟩) ht
  | rdStop => exact operation_next_inv (fun he => ⟨rdStop_core hc, rdStop_clear ho he.2.1⟩) ht
  | rdFinish =>
    exact operation_next_inv (fun ⟨⟨_, _, hfree⟩, hstop⟩ =>
      ⟨rdFinish_core hc hstop hfree, not_Overlap_of_read ((rdFinish_write s).2.2 hstop)⟩) ht
  | wrActivate =>
    refine operation_inv (fun u ⟨_, _, hrd, _⟩ hu => ?_) ht
    obtain ⟨hcu, hrdu⟩ := wrActivate_core hc hrd hu
    exact ⟨hcu, not_Overlap_of_read hrdu⟩
  | wrPump => exact operation_next_inv (u := wrPump s) (fun _ => ⟨hc, (wrPump_still s).clear ho⟩) ht
  | wrDrain =>
    refine operation_next_inv (fun ⟨_, hstop, hrd, _⟩ => ⟨wrDrain_core hc hstop, not_Overlap_of_read ?_⟩) ht
    obtain ⟨-, hrd', -⟩ := wrDrain_moves hstop
    exact hrd'.trans hrd
  | init => exact execInit_inv ht
  | mount =>
    refine operation_next_inv (fun he => ?_) ht
    obtain ⟨hcm, hrd, -⟩ := mountImage_core hc he
    exact ⟨hcm, not_Overlap_of_read hrd⟩
  | cancel =>
    refine operation_next_inv (fun _ => ?_) ht
    obtain ⟨hcc, hrd, -⟩ := cancelAll_core hc
    exact ⟨hcc, not_Overlap_of_read hrd⟩
  | changeOutputs m v => exact operation_next_inv (fun _ => ⟨setOutputs_core m v hc, ho⟩) ht

/-- Settles O58: a step runs one operation on a state that differs in its inputs and outputs only, and every operation
keeps the invariant. -/
theorem everyStepKeepsTheInvariant : Obligations.EveryStepKeepsTheInvariant := by
  unfold Obligations.EveryStepKeepsTheInvariant
  intro s t h ht
  obtain ⟨e, rest, i, -, -, hexec⟩ := step_eq_next.mp ht
  have htaken : Inv (s.taking e rest) := h
  exact exec_inv htaken hexec

end Sys2Proof.Machine
end

section
/-! The moves of the ring states (R21): a guarded write makes a legal one or none, and so does every operation that
makes at most one. -/

namespace Sys2Proof.Machine

/-- A ring state stays what it is or makes a transition of the legal set. -/
def RingState.Moves (a b : RingState) : Prop := b = a ∨ a.canBecome b = true

/-- Both ring states stay or move legally. -/
structure LegalMoves (s t : State) : Prop where
  rd : s.rd.state.Moves t.rd.state
  wr : s.wr.state.Moves t.wr.state

theorem RingState.canBecome_iff (a b : RingState) : a.canBecome b = true ↔
    (a, b) ∈ [(.inactive, .starting), (.starting, .active), (.starting, .stopping), (.active, .stopping),
      (.stopping, .inactive)] := by
  cases a <;> cases b <;> decide

theorem setRdState_moves (n : RingState) (s : State) : s.rd.state.Moves (setRdState n s).rd.state := by
  unfold setRdState
  split
  · exact .inl rfl
  split
  · next hlegal => exact .inr hlegal
  · exact .inl rfl

theorem setWrState_moves (n : RingState) (s : State) : s.wr.state.Moves (setWrState n s).wr.state := by
  unfold setWrState
  split
  · exact .inl rfl
  split
  · next hlegal => exact .inr hlegal
  · exact .inl rfl

theorem Still.legal {s t : State} (k : Still s t) : LegalMoves s t := ⟨.inl k.rd, .inl k.wr⟩

theorem LegalMoves.still {s t u : State} (h : LegalMoves s t) (k : Still t u) : LegalMoves s u :=
  ⟨by rw [k.rd]; exact h.rd, by rw [k.wr]; exact h.wr⟩

/-- A read that is stopped while it runs moves legally. -/
theorem ReadRunning.moves_stopping {a : Arch} (h : ReadRunning a) : a.rd.state.Moves .stopping := by
  rcases h with h | h <;> rw [h] <;> exact .inr rfl

theorem rdStop_legal (s : State) : LegalMoves s (rdStop s) := by
  obtain ⟨hw, -, -, ⟨-, hr⟩ | ⟨hrun, hr⟩⟩ := rdStop_spec s
  · exact ⟨.inl hr, .inl (by rw [hw])⟩
  · exact ⟨hr ▸ hrun.moves_stopping, .inl (by rw [hw])⟩

theorem wgate0_legal (s : State) : LegalMoves s (wgate0 s) := by
  refine ⟨?_, ?_⟩
  · exact (wgate0_moves s).read.imp id fun ⟨_, _, hmem⟩ => absurd hmem (by simp)
  · unfold wgate0
    split
    · exact .inl rfl
    split
    · exact .inl rfl
    · exact setWrState_moves .stopping s

theorem wgate1_legal (s : State) : LegalMoves s (wgate1 s) := by
  refine ⟨?_, ?_⟩
  · rcases (wgate1_moves s).read with hr | ⟨hr, hrun, -⟩
    · exact .inl hr
    · exact hr ▸ hrun.moves_stopping
  · unfold wgate1
    split
    · exact .inl rfl
    split
    · exact .inl rfl
    · have h := setWrState_moves .starting (rdStop s)
      rwa [rdStop_wr] at h

theorem rdStart_legal {s t : State} (h : rdStart s = .next t) : LegalMoves s t := by
  obtain ⟨-, hw, hr | ⟨hs, ht⟩⟩ := rdStart_moves h
  · exact ⟨.inl hr, .inl hw⟩
  · exact ⟨by rw [hs, ht]; exact .inr rfl, .inl hw⟩

theorem rdFinish_legal (s : State) : LegalMoves s (rdFinish s) :=
  ⟨setRdState_moves .inactive _, .inl (by rw [(rdFinish_write s).2.1])⟩

theorem wrDrain_legal {s : State} (hs : s.wr.state = .stopping) : LegalMoves s (wrDrain s) := by
  obtain ⟨-, hr, hw⟩ := wrDrain_moves hs
  exact ⟨.inl hr, by rcases hw with hw | hw <;> rw [hs, hw] <;> [exact .inl rfl; exact .inr rfl]⟩

theorem wrActivate_legal {s t : State} (hs : s.wr.state = .starting) (h : wrActivate s = .next t) : LegalMoves s t := by
  obtain ⟨-, hr, hw⟩ := wrActivate_moves hs h
  refine ⟨?_, ?_⟩
  · rcases hr with hr | ⟨hr, hrun⟩
    · exact .inl hr
    · exact hr ▸ hrun.moves_stopping
  · rw [hs]
    rcases hw with hw | hw | hw <;> rw [hw] <;> [exact .inl rfl; exact .inr rfl; exact .inr rfl]

/-- `operation_next` for legal moves. -/
theorem operation_legal {s t : State} {e : Prop} {_ : Decidable e} {r : Result}
    (h : ∀ u, e → r = .next u → LegalMoves s u) (ht : operation s e r = .next t) : LegalMoves s t := by
  obtain ⟨he, u, hu, k⟩ := operation_next ht
  exact (h u he hu).still k

theorem operation_next_legal {s t u : State} {e : Prop} {_ : Decidable e} (h : e → LegalMoves s u)
    (ht : operation s e (.next u) = .next t) : LegalMoves s t :=
  operation_legal (fun _ he hv => Host.Outcome.next.inj hv ▸ h he) ht

/-- Every operation moves the ring states legally, but those that may make more than one transition. -/
theorem exec_legal {i : Instr} {s t : State} (ht : exec i s = .next t) (hseek : i ≠ .rdSeek) (hfg : i ≠ .fgHandle)
    (hcancel : i ≠ .cancel) (hinit : i ≠ .init) : LegalMoves s t := by
  cases i with
  | wgate1 => exact operation_next_legal (fun _ => wgate1_legal s) ht
  | wgate0 => exact operation_next_legal (fun _ => wgate0_legal s) ht
  | tick n =>
    have h := execTick_moves ht
    exact ⟨.inl h.rd, .inl h.wr⟩
  | stepFire =>
    obtain ⟨hw, hr⟩ := stepFire_wr s
    exact operation_next_legal (fun _ => ⟨.inl (by rw [hr]), .inl (by rw [hw])⟩) ht
  | rdStart => exact operation_legal (fun _ _ => rdStart_legal) ht
  | rdStop => exact operation_next_legal (fun _ => rdStop_legal s) ht
  | rdFinish => exact operation_next_legal (fun _ => rdFinish_legal s) ht
  | wrActivate => exact operation_legal (fun _ he => wrActivate_legal he.2.1) ht
  | wrDrain => exact operation_next_legal (fun he => wrDrain_legal he.2.1) ht
  | rdSeek => exact absurd rfl hseek
  | fgHandle => exact absurd rfl hfg
  | cancel => exact absurd rfl hcancel
  | init => exact absurd rfl hinit
  | step _ | side _ | sel _ | wdataEdge | rdBeat | wrBeat | idxFire | rdService | wrService | stepSoftirq | rdPrefill
  | rdReplenish | wrPump | mount | changeOutputs _ _ => exact (exec_still ht trivial).legal

/-- Settles O50: the legal set is a finite check, an operation that makes one transition makes it by a guarded write,
and a guarded write makes a legal one or none. -/
theorem ringStatesMoveLegally : Obligations.RingStatesMoveLegally := by
  unfold Obligations.RingStatesMoveLegally
  refine ⟨RingState.canBecome_iff, fun i s t ht hseek hfg hcancel hinit => ?_, fun n s => ?_⟩
  · have h := exec_legal ht hseek hfg hcancel hinit
    exact ⟨h.rd, h.wr⟩
  · exact ⟨setRdState_moves n s, setWrState_moves n s⟩

end Sys2Proof.Machine
end

section
/-! The log (R39, R281, R287): which operations leave it, and what the two that write to it, RD_SERVICE and WGATE 1,
append; said once for every operation, with the track a read was started for, which only RD_SEEK writes. -/

namespace Sys2Proof.Machine

/-! ## The relations -/

/-- Nothing is logged and no click taken back; the time and the track asked for are what they were. -/
structure LogStill (s t : State) : Prop where
  log : t.log = s.log
  clicks : s.clicks ≤ t.clicks
  now : t.now = s.now
  track : t.rd.track = s.rd.track

/-- What is appended to the log is Underrun and MissedWrite records of this time, and no click is taken back. -/
structure LogGrows (s t : State) : Prop where
  log : ∃ added : List LogRecord, t.log = s.log ++ added ∧
    ∀ r ∈ added, r.time = s.now ∧ (r.kind = .underrun ∨ r.kind = .missedWrite)
  clicks : s.clicks ≤ t.clicks
  now : t.now = s.now

/-- For `rfl`: an update of other fields. -/
theorem LogStill.of_eq {s t : State} (h1 : t.log = s.log) (h2 : t.clicks = s.clicks) (h3 : t.now = s.now)
    (h4 : t.rd.track = s.rd.track) : LogStill s t := ⟨h1, h2.ge, h3, h4⟩

theorem LogStill.rfl {s : State} : LogStill s s := .of_eq (Eq.refl _) (Eq.refl _) (Eq.refl _) (Eq.refl _)

theorem LogStill.trans {s t u : State} (a : LogStill s t) (b : LogStill t u) : LogStill s u :=
  ⟨b.log.trans a.log, a.clicks.trans b.clicks, b.now.trans a.now, b.track.trans a.track⟩

theorem LogGrows.of_eq {s t : State} (hlog : t.log = s.log) (hclicks : s.clicks ≤ t.clicks) (hnow : t.now = s.now) :
    LogGrows s t := ⟨⟨[], by simp [hlog], by simp⟩, hclicks, hnow⟩

theorem LogGrows.rfl {s : State} : LogGrows s s := .of_eq (Eq.refl _) (Nat.le_refl _) (Eq.refl _)

theorem LogStill.grows {s t : State} (h : LogStill s t) : LogGrows s t := .of_eq h.log h.clicks h.now

theorem LogGrows.trans {s t u : State} (a : LogGrows s t) (b : LogGrows t u) : LogGrows s u := by
  obtain ⟨x, hx, kx⟩ := a.log
  obtain ⟨y, hy, ky⟩ := b.log
  refine ⟨⟨x ++ y, by rw [hy, hx, List.append_assoc], fun r hr => ?_⟩, a.clicks.trans b.clicks, b.now.trans a.now⟩
  rcases List.mem_append.mp hr with hr | hr
  · exact kx r hr
  · exact a.now ▸ ky r hr

theorem logError_grows {k : ErrorKind} (hk : k = .underrun ∨ k = .missedWrite) (s : State) :
    LogGrows s (logError k s) :=
  ⟨⟨[⟨k, s.now⟩], Eq.refl _, by simpa using hk⟩, Nat.le_refl _, Eq.refl _⟩

/-! ## Guarded writes and the boundary -/

theorem setRdState_logStill (n : RingState) (s : State) : LogStill s (setRdState n s) := by
  unfold setRdState
  split
  · exact .rfl
  split <;> exact .of_eq rfl rfl rfl rfl

theorem setWrState_logStill (n : RingState) (s : State) : LogStill s (setWrState n s) := by
  unfold setWrState
  split
  · exact .rfl
  split <;> exact .of_eq rfl rfl rfl rfl

theorem boundary_logStill (s : State) : LogStill s (boundary s) := by
  refine .of_eq ?_ ?_ ?_ ?_ <;> rw [boundary_toArch] <;> split <;> rfl

theorem returning_logStill (r : Returned) (s : State) : LogStill s (returning r s) := .of_eq rfl rfl rfl rfl

theorem askSeek_logStill (k : Track) (p : Option Int) (s : State) : LogStill s (askSeek k p s) :=
  .of_eq rfl rfl rfl rfl

/-! ## What may stand at a preemption point -/

theorem stepPulse_logStill (d : Bool) (s : State) : LogStill s (stepPulse d s) := by
  unfold stepPulse; split <;> exact .of_eq rfl rfl rfl rfl

theorem stepSoftirq_logStill (s : State) : LogStill s (stepSoftirq s) := by
  unfold stepSoftirq; dsimp only; split <;> exact .of_eq rfl rfl rfl rfl

theorem idxFire_logStill (s : State) : LogStill s (idxFire s) := by
  unfold idxFire indexAssert indexDeassert; dsimp only
  split
  · split <;> exact .of_eq rfl rfl rfl rfl
  · exact .of_eq rfl rfl rfl rfl

/-- STEP_FIRE counts a click in Latched, and takes none back. -/
theorem stepFire_logStill (s : State) : LogStill s (stepFire s) := by
  unfold stepFire; dsimp only
  split
  · exact ⟨rfl, Nat.le_succ _, rfl, rfl⟩
  · unfold settlingFire casStep
    split <;> exact .of_eq rfl rfl rfl rfl
  · exact .of_eq rfl rfl rfl rfl
  · exact .of_eq rfl rfl rfl rfl

theorem wrBeat_logStill (s : State) : LogStill s (wrBeat s) := by
  refine .of_eq ?_ ?_ ?_ ?_ <;> rw [wrBeat_toArch]

theorem wdataEdge_logStill (s : State) : LogStill s (wdataEdge s) := by
  unfold wdataEdge; dsimp only
  split
  · split
    · exact .trans (t := { s with wrTim.ccr1 := s.wrTim.cnt, wrDma.req := true }) (.of_eq rfl rfl rfl rfl)
        (wrBeat_logStill _)
    · exact .of_eq rfl rfl rfl rfl
  · exact .rfl

theorem wrService_logStill (s : State) : LogStill s (wrService s) := by
  unfold wrService wrServiceDecode; dsimp only; split <;> exact .of_eq rfl rfl rfl rfl

theorem rdStop_logStill (s : State) : LogStill s (rdStop s) := by
  refine .of_eq ?_ ?_ ?_ ?_ <;> rw [rdStop_toArch, readStopped] <;> split <;> rfl

theorem wgate0_logStill (s : State) : LogStill s (wgate0 s) := by
  unfold wgate0
  split
  · exact .rfl
  split
  · exact .rfl
  · exact (setWrState_logStill .stopping s).trans (.of_eq rfl rfl rfl rfl)

/-- WGATE 1 logs a missed write while the write engine is not Inactive (R164). -/
theorem wgate1_log (s : State) : LogGrows s (wgate1 s) ∧ (wgate1 s).rd.track = s.rd.track := by
  unfold wgate1
  split
  · exact ⟨.rfl, rfl⟩
  split
  · exact ⟨logError_grows (.inr rfl) s, rfl⟩
  · have h := (rdStop_logStill s).trans (setWrState_logStill .starting (rdStop s))
    have hstart : LogStill s (wdataStart s) := h.trans (.of_eq rfl rfl rfl rfl)
    exact ⟨hstart.grows, hstart.track⟩

theorem rdFill_logStill (c : RingIx) (s : State) : LogStill s (rdFill c s) := by
  refine .of_eq ?_ ?_ ?_ ?_ <;> dsimp only [rdFill, askFlux, called]

/-- RD_SERVICE in Active logs an underrun or nothing (R138), and writes to the read ring, the index timer and memory
beside. -/
theorem rdServiceActive_log (s : State) :
    LogGrows s (rdServiceActive s) ∧ (rdServiceActive s).rd.track = s.rd.track := by
  have h1 : LogGrows s (if UnderrunAt s.toArch (rdPos s.toArch) then logError .underrun s else s) ∧
      (if UnderrunAt s.toArch (rdPos s.toArch) then logError .underrun s else s).rd.track = s.rd.track := by
    split
    · exact ⟨logError_grows (.inl rfl) s, rfl⟩
    · exact ⟨.rfl, rfl⟩
  unfold rdServiceActive
  dsimp only
  generalize (if UnderrunAt s.toArch (rdPos s.toArch) then logError .underrun s else s) = u at h1 ⊢
  obtain ⟨hlog, htrack⟩ := h1
  have h2 : LogStill u (rdFill (rdPos s.toArch) { u with rd.cons := rdPos s.toArch }) :=
    .trans (t := { u with rd.cons := rdPos s.toArch }) (.of_eq rfl rfl rfl rfl) (rdFill_logStill _ _)
  generalize rdFill (rdPos s.toArch) { u with rd.cons := rdPos s.toArch } = v at h2 ⊢
  have rest : ∀ x, LogStill v x → LogGrows s x ∧ x.rd.track = s.rd.track := fun x hx =>
    ⟨hlog.trans (h2.trans hx).grows, (h2.trans hx).track.trans htrack⟩
  refine rest _ ?_
  split <;> split <;> exact .of_eq rfl rfl rfl rfl

theorem rdService_log (s : State) : LogGrows s (rdService s) ∧ (rdService s).rd.track = s.rd.track := by
  have key : ∀ u, LogStill s u → LogGrows s (if u.rd.state = .active then rdServiceActive u else u) ∧
      (if u.rd.state = .active then rdServiceActive u else u).rd.track = s.rd.track := fun u hu => by
    split
    · obtain ⟨hlog, htrack⟩ := rdServiceActive_log u
      exact ⟨hu.grows.trans hlog, htrack.trans hu.track⟩
    · exact ⟨hu.grows, hu.track⟩
  exact key { s with irq.rdDma := false, owed.rdService := none } (.of_eq rfl rfl rfl rfl)

theorem runPreempting_log {i : Instr} {s t : State} (h : runPreempting i s = .next t) :
    LogGrows s t ∧ t.rd.track = s.rd.track := by
  have key : ∀ {e : Prop} {_ : Decidable e} {u : State}, attempt s e (.next u) = .next t →
      LogGrows s u ∧ u.rd.track = s.rd.track → LogGrows s t ∧ t.rd.track = s.rd.track := fun ha hu => by
    obtain ⟨-, -, ha⟩ := attempt_eq_next.mp ha
    exact Host.Outcome.next.inj ha ▸ hu
  have still : ∀ {e : Prop} {_ : Decidable e} {u : State}, attempt s e (.next u) = .next t →
      LogStill s u → LogGrows s t ∧ t.rd.track = s.rd.track := fun ha hu => key ha ⟨hu.grows, hu.track⟩
  cases i with
  | step d => exact still h (stepPulse_logStill d s)
  | side b => exact still h (.of_eq rfl rfl rfl rfl)
  | sel b => exact still h (.of_eq rfl rfl rfl rfl)
  | wgate1 => exact key h (wgate1_log s)
  | wgate0 => exact still h (wgate0_logStill s)
  | wdataEdge => exact still h (wdataEdge_logStill s)
  | idxFire => exact still h (idxFire_logStill s)
  | stepFire => exact still h (stepFire_logStill s)
  | rdService => exact key h (rdService_log s)
  | wrService => exact still h (wrService_logStill s)
  | stepSoftirq => exact still h (stepSoftirq_logStill s)
  | tick _ | rdBeat | wrBeat | fgHandle | rdSeek | rdPrefill | rdStart | rdReplenish | rdStop | rdFinish
  | wrActivate | wrPump | wrDrain | init | mount | cancel | changeOutputs _ _ => cases h

/-- What the operations at a preemption point do to the log, all together. -/
theorem preempt_log (l : List Instr) {s t : State} (h : preempt l s = .next t) :
    LogGrows s t ∧ t.rd.track = s.rd.track := by
  induction l generalizing s with
  | nil => exact Host.Outcome.next.inj h ▸ ⟨.rfl, rfl⟩
  | cons i l ih =>
    obtain ⟨u, hu, ht⟩ := andThen_eq_next.mp h
    obtain ⟨hlog, htrack⟩ := runPreempting_log hu
    obtain ⟨hlog', htrack'⟩ := ih ht
    exact ⟨hlog.trans hlog', htrack'.trans htrack⟩

/-! ## The foreground operations -/

theorem rdBeat_logStill {s t : State} (h : rdBeat s = .next t) : LogStill s t := by
  unfold rdBeat at h; dsimp only at h
  split at h
  · cases h
  obtain rfl := Host.Outcome.next.inj h
  refine .of_eq ?_ ?_ ?_ ?_ <;> rw [rdBeatWith_toArch]

theorem rdPrefill_logStill (s : State) : LogStill s (rdPrefill s) :=
  .trans (t := askReadTrack s) (.of_eq rfl rfl rfl rfl) (rdFill_logStill 0 _)

theorem rdStart_logStill {s t : State} (h : rdStart s = .next t) : LogStill s t := by
  unfold rdStart at h
  split at h
  · exact Host.Outcome.next.inj h ▸ .of_eq rfl rfl rfl rfl
  unfold rdStartNow casRd at h
  dsimp only at h
  split at h
  · rw [if_pos rfl, requestRdBeat] at h
    have hset := setRdState_logStill .active { s with fgWait := none, owed.rdStart := none }
    refine .trans ?_ (rdBeat_logStill h)
    exact ⟨hset.log, hset.clicks, hset.now, hset.track⟩
  · exact Host.Outcome.next.inj h ▸ .of_eq rfl rfl rfl rfl

theorem rdReplenish_logStill (s : State) : LogStill s (rdReplenish s) := by
  unfold rdReplenish; dsimp only; split <;> exact .of_eq rfl rfl rfl rfl

theorem rdFinish_logStill (s : State) : LogStill s (rdFinish s) :=
  .trans (t := { s with rd.cons := 0, rd.prod := 0, rdDma.cndtr := capCount, rd.kick := false })
    (.of_eq rfl rfl rfl rfl) (setRdState_logStill .inactive _)

theorem wrDrain_logStill (s : State) : LogStill s (wrDrain s) := by
  unfold wrDrain; dsimp only
  split
  · exact .of_eq rfl rfl rfl rfl
  · refine .trans ?_ (setWrState_logStill .inactive _)
    exact .of_eq rfl rfl rfl rfl

theorem wrActivate_log {s t : State} (h : wrActivate s = .next t) : LogGrows s t := by
  unfold wrActivate at h
  split at h
  · exact Host.Outcome.next.inj h ▸ .of_eq rfl (Nat.le_refl _) rfl
  obtain ⟨u, hu, h⟩ := andThen_eq_next.mp h
  have hpre : LogGrows s u := (askSeek_logStill _ _ s).grows.trans (preempt_log _ hu).1
  split at h
  · exact Host.Outcome.next.inj h ▸ hpre.trans (returning_logStill .retry u).grows
  · obtain rfl := Host.Outcome.next.inj h
    unfold casWr
    split
    · exact hpre.trans (setWrState_logStill .active u).grows
    · exact hpre

theorem seekCommit_log (i : Int) (k : Track) (p : Word) (s : State) : LogGrows s (seekCommit i k p s) :=
  .trans (t := { s with rd.syncTime := syncTimeFor i p s, rd.track := k, rd.lastTsi := 0 })
    (.of_eq rfl (Nat.le_refl _) rfl) (setRdState_logStill .starting _).grows

theorem seekRecheck_logStill (k : Track) (s : State) : LogStill s (seekRecheck k s) := by
  unfold seekRecheck
  split
  · exact setRdState_logStill .stopping s
  · exact .rfl

theorem rdSeek_log {s t : State} (h : rdSeek s = .next t) : LogGrows s t := by
  unfold rdSeek at h
  obtain ⟨u, hu, h⟩ := andThen_eq_next.mp h
  have hpre : LogGrows s u := (askSeek_logStill _ _ s).grows.trans (preempt_log _ hu).1
  split at h
  · exact Host.Outcome.next.inj h ▸ hpre.trans (returning_logStill .retry u).grows
  obtain ⟨v, hv, h⟩ := andThen_eq_next.mp h
  obtain rfl := Host.Outcome.next.inj h
  have hcommit : LogGrows s v := (hpre.trans (seekCommit_log _ _ _ u)).trans (preempt_log _ hv).1
  exact hcommit.trans ((seekRecheck_logStill _ v).trans (returning_logStill .again _)).grows

/-! ## FG_HANDLE -/

theorem ifEnabled_log {s t : State} {e : Prop} {_ : Decidable e} {r : Result} (h : ifEnabled s e r = .next t)
    (hr : ∀ u, r = .next u → LogGrows s u) : LogGrows s t :=
  ifEnabled_inv (P := LogGrows s) .rfl (fun _ => hr t) h

theorem ifEnabled_next_log {s t u : State} {e : Prop} {_ : Decidable e} (h : ifEnabled s e (.next u) = .next t)
    (hu : LogStill s u) : LogGrows s t :=
  ifEnabled_log h fun _ hv => Host.Outcome.next.inj hv ▸ hu.grows

theorem fgWrite_log {s t : State} (h : fgWrite s = .next t) : LogGrows s t := by
  unfold fgWrite at h
  split at h
  · exact ifEnabled_log h fun _ => wrActivate_log
  · exact ifEnabled_next_log h (.of_eq rfl rfl rfl rfl)
  · exact ifEnabled_next_log h (wrDrain_logStill s)
  · exact Host.Outcome.next.inj h ▸ .rfl

theorem fgRead_log {s t : State} (h : fgRead s = .next t) : LogGrows s t := by
  unfold fgRead at h
  split at h
  · exact ifEnabled_log h fun _ => rdSeek_log
  · split at h
    · exact ifEnabled_next_log h (rdStop_logStill s)
    · obtain ⟨u, hu, h⟩ := andThen_eq_next.mp h
      have hfill : LogGrows s u := ifEnabled_next_log hu (rdPrefill_logStill s)
      exact hfill.trans (ifEnabled_log h fun _ hv => (rdStart_logStill hv).grows)
  · split at h
    · exact ifEnabled_next_log h (rdStop_logStill s)
    · exact ifEnabled_next_log h (rdReplenish_logStill s)
  · exact Host.Outcome.next.inj h ▸ .rfl

theorem fgParts_log {s t : State} (h : fgParts s = .next t) : LogGrows s t := by
  unfold fgParts at h
  obtain ⟨u, hu, h⟩ := andThen_eq_next.mp h
  obtain ⟨v, hv, h⟩ := andThen_eq_next.mp h
  obtain ⟨w, hw, h⟩ := andThen_eq_next.mp h
  obtain rfl := Host.Outcome.next.inj h
  have hfinish : LogGrows s u := ifEnabled_next_log hu (rdFinish_logStill s)
  exact ((hfinish.trans (fgWrite_log hv)).trans (fgRead_log hw)).trans (returning_logStill _ w).grows

theorem fgHandle_log {s t : State} (h : fgHandle s = .next t) : LogGrows s t := by
  unfold fgHandle at h
  split at h
  · exact Host.Outcome.next.inj h ▸ (returning_logStill _ s).grows
  split at h
  · exact fgParts_log h
  split at h
  · obtain ⟨u, hu, h⟩ := andThen_eq_next.mp h
    have hstart : LogGrows s u := ifEnabled_log hu fun _ hv => (rdStart_logStill hv).grows
    exact hstart.trans (fgParts_log h)
  · exact Host.Outcome.next.inj h ▸ (returning_logStill _ s).grows

/-! ## MOUNT and CANCEL -/

theorem mountImage_logStill (s : State) : LogStill s (mountImage s) := by
  unfold mountImage
  split
  · unfold mounted; dsimp only; split <;> exact .of_eq rfl rfl rfl rfl
  · exact .of_eq rfl rfl rfl rfl

theorem cancelAll_logStill (s : State) : LogStill s (cancelAll s) := by
  obtain ⟨e, he⟩ := cancelAll_eq s
  rw [he]
  exact .of_eq rfl rfl rfl rfl

/-! ## TICK -/

theorem tickRdTim_logStill {s t : State} (h : tickRdTim s = .next t) : LogStill s t := by
  unfold tickRdTim at h
  split at h
  · exact Host.Outcome.next.inj h ▸ .rfl
  split at h
  · dsimp only at h
    split at h
    · exact .trans (t := { s with rdTim.cnt := 0, rdDma.req := true }) (.of_eq rfl rfl rfl rfl) (rdBeat_logStill h)
    · exact Host.Outcome.next.inj h ▸ .of_eq rfl rfl rfl rfl
  · exact Host.Outcome.next.inj h ▸ .of_eq rfl rfl rfl rfl

theorem tickWrTim_logStill (s : State) : LogStill s (tickWrTim s) := by
  unfold tickWrTim; split <;> exact .of_eq rfl rfl rfl rfl

theorem tickTimers_logStill (s : State) : LogStill s (tickTimers s) := by
  unfold tickTimers
  split
  · have h1 : LogStill s (if IdxFireOwed s.toArch then idxFire s else s) := by
      split
      · exact idxFire_logStill s
      · exact .rfl
    dsimp only
    generalize (if IdxFireOwed s.toArch then idxFire s else s) = u at h1 ⊢
    split
    · exact h1.trans (stepFire_logStill u)
    · exact h1
  · exact .rfl

/-- A tick logs nothing: after the time has moved on, all it does leaves the log. -/
theorem tickStep_log {s t : State} (h : tickStep s = .next t) : LogStill { s with now := s.now + 1 } t := by
  unfold tickStep at h
  split at h
  · cases h
  split at h
  · obtain ⟨u, hu, h⟩ := andThen_eq_next.mp h
    obtain rfl := Host.Outcome.next.inj h
    obtain ⟨v, hv, hu⟩ := andThen_eq_next.mp hu
    obtain rfl := Host.Outcome.next.inj hu
    exact (tickRdTim_logStill hv).trans
      ((tickWrTim_logStill v).trans ((tickTimers_logStill _).trans (boundary_logStill _)))
  · cases h

theorem tickTimes_log (n : Nat) {s t : State} (h : tickTimes n s = .next t) :
    LogStill { s with now := s.now + n } t := by
  induction n generalizing s with
  | zero => exact Host.Outcome.next.inj h ▸ .rfl
  | succ n ih =>
    obtain ⟨u, hu, h⟩ := andThen_eq_next.mp h
    have hfirst := tickStep_log hu
    have hrest := ih h
    exact ⟨hrest.log.trans hfirst.log, hfirst.clicks.trans hrest.clicks,
      hrest.now.trans (by have := hfirst.now; dsimp only at this ⊢; omega), hrest.track.trans hfirst.track⟩

/-! ## Every operation -/

theorem operation_log {s t : State} {e : Prop} {_ : Decidable e} {r : Result} (h : operation s e r = .next t)
    (hr : ∀ u, r = .next u → LogGrows s u) : LogGrows s t := by
  obtain ⟨-, -, -, u, hu, rfl⟩ := operation_eq_next.mp h
  exact (hr u hu).trans (boundary_logStill u).grows

theorem operation_next_log {s t u : State} {e : Prop} {_ : Decidable e} (h : operation s e (.next u) = .next t)
    (hu : LogGrows s u) : LogGrows s t :=
  operation_log h fun _ hv => Host.Outcome.next.inj hv ▸ hu

theorem operation_next_logStill {s t u : State} {e : Prop} {_ : Decidable e} (h : operation s e (.next u) = .next t)
    (hu : LogStill s u) : LogGrows s t :=
  operation_next_log h hu.grows

theorem execTick_log {n : Nat} {s t : State} (h : execTick n s = .next t) :
    LogStill { s with now := s.now + n } t := by
  rw [execTick_eq] at h
  obtain ⟨-, -, -, u, hu, rfl⟩ := operation_eq_next.mp h
  exact (tickTimes_log n hu).trans (boundary_logStill u)

/-- Every operation but TICK, at whose end it is later, and INIT, the reset. -/
theorem exec_log {i : Instr} {s t : State} (h : exec i s = .next t) (htick : ∀ n, i ≠ .tick n) (hinit : i ≠ .init) :
    LogGrows s t := by
  cases i with
  | step d => exact operation_next_logStill h (stepPulse_logStill d s)
  | side b => exact operation_next_logStill h (.of_eq rfl rfl rfl rfl)
  | sel b => exact operation_next_logStill h (.of_eq rfl rfl rfl rfl)
  | wgate1 => exact operation_next_log h (wgate1_log s).1
  | wgate0 => exact operation_next_logStill h (wgate0_logStill s)
  | wdataEdge => exact operation_next_logStill h (wdataEdge_logStill s)
  | tick n => exact absurd rfl (htick n)
  | rdBeat => exact operation_log h fun _ hu => (rdBeat_logStill hu).grows
  | wrBeat => exact operation_next_logStill h (wrBeat_logStill s)
  | idxFire => exact operation_next_logStill h (idxFire_logStill s)
  | stepFire => exact operation_next_logStill h (stepFire_logStill s)
  | rdService => exact operation_next_log h (rdService_log s).1
  | wrService => exact operation_next_logStill h (wrService_logStill s)
  | stepSoftirq => exact operation_next_logStill h (stepSoftirq_logStill s)
  | fgHandle => exact operation_log h fun _ => fgHandle_log
  | rdSeek => exact operation_log h fun _ => rdSeek_log
  | rdPrefill => exact operation_next_logStill h (rdPrefill_logStill s)
  | rdStart => exact operation_log h fun _ hu => (rdStart_logStill hu).grows
  | rdReplenish => exact operation_next_logStill h (rdReplenish_logStill s)
  | rdStop => exact operation_next_logStill h (rdStop_logStill s)
  | rdFinish => exact operation_next_logStill h (rdFinish_logStill s)
  | wrActivate => exact operation_log h fun _ => wrActivate_log
  | wrPump => exact operation_next_logStill h (.of_eq rfl rfl rfl rfl)
  | wrDrain => exact operation_next_logStill h (wrDrain_logStill s)
  | init => exact absurd rfl hinit
  | mount => exact operation_next_logStill h (mountImage_logStill s)
  | cancel => exact operation_next_logStill h (cancelAll_logStill s)
  | changeOutputs m v => exact operation_next_logStill h (.of_eq rfl rfl rfl rfl)

/-- Settles O54: a TICK leaves the log, every other operation appends records of a time it does not move. -/
theorem logOnlyGrows : Obligations.LogOnlyGrows := by
  unfold Obligations.LogOnlyGrows
  intro i s t h hinit
  by_cases htick : ∃ n, i = .tick n
  · obtain ⟨n, rfl⟩ := htick
    have hstill := execTick_log h
    exact ⟨hstill.clicks, [], by simpa using hstill.log, by simp⟩
  · have hgrows := exec_log h (fun n hn => htick ⟨n, hn⟩) hinit
    exact ⟨hgrows.clicks, hgrows.log⟩

end Sys2Proof.Machine
end

section
/-! RD_SEEK and the step machine (R45): what the re-check after P2 leaves in Starting, and that a STEP heard at either
preemption point sends the read to Stopping. -/

namespace Sys2Proof.Machine

/-! ## The shape of RD_SEEK -/

theorem seekCommit_of_inactive {i : Int} {k : Track} {p : Word} {s : State} (h : s.rd.state = .inactive) :
    seekCommit i k p s =
      { s with rd := { s.rd with state := .starting, syncTime := syncTimeFor i p s, track := k, lastTsi := 0 } } :=
  setRdState_legal (by change s.rd.state.canBecome .starting = true; rw [h]; rfl)

/-- What RD_SEEK answers, by its two preemption points: busy after P1, or the commit and the re-check after P2. -/
theorem rdSeek_eq_next {s t : State} : rdSeek s = .next t ↔
    ∃ u, preempt s.env.note.atP1 (askSeek (trackOf s.drive) (some (syncPosition s.index.prevTime s)) s) = .next u ∧
      (((seekAnswer s).1 = true ∧ t = returning .retry u) ∨
        ((seekAnswer s).1 = false ∧
          ∃ v, preempt u.env.note.atP2 (seekCommit s.index.prevTime (trackOf s.drive) (seekAnswer s).2 u) = .next v ∧
            t = returning .again (seekRecheck (trackOf s.drive) v))) := by
  unfold rdSeek
  rw [andThen_eq_next]
  refine exists_congr fun u => and_congr_right fun _ => ?_
  cases hbusy : (seekAnswer s).1
  · simp [andThen_eq_next, barrier, eq_comm (a := t)]
  · simp [eq_comm (a := t)]

/-- The re-check leaves Starting only with no step active, on the track, and with no write begun. -/
theorem seekRecheck_starting {k : Track} {s : State} (hs : s.rd.state = .starting ∨ s.rd.state = .stopping)
    (h : (seekRecheck k s).rd.state = .starting) :
    seekRecheck k s = s ∧ ¬ StepActive s.toArch ∧ trackOf s.drive = k ∧ s.wr.state = .inactive := by
  unfold seekRecheck at h ⊢
  split at h
  · have hstop : (setRdState .stopping s).rd.state = .stopping := by
      rcases hs with hs | hs
      · exact setRdState_done (by rw [hs]; rfl)
      · rw [setRdState_same hs, hs]
    exact absurd (hstop.symm.trans h) nofun
  · next hclear =>
    rw [if_neg hclear]
    simp only [not_or, ne_eq, not_not] at hclear
    obtain ⟨hstep, htrack, hwr⟩ := hclear
    exact ⟨rfl, by simpa using hstep, htrack, hwr⟩

/-- If RD_SEEK leaves Starting, nothing has come in between: the re-check found no step, no other track, no write. -/
theorem rdSeek_starting {s t : State} (hr : s.rd.state = .inactive) (h : rdSeek s = .next t)
    (ht : t.rd.state = .starting) :
    ¬ StepActive t.toArch ∧ trackOf t.drive = t.rd.track ∧ t.wr.state = .inactive := by
  obtain ⟨u, hu, h⟩ := rdSeek_eq_next.mp h
  have hru : u.rd.state = .inactive := by
    rcases (preempt_moves _ hu).read with hsame | ⟨-, hrun, -⟩
    · exact hsame.trans hr
    · rcases hrun with hrun | hrun <;> exact absurd (hr.symm.trans hrun) nofun
  rcases h with ⟨-, rfl⟩ | ⟨-, v, hv, rfl⟩
  · exact absurd (hru.symm.trans ht) nofun
  · rw [seekCommit_of_inactive hru] at hv
    have hrv : v.rd.state = .starting ∨ v.rd.state = .stopping := (preempt_moves _ hv).read.imp id And.left
    have htrack : v.rd.track = trackOf s.drive := (preempt_log _ hv).2
    obtain ⟨heq, hstep, hk, hw⟩ := seekRecheck_starting hrv ht
    change ¬ StepActive (seekRecheck _ v).toArch ∧ trackOf (seekRecheck _ v).drive = (seekRecheck _ v).rd.track ∧
      (seekRecheck _ v).wr.state = .inactive
    rw [heq]
    exact ⟨hstep, hk.trans htrack.symm, hw⟩

/-! ## A STEP heard at a preemption point -/

theorem stepPulse_heard (d : Bool) {s : State} (h : InputsHeard s) : stepPulse d s =
    pendStep { s with stepper.inward := d, stepper.start := s.now, stepper.state := .started } := by
  unfold stepPulse
  rw [if_neg (not_not_intro h)]

theorem preempt_step (d : Bool) {s : State} (hf : s.fault = none) : preempt [.step d] s = .next (stepPulse d s) := by
  have hone : runPreempting (.step d) s = .next (stepPulse d s) := attempt_eq_next.mpr ⟨hf, trivial, rfl⟩
  rw [preempt, hone]
  rfl

theorem seekRecheck_of_step {k : Track} {s : State} (hstep : StepActive s.toArch) (hr : s.rd.state = .starting) :
    seekRecheck k s = { s with rd.state := .stopping } := by
  unfold seekRecheck
  rw [if_pos (.inl hstep), setRdState_legal (by rw [hr]; rfl)]

/-- A STEP heard at P1 or at P2 ends RD_SEEK in Stopping, the pulse waiting for its soft IRQ. -/
theorem rdSeek_step {s : State} {d : Bool} (hf : s.fault = none) (he : RdSeekEnabled s.toArch) (hh : InputsHeard s)
    (hbusy : (seekAnswer s).1 = false)
    (hat : (s.env.note.atP1 = [.step d] ∧ s.env.note.atP2 = []) ∨
      (s.env.note.atP1 = [] ∧ s.env.note.atP2 = [.step d])) :
    ∃ t, rdSeek s = .next t ∧ t.rd.state = .stopping ∧ t.wr.state = .inactive ∧ t.stepper.state = .started ∧
      t.irq.stepSoft = true := by
  obtain ⟨-, hr, hw, -⟩ := he
  suffices hv : ∃ u v, preempt s.env.note.atP1
        (askSeek (trackOf s.drive) (some (syncPosition s.index.prevTime s)) s) = .next u ∧
      preempt u.env.note.atP2 (seekCommit s.index.prevTime (trackOf s.drive) (seekAnswer s).2 u) = .next v ∧
      v.rd.state = .starting ∧ v.wr.state = .inactive ∧ v.stepper.state = .started ∧ v.irq.stepSoft = true by
    obtain ⟨u, v, hu, hv, hrv, hwv, hsv, hiv⟩ := hv
    refine ⟨_, rdSeek_eq_next.mpr ⟨u, hu, .inr ⟨hbusy, v, hv, rfl⟩⟩, ?_⟩
    rw [seekRecheck_of_step (.inl hsv) hrv]
    exact ⟨rfl, hwv, hsv, hiv⟩
  obtain ⟨s', hs'⟩ : ∃ s', s' = askSeek (trackOf s.drive) (some (syncPosition s.index.prevTime s)) s := ⟨_, rfl⟩
  have hr' : s'.rd.state = .inactive := hs' ▸ hr
  have hw' : s'.wr.state = .inactive := hs' ▸ hw
  have hf' : s'.fault = none := hs' ▸ hf
  have hh' : InputsHeard s' := hs' ▸ hh
  have hP2 : s'.env.note.atP2 = s.env.note.atP2 := by rw [hs', askSeek_atP2]
  rw [← hs']
  rcases hat with ⟨h1, h2⟩ | ⟨h1, h2⟩
  · have hstill := stepPulse_still d s'
    refine ⟨stepPulse d s', seekCommit s.index.prevTime (trackOf s.drive) (seekAnswer s).2 (stepPulse d s'),
      by rw [h1, preempt_step d hf'], ?_⟩
    rw [hstill.atP2, hP2, h2, seekCommit_of_inactive (hstill.rd.trans hr'), stepPulse_heard d hh']
    exact ⟨rfl, rfl, hw', rfl, rfl⟩
  · refine ⟨s', stepPulse d (seekCommit s.index.prevTime (trackOf s.drive) (seekAnswer s).2 s'),
      by rw [h1, preempt], ?_⟩
    rw [hP2, h2, seekCommit_of_inactive hr', preempt_step, stepPulse_heard]
    · exact ⟨rfl, rfl, hw', rfl, rfl⟩
    · exact hh'
    · exact hf'

/-- Settles O25: by the re-check after P2, which every state RD_SEEK leaves in Starting has passed, and which no state
with a step active passes. -/
theorem readSeekNeverStartsWhileStepping : Obligations.ReadSeekNeverStartsWhileStepping := by
  unfold Obligations.ReadSeekNeverStartsWhileStepping
  refine ⟨fun s t h ht => ?_, fun s d ⟨hc, hf, _⟩ he hh hbusy hat => ?_⟩
  · obtain ⟨-, -, ⟨-, hr, -⟩, u, hu, rfl⟩ := operation_eq_next.mp h
    rw [(boundary_still u).rd] at ht
    obtain ⟨hstep, htrack, hw⟩ := rdSeek_starting hr hu ht
    rw [boundary_of_clear (not_Overlap_of_write hw)]
    rw [not_or] at hstep
    exact ⟨hstep.1, hstep.2, htrack, hw⟩
  · obtain ⟨t, ht, hr, hw, hs, hi⟩ := rdSeek_step hf he hh hbusy hat
    refine ⟨boundary t, operation_eq_next.mpr ⟨hc, hf, he, t, ht, rfl⟩, ?_⟩
    rw [boundary_of_clear (not_Overlap_of_write hw)]
    exact ⟨hr, hs, hi⟩

end Sys2Proof.Machine
end

section
/-! The MFM stream over the bytes of write_mfm.buf (R62, R89): a bit of a word is a bit of one of its four bytes, and
the words' bytes, one after another, are the ring the stream runs through. -/

namespace Sys2Proof.Machine

/-- Bit `k` of a word, counted from the most significant one, is bit `k mod 8` of byte `k / 8`, counted the same way. -/
theorem Memory.getLsbD_mfmWord (m : Memory) (words w : Nat) {k : Nat} (hk : k < 32) :
    (m.mfmWord words w).getLsbD (31 - k) = (m.mfmByte (4 * (w % words) + k / 8)).getLsbD (7 - k % 8) := by
  simp only [Memory.mfmWord, BitVec.getLsbD_append]
  obtain h | h | h | h : k / 8 = 0 ∨ k / 8 = 1 ∨ k / 8 = 2 ∨ k / 8 = 3 := by omega
  · rw [if_neg (by omega), if_neg (by omega), if_neg (by omega), h, show 31 - k - 8 - 8 - 8 = 7 - k % 8 by omega,
      Nat.add_zero]
  · rw [if_neg (by omega), if_neg (by omega), if_pos (by omega), h, show 31 - k - 8 - 8 = 7 - k % 8 by omega]
  · rw [if_neg (by omega), if_pos (by omega), h, show 31 - k - 8 = 7 - k % 8 by omega]
  · rw [if_pos (by omega), h, show 31 - k = 7 - k % 8 by omega]

/-- Byte `p / 8` of the ring of `4 * words` bytes is byte `p mod 32 / 8` of word `p / 32` of the ring of words. -/
theorem mfmRing_byte_eq (words p : Nat) : p / 8 % (4 * words) = 4 * (p / 32 % words) + p % 32 / 8 := by
  have hbyte : p / 8 % 4 = p % 32 / 8 := by omega
  rw [Nat.mod_mul, Nat.div_div_eq_div_mul, hbyte, Nat.add_comm]

/-- A bit of the stream, read from the byte that holds it. -/
theorem Memory.mfmBit_eq_mfmByte (m : Memory) (words p : Nat) :
    m.mfmBit words p = (m.mfmByte (p / 8 % (4 * words))).getLsbD (7 - p % 8) := by
  have hbit : p % 32 % 8 = p % 8 := Nat.mod_mod_of_dvd p (by decide)
  rw [Memory.mfmBit, m.getLsbD_mfmWord words _ (Nat.mod_lt p (by decide)), mfmRing_byte_eq, hbit]

/-- Settles O38: a store is read back byte by byte, and a bit of the stream is found through the byte that holds it. -/
theorem mfmWordsAreBigEndian : Obligations.MfmWordsAreBigEndian := by
  unfold Obligations.MfmWordsAreBigEndian
  intro m words w v _ a
  have hstored {j : Nat} (hj : j < 4) := m.mfmByte_putMfm_same words w v hj
  exact ⟨hstored (j := 0) (by decide), hstored (j := 1) (by decide), hstored (j := 2) (by decide),
    hstored (j := 3) (by decide), m.mfmWord_putMfm_same words w v, fun _ hb => m.mfmByte_putMfm_other words w v hb,
    fun p => ⟨rfl, m.mfmBit_eq_mfmByte words p⟩⟩

end Sys2Proof.Machine
end

section
/-! Words that name no operation (R93): what the decoder says of them, and the step. -/

namespace Sys2Proof.Machine

/-- A row of the map has the opcode byte of `w`. -/
theorem opcode_known_iff (w : Word) : opcodeRows.any (fun r => opField r.matched == opField w) = true ↔
    opField w ∈ opcodeRows.map (fun r => opField r.matched) := by
  rw [List.any_eq_true, List.mem_map]
  simp only [beq_iff_eq]

/-- A word that fits no row is told apart by its opcode byte (R93). -/
theorem decode_of_no_row {w : Word} (h : ∀ r ∈ opcodeRows, r.fits w = false) :
    decode w = .error (if opField w ∈ opcodeRows.map (fun r => opField r.matched) then .reservedBits (opField w)
      else .unknownOpcode (opField w)) := by
  have hnone : opcodeRows.find? (·.fits w) = none :=
    List.find?_eq_none.mpr fun r hr => Bool.not_eq_true _ ▸ h r hr
  rw [decode, hnone]
  by_cases hknown : opField w ∈ opcodeRows.map (fun r => opField r.matched)
  · exact (if_pos ((opcode_known_iff w).mpr hknown)).trans (by rw [if_pos hknown])
  · exact (if_neg (mt (opcode_known_iff w).mp hknown)).trans (by rw [if_neg hknown])

theorem step_of_decode_error {s : State} {e : Event} {rest : List Event} {r : DecodeError}
    (htrace : s.env.trace = e :: rest) (hdecode : decode e.word = .error r) :
    step s = .refused (.undecodable r) := by
  simp only [step, htrace, hdecode]

/-- Settles O4: the search of the map finds no row, and the step refuses with the name the decoder gives. -/
theorem unknownWordsRefused : Obligations.UnknownWordsRefused := by
  unfold Obligations.UnknownWordsRefused
  intro w h
  have hdecode := decode_of_no_row h
  refine ⟨hdecode, fun s e rest htrace hword => ⟨_, hdecode, ?_⟩⟩
  subst hword
  exact step_of_decode_error htrace hdecode

end Sys2Proof.Machine
end

section
/-! What a state is given from outside, the parameters (R43, log 1) and the trace (R80, log 7): no operation touches
either, INIT included, so a step takes exactly the event it runs. -/

namespace Sys2Proof.Machine

/-- What no operation writes: the parameters and the events still to come. -/
def State.given (s : State) : Config × List Event := (s.cfg, s.env.trace)

/-- Where the operation answers a next state, that state is given `g`. -/
def GivenAfter (g : Config × List Event) : Result → Prop
  | .next t => t.given = g
  | .fault _ | .refused _ => True

theorem given_eq_iff {s t : State} : t.given = s.given ↔ t.cfg = s.cfg ∧ t.env.trace = s.env.trace := Prod.ext_iff

theorem given_of_env {s t : State} (henv : t.env = s.env) (hcfg : t.cfg = s.cfg) : t.given = s.given :=
  given_eq_iff.mpr ⟨hcfg, by rw [henv]⟩

/-! ## Sequencing and the frame of an operation -/

theorem GivenAfter.of_next {g : Config × List Event} {r : Result} {t : State} (h : GivenAfter g r) (hr : r = .next t) :
    t.given = g := by
  rwa [hr] at h

theorem GivenAfter.after {g : Config × List Event} {r : Result} {u : State} (h : GivenAfter u.given r)
    (hu : u.given = g) : GivenAfter g r := hu ▸ h

theorem GivenAfter.andThen {g : Config × List Event} {r : Result} {f : State → Result} (hr : GivenAfter g r)
    (hf : ∀ u, GivenAfter u.given (f u)) : GivenAfter g (andThen r f) := by
  cases r with
  | next u => exact (hf u).after hr
  | fault _ => trivial
  | refused _ => trivial

theorem GivenAfter.ite {g : Config × List Event} {c : Prop} {_ : Decidable c} {r q : Result} (hr : GivenAfter g r)
    (hq : GivenAfter g q) : GivenAfter g (if c then r else q) := by
  split
  · exact hr
  · exact hq

theorem given_ite {g : Config × List Event} {c : Prop} {_ : Decidable c} {s t : State} (hs : s.given = g)
    (ht : t.given = g) : (if c then s else t).given = g := by
  split
  · exact hs
  · exact ht

theorem boundary_given (s : State) : (boundary s).given = s.given :=
  given_of_env (boundary_env s) (boundary_cfg s)

theorem GivenAfter.operation {s : State} {e : Prop} {_ : Decidable e} {r : Result} (h : GivenAfter s.given r) :
    GivenAfter s.given (operation s e r) :=
  .ite trivial (.ite trivial (.ite (h.andThen boundary_given) trivial))

theorem GivenAfter.attempt {s : State} {e : Prop} {_ : Decidable e} {r : Result} (h : GivenAfter s.given r) :
    GivenAfter s.given (attempt s e r) :=
  .ite trivial (.ite h trivial)

theorem GivenAfter.ifEnabled {s : State} {e : Prop} {_ : Decidable e} {r : Result} (h : GivenAfter s.given r) :
    GivenAfter s.given (ifEnabled s e r) :=
  .ite h rfl

/-! ## Guarded writes -/

theorem setRdState_given (n : RingState) (s : State) : (setRdState n s).given = s.given :=
  given_ite rfl (given_ite rfl rfl)

theorem setWrState_given (n : RingState) (s : State) : (setWrState n s).given = s.given :=
  given_ite rfl (given_ite rfl rfl)

/-! ## What may stand at a preemption point -/

theorem stepPulse_given (d : Bool) (s : State) : (stepPulse d s).given = s.given := given_ite rfl rfl

theorem stepSoftirq_given (s : State) : (stepSoftirq s).given = s.given := given_ite rfl rfl

theorem idxFire_given (s : State) : (idxFire s).given = s.given := by
  obtain ⟨hcfg, henv, -⟩ := idxFire_keeps s
  exact given_of_env henv hcfg

theorem stepFire_given (s : State) : (stepFire s).given = s.given := by
  obtain ⟨hcfg, henv⟩ := stepFire_keeps s
  exact given_of_env henv hcfg

theorem wrBeat_given (s : State) : (wrBeat s).given = s.given := by
  obtain ⟨henv, hcfg⟩ := wrBeat_env s
  exact given_of_env henv hcfg

theorem wdataEdge_given (s : State) : (wdataEdge s).given = s.given :=
  given_ite (given_ite (wrBeat_given { s with wrTim.ccr1 := s.wrTim.cnt, wrDma.req := true }) rfl) rfl

theorem wrService_given (s : State) : (wrService s).given = s.given := by
  unfold wrService wrServiceDecode
  dsimp only
  split <;> exact given_of_env rfl rfl

theorem rdStop_given (s : State) : (rdStop s).given = s.given := by
  obtain ⟨henv, hcfg⟩ := rdStop_env s
  exact given_of_env henv hcfg

theorem wgate0_given (s : State) : (wgate0 s).given = s.given :=
  given_ite rfl (given_ite rfl (setWrState_given .stopping s))

theorem wgate1_given (s : State) : (wgate1 s).given = s.given :=
  given_ite rfl (given_ite rfl ((setWrState_given .starting (rdStop s)).trans (rdStop_given s)))

/-- The fill of RD_SERVICE, which first takes over the DMA position as `cons` (R136). -/
theorem rdFill_from_given (c : RingIx) (s : State) : (rdFill c { s with rd.cons := c }).given = s.given := rfl

theorem rdServiceActive_given (s : State) : (rdServiceActive s).given = s.given := by
  have hunderrun : (if UnderrunAt s.toArch (rdPos s.toArch) then logError .underrun s else s).given = s.given :=
    given_ite rfl rfl
  unfold rdServiceActive
  dsimp only
  generalize (if UnderrunAt s.toArch (rdPos s.toArch) then logError .underrun s else s) = u at hunderrun ⊢
  have hfill : (rdFill (rdPos s.toArch) { u with rd.cons := rdPos s.toArch }).given = s.given :=
    (rdFill_from_given _ u).trans hunderrun
  generalize rdFill (rdPos s.toArch) { u with rd.cons := rdPos s.toArch } = v at hfill ⊢
  split <;> split <;> exact hfill

theorem rdService_given (s : State) : (rdService s).given = s.given :=
  given_ite (rdServiceActive_given { s with irq.rdDma := false, owed.rdService := none }) rfl

theorem runPreempting_given (i : Instr) (s : State) : GivenAfter s.given (runPreempting i s) := by
  cases i with
  | step d => exact .attempt (stepPulse_given d s)
  | side b => exact .attempt rfl
  | sel b => exact .attempt rfl
  | wgate1 => exact .attempt (wgate1_given s)
  | wgate0 => exact .attempt (wgate0_given s)
  | wdataEdge => exact .attempt (wdataEdge_given s)
  | idxFire => exact .attempt (idxFire_given s)
  | stepFire => exact .attempt (stepFire_given s)
  | rdService => exact .attempt (rdService_given s)
  | wrService => exact .attempt (wrService_given s)
  | stepSoftirq => exact .attempt (stepSoftirq_given s)
  | tick _ | rdBeat | wrBeat | fgHandle | rdSeek | rdPrefill | rdStart | rdReplenish | rdStop | rdFinish
  | wrActivate | wrPump | wrDrain | init | mount | cancel | changeOutputs _ _ => trivial

theorem preempt_given (l : List Instr) (s : State) : GivenAfter s.given (preempt l s) := by
  induction l generalizing s with
  | nil => rfl
  | cons i l ih => exact (runPreempting_given i s).andThen ih

/-! ## The foreground operations -/

theorem rdBeat_given (s : State) : GivenAfter s.given (rdBeat s) := by
  obtain ⟨henv, hcfg⟩ := rdBeatWith_env (s.mem.rdEntry (rdPos s.toArch)) s
  exact .ite trivial (given_of_env henv hcfg)

theorem rdPrefill_given (s : State) : (rdPrefill s).given = s.given := rfl

theorem rdStartNow_given (s : State) : GivenAfter s.given (rdStartNow s) := by
  unfold rdStartNow casRd
  dsimp only
  split
  · rw [if_pos rfl, requestRdBeat]
    exact (rdBeat_given _).after (setRdState_given .active { s with fgWait := none, owed.rdStart := none })
  · rfl

theorem rdStart_given (s : State) : GivenAfter s.given (rdStart s) := .ite rfl (rdStartNow_given s)

theorem rdReplenish_given (s : State) : (rdReplenish s).given = s.given := given_ite rfl rfl

theorem rdFinish_given (s : State) : (rdFinish s).given = s.given := setRdState_given .inactive _

theorem wrDrain_given (s : State) : (wrDrain s).given = s.given := given_ite rfl (setWrState_given .inactive _)

theorem casWr_given (old new : RingState) (s : State) : (casWr old new s).2.given = s.given := by
  unfold casWr
  split
  · exact setWrState_given new s
  · rfl

theorem wrActivate_given (s : State) : GivenAfter s.given (wrActivate s) :=
  .ite rfl (.andThen (preempt_given s.env.note.atP1 (askSeek (trackOf s.drive) none s)) fun u =>
    .ite rfl (casWr_given .starting .active u))

theorem seekCommit_given (i : Int) (k : Track) (p : Word) (s : State) : (seekCommit i k p s).given = s.given :=
  setRdState_given .starting _

theorem seekRecheck_given (k : Track) (s : State) : (seekRecheck k s).given = s.given :=
  given_ite (setRdState_given .stopping s) rfl

theorem rdSeek_given (s : State) : GivenAfter s.given (rdSeek s) := by
  refine .andThen (preempt_given s.env.note.atP1 (askSeek (trackOf s.drive) _ s)) fun u => .ite rfl ?_
  have hcommit := seekCommit_given s.index.prevTime (trackOf s.drive) (seekAnswer s).2 u
  exact ((preempt_given _ _).after hcommit).andThen fun v => seekRecheck_given _ v

/-! ## FG_HANDLE -/

theorem fgWrite_given (s : State) : GivenAfter s.given (fgWrite s) := by
  unfold fgWrite
  split
  · exact .ifEnabled (wrActivate_given s)
  · exact .ifEnabled rfl
  · exact .ifEnabled (wrDrain_given s)
  · rfl

theorem fgRead_given (s : State) : GivenAfter s.given (fgRead s) := by
  unfold fgRead
  split
  · exact .ifEnabled (rdSeek_given s)
  · have hfill : GivenAfter s.given (ifEnabled s (RdPrefillEnabled s) (.next (rdPrefill s))) :=
      .ifEnabled (rdPrefill_given s)
    exact .ite (.ifEnabled (rdStop_given s)) (hfill.andThen fun u => .ifEnabled (rdStart_given u))
  · exact .ite (.ifEnabled (rdStop_given s)) (.ifEnabled (rdReplenish_given s))
  · rfl

theorem fgParts_given (s : State) : GivenAfter s.given (fgParts s) := by
  have hfinish : GivenAfter s.given (ifEnabled s (RdFinishEnabled s.toArch) (.next (rdFinish s))) :=
    .ifEnabled (rdFinish_given s)
  exact hfinish.andThen fun u => (fgWrite_given u).andThen fun v => (fgRead_given v).andThen fun _ => rfl

theorem fgHandle_given (s : State) : GivenAfter s.given (fgHandle s) := by
  have hstart : GivenAfter s.given (ifEnabled s (RdStartEnabled s) (rdStart s)) := .ifEnabled (rdStart_given s)
  exact .ite rfl (.ite (fgParts_given s) (.ite (hstart.andThen fgParts_given) rfl))

/-! ## MOUNT and CANCEL -/

theorem mounted_given (s : State) : (mounted s).given = s.given := by
  unfold mounted
  dsimp only
  split <;> rfl

theorem mountImage_given (s : State) : (mountImage s).given = s.given := given_ite (mounted_given (askOpen s)) rfl

theorem cancelRead_given (s : State) : (cancelRead s).given = s.given := by
  rw [cancelRead_eq]
  rfl

theorem cancelWrite_given (s : State) : (cancelWrite s).given = s.given := by
  have hstop : (if s.wr.state = .starting ∨ s.wr.state = .active then setWrState .stopping s else s).given = s.given :=
    given_ite (setWrState_given .stopping s) rfl
  unfold cancelWrite
  dsimp only
  generalize (if s.wr.state = .starting ∨ s.wr.state = .active then setWrState .stopping s else s) = u at hstop ⊢
  refine (setWrState_given .inactive _).trans ?_
  split <;> exact hstop

theorem cancelAll_given (s : State) : (cancelAll s).given = s.given := by
  unfold cancelAll
  dsimp only
  generalize hstill : { s with
    irq := { rdDma := false, wrDma := false, stepSoft := false, extiEn := false, dmaEn := false }
    index := { s.index with timer := { s.index.timer with armed := false }, active := false } } = u
  have hengines : (cancelWrite (cancelRead u)).given = s.given :=
    (cancelWrite_given _).trans ((cancelRead_given u).trans (hstill ▸ rfl))
  generalize cancelWrite (cancelRead u) = v at hengines ⊢
  exact hengines

/-! ## TICK -/

theorem tickRdTim_given (s : State) : GivenAfter s.given (tickRdTim s) :=
  .ite rfl (.ite (.ite (rdBeat_given { s with rdTim.cnt := 0, rdDma.req := true }) rfl) rfl)

theorem tickWrTim_given (s : State) : (tickWrTim s).given = s.given := given_ite rfl rfl

theorem tickTimers_given (s : State) : (tickTimers s).given = s.given := by
  have hidx : (if IdxFireOwed s.toArch then idxFire s else s).given = s.given := given_ite (idxFire_given s) rfl
  exact given_ite (given_ite ((stepFire_given _).trans hidx) hidx) rfl

theorem tickOne_given (s : State) : GivenAfter s.given (tickOne s) :=
  .andThen (tickRdTim_given { s with now := s.now + 1 }) fun u =>
    (tickTimers_given (tickWrTim u)).trans (tickWrTim_given u)

theorem tickStep_given (s : State) : GivenAfter s.given (tickStep s) :=
  .ite trivial (.ite ((tickOne_given s).andThen boundary_given) trivial)

theorem tickTimes_given (n : Nat) (s : State) : GivenAfter s.given (tickTimes n s) := by
  induction n generalizing s with
  | zero => rfl
  | succ n ih => exact (tickStep_given s).andThen ih

theorem execTick_given (n : Nat) (s : State) : GivenAfter s.given (execTick n s) := by
  rw [execTick_eq]
  exact .operation (tickTimes_given n s)

/-! ## Every operation -/

/-- No operation writes the parameters or the trace. -/
theorem exec_given (i : Instr) (s : State) : GivenAfter s.given (exec i s) := by
  cases i with
  | step d => exact .operation (stepPulse_given d s)
  | side b => exact .operation rfl
  | sel b => exact .operation rfl
  | wgate1 => exact .operation (wgate1_given s)
  | wgate0 => exact .operation (wgate0_given s)
  | wdataEdge => exact .operation (wdataEdge_given s)
  | tick n => exact execTick_given n s
  | rdBeat => exact .operation (rdBeat_given s)
  | wrBeat => exact .operation (wrBeat_given s)
  | idxFire => exact .operation (idxFire_given s)
  | stepFire => exact .operation (stepFire_given s)
  | rdService => exact .operation (rdService_given s)
  | wrService => exact .operation (wrService_given s)
  | stepSoftirq => exact .operation (stepSoftirq_given s)
  | fgHandle => exact .operation (fgHandle_given s)
  | rdSeek => exact .operation (rdSeek_given s)
  | rdPrefill => exact .operation (rdPrefill_given s)
  | rdStart => exact .operation (rdStart_given s)
  | rdReplenish => exact .operation (rdReplenish_given s)
  | rdStop => exact .operation (rdStop_given s)
  | rdFinish => exact .operation (rdFinish_given s)
  | wrActivate => exact .operation (wrActivate_given s)
  | wrPump => exact .operation rfl
  | wrDrain => exact .operation (wrDrain_given s)
  | init => exact .ite rfl trivial
  | mount => exact .operation (mountImage_given s)
  | cancel => exact .operation (cancelAll_given s)
  | changeOutputs m v => exact .operation rfl

/-- Settles O56: a step takes the first event from the trace, and the operation it runs writes neither the rest of it
nor the parameters. -/
theorem stepTakesOneEvent : Obligations.StepTakesOneEvent := by
  unfold Obligations.StepTakesOneEvent
  intro s t h
  obtain ⟨e, rest, i, htrace, -, hexec⟩ := step_eq_next.mp h
  obtain ⟨hcfg, hrest⟩ := given_eq_iff.mp ((exec_given i (s.taking e rest)).of_next hexec)
  exact ⟨e, htrace.trans (congrArg (e :: ·) hrest.symm), hcfg⟩

end Sys2Proof.Machine
end

section
/-! The beats of both DMA channels (R105, R109, R110): RD_BEAT and WR_BEAT alone, and the WR_BEAT that a captured
WDATA_EDGE makes. -/

namespace Sys2Proof.Machine

/-- A store into the write ring as the claims word it: the entry, the other entries, the other memories. -/
theorem Memory.putWr_spec (m : Memory) (i : RingIx) (v : Sample) :
    (m.putWr i v).wrEntry i = v ∧ (∀ j, j ≠ i → (m.putWr i v).wrEntry j = m.wrEntry j) ∧
      SameButWrBuf m (m.putWr i v) := by
  refine ⟨?_, fun j hj => ?_, fun j => m.rdEntry_putWr i j v, fun b => m.mfmByte_putWr i b v⟩
  · rw [Memory.wrEntry_putWr, if_pos rfl]
  · rw [Memory.wrEntry_putWr, if_neg (Ne.symm hj)]

/-! ## WDATA_EDGE (R109) -/

theorem wdataEdge_lost {s : State} (h : ¬ (s.wrTim.en = true ∧ s.wrTim.cc1e = true)) : wdataEdge s = s := if_neg h

theorem wdataEdge_captured {s : State} (hen : s.wrTim.en = true) (hcc : s.wrTim.cc1e = true) : wdataEdge s =
    if s.wrDma.en = true then requestWrBeat { s with wrTim.ccr1 := s.wrTim.cnt }
    else { s with wrTim.ccr1 := s.wrTim.cnt } := if_pos ⟨hen, hcc⟩

theorem wdataEdge_env (s : State) : (wdataEdge s).env = s.env ∧ (wdataEdge s).cfg = s.cfg := by
  unfold wdataEdge
  split
  · dsimp only
    split
    · exact wrBeat_env _
    · exact ⟨rfl, rfl⟩
  · exact ⟨rfl, rfl⟩

/-- WDATA_EDGE always runs, and leaves the ring states. -/
theorem runsTo_wdataEdge {s : State} {a : Arch} (hs : Ready s) (h : (wdataEdge s).toArch = a) :
    RunsTo .wdataEdge s a := by
  have ⟨_, _, hclear⟩ := hs
  obtain ⟨henv, hcfg⟩ := wdataEdge_env s
  exact runsTo_plain rfl hs trivial h (h ▸ (wdataEdge_still s).clear hclear) hcfg henv

/-- Settles O16: an edge that is captured with the channel enabled is a WR_BEAT of the counter just captured. -/
theorem writeDataEdgeRule : Obligations.WriteDataEdgeRule := by
  unfold Obligations.WriteDataEdgeRule
  refine ⟨⟨rfl, rfl, rfl⟩, fun s hs => ⟨fun hlost => ?_, fun hen hcc hoff => ?_, fun hen hcc hon => ?_⟩⟩
  · exact runsTo_wdataEdge hs (by rw [wdataEdge_lost hlost])
  · exact runsTo_wdataEdge hs (by rw [wdataEdge_captured hen hcc, if_neg (by simp [hoff])])
  · refine ⟨s.mem.putWr (wrPos s.toArch) s.wrTim.cnt, runsTo_wdataEdge hs ?_, Memory.putWr_spec _ _ _⟩
    rw [wdataEdge_captured hen hcc, if_pos hon]
    exact wrBeat_toArch _

/-! ## RD_BEAT and WR_BEAT alone (R105, R110) -/

theorem rdBeat_refused {s : State} (h : s.mem.rdEntry (rdPos s.toArch) = 0) : rdBeat s = .refused .zeroFluxSample :=
  if_pos h

theorem rdBeat_loads {s : State} (h : s.mem.rdEntry (rdPos s.toArch) ≠ 0) :
    rdBeat s = .next (rdBeatWith (s.mem.rdEntry (rdPos s.toArch)) s) := if_neg h

/-- Settles O17: RD_BEAT is refused or is the beat of the sample at the DMA position. -/
theorem readBeatRule : Obligations.ReadBeatRule := by
  unfold Obligations.ReadBeatRule
  refine ⟨⟨rfl, rfl, rfl⟩, fun s hc hf he => operation_refused hc hf he, fun s hs htim hdma hreq => ?_⟩
  have ⟨hvalid, hfault, hclear⟩ := hs
  refine ⟨fun hz => ?_, fun hz => ?_⟩
  · change operation s (RdBeatEnabled s.toArch) (rdBeat s) = _
    rw [operation_run hvalid hfault ⟨htim, hdma, hreq⟩, rdBeat_refused hz, andThen_refused]
  · obtain ⟨henv, hcfg⟩ := rdBeatWith_env (s.mem.rdEntry (rdPos s.toArch)) s
    exact runsTo_of rfl hs ⟨htim, hdma, hreq⟩ (rdBeat_loads hz) (rdBeatWith_toArch _ s) hclear hcfg (by rw [henv])
      (by rw [henv, List.append_nil]) (by rw [henv])

/-- Settles O18: WR_BEAT alone is the beat the model's `wrBeat` makes, and its one store is at the DMA position. -/
theorem writeBeatRule : Obligations.WriteBeatRule := by
  unfold Obligations.WriteBeatRule
  refine ⟨⟨rfl, rfl, rfl⟩, fun s hc hf he => operation_refused hc hf he, fun s hs hdma hreq =>
    ⟨s.mem.putWr (wrPos s.toArch) s.wrTim.ccr1, ?_, Memory.putWr_spec _ _ _⟩⟩
  have ⟨_, _, hclear⟩ := hs
  obtain ⟨henv, hcfg⟩ := wrBeat_env s
  exact runsTo_plain rfl hs ⟨hdma, hreq⟩ (wrBeat_toArch s) hclear hcfg henv

end Sys2Proof.Machine
end

section
/-! The time between two update events of the PWM timer (R107) and the pulse on pin_rdata (R108). -/

namespace Sys2Proof.Machine

/-! ## The pulse -/

theorem pinRdata_iff (a : Arch) :
    pinRdata a = true ↔ a.pin = .af ∧ a.rdTim.en = true ∧ a.rdTim.cnt.toNat < a.rdTim.ccr.toNat := by
  simp only [pinRdata, Bool.and_eq_true, decide_eq_true_eq, and_assoc, BitVec.lt_def]

/-- With the pin AF and the timer enabled the pulse shows exactly while the counter is below the compare value. -/
theorem pinRdata_eq {a : Arch} (hpin : a.pin = .af) (hen : a.rdTim.en = true) :
    pinRdata a = decide (a.rdTim.cnt.toNat < a.rdTim.ccr.toNat) := by
  rw [Bool.eq_iff_iff, pinRdata_iff, decide_eq_true_iff]
  exact ⟨fun h => h.2.2, fun h => ⟨hpin, hen, h⟩⟩

/-! ## Ticks before the next update event -/

/-- The block `n` ticks after an update event, if nothing came of them. -/
def countedTo (n : Nat) (a : Arch) : Arch :=
  { a with
    now := a.now + n
    rdTim.cnt := BitVec.ofNat 16 n
    wrTim.cnt := if a.wrTim.en then a.wrTim.cnt + BitVec.ofNat 16 n else a.wrTim.cnt }

/-- The block after the one tick that brings an update event, its beat made. -/
def updateTick (a : Arch) : Arch :=
  { a with
    now := a.now + 1
    rdTim := { a.rdTim with cnt := 0, arr := a.mem.rdEntry (rdPos a) }
    rdDma := channelBeaten a.rdDma
    irq.rdDma := a.irq.rdDma || beatPends a.rdDma
    wrTim.cnt := if a.wrTim.en then a.wrTim.cnt + 1 else a.wrTim.cnt }

/-- The block after all the ticks from one update event to the next. -/
def periodEnded (a : Arch) : Arch :=
  { a with
    now := a.now + a.rdTim.arr.toNat
    rdTim := { a.rdTim with cnt := 0, arr := a.mem.rdEntry (rdPos a) }
    rdDma := channelBeaten a.rdDma
    irq.rdDma := a.irq.rdDma || beatPends a.rdDma
    wrTim.cnt := if a.wrTim.en then a.wrTim.cnt + a.rdTim.arr else a.wrTim.cnt }

theorem pinRdata_countedTo {n : Nat} {a : Arch} (hpin : a.pin = .af) (hen : a.rdTim.en = true) (hn : n < 2 ^ 16) :
    pinRdata (countedTo n a) = decide (n < a.rdTim.ccr.toNat) := by
  have hcnt : (countedTo n a).rdTim.cnt.toNat = n := Nat.mod_eq_of_lt hn
  rw [pinRdata_eq (a := countedTo n a) hpin hen, hcnt]
  rfl

theorem pinRdata_periodEnded {a : Arch} (hpin : a.pin = .af) (hen : a.rdTim.en = true) (hccr : a.rdTim.ccr ≠ 0) :
    pinRdata (periodEnded a) = true :=
  (pinRdata_iff _).mpr ⟨hpin, hen, Nat.pos_of_ne_zero fun h0 => hccr (BitVec.eq_of_toNat_eq h0)⟩

/-- An update event has just come, nothing is owed, and no timer falls due within `k` ticks. -/
structure AfterUpdate (k : Nat) (s : State) : Prop where
  ready : Ready s
  notOwed : ¬ AnyOwed s.toArch
  timer : s.rdTim.en = true
  count : s.rdTim.cnt = 0
  noWait : s.fgWait = none
  index : ¬ s.index.timer.Due (s.now + k)
  stepper : ¬ s.stepper.timer.Due (s.now + k)

theorem AfterUpdate.mono {k n : Nat} {s : State} (h : AfterUpdate n s) (hk : k ≤ n) : AfterUpdate k s :=
  { h with
    index := due_mono (Nat.add_le_add_left hk s.now) h.index
    stepper := due_mono (Nat.add_le_add_left hk s.now) h.stepper }

/-- Fewer ticks than the sample only count. -/
theorem AfterUpdate.tickTimes_eq {n : Nat} {s : State} (h : AfterUpdate n s) (hn : n < s.rdTim.arr.toNat) :
    tickTimes n s = .next (tickQuiet n s) :=
  tickTimes_quiet n (le_quietSpan h.ready h.notOwed h.noWait h.index h.stepper (updateGap_eq h.timer h.count hn) le_rfl)

theorem AfterUpdate.quiet_toArch {n : Nat} {s : State} (h : AfterUpdate n s) :
    (tickQuiet n s).toArch = countedTo n s.toArch := by
  rw [tickQuiet_toArch, if_pos h.timer, h.count]
  simp [countedTo]

theorem AfterUpdate.runsTo {n : Nat} {s : State} (h : AfterUpdate n s) (hn : n < s.rdTim.arr.toNat) :
    RunsTo (.tick n) s (countedTo n s.toArch) := by
  have ⟨_, _, hclear⟩ := h.ready
  exact execTick_runs h.ready (h.tickTimes_eq hn) h.quiet_toArch hclear (tickQuiet_cfg n s) (tickQuiet_env n s)

/-! ## The tick of the update event -/

/-- With nothing owed, a tick that leaves no forbidden pair is what `tickOne` computes, up to the marks of R261. -/
theorem tickStep_of_tickOne {s u : State} (hf : s.fault = none) (ho : ¬ AnyOwed s.toArch) (h : tickOne s = .next u)
    (hu : ¬ Overlap u.toArch) : tickStep s = .next { u with owed := u.owed.update u.toArch } := by
  unfold tickStep
  rw [if_neg (not_not_intro hf), if_pos (tickAllowed_of ho), h, andThen_next, boundary_of_clear hu]

/-- The last tick of the period, after the `n` before it. -/
theorem updateTick_countedTo {n : Nat} {a : Arch} (hn : a.rdTim.arr.toNat = n + 1)
    (hlast : BitVec.ofNat 16 n + 1 = a.rdTim.arr) : updateTick (countedTo n a) = periodEnded a := by
  unfold updateTick countedTo periodEnded
  dsimp only
  rw [hn, ← hlast]
  cases a.wrTim.en
  · rfl
  · simp only [if_true, BitVec.add_assoc, Nat.add_assoc]
    rfl

/-- The tick that completes the sample brings the update event and its beat (R106). -/
theorem AfterUpdate.runsTo_update {s : State} (h : AfterUpdate s.rdTim.arr.toNat s) (harr : s.rdTim.arr ≠ 0)
    (hdma : s.rdDma.en = true) (hz : s.mem.rdEntry (rdPos s.toArch) ≠ 0) :
    RunsTo (.tick s.rdTim.arr.toNat) s (periodEnded s.toArch) := by
  have ⟨_, hfault, hclear⟩ := h.ready
  obtain ⟨n, hn⟩ : ∃ n, s.rdTim.arr.toNat = n + 1 :=
    Nat.exists_eq_succ_of_ne_zero fun h0 => harr (BitVec.eq_of_toNat_eq h0)
  have hlast : BitVec.ofNat 16 n + 1 = s.rdTim.arr := by bv_omega
  have hquiet : AfterUpdate n s := h.mono (by omega)
  have hindex : ¬ s.index.timer.Due (s.now + (n + 1)) := hn ▸ h.index
  have hstepper : ¬ s.stepper.timer.Due (s.now + (n + 1)) := hn ▸ h.stepper
  have harch := hquiet.quiet_toArch
  obtain ⟨u, hu, hua, hcfg, henv⟩ := tickOne_update (v := tickQuiet n s) (by rw [harch]; exact h.timer)
    (by rw [harch]; exact hlast) (by rw [harch]; exact hdma) (by rw [harch]; exact hz)
    (by rw [harch]; exact hindex) (by rw [harch]; exact hstepper)
  have hended : u.toArch = periodEnded s.toArch :=
    hua.trans ((congrArg updateTick harch).trans (updateTick_countedTo hn hlast))
  have hstep := tickStep_of_tickOne (by rw [harch]; exact hfault)
    (notOwed_quiet h.notOwed h.noWait hquiet.index hquiet.stepper) hu (by rw [hended]; exact hclear)
  have hticks := tickTimes_last n (hquiet.tickTimes_eq (by omega))
  rw [← hn, hstep] at hticks
  exact execTick_runs h.ready hticks hended hclear (hcfg.trans (tickQuiet_cfg n s)) (henv.trans (tickQuiet_env n s))

/-- Settles O23: the ticks before the last one of the sample are a quiet stretch, the last brings the update event. -/
theorem readPeriodIsTheSample : Obligations.ReadPeriodIsTheSample := by
  unfold Obligations.ReadPeriodIsTheSample
  refine ⟨pinRdata_iff, fun s hs howed htim hdma hcnt harr hwait hindex hstepper => ?_⟩
  have h : AfterUpdate s.rdTim.arr.toNat s := ⟨hs, howed, htim, hcnt, hwait, hindex, hstepper⟩
  refine ⟨fun n hn => ⟨(h.mono hn.le).runsTo hn, fun hpin => ?_⟩, fun hz => ⟨h.runsTo_update harr hdma hz,
    fun hpin hccr => ?_⟩⟩
  · exact pinRdata_countedTo hpin htim (hn.trans s.rdTim.arr.isLt)
  · exact pinRdata_periodEnded hpin htim hccr

end Sys2Proof.Machine
end

section
/-! Who moves the ring states (R104): the table of transitions as two relations, one per ring, that every operation
keeps; what each operation does to the rings is said by Laws/Moves.lean. -/

namespace Sys2Proof.Machine

/-! ## The relations -/

/-- The read ring goes from `a` to `b` as the table allows the operation `i`. -/
structure ReadNamed (i : Instr) (a b : RingState) : Prop where
  leavesInactive : a = .inactive → b ≠ .inactive → i = .rdSeek ∨ i = .fgHandle
  entersStarting : a ≠ .starting → b = .starting → i = .rdSeek ∨ i = .fgHandle
  entersActive : a ≠ .active → b = .active → i = .rdStart ∨ i = .fgHandle
  entersStopping : a ≠ .stopping → b = .stopping → i = .rdSeek ∨ i = .rdStop ∨ i = .wgate1 ∨ i = .fgHandle
  leavesStopping : a = .stopping → b ≠ .stopping → i = .rdFinish ∨ i = .cancel ∨ i = .init ∨ i = .fgHandle
  entersInactive : a ≠ .inactive → b = .inactive → i = .rdFinish ∨ i = .cancel ∨ i = .init ∨ i = .fgHandle

/-- `j` is the operation `i`, or is given by the annotation `n` for a preemption point of `i`. -/
def RunsWithin (i : Instr) (n : Annotation) (j : Instr) : Prop :=
  i = j ∨ (i = .rdSeek ∨ i = .fgHandle ∨ i = .wrActivate) ∧ (j ∈ n.atP1 ∨ j ∈ n.atP2)

/-- The write ring goes from `a` to `b` as the table allows the operation `i` with the annotation `n`. -/
structure WriteNamed (i : Instr) (n : Annotation) (a b : RingState) : Prop where
  leavesInactive : a = .inactive → b ≠ .inactive → RunsWithin i n .wgate1
  entersStarting : a ≠ .starting → b = .starting → RunsWithin i n .wgate1
  entersActive : a ≠ .active → b = .active → i = .wrActivate ∨ i = .fgHandle
  entersStopping : a ≠ .stopping → b = .stopping → RunsWithin i n .wgate0
  leavesStopping : a = .stopping → b ≠ .stopping → i = .wrDrain ∨ i = .cancel ∨ i = .init ∨ i = .fgHandle
  entersInactive : a ≠ .inactive → b = .inactive → i = .wrDrain ∨ i = .cancel ∨ i = .init ∨ i = .fgHandle

/-! ## The read ring -/

theorem ReadNamed.same {i : Instr} {a b : RingState} (h : b = a) : ReadNamed i a b := by
  subst h
  exact ⟨absurd, fun hn h => absurd h hn, fun hn h => absurd h hn, fun hn h => absurd h hn, absurd,
    fun hn h => absurd h hn⟩

/-- A running read is stopped. -/
theorem ReadNamed.stopped {i : Instr} {a : Arch} (hrun : ReadRunning a)
    (hi : i = .rdSeek ∨ i = .rdStop ∨ i = .wgate1 ∨ i = .fgHandle) : ReadNamed i a.rd.state .stopping := by
  have hidle : a.rd.state ≠ .inactive := by rcases hrun with h | h <;> simp [h]
  exact ⟨fun h => absurd h hidle, nofun, nofun, fun _ _ => hi, fun _ h => absurd rfl h, nofun⟩

/-- A read becomes Inactive. -/
theorem ReadNamed.ended {i : Instr} {a b : RingState} (hb : b = .inactive)
    (hi : i = .rdFinish ∨ i = .cancel ∨ i = .init ∨ i = .fgHandle) : ReadNamed i a b := by
  subst hb
  exact ⟨fun _ h => absurd rfl h, nofun, nofun, nofun, fun _ _ => hi, fun _ _ => hi⟩

/-- RD_SEEK may take a read from Inactive to any state but Active. -/
theorem ReadNamed.seek {a b : RingState} (ha : a = .inactive) (hb : b ≠ .active) : ReadNamed .rdSeek a b := by
  subst ha
  exact ⟨fun _ _ => .inl rfl, fun _ _ => .inl rfl, fun _ h => absurd h hb, fun _ _ => .inl rfl, nofun,
    fun h => absurd rfl h⟩

theorem ReadNamed.start : ReadNamed .rdStart .starting .active :=
  ⟨nofun, nofun, fun _ _ => .inl rfl, nofun, nofun, nofun⟩

/-- FG_HANDLE may do what each of its parts may. -/
theorem ReadNamed.fgHandle (a b : RingState) : ReadNamed .fgHandle a b := by
  constructor <;> exact fun _ _ => by simp

/-! ## The write ring -/

theorem WriteNamed.same {i : Instr} {n : Annotation} {a b : RingState} (h : b = a) : WriteNamed i n a b := by
  subst h
  exact ⟨absurd, fun hn h => absurd h hn, fun hn h => absurd h hn, fun hn h => absurd h hn, absurd,
    fun hn h => absurd h hn⟩

/-- A write becomes Inactive. -/
theorem WriteNamed.ended {i : Instr} {n : Annotation} {a b : RingState} (hb : b = .inactive)
    (hi : i = .wrDrain ∨ i = .cancel ∨ i = .init ∨ i = .fgHandle) : WriteNamed i n a b := by
  subst hb
  exact ⟨fun _ h => absurd rfl h, nofun, nofun, nofun, fun _ _ => hi, fun _ _ => hi⟩

/-- What `WriteMoves` says, where every operation of `l` runs within `i`; the rest of the table is for `i` to show. -/
theorem WriteMoves.named {l : List Instr} {i : Instr} {s t : State} (h : WriteMoves l s t)
    (hl : ∀ j ∈ l, RunsWithin i s.env.note j)
    (hactive : s.wr.state ≠ .active → t.wr.state = .active → i = .wrActivate ∨ i = .fgHandle)
    (hstopping : s.wr.state = .stopping → t.wr.state ≠ .stopping →
      i = .wrDrain ∨ i = .cancel ∨ i = .init ∨ i = .fgHandle)
    (hinactive : s.wr.state ≠ .inactive → t.wr.state = .inactive →
      i = .wrDrain ∨ i = .cancel ∨ i = .init ∨ i = .fgHandle) :
    WriteNamed i s.env.note s.wr.state t.wr.state where
  leavesInactive ha hb := hl _ (h.leavesInactive ha hb)
  entersStarting ha hb := hl _ (h.entersStarting ha hb)
  entersActive := hactive
  entersStopping ha hb := hl _ (h.entersStopping ha hb)
  leavesStopping := hstopping
  entersInactive := hinactive

/-- An operation that only runs the operations of `l`, be it alone or at its preemption points. -/
theorem WriteMoves.named_of_keeps {l : List Instr} {i : Instr} {s t : State} (h : WriteMoves l s t)
    (k : SeekKeeps s t) (hl : ∀ j ∈ l, RunsWithin i s.env.note j) :
    WriteNamed i s.env.note s.wr.state t.wr.state :=
  h.named hl (fun ha hb => absurd hb (k.notActive ha)) (fun ha hb => absurd (k.stopping ha) hb)
    fun ha hb => absurd hb (k.notInactive ha)

theorem RunsWithin.alone {i j : Instr} (n : Annotation) (h : j ∈ [i]) : RunsWithin i n j :=
  .inl (List.mem_singleton.mp h).symm

theorem RunsWithin.preempting {i j : Instr} {n : Annotation} (hi : i = .rdSeek ∨ i = .fgHandle ∨ i = .wrActivate)
    (h : j ∈ n.atP1 ++ n.atP2) : RunsWithin i n j := .inr ⟨hi, List.mem_append.mp h⟩

/-! ## Both rings -/

/-- The operation moves both rings as the table says. -/
structure RingsNamed (i : Instr) (s t : State) : Prop where
  read : ReadNamed i s.rd.state t.rd.state
  write : WriteNamed i s.env.note s.wr.state t.wr.state

theorem RingsNamed.still {i : Instr} {s t u : State} (h : RingsNamed i s t) (k : Still t u) : RingsNamed i s u :=
  ⟨by rw [k.rd]; exact h.read, by rw [k.wr]; exact h.write⟩

theorem Still.named {s t : State} (k : Still s t) (i : Instr) : RingsNamed i s t := ⟨.same k.rd, .same k.wr⟩

theorem wgate1_named (s : State) : RingsNamed .wgate1 s (wgate1 s) := by
  have h := wgate1_moves s
  refine ⟨?_, h.named_of_keeps h.seekKeeps fun _ => .alone _⟩
  rcases h.read with hr | ⟨hr, hrun, -⟩
  · exact .same hr
  · exact hr ▸ .stopped hrun (by simp)

theorem wgate0_named (s : State) : RingsNamed .wgate0 s (wgate0 s) := by
  have h := wgate0_moves s
  refine ⟨?_, h.named_of_keeps h.seekKeeps fun _ => .alone _⟩
  exact .same (h.read.resolve_right fun ⟨_, _, hmem⟩ => absurd hmem (by simp))

theorem rdSeek_named {s t : State} (hs : s.rd.state = .inactive) (h : rdSeek s = .next t) : RingsNamed .rdSeek s t := by
  obtain ⟨hw, hk⟩ := rdSeek_moves h
  exact ⟨.seek hs (hk.read (by simp [hs])), hw.named_of_keeps hk fun _ => .preempting (.inl rfl)⟩

theorem rdStart_named {s t : State} (h : rdStart s = .next t) : RingsNamed .rdStart s t := by
  obtain ⟨-, hw, hr | ⟨hs, hr⟩⟩ := rdStart_moves h
  · exact ⟨.same hr, .same hw⟩
  · exact ⟨hs ▸ hr ▸ .start, .same hw⟩

theorem rdStop_named (s : State) : RingsNamed .rdStop s (rdStop s) := by
  obtain ⟨hw, -, -, ⟨-, hr⟩ | ⟨hrun, hr⟩⟩ := rdStop_spec s
  · exact ⟨.same hr, .same (by rw [hw])⟩
  · exact ⟨hr ▸ .stopped hrun (by simp), .same (by rw [hw])⟩

theorem rdFinish_named {s : State} (hs : s.rd.state = .stopping) : RingsNamed .rdFinish s (rdFinish s) := by
  obtain ⟨-, hw, hr⟩ := rdFinish_write s
  exact ⟨.ended (hr hs) (by simp), .same (by rw [hw])⟩

/-- WR_ACTIVATE runs with the read engine Inactive, which a WGATE 1 at P1 does not move. -/
theorem wrActivate_named {s t : State} (hs : s.wr.state = .starting) (hi : s.rd.state = .inactive)
    (h : wrActivate s = .next t) : RingsNamed .wrActivate s t := by
  obtain ⟨hm, hr, hw⟩ := wrActivate_moves hs h
  refine ⟨.same (hr.resolve_right fun ⟨_, hrun⟩ => by simp [ReadRunning, hi] at hrun), ?_⟩
  refine (hm.append s.env.note.atP2).named (fun _ => .preempting (.inr (.inr rfl))) (fun _ _ => .inl rfl)
    (fun ha => by simp [hs] at ha) fun _ hb => ?_
  rcases hw with hw | hw | hw <;> simp [hw] at hb

theorem wrDrain_named {s : State} (hs : s.wr.state = .stopping) : RingsNamed .wrDrain s (wrDrain s) := by
  obtain ⟨-, hr, hw | hw⟩ := wrDrain_moves hs
  · exact ⟨.same hr, .same (hw.trans hs.symm)⟩
  · exact ⟨.same hr, .ended hw (by simp)⟩

theorem fgHandle_named {s t : State} (h : fgHandle s = .next t) : RingsNamed .fgHandle s t :=
  ⟨.fgHandle _ _, (fgHandle_moves h).named (fun _ => .preempting (.inr (.inl rfl))) (by simp) (by simp) (by simp)⟩

theorem cancelAll_named (s : State) : RingsNamed .cancel s (cancelAll s) := by
  obtain ⟨hr, hw, -⟩ := cancelAll_moves s
  exact ⟨.ended hr (by simp), .ended hw (by simp)⟩

theorem execInit_named {s t : State} (h : execInit s = .next t) : RingsNamed .init s t := by
  unfold execInit at h
  split at h
  · obtain rfl := Host.Outcome.next.inj h
    exact ⟨.ended rfl (by simp), .ended rfl (by simp)⟩
  · cases h

/-! ## Every operation -/

theorem operation_named {i : Instr} {s t : State} {e : Prop} {_ : Decidable e} {r : Result}
    (h : ∀ u, e → r = .next u → RingsNamed i s u) (ht : operation s e r = .next t) : RingsNamed i s t := by
  obtain ⟨he, u, hu, k⟩ := operation_next ht
  exact (h u he hu).still k

/-- The same for an operation that ends in the state `u` it computes. -/
theorem operation_next_named {i : Instr} {s t u : State} {e : Prop} {_ : Decidable e} (h : e → RingsNamed i s u)
    (ht : operation s e (.next u) = .next t) : RingsNamed i s t :=
  operation_named (fun _ he hv => Host.Outcome.next.inj hv ▸ h he) ht

/-- Every operation moves the rings as the table says. -/
theorem exec_named {i : Instr} {s t : State} (ht : exec i s = .next t) : RingsNamed i s t := by
  cases i with
  | wgate1 => exact operation_next_named (fun _ => wgate1_named s) ht
  | wgate0 => exact operation_next_named (fun _ => wgate0_named s) ht
  | tick n => exact ⟨.same (execTick_moves ht).rd, .same (execTick_moves ht).wr⟩
  | stepFire =>
    obtain ⟨hw, hr⟩ := stepFire_wr s
    exact operation_next_named (fun _ => ⟨.same (by rw [hr]), .same (by rw [hw])⟩) ht
  | fgHandle => exact operation_named (fun _ _ => fgHandle_named) ht
  | rdSeek => exact operation_named (fun _ ⟨_, hr, _⟩ => rdSeek_named hr) ht
  | rdStart => exact operation_named (fun _ _ => rdStart_named) ht
  | rdStop => exact operation_next_named (fun _ => rdStop_named s) ht
  | rdFinish => exact operation_next_named (fun ⟨_, hr⟩ => rdFinish_named hr) ht
  | wrActivate => exact operation_named (fun _ ⟨_, hw, hr, _⟩ => wrActivate_named hw hr) ht
  | wrDrain => exact operation_next_named (fun ⟨_, hw, _⟩ => wrDrain_named hw) ht
  | init => exact execInit_named ht
  | cancel => exact operation_next_named (fun _ => cancelAll_named s) ht
  | step _ | side _ | sel _ | wdataEdge | rdBeat | wrBeat | idxFire | rdService | wrService | stepSoftirq | rdPrefill
  | rdReplenish | wrPump | mount | changeOutputs _ _ => exact (exec_still ht trivial).named _

/-- Settles O51: the twelve clauses are the table of both rings, which every operation keeps. -/
theorem onlyTheNamedActorsMoveTheRings : Obligations.OnlyTheNamedActorsMoveTheRings := by
  unfold Obligations.OnlyTheNamedActorsMoveTheRings
  intro i s t ht
  obtain ⟨r, w⟩ := exec_named ht
  exact ⟨r.leavesInactive, r.entersStarting, r.entersActive, r.entersStopping, r.leavesStopping, r.entersInactive,
    w.leavesInactive, w.entersStarting, w.entersActive, w.entersStopping, w.leavesStopping, w.entersInactive⟩

end Sys2Proof.Machine
end

section
/-! The fill of the read ring (R137), and what stands on the samples queued there: RD_PREFILL (R133), the index
resynchronisation (R141), RD_SERVICE in Active (R136, R138, R139). -/

namespace Sys2Proof.Machine

/-! ## What a fill asks for, and where it stores -/

theorem fillRequest_eq (c prod : RingIx) : fillRequest c prod = min (1024 - prod.toNat) (c - prod - 1).toNat := by
  have hcomm : c - 1 - prod = c - prod - 1 := by bv_omega
  rw [fillRequest, ringDist, hcomm]
  rfl

theorem fillRequest_le (c prod : RingIx) : fillRequest c prod ≤ 1024 := (min_le_left _ _).trans (Nat.sub_le _ _)

/-- The image gives at most the samples asked for (R40). -/
theorem fluxAnswer_length_le (nr : Nat) (s : State) : (fluxAnswer nr s).length ≤ nr := List.length_take_le _ _

/-- No sample of a fill goes past the wrap. -/
theorem fill_below_wrap {c prod : RingIx} {k : Nat} (hk : k < fillRequest c prod) : prod.toNat + k < 1024 := by
  rw [fillRequest_eq] at hk
  omega

/-- The fill does not reach the DMA position, unless the ring is empty and it begins there. -/
theorem fill_ne_position {c prod : RingIx} {k : Nat} (hk : k < fillRequest c prod) (hne : prod ≠ c) :
    prod + BitVec.ofNat 10 k ≠ c := by
  rw [fillRequest_eq] at hk
  bv_omega

/-- No entry of the fill is one of those queued from the DMA position on. -/
theorem fill_ne_queued {c prod : RingIx} {k j : Nat} (hk : k < fillRequest c prod) (hj : j < (prod - c).toNat) :
    prod + BitVec.ofNat 10 k ≠ c + BitVec.ofNat 10 j := by
  rw [fillRequest_eq] at hk
  bv_omega

/-- The samples of a fill queue up behind those already there, and leave one entry empty. -/
theorem fill_queue_length {c prod : RingIx} {n : Nat} (hn : n ≤ fillRequest c prod) :
    (prod + BitVec.ofNat 10 n - c).toNat = (prod - c).toNat + n ∧ (prod - c).toNat + n ≤ 1023 := by
  rw [fillRequest_eq] at hn
  constructor <;> bv_omega

/-- In `n` the samples `got` stand at `i` and the entries after it; every other content reads as in `m`. -/
structure SamplesStored (m n : Memory) (i : RingIx) (got : List Sample) : Prop where
  stored : ∀ k (h : k < got.length), n.rdEntry (i + BitVec.ofNat 10 k) = got[k]
  kept : ∀ j, (∀ k, k < got.length → j ≠ i + BitVec.ofNat 10 k) → n.rdEntry j = m.rdEntry j
  others : SameButRdBuf m n

theorem Memory.putSamples_stored (m : Memory) {got : List Sample} (i : RingIx) (hl : got.length ≤ 1024) :
    SamplesStored m (m.putSamples got i) i got where
  stored _ hk := m.rdEntry_putSamples_same got i hl hk
  kept j hj := m.rdEntry_putSamples_other got i j hj
  others := ⟨fun j => by rw [Memory.wrEntry, Memory.putSamples_wrBuf, Memory.putSamples_epoch]; rfl,
    fun b => by rw [Memory.mfmByte, Memory.putSamples_mfmBuf, Memory.putSamples_epoch]; rfl⟩

/-- What one fill from `prod` does to the memory. -/
theorem fill_stored (c prod : RingIx) (s : State) (m : Memory) :
    SamplesStored m (m.putSamples (fluxAnswer (fillRequest c prod) s) prod) prod
      (fluxAnswer (fillRequest c prod) s) :=
  m.putSamples_stored prod ((fluxAnswer_length_le _ s).trans (fillRequest_le c prod))

theorem rdFill_rd (c : RingIx) (s : State) : (rdFill c s).rd =
    { s.rd with prod := s.rd.prod + BitVec.ofNat 10 (fluxAnswer (fillRequest c s.rd.prod) s).length } := rfl

theorem rdFill_calls (c : RingIx) (s : State) :
    (rdFill c s).env.calls = s.env.calls ++ [.rdataFlux (fillRequest c s.rd.prod)] := rfl

/-- Settles O27: the fill asks for no more than fits before the wrap and before the DMA position, so by the arithmetic
of the ring it reaches no queued entry. -/
theorem fillStopsShortOfTheDma : Obligations.FillStopsShortOfTheDma := by
  unfold Obligations.FillStopsShortOfTheDma
  intro c s
  rw [← fillRequest_eq]
  have hlen := fluxAnswer_length_le (fillRequest c s.rd.prod) s
  obtain ⟨hstored, hkept, -⟩ := fill_stored c s.rd.prod s s.mem
  obtain ⟨hqueue, hfits⟩ := fill_queue_length hlen
  refine ⟨hlen, rdFill_rd c s, rdFill_calls c s, hstored, hkept, fun k hk => ?_, fun j hj => ?_, hqueue,
    hqueue.trans_le hfits⟩
  · have hk' := hk.trans_le hlen
    exact ⟨fill_below_wrap hk', fill_ne_position hk', fun j => fill_ne_queued hk'⟩
  · exact hkept _ fun k hk => (fill_ne_queued (hk.trans_le hlen) hj).symm

/-! ## RD_PREFILL (R133) -/

/-- Without a fault, an image and no busy-wait are what the foreground needs. -/
theorem foregroundFree_and {a : Arch} {p : Prop} (hf : a.fault = none) :
    ForegroundFree a ∧ p ↔ a.image.loaded = true ∧ a.fgWait = none ∧ p := by
  simp only [ForegroundFree, hf, true_and, and_assoc]

theorem yieldTicks_eq (c : Config) : (yieldTicks c : Int) = 5 * 1000 * c.sysclkMhz := by
  simp [yieldTicks, ms, Config.yieldMs]

theorem rdPrefillEnabled_iff {s : State} (hf : s.fault = none) : RdPrefillEnabled s ↔
    s.image.loaded = true ∧ s.fgWait = none ∧ s.rd.state = .starting ∧
      (s.rd.prod.toNat < 512 ∨ s.rd.syncTime - s.now > 5 * 1000 * s.cfg.sysclkMhz) := by
  rw [RdPrefillEnabled, foregroundFree_and hf, yieldTicks_eq]
  rfl

/-- Settles O26: RD_PREFILL is `read_track` and a fill up to the DMA position 0. -/
theorem readPrefillRule : Obligations.ReadPrefillRule := by
  unfold Obligations.ReadPrefillRule
  refine ⟨⟨rfl, rfl, rfl⟩, fun s hc hf he => operation_refused hc hf (mt (rdPrefillEnabled_iff hf).mp he),
    fun s hs hloaded hwait hstate hroom => ?_⟩
  have ⟨_, hfault, hclear⟩ := hs
  rw [← fillRequest_eq]
  obtain ⟨hstored, hkept, hothers⟩ := fill_stored 0#10 s.rd.prod (askReadTrack s) s.mem
  refine ⟨fluxAnswer_length_le _ _, _, ?_, hstored, hkept, hothers⟩
  exact runsTo_of rfl hs ((rdPrefillEnabled_iff hfault).mpr ⟨hloaded, hwait, hstate, hroom⟩) rfl rfl hclear rfl rfl
    (List.append_assoc _ _ _) rfl

/-! ## The index resynchronisation (R141) -/

/-- Settles O30: the ticks still queued are the entries read one after another from the DMA position on. -/
theorem indexResyncTicks : Obligations.IndexResyncTicks := by
  unfold Obligations.IndexResyncTicks
  intro t s
  have hticks : resyncTicks s.toArch t = (s.rdTim.arr.toNat : Int) - s.rdTim.cnt.toNat +
      ((List.range (s.rd.prod - rdPos s.toArch).toNat).map
        fun k => (s.mem.rdEntry (rdPos s.toArch + BitVec.ofNat 10 k)).toNat).sum - t.toNat := by
    rw [resyncTicks, Memory.rdSamples_eq, List.map_map]
    rfl
  exact ⟨hticks, by rw [indexResync, hticks]⟩

end Sys2Proof.Machine
end

section
/-! RD_SERVICE (R136, R138, R139): its three parts, each by what it does to the block and what it asks of the image. -/

namespace Sys2Proof.Machine

/-! ## The answers are those of the inputs and outputs alone -/

theorem fluxAnswer_congr {s u : State} (h : u.env = s.env) (nr : Nat) : fluxAnswer nr u = fluxAnswer nr s := by
  rw [fluxAnswer, fluxAnswer, h]

theorem askFlux_env_congr {s u : State} (h : u.env = s.env) (nr : Nat) : (askFlux nr u).env = (askFlux nr s).env := by
  rw [askFlux, called, askFlux, called, h]

theorem ticksAnswer_congr {s u : State} (h : u.env = s.env) : ticksAnswer u = ticksAnswer s := by
  rw [ticksAnswer, ticksAnswer, h]

theorem askTicks_env_congr {s u : State} (h : u.env = s.env) : (askTicks u).env = (askTicks s).env := by
  rw [askTicks, called, askTicks, called, h]

/-! ## The parts of RD_SERVICE in Active -/

/-- The DMA has taken more samples than were queued (R138). -/
def underrun (a : Arch) : Bool :=
  decide (rdPos a ≠ a.rd.cons) && decide ((a.rd.prod - a.rd.cons).toNat < (rdPos a - a.rd.cons).toNat)

theorem underrun_iff (a : Arch) : underrun a = true ↔ UnderrunAt a (rdPos a) := by
  simp [underrun, UnderrunAt, ringDist]

/-- An underrun is logged (R138), and what lies before the DMA position is consumed (R136). -/
def observePosition (s : State) : State :=
  let u := if UnderrunAt s.toArch (rdPos s.toArch) then logError .underrun s else s
  { u with rd.cons := rdPos s.toArch }

theorem observePosition_eq (s : State) : observePosition s = { s with
    log := if underrun s.toArch then s.log ++ [⟨.underrun, s.now⟩] else s.log
    rd.cons := rdPos s.toArch } := by
  unfold observePosition
  by_cases h : UnderrunAt s.toArch (rdPos s.toArch)
  · rw [if_pos h, if_pos ((underrun_iff _).mpr h)]
    rfl
  · rw [if_neg h, if_neg (mt (underrun_iff _).mp h)]

/-- One fill, and the kick on a short answer (R139). -/
def refill (c : RingIx) (s : State) : State :=
  let nr := fillRequest c s.rd.prod
  let v := rdFill c s
  if (fluxAnswer nr s).length < nr then { v with rd.kick := true } else v

theorem refill_spec {c : RingIx} {s : State} {nr : Nat} {got : List Sample} (hnr : fillRequest c s.rd.prod = nr)
    (hgot : fluxAnswer nr s = got) :
    (refill c s).toArch = { s.toArch with
      mem := s.mem.putSamples got s.rd.prod
      rd := { s.rd with
        prod := s.rd.prod + BitVec.ofNat 10 got.length
        kick := s.rd.kick || decide (got.length < nr) } } ∧
      (refill c s).env = (askFlux nr s).env ∧ (refill c s).cfg = s.cfg := by
  subst hnr hgot
  unfold refill
  dsimp only
  split
  · next h => rw [decide_eq_true h, Bool.or_true]; exact ⟨rfl, rfl, rfl⟩
  · next h => rw [decide_eq_false h, Bool.or_false]; exact ⟨rfl, rfl, rfl⟩

/-- The image's offset is kept, and one that went down rearms the index (R136). -/
def noteOffset (s : State) : State :=
  let t := ticksAnswer s
  let u := askTicks s
  let v := if t < u.rd.lastTsi then indexResync t u else u
  { v with rd.lastTsi := t }

theorem noteOffset_spec {s : State} {t : Word} (ht : ticksAnswer s = t) :
    (noteOffset s).toArch = { s.toArch with
      rd.lastTsi := t
      index.timer := if t < s.rd.lastTsi then { armed := true, deadline := s.now + resyncTicks s.toArch t }
        else s.index.timer } ∧
      (noteOffset s).env = (askTicks s).env ∧ (noteOffset s).cfg = s.cfg := by
  have hlast : (askTicks s).rd.lastTsi = s.rd.lastTsi := rfl
  subst ht
  unfold noteOffset
  dsimp only
  rw [hlast]
  split <;> exact ⟨rfl, rfl, rfl⟩

theorem rdServiceActive_eq (s : State) :
    rdServiceActive s = noteOffset (refill (rdPos s.toArch) (observePosition s)) := by
  dsimp only [rdServiceActive, noteOffset, refill, observePosition]

/-! ## RD_SERVICE -/

theorem rdService_idle {s : State} (h : s.rd.state ≠ .active) :
    rdService s = { s with irq.rdDma := false, owed.rdService := none } := if_neg h

theorem rdService_active {s : State} (h : s.rd.state = .active) : rdService s =
    noteOffset (refill (rdPos s.toArch) (observePosition { s with irq.rdDma := false, owed.rdService := none })) :=
  (if_pos h).trans (rdServiceActive_eq _)

/-- The block after RD_SERVICE in Active but for the index timer: `nr` samples were asked for, `got` given, and the
image's offset is `t`. -/
def serviced (nr : Nat) (got : List Sample) (t : Word) (a : Arch) : Arch :=
  { a with
    irq.rdDma := false
    log := if underrun a then a.log ++ [⟨.underrun, a.now⟩] else a.log
    mem := a.mem.putSamples got a.rd.prod
    rd := { a.rd with
      cons := rdPos a
      prod := a.rd.prod + BitVec.ofNat 10 got.length
      kick := a.rd.kick || decide (got.length < nr)
      lastTsi := t } }

/-- RD_SERVICE in Active, all parts together. -/
theorem rdService_active_spec {s : State} (h : s.rd.state = .active) {nr : Nat} {t : Word} {a : Arch}
    (hnr : fillRequest (rdPos s.toArch) s.rd.prod = nr) (ht : ticksAnswer (askFlux nr s) = t)
    (ha : serviced nr (fluxAnswer nr s) t s.toArch = a) :
    (rdService s).toArch = { a with index.timer :=
        if t < s.rd.lastTsi then { armed := true, deadline := s.now + resyncTicks a t } else s.index.timer } ∧
      (rdService s).cfg = s.cfg ∧ (rdService s).env = (askTicks (askFlux nr s)).env := by
  rw [rdService_active h]
  generalize hu : observePosition { s with irq.rdDma := false, owed.rdService := none } = u
  rw [observePosition_eq] at hu
  have huenv : u.env = s.env := hu ▸ rfl
  have hucfg : u.cfg = s.cfg := hu ▸ rfl
  have hprod : u.rd.prod = s.rd.prod := hu ▸ rfl
  obtain ⟨hv, hvenv, hvcfg⟩ := refill_spec (by rw [hprod, hnr]) (fluxAnswer_congr huenv nr)
  generalize refill (rdPos s.toArch) u = v at hv hvenv hvcfg ⊢
  replace hvenv : v.env = (askFlux nr s).env := hvenv.trans (askFlux_env_congr huenv nr)
  replace hv : v.toArch = { a with rd.lastTsi := s.rd.lastTsi } := by
    rw [hv, ← ha, ← hu]
    rfl
  obtain ⟨hw, hwenv, hwcfg⟩ := noteOffset_spec ((ticksAnswer_congr hvenv).trans ht)
  refine ⟨?_, hwcfg.trans (hvcfg.trans hucfg), hwenv.trans (askTicks_env_congr hvenv)⟩
  have hticks : resyncTicks v.toArch t = resyncTicks a t := by
    rw [hv]
    rfl
  rw [hw, hticks, hv]
  subst ha
  dsimp only [serviced]

end Sys2Proof.Machine
end

section
/-! The kick (R139, R140): only RD_REPLENISH, RD_FINISH, MOUNT, CANCEL, INIT and FG_HANDLE clear it; said once for
every other operation. With it the whole rule of RD_SERVICE. -/

namespace Sys2Proof.Machine

/-! ## The relation -/

/-- A kick that is set stays set. -/
def KickKept (s t : State) : Prop := s.rd.kick = true → t.rd.kick = true

theorem KickKept.of_eq {s t : State} (h : t.rd.kick = s.rd.kick) : KickKept s t := fun hk => h.trans hk

theorem KickKept.of_rd {s t : State} (h : t.rd = s.rd) : KickKept s t := .of_eq (by rw [h])

theorem KickKept.rfl {s : State} : KickKept s s := id

theorem KickKept.trans {s t u : State} (a : KickKept s t) (b : KickKept t u) : KickKept s u := b ∘ a

theorem KickKept.ite {c : Prop} {_ : Decidable c} {s t u : State} (ht : KickKept s t) (hu : KickKept s u) :
    KickKept s (if c then t else u) := by
  split
  · exact ht
  · exact hu

theorem setRdState_kick (n : RingState) (s : State) : KickKept s (setRdState n s) :=
  .ite .rfl (.ite (.of_eq rfl) .rfl)

theorem setWrState_kick (n : RingState) (s : State) : KickKept s (setWrState n s) := .of_rd (setWrState_spec n s).1

theorem boundary_kick (s : State) : KickKept s (boundary s) := by
  refine .of_eq ?_
  rw [boundary_toArch]
  split <;> rfl

/-! ## What may stand at a preemption point -/

theorem wrBeat_kick (s : State) : KickKept s (wrBeat s) := .of_eq (by rw [wrBeat_toArch])

theorem wdataEdge_kick (s : State) : KickKept s (wdataEdge s) :=
  .ite (.ite (.trans (t := { s with wrTim.ccr1 := s.wrTim.cnt, wrDma.req := true }) .rfl (wrBeat_kick _)) .rfl) .rfl

theorem rdStop_kick (s : State) : KickKept s (rdStop s) := by
  refine .of_eq ?_
  rw [rdStop_toArch, readStopped]
  split <;> rfl

theorem wgate1_kick (s : State) : KickKept s (wgate1 s) :=
  .ite .rfl (.ite .rfl ((rdStop_kick s).trans (setWrState_kick .starting _)))

theorem wgate0_kick (s : State) : KickKept s (wgate0 s) := .ite .rfl (.ite .rfl (setWrState_kick .stopping s))

theorem wrService_kick (s : State) : KickKept s (wrService s) := by
  unfold wrService wrServiceDecode
  dsimp only
  split <;> exact .of_eq rfl

/-- RD_SERVICE may set the kick, and does not clear it. -/
theorem rdService_kick (s : State) : KickKept s (rdService s) := by
  by_cases h : s.rd.state = .active
  · intro hk
    obtain ⟨harch, -⟩ := rdService_active_spec h rfl rfl rfl
    rw [harch]
    exact Bool.or_eq_true_iff.mpr (.inl hk)
  · rw [rdService_idle h]
    exact .rfl

theorem runPreempting_kick {i : Instr} {s t : State} (h : runPreempting i s = .next t) : KickKept s t := by
  have key : ∀ {e : Prop} {_ : Decidable e} {u : State}, attempt s e (.next u) = .next t → KickKept s u →
      KickKept s t := fun ha hu => by
    obtain ⟨-, -, ha⟩ := attempt_eq_next.mp ha
    exact Host.Outcome.next.inj ha ▸ hu
  cases i with
  | step d => exact key h (.ite .rfl .rfl)
  | side b => exact key h .rfl
  | sel b => exact key h .rfl
  | wgate1 => exact key h (wgate1_kick s)
  | wgate0 => exact key h (wgate0_kick s)
  | wdataEdge => exact key h (wdataEdge_kick s)
  | idxFire => exact key h (.of_rd (idxFire_wr s).2)
  | stepFire => exact key h (.of_rd (stepFire_wr s).2)
  | rdService => exact key h (rdService_kick s)
  | wrService => exact key h (wrService_kick s)
  | stepSoftirq => exact key h (.ite .rfl .rfl)
  | tick _ | rdBeat | wrBeat | fgHandle | rdSeek | rdPrefill | rdStart | rdReplenish | rdStop | rdFinish
  | wrActivate | wrPump | wrDrain | init | mount | cancel | changeOutputs _ _ => cases h

theorem preempt_kick (l : List Instr) {s t : State} (h : preempt l s = .next t) : KickKept s t := by
  induction l generalizing s with
  | nil => exact Host.Outcome.next.inj h ▸ .rfl
  | cons i l ih =>
    obtain ⟨u, hu, ht⟩ := andThen_eq_next.mp h
    exact (runPreempting_kick hu).trans (ih ht)

/-! ## The foreground operations -/

theorem rdBeat_kick {s t : State} (h : rdBeat s = .next t) : KickKept s t := by
  unfold rdBeat at h
  dsimp only at h
  split at h
  · cases h
  · obtain rfl := Host.Outcome.next.inj h
    exact .of_eq (by rw [rdBeatWith_toArch])

theorem rdStart_kick {s t : State} (h : rdStart s = .next t) : KickKept s t := by
  unfold rdStart at h
  split at h
  · exact Host.Outcome.next.inj h ▸ .rfl
  unfold rdStartNow casRd at h
  dsimp only at h
  split at h
  · rw [if_pos rfl, requestRdBeat] at h
    have hset := setRdState_kick .active { s with fgWait := none, owed.rdStart := none }
    exact fun hk => rdBeat_kick h (hset hk)
  · exact Host.Outcome.next.inj h ▸ .rfl

theorem seekCommit_kick (i : Int) (k : Track) (p : Word) (s : State) : KickKept s (seekCommit i k p s) := by
  unfold seekCommit
  exact fun hk => setRdState_kick .starting _ hk

theorem rdSeek_kick {s t : State} (h : rdSeek s = .next t) : KickKept s t := by
  obtain ⟨u, hu, h⟩ := rdSeek_eq_next.mp h
  have hseek : KickKept s u := fun hk => preempt_kick _ hu hk
  rcases h with ⟨-, rfl⟩ | ⟨-, v, hv, rfl⟩
  · exact hseek
  · have hcommit : KickKept u v := (seekCommit_kick _ _ _ u).trans (preempt_kick _ hv)
    exact (hseek.trans hcommit).trans (.ite (setRdState_kick .stopping v) .rfl)

theorem wrActivate_kick {s t : State} (h : wrActivate s = .next t) : KickKept s t := by
  unfold wrActivate at h
  split at h
  · exact Host.Outcome.next.inj h ▸ .rfl
  obtain ⟨u, hu, h⟩ := andThen_eq_next.mp h
  have hseek : KickKept s u := fun hk => preempt_kick _ hu hk
  split at h
  · exact Host.Outcome.next.inj h ▸ hseek
  · obtain rfl := Host.Outcome.next.inj h
    unfold casWr
    split
    · exact hseek.trans (setWrState_kick .active u)
    · exact hseek

/-! ## TICK -/

theorem tickRdTim_kick {s t : State} (h : tickRdTim s = .next t) : KickKept s t := by
  unfold tickRdTim at h
  split at h
  · exact Host.Outcome.next.inj h ▸ .rfl
  split at h
  · dsimp only at h
    split at h
    · exact rdBeat_kick (s := { s with rdTim.cnt := 0, rdDma.req := true }) h
    · exact Host.Outcome.next.inj h ▸ .rfl
  · exact Host.Outcome.next.inj h ▸ .rfl

theorem tickTimers_kick (s : State) : KickKept s (tickTimers s) := by
  have hidx : KickKept s (if IdxFireOwed s.toArch then idxFire s else s) := .ite (.of_rd (idxFire_wr s).2) .rfl
  exact .ite (.ite (hidx.trans (.of_rd (stepFire_wr _).2)) hidx) .rfl

theorem tickStep_kick {s t : State} (h : tickStep s = .next t) : KickKept s t := by
  unfold tickStep at h
  split at h
  · cases h
  split at h
  · obtain ⟨u, hu, h⟩ := andThen_eq_next.mp h
    obtain rfl := Host.Outcome.next.inj h
    obtain ⟨v, hv, hu⟩ := andThen_eq_next.mp hu
    obtain rfl := Host.Outcome.next.inj hu
    have hwr : KickKept v (tickWrTim v) := .ite .rfl .rfl
    have hrd : KickKept s v := tickRdTim_kick (s := { s with now := s.now + 1 }) hv
    exact ((hrd.trans hwr).trans (tickTimers_kick _)).trans (boundary_kick _)
  · cases h

theorem tickTimes_kick (n : Nat) {s t : State} (h : tickTimes n s = .next t) : KickKept s t := by
  induction n generalizing s with
  | zero => exact Host.Outcome.next.inj h ▸ .rfl
  | succ n ih =>
    obtain ⟨u, hu, h⟩ := andThen_eq_next.mp h
    exact (tickStep_kick hu).trans (ih h)

/-! ## Every operation -/

theorem operation_kick {s t : State} {e : Prop} {_ : Decidable e} {r : Result} (h : operation s e r = .next t)
    (hr : ∀ u, r = .next u → KickKept s u) : KickKept s t := by
  obtain ⟨-, -, -, u, hu, rfl⟩ := operation_eq_next.mp h
  exact (hr u hu).trans (boundary_kick u)

theorem operation_next_kick {s t u : State} {e : Prop} {_ : Decidable e} (h : operation s e (.next u) = .next t)
    (hu : KickKept s u) : KickKept s t :=
  operation_kick h fun _ hv => Host.Outcome.next.inj hv ▸ hu

/-- The operations that clear the kick, or may. -/
def kickClearers : List Instr := [.rdReplenish, .rdFinish, .mount, .cancel, .init, .fgHandle]

/-- No other operation clears the kick. -/
theorem exec_kick {i : Instr} {s t : State} (h : exec i s = .next t) (hi : i ∉ kickClearers) : KickKept s t := by
  cases i with
  | step d => exact operation_next_kick h (.ite .rfl .rfl)
  | side b => exact operation_next_kick h .rfl
  | sel b => exact operation_next_kick h .rfl
  | wgate1 => exact operation_next_kick h (wgate1_kick s)
  | wgate0 => exact operation_next_kick h (wgate0_kick s)
  | wdataEdge => exact operation_next_kick h (wdataEdge_kick s)
  | tick n => exact operation_kick ((execTick_eq n s).symm.trans h) fun _ => tickTimes_kick n
  | rdBeat => exact operation_kick h fun _ => rdBeat_kick
  | wrBeat => exact operation_next_kick h (wrBeat_kick s)
  | idxFire => exact operation_next_kick h (.of_rd (idxFire_wr s).2)
  | stepFire => exact operation_next_kick h (.of_rd (stepFire_wr s).2)
  | rdService => exact operation_next_kick h (rdService_kick s)
  | wrService => exact operation_next_kick h (wrService_kick s)
  | stepSoftirq => exact operation_next_kick h (.ite .rfl .rfl)
  | rdSeek => exact operation_kick h fun _ => rdSeek_kick
  | rdPrefill => exact operation_next_kick h .rfl
  | rdStart => exact operation_kick h fun _ => rdStart_kick
  | rdStop => exact operation_next_kick h (rdStop_kick s)
  | wrActivate => exact operation_kick h fun _ => wrActivate_kick
  | wrPump => exact operation_next_kick h .rfl
  | wrDrain => exact operation_next_kick h (.ite .rfl fun hk => setWrState_kick .inactive _ hk)
  | changeOutputs m v => exact operation_next_kick h .rfl
  | rdReplenish | rdFinish | mount | cancel | init | fgHandle => exact absurd (by decide) hi

/-- Settles O29: RD_SERVICE by its parts, and the kick by the operations that leave it. -/
theorem readServiceRule : Obligations.ReadServiceRule := by
  unfold Obligations.ReadServiceRule
  refine ⟨⟨rfl, rfl, rfl⟩, fun s hc hf he => operation_refused hc hf he, fun s hs hpend hen hidle => ?_,
    fun s hs hpend hen hactive => ?_, fun i s t h hset hclear => ?_⟩
  · have ⟨_, _, hno⟩ := hs
    exact runsTo_plain rfl hs ⟨hpend, hen⟩ (by rw [rdService_idle hidle]) hno (by rw [rdService_idle hidle])
      (by rw [rdService_idle hidle])
  · have ⟨_, _, hno⟩ := hs
    dsimp only
    rw [← fillRequest_eq]
    obtain ⟨harch, hcfg, henv⟩ := rdService_active_spec hactive rfl rfl rfl
    dsimp only [serviced, underrun] at harch
    obtain ⟨hstored, hkept, hothers⟩ := fill_stored (rdPos s.toArch) s.rd.prod s s.mem
    refine ⟨_, ?_, hstored, hkept, hothers⟩
    exact runsTo_of rfl hs ⟨hpend, hen⟩ rfl harch hno hcfg (by rw [henv]; rfl)
      (by rw [henv]; exact List.append_assoc _ _ _) (by rw [henv]; rfl)
  · have hmem : i ∈ kickClearers := by
      by_contra hi
      exact absurd (exec_kick h hi hset) (by simp [hclear])
    simpa [kickClearers] using hmem

end Sys2Proof.Machine
end

section
/-! The foreground operations of the read engine but for RD_SEEK and RD_PREFILL: RD_START (R134), RD_REPLENISH (R140),
RD_STOP (R143, R144), RD_FINISH (R145). -/

namespace Sys2Proof.Machine

/-! ## RD_REPLENISH and RD_FINISH -/

theorem rdReplenish_kicks {s : State} (hdid : readTrackAnswer s = true) (hkick : s.rd.kick = true) :
    rdReplenish s = pendRd { askReadTrack s with rd.kick := false } := if_pos ⟨hdid, hkick⟩

theorem rdReplenish_only_asks {s : State} (h : readTrackAnswer s = false ∨ s.rd.kick = false) :
    rdReplenish s = askReadTrack s :=
  if_neg fun ⟨hdid, hkick⟩ => h.elim (fun k => nomatch hdid.symm.trans k) fun k => nomatch hkick.symm.trans k

/-- Settles O31: RD_REPLENISH asks for the track, and on a set kick pends the request or does nothing more. -/
theorem readReplenishRule : Obligations.ReadReplenishRule := by
  unfold Obligations.ReadReplenishRule
  refine ⟨⟨rfl, rfl, rfl⟩, fun s hc hf he => operation_refused hc hf (mt (foregroundFree_and hf).mp he),
    fun s hs hloaded hwait hactive => ?_⟩
  have ⟨_, hfault, hclear⟩ := hs
  have henabled : RdReplenishEnabled s.toArch := (foregroundFree_and hfault).mpr ⟨hloaded, hwait, hactive⟩
  refine ⟨fun hdid hkick => ?_, fun h => ?_⟩
  · have heq := rdReplenish_kicks hdid hkick
    exact runsTo_of rfl hs henabled (congrArg _ heq) rfl hclear rfl rfl rfl rfl
  · have heq := rdReplenish_only_asks h
    exact runsTo_of rfl hs henabled (congrArg _ heq) rfl hclear rfl rfl rfl rfl

theorem rdFinish_stopping {s : State} (h : s.rd.state = .stopping) : rdFinish s =
    { s with
      rd := { s.rd with state := .inactive, cons := 0, prod := 0, kick := false }
      rdDma.cndtr := capCount } := setRdState_inactive (.inr h)

/-- Settles O33: in Stopping the last, guarded write of RD_FINISH is done. -/
theorem readFinishRule : Obligations.ReadFinishRule := by
  unfold Obligations.ReadFinishRule
  refine ⟨⟨rfl, rfl, rfl⟩, fun s hc hf he => operation_refused hc hf (mt (foregroundFree_and hf).mp he),
    fun s hs hloaded hwait hstop => ?_⟩
  have ⟨_, hfault, _⟩ := hs
  have henabled : RdFinishEnabled s.toArch := (foregroundFree_and hfault).mpr ⟨hloaded, hwait, hstop⟩
  have heq := rdFinish_stopping hstop
  exact runsTo_plain rfl hs henabled (by rw [heq]; rfl) (not_Overlap_of_read rfl) (by rw [heq]) (by rw [heq])

/-! ## RD_START -/

theorem waitOver_iff (a : Arch) : waitOver a = true ↔ ∃ w, a.fgWait = some w ∧ w ≤ (a.now : Int) := by
  unfold waitOver
  cases a.fgWait <;> simp

theorem slack_eq (c : Config) : (slack c : Int) = c.sysclkMhz := by simp [slack, us, Config.slackUs]

theorem rdStartEnabled_iff {s : State} (hf : s.fault = none) : RdStartEnabled s ↔ s.image.loaded = true ∧
    (((s.rd.state = .starting ∨ s.rd.state = .stopping) ∧ ∃ w, s.fgWait = some w ∧ w ≤ (s.now : Int)) ∨
      (s.rd.state = .starting ∧ s.fgWait = none ∧ 512 ≤ s.rd.prod.toNat ∧
        s.rd.syncTime - s.now ≤ 5 * 1000 * s.cfg.sysclkMhz)) := by
  simp only [RdStartEnabled, hf, true_and, waitOver_iff, yieldTicks_eq, sdiff]

/-- The busy-wait is begun with `SLACK` or more to go. -/
theorem rdStart_waits {s : State} (hwait : s.fgWait = none) (h : s.rd.syncTime - s.now ≥ s.cfg.sysclkMhz) :
    rdStart s = .next { s with fgWait := some s.rd.syncTime } :=
  if_pos ⟨hwait, (slack_eq s.cfg).trans_le h⟩

theorem rdStart_at_once {s : State} (h : s.fgWait = none → s.rd.syncTime - s.now < s.cfg.sysclkMhz) :
    rdStart s = rdStartNow s :=
  if_neg fun ⟨hwait, hslack⟩ => absurd (h hwait) (not_lt.mpr ((slack_eq s.cfg).symm.trans_le hslack))

/-- The stop path has won: only the wait is cleared. -/
theorem rdStartNow_stopped {s : State} (h : s.rd.state ≠ .starting) :
    rdStartNow s = .next { s with fgWait := none, owed.rdStart := none } := by
  have hcas : casRd .starting .active { s with fgWait := none, owed.rdStart := none } =
      (false, { s with fgWait := none, owed.rdStart := none }) := if_neg h
  rw [rdStartNow, hcas]
  rfl

/-- The state in which the first beat of a read is made. -/
def readStarted (s : State) : State :=
  { s with
    fgWait := none
    owed.rdStart := none
    rd.state := .active
    pin := .af
    rdDma := { s.rdDma with en := true, req := true }
    rdTim := { s.rdTim with en := true, cnt := 0 } }

theorem rdStartNow_starting {s : State} (h : s.rd.state = .starting) : rdStartNow s = rdBeat (readStarted s) := by
  have hcas : casRd .starting .active { s with fgWait := none, owed.rdStart := none } =
      (true, { s with fgWait := none, owed.rdStart := none, rd.state := .active }) := by
    refine (if_pos h).trans ?_
    rw [setRdState_legal (by change s.rd.state.canBecome .active = true; rw [h]; rfl)]
  rw [rdStartNow, hcas]
  rfl

/-- Settles O28: RD_START waits, finds the read stopped, or makes the first beat. -/
theorem readStartRule : Obligations.ReadStartRule := by
  unfold Obligations.ReadStartRule
  refine ⟨⟨rfl, rfl, rfl⟩, fun s hc hf he => operation_refused hc hf (mt (rdStartEnabled_iff hf).mp he),
    fun s hs hloaded hstate hwait hhalf hyield hslack => ?_, fun s hs hloaded hstate hover => ?_,
    fun s hs hloaded hstate hnow => ?_⟩
  · have ⟨_, hfault, hclear⟩ := hs
    exact runsTo_of rfl hs ((rdStartEnabled_iff hfault).mpr ⟨hloaded, .inr ⟨hstate, hwait, hhalf, hyield⟩⟩)
      (rdStart_waits hwait hslack) rfl hclear rfl rfl (List.append_nil _).symm rfl
  · have ⟨_, hfault, hclear⟩ := hs
    have hwaits : s.fgWait ≠ none := by obtain ⟨w, hw, -⟩ := hover; simp [hw]
    have hrun := (rdStart_at_once fun h => absurd h hwaits).trans (rdStartNow_stopped (by simp [hstate]))
    exact runsTo_of rfl hs ((rdStartEnabled_iff hfault).mpr ⟨hloaded, .inl ⟨.inr hstate, hover⟩⟩) hrun rfl hclear
      rfl rfl (List.append_nil _).symm rfl
  · have ⟨hvalid, hfault, hclear⟩ := hs
    have henabled : RdStartEnabled s := by
      refine (rdStartEnabled_iff hfault).mpr ⟨hloaded, hnow.imp (⟨.inl hstate, ·⟩) fun ⟨hwait, hhalf, hslack⟩ => ?_⟩
      exact ⟨hstate, hwait, hhalf, by omega⟩
    have hrun : rdStart s = rdBeat (readStarted s) := by
      refine (rdStart_at_once fun hwait => ?_).trans (rdStartNow_starting hstate)
      obtain ⟨w, hw, -⟩ | ⟨-, -, hslack⟩ := hnow
      · exact absurd (hwait.symm.trans hw) nofun
      · exact hslack
    refine ⟨fun hz => ?_, fun hz => ?_⟩
    · change operation s (RdStartEnabled s) (rdStart s) = _
      rw [operation_run hvalid hfault henabled, hrun, rdBeat_refused (s := readStarted s) hz, andThen_refused]
    · have hwr : s.wr.state = .inactive := write_inactive_of hclear (.inl hstate)
      have hbeat : rdStart s = .next (rdBeatWith (s.mem.rdEntry (rdPos s.toArch)) (readStarted s)) :=
        hrun.trans (rdBeat_loads (s := readStarted s) hz)
      obtain ⟨henv, hcfg⟩ := rdBeatWith_env (s.mem.rdEntry (rdPos s.toArch)) (readStarted s)
      exact runsTo_of rfl hs henabled hbeat (rdBeatWith_toArch _ _)
        (not_Overlap_of_write hwr) hcfg (by rw [henv]; rfl) (by rw [henv, List.append_nil]; rfl) (by rw [henv]; rfl)

/-! ## RD_STOP, alone and inside FG_HANDLE -/

theorem pinRdata_of_disabled {a : Arch} (h : a.rdTim.en = false) : pinRdata a = false := by simp [pinRdata, h]

theorem pinRdata_boundary (s : State) : pinRdata (boundary s).toArch = pinRdata s.toArch := by
  rw [boundary_toArch]
  split <;> rfl

theorem ReadRunning.ne {a : Arch} (h : ReadRunning a) : a.rd.state ≠ .inactive ∧ a.rd.state ≠ .stopping := by
  rcases h with h | h <;> simp [h]

/-- A running read is silenced (R143). -/
theorem readStopped_of_running {r : Nat} {a : Arch} (h : ReadRunning a) : readStopped r a =
    { a with
      rd.state := .stopping
      rdDma.en := false
      rdTim.en := false
      pin := .gpoIdle
      index.timer := if a.index.active then a.index.timer else { armed := true, deadline := a.index.prevTime + r } } :=
  if_neg (not_or.mpr h.ne)

theorem rdStop_running {s : State} (h : ReadRunning s.toArch) : (rdStop s).rd.state = .stopping ∧
    (rdStop s).rdTim.en = false := by
  rw [rdStop_toArch, readStopped_of_running h]
  exact ⟨rfl, rfl⟩

theorem rdStopEnabled_iff {a : Arch} (hf : a.fault = none) : RdStopEnabled a ↔ a.image.loaded = true ∧
    a.fgWait = none ∧ (a.rd.state = .starting ∨ a.rd.state = .active) ∧
      (a.stepper.state = .started ∨ a.stepper.state = .latched ∨ trackOf a.drive ≠ a.rd.track ∨
        a.wr.state ≠ .inactive) := by
  rw [RdStopEnabled, foregroundFree_and hf, StopCondition, StepActive, or_assoc]

theorem ifEnabled_pos {s : State} {e : Prop} {_ : Decidable e} {r : Result} (h : e) : ifEnabled s e r = r := if_pos h

theorem ifEnabled_neg {s : State} {e : Prop} {_ : Decidable e} {r : Result} (h : ¬ e) : ifEnabled s e r = .next s :=
  if_neg h

/-- Under the stop condition the read part of FG_HANDLE is RD_STOP. -/
theorem fgRead_stops {s : State} (h : RdStopEnabled s.toArch) : fgRead s = .next (rdStop s) := by
  have ⟨_, hrun, hstop⟩ := h
  unfold fgRead
  split
  · next hr => exact absurd hr hrun.ne.1
  · rw [if_pos hstop, ifEnabled_pos h]
  · rw [if_pos hstop, ifEnabled_pos h]
  · next hr => exact absurd hr hrun.ne.2

/-- Under the stop condition, with no write begun, FG_HANDLE is RD_STOP. -/
theorem fgHandle_stops {s : State} (h : RdStopEnabled s.toArch) (hw : s.wr.state = .inactive) :
    fgHandle s = .next (fgReturn (rdStop s)) := by
  have ⟨⟨_, hloaded, hwait⟩, hrun, _⟩ := h
  have hwrite : fgWrite s = .next s := by simp only [fgWrite, hw]
  rw [fgHandle, if_neg (by simp [hloaded]), if_pos hwait, fgParts, ifEnabled_neg fun he => hrun.ne.2 he.2, andThen_next,
    hwrite, andThen_next, fgRead_stops h, andThen_next]

/-- A heard write gate that begins a write is `wdata_start` (R161). -/
theorem wgate1_starts {s : State} (hw : s.wr.state = .inactive) (h : (wgate1 s).wr.state = .starting) :
    wgate1 s = wdataStart s := by
  unfold wgate1 at h ⊢
  split at h
  · exact absurd (hw.symm.trans h) nofun
  · next hheard => rw [if_neg hheard, if_neg (not_not_intro hw)]

theorem wdataStart_read {s : State} (hw : s.wr.state = .inactive) :
    (wdataStart s).rd = (rdStop s).rd ∧ (wdataStart s).rdTim = (rdStop s).rdTim := by
  unfold wdataStart
  rw [setWrState_legal (by rw [rdStop_wr, hw]; rfl)]
  exact ⟨rfl, rfl⟩

/-- Settles O32: RD_STOP is `rdata_stop`, which FG_HANDLE and WGATE 1 run too; CANCEL does the same to the read. -/
theorem readStopRule : Obligations.ReadStopRule := by
  unfold Obligations.ReadStopRule
  refine ⟨⟨rfl, rfl, rfl⟩, fun s hc hf he => operation_refused hc hf (mt (rdStopEnabled_iff hf).mp he),
    fun s hs hloaded hwait hrun hstop => ?_, fun s t hs ht hw hstart => ?_, fun s t hs ht => ?_⟩
  · have ⟨_, hfault, hclear⟩ := hs
    have hw : s.wr.state = .inactive := write_inactive_of hclear hrun
    have henabled : RdStopEnabled s.toArch :=
      (rdStopEnabled_iff hfault).mpr ⟨hloaded, hwait, hrun, hstop.imp_right fun h => h.imp_right .inl⟩
    obtain ⟨henv, hcfg⟩ := rdStop_env s
    have harch := (rdStop_toArch s).trans (readStopped_of_running hrun)
    have hreturn : fgReturn (rdStop s) = returning (.reenter true) (rdStop s) := by
      rw [fgReturn, (rdStop_running hrun).1]
      rfl
    refine ⟨runsTo_plain rfl hs henabled harch (not_Overlap_of_write hw) hcfg henv, ?_, pinRdata_of_disabled rfl⟩
    exact runsTo_of rfl hs trivial ((fgHandle_stops henabled hw).trans (congrArg _ hreturn)) harch
      (not_Overlap_of_write hw) hcfg (by rw [returning_trace, henv]) (by rw [returning_calls, henv, List.append_nil]) rfl
  · obtain ⟨-, -, -, u, hu, rfl⟩ := operation_eq_next.mp ht
    obtain rfl := Host.Outcome.next.inj hu
    rw [(boundary_still _).wr] at hstart
    obtain ⟨hrd, htim⟩ := wdataStart_read hw
    rw [pinRdata_boundary, ReadRunning, (boundary_still _).rd, wgate1_starts hw hstart, hrd]
    exact ⟨rdStop_notRunning s, fun hrun => pinRdata_of_disabled (by rw [htim]; exact (rdStop_running hrun).2)⟩
  · obtain ⟨-, -, -, u, hu, rfl⟩ := operation_eq_next.mp ht
    obtain rfl := Host.Outcome.next.inj hu
    obtain ⟨e, heq⟩ := cancelAll_eq s
    rw [(boundary_still _).rd, pinRdata_boundary, heq]
    exact ⟨rfl, pinRdata_of_disabled rfl⟩

end Sys2Proof.Machine
end

section
/-! RD_SEEK (R131, R132): the position and the sync time as the claims word them, the re-check after P2, and the whole
operation with whatever runs at P1 and P2. -/

namespace Sys2Proof.Machine

/-! ## Track, position, sync time -/

theorem trackOf_toNat (d : DriveRegs) : (trackOf d).toNat = d.cyl.toNat * 2 + d.head.toNat := by
  have hcyl := d.cyl.isLt
  cases hhead : d.head <;> simp [trackOf, hhead] <;> omega

theorem trackOf_eq (d : DriveRegs) : trackOf d = BitVec.ofNat 9 (d.cyl.toNat * 2 + d.head.toNat) := by
  rw [← trackOf_toNat, BitVec.ofNat_toNat, BitVec.setWidth_eq]

theorem trackOf_ne_iff (d : DriveRegs) (k : Track) :
    trackOf d ≠ k ↔ d.cyl.toNat * 2 + d.head.toNat ≠ k.toNat := by
  rw [← trackOf_toNat, ne_eq, ne_eq, BitVec.toNat_inj]

theorem ms_eq (c : Config) (x : Nat) : (ms c x : Int) = x * (1000 * c.sysclkMhz) := by
  rw [ms, Nat.mul_assoc]
  push_cast
  rfl

theorem seekAheadOf_eq (s : State) : seekAheadOf s =
    if s.stepper.state = .settling then
      max (10 * (1000 * (s.cfg.sysclkMhz : Int)))
        (s.stepper.start + s.cfg.settleMs * (1000 * (s.cfg.sysclkMhz : Int)) - s.now)
    else 10 * (1000 * (s.cfg.sysclkMhz : Int)) := by
  rw [seekAheadOf, seekAhead, settle, ms_eq, ms_eq]
  rfl

theorem syncPosition_eq (i : Int) (s : State) :
    syncPosition i s = (s.now - i + seekAheadOf s) % (200 * (1000 * s.cfg.sysclkMhz)) := by
  rw [syncPosition, rev, ms_eq]
  rfl

theorem syncTimeFor_eq (i : Int) (p : Word) (s : State) : syncTimeFor i p s =
    if i + p.toNat - s.now < 0 then i + p.toNat + 200 * (1000 * s.cfg.sysclkMhz) else i + p.toNat := by
  rw [syncTimeFor, rev, ms_eq]
  rfl

/-! ## The re-check -/

theorem setRdState_stopping {s : State} (h : s.rd.state = .starting ∨ s.rd.state = .stopping) :
    setRdState .stopping s = { s with rd.state := .stopping } := by
  rcases h with h | h
  · exact setRdState_legal (by rw [h]; rfl)
  · rw [setRdState_same h, ← h]

theorem seekRecheck_eq {k : Track} {s : State} (h : s.rd.state = .starting ∨ s.rd.state = .stopping) :
    seekRecheck k s = { s with rd.state :=
      if s.stepper.state = .started ∨ s.stepper.state = .latched ∨
          s.drive.cyl.toNat * 2 + s.drive.head.toNat ≠ k.toNat ∨ s.wr.state ≠ .inactive then .stopping
      else s.rd.state } := by
  have hcond : (StepActive s.toArch ∨ trackOf s.drive ≠ k ∨ s.wr.state ≠ .inactive) ↔
      (s.stepper.state = .started ∨ s.stepper.state = .latched ∨
        s.drive.cyl.toNat * 2 + s.drive.head.toNat ≠ k.toNat ∨ s.wr.state ≠ .inactive) := by
    rw [StepActive, trackOf_ne_iff, or_assoc]
  unfold seekRecheck
  split
  · next hc => rw [setRdState_stopping h, if_pos (hcond.mp hc)]
  · next hc => rw [if_neg (mt hcond.mpr hc)]

/-- No forbidden pair of ring states comes of the re-check: a write that has begun has stopped the read. -/
theorem seekRecheck_clear {k : Track} {s : State} (h : s.rd.state = .starting ∨ s.rd.state = .stopping)
    (hw : s.wr.state ≠ .active) : ¬ Overlap (seekRecheck k s).toArch := by
  unfold seekRecheck
  split
  · rw [setRdState_stopping h]
    exact not_Overlap_stopping rfl hw
  · next hc => exact not_Overlap_of_write (by simpa using fun hne => hc (.inr (.inr hne)))

/-! ## The whole operation -/

/-- No operation at a preemption point starts a read. -/
theorem preempt_read_inactive {l : List Instr} {s t : State} (h : preempt l s = .next t) (hr : s.rd.state = .inactive) :
    t.rd.state = .inactive := by
  rcases (preempt_moves _ h).read with hsame | ⟨-, hrun, -⟩
  · exact hsame.trans hr
  · exact absurd hr hrun.ne.1

/-- What RD_SEEK leaves when it is not refused: it was enabled and ran, and no forbidden pair stands at its end. -/
theorem execRdSeek_of {s t : State} (hs : Ready s) (he : RdSeekEnabled s.toArch) (h : rdSeek s = .next t)
    (hclear : ¬ Overlap t.toArch) : ∃ u, exec .rdSeek s = .next u ∧ u.toArch = t.toArch ∧ u.env = t.env :=
  have ⟨hvalid, hfault, _⟩ := hs
  ⟨boundary t, operation_eq_next.mpr ⟨hvalid, hfault, he, t, h, rfl⟩, by rw [boundary_of_clear hclear],
    boundary_env t⟩

/-- With nothing at the preemption points the re-check finds nothing. -/
theorem rdSeek_undisturbed {s u : State} (he : RdSeekEnabled s.toArch) (hP1 : s.env.note.atP1 = [])
    (hP2 : s.env.note.atP2 = [])
    (hu : u = askSeek (trackOf s.drive) (some (syncPosition s.index.prevTime s)) s) :
    rdSeek s = .next (if (seekAnswer s).1 then returning .retry u
      else returning .again (seekCommit s.index.prevTime (trackOf s.drive) (seekAnswer s).2 u)) := by
  have ⟨_, hr, hw, hstep⟩ := he
  have hP2' : u.env.note.atP2 = [] := hu ▸ hP2
  have hquiet : seekRecheck (trackOf s.drive) (seekCommit s.index.prevTime (trackOf s.drive) (seekAnswer s).2 u) =
      seekCommit s.index.prevTime (trackOf s.drive) (seekAnswer s).2 u := by
    subst hu
    rw [seekCommit_of_inactive (s := askSeek _ _ s) hr]
    exact if_neg (by simp [hw, not_or.mp hstep])
  refine rdSeek_eq_next.mpr ⟨u, by rw [hP1, hu, preempt], ?_⟩
  cases hbusy : (seekAnswer s).1
  · exact .inr ⟨rfl, _, by rw [hP2', preempt], by rw [hquiet]; rfl⟩
  · exact .inl ⟨rfl, rfl⟩

theorem rdSeekEnabled_iff {a : Arch} (hf : a.fault = none) : RdSeekEnabled a ↔ a.image.loaded = true ∧
    a.fgWait = none ∧ a.rd.state = .inactive ∧ a.wr.state = .inactive ∧
      ¬ (a.stepper.state = .started ∨ a.stepper.state = .latched) := foregroundFree_and hf

/-- Settles O24: RD_SEEK is the seek with P1 and, unless busy, the commit with P2 and the re-check. -/
theorem readSeekRule : Obligations.ReadSeekRule := by
  unfold Obligations.ReadSeekRule
  refine ⟨⟨rfl, rfl, rfl⟩, fun s hc hf he => operation_refused hc hf (mt (rdSeekEnabled_iff hf).mp he),
    fun s hs hloaded hwait hr hw hstep => ?_⟩
  have ⟨_, hfault, hclear⟩ := hs
  have henabled : RdSeekEnabled s.toArch := (rdSeekEnabled_iff hfault).mpr ⟨hloaded, hwait, hr, hw, hstep⟩
  intro track clk ahead pos sync call
  have htrack : trackOf s.drive = track := trackOf_eq s.drive
  have hpos : syncPosition s.index.prevTime s = pos := by rw [syncPosition_eq, seekAheadOf_eq]
  have hcommit : ∀ u : State, u.cfg = s.cfg → u.rd.state = .inactive →
      seekCommit s.index.prevTime track (seekAnswer s).2 u = { u with rd := { u.rd with
        state := .starting
        syncTime := if sync - u.now < 0 then sync + 200 * clk else sync
        track := track
        lastTsi := 0 } } := fun u hcfg hu => by
    rw [seekCommit_of_inactive hu, syncTimeFor_eq, hcfg]
  clear_value track pos
  subst htrack hpos
  refine ⟨fun hP1 hP2 => ⟨fun hbusy => ?_, fun hbusy => ?_⟩,
    fun s1 hs1 _ => ⟨fun hbusy _ hr1 => ?_, fun hbusy s2 hs2 _ hw2 hr2 => ?_⟩⟩
  · have hrun := rdSeek_undisturbed henabled hP1 hP2 rfl
    rw [if_pos hbusy] at hrun
    exact runsTo_of rfl hs henabled hrun rfl hclear rfl rfl rfl rfl
  · have hrun := rdSeek_undisturbed henabled hP1 hP2 rfl
    rw [if_neg (by simp [hbusy]), hcommit (askSeek _ _ s) rfl hr] at hrun
    exact runsTo_of rfl hs henabled hrun rfl (not_Overlap_of_write hw) rfl rfl rfl rfl
  · have hrun := rdSeek_eq_next.mpr ⟨s1, hs1, .inl ⟨hbusy, rfl⟩⟩
    obtain ⟨t, ht, harch, henv⟩ := execRdSeek_of hs henabled hrun (not_Overlap_of_read hr1)
    exact ⟨t, ht, harch, by rw [henv]; rfl⟩
  · obtain ⟨hcfg, -⟩ := given_eq_iff.mp ((preempt_given _ _).of_next hs1)
    have hr1 : s1.rd.state = .inactive := preempt_read_inactive hs1 hr
    rw [← hcommit s1 hcfg hr1] at hs2
    have hrun := rdSeek_eq_next.mpr ⟨s1, hs1, .inr ⟨hbusy, s2, hs2, rfl⟩⟩
    obtain ⟨t, ht, harch, henv⟩ := execRdSeek_of hs henabled hrun (seekRecheck_clear hr2 hw2)
    exact ⟨t, ht, by rw [henv]; rfl, by rw [harch, returning_toArch, seekRecheck_eq hr2]⟩

end Sys2Proof.Machine
end

section
/-! The MFM decoder (42_write_engine.md section 3): how many zeros an interval gives (R165, R166), what `emit` stores
(R167), the word alignment (R168) and the partial word (R169). -/

namespace Sys2Proof.Machine

/-! ## The zeros of an interval (R165, R166) -/

theorem cell_eq (c : Config) : cell c = 2 * c.sysclkMhz := rfl

theorem cellThresh_eq (c : Config) : cellThresh c = 3 * c.sysclkMhz := rfl

/-- The inner loop of R165 emits a zero for each cell taken off, and stops at the first interval within the threshold. -/
theorem emitZeros_eq_iterate {c : Config} (hcell : 0 < cell c) {fuel curr : Nat} (hfuel : curr ≤ fuel) (d : Decoder) :
    ∃ k, emitZeros c fuel curr d = (emit c.mfmWords false)^[k] d ∧ curr ≤ k * cell c + cellThresh c ∧
      ∀ j, j < k → j * cell c + cellThresh c < curr := by
  induction fuel generalizing curr d with
  | zero => exact ⟨0, rfl, by omega, nofun⟩
  | succ fuel ih =>
    by_cases hmore : cellThresh c < curr
    · obtain ⟨k, hzeros, hwithin, hbeyond⟩ := ih (curr := curr - cell c) (by omega) (emit c.mfmWords false d)
      refine ⟨k + 1, ?_, by rw [Nat.succ_mul]; omega, fun j hj => ?_⟩
      · rw [emitZeros, if_pos hmore, hzeros, Function.iterate_succ_apply]
      · cases j with
        | zero => omega
        | succ j =>
          have := hbeyond j (by omega)
          rw [Nat.succ_mul]
          omega
    · exact ⟨0, by rw [emitZeros, if_neg hmore]; rfl, by omega, nofun⟩

/-- Settles O35: the number of turns of the inner loop, at the threshold of 3 us and the cell of 2 us. -/
theorem intervalZeros : Obligations.IntervalZeros := by
  unfold Obligations.IntervalZeros
  intro c curr d hclock
  obtain ⟨k, hzeros, hwithin, hbeyond⟩ := emitZeros_eq_iterate (c := c) (by rw [cell_eq]; omega) (le_refl curr) d
  rw [cell_eq, cellThresh_eq] at hwithin
  simp only [cell_eq, cellThresh_eq] at hbeyond
  refine ⟨k, hzeros, fun hshort => ?_, fun hlong => ?_⟩
  · by_contra hk
    have := hbeyond 0 (by omega)
    omega
  · have hk : 0 < k := by
      by_contra hk
      obtain rfl : k = 0 := by omega
      omega
    exact ⟨hk, hbeyond (k - 1) (by omega), hwithin⟩

/-! ## Stores into `write_mfm.buf` -/

theorem Memory.sameButMfm_putMfm (m : Memory) (words w : Nat) (v : Word) : SameButMfm m (m.putMfm words w v) :=
  ⟨m.rdEntry_putMfm words w v, m.wrEntry_putMfm words w v⟩

/-! ## emit (R167) -/

theorem emit_acc (words : Nat) (b : Bool) (d : Decoder) :
    (emit words b d).acc = (d.acc <<< 1 ||| if b then 1#32 else 0#32) := by
  cases b <;> rfl

theorem emit_bp (words : Nat) (b : Bool) (d : Decoder) : (emit words b d).bp = d.bp + 1 := rfl

theorem emit_mem_between {words : Nat} {b : Bool} {d : Decoder} (h : (d.bp + 1) % 32#32 ≠ 0) :
    (emit words b d).mem = d.mem := if_neg h

theorem emit_mem_full {words : Nat} {b : Bool} {d : Decoder} (h : (d.bp + 1) % 32#32 = 0) :
    (emit words b d).mem = d.mem.putMfm words ((d.bp + 1) / 32#32 - 1).toNat (emit words b d).acc := if_pos h

/-- Settles O36: `emit` stores the new accumulator as one word, when its 32nd bit arrives. -/
theorem emitRule : Obligations.EmitRule := by
  unfold Obligations.EmitRule
  intro words b d _
  refine ⟨emit_acc words b d, emit_bp words b d, emit_mem_between, fun hfull => ?_⟩
  intro w
  rw [emit_mem_full hfull]
  exact ⟨d.mem.mfmWord_putMfm_same words w _, d.mem.mfmByte_putMfm_same words w _ (j := 0) (by decide),
    fun v hv => d.mem.mfmWord_putMfm_other words w v _ hv, d.mem.sameButMfm_putMfm words w _⟩

/-! ## Word alignment (R168) -/

theorem alignSync_acc (syncword : Word) (d : Decoder) : (alignSync syncword d).acc = d.acc := by
  unfold alignSync
  split <;> rfl

theorem alignSync_match {syncword : Word} {d : Decoder} (h : d.acc = syncword) :
    (alignSync syncword d).bp = d.bp &&& ~~~31#32 := by
  rw [alignSync, if_pos h]

theorem alignSync_no_match {syncword : Word} {d : Decoder} (h : d.acc ≠ syncword) : alignSync syncword d = d := if_neg h

/-- Clearing the five low bits takes a position down to a multiple of 32. -/
theorem toNat_and_not_31 (x : Word) : (x &&& ~~~31#32).toNat = x.toNat / 32 * 32 := by
  have hmask : ∀ k < 32, (~~~31#32).getLsbD k = decide (5 ≤ k) := by decide
  have hshift : x &&& ~~~31#32 = (x >>> 5) <<< 5 := by
    refine BitVec.eq_of_getLsbD_eq fun k hk => ?_
    rw [BitVec.getLsbD_and, hmask k hk, BitVec.getLsbD_shiftLeft, BitVec.getLsbD_ushiftRight]
    by_cases hlow : k < 5
    · simp [hlow]
    · simp [hk, hlow, show 5 + (k - 5) = k by omega, Nat.le_of_not_lt hlow]
  rw [hshift, BitVec.toNat_shiftLeft, BitVec.toNat_ushiftRight, Nat.shiftLeft_eq, Nat.shiftRight_eq_div_pow]
  omega

/-! ## The partial word (R169) -/

theorem mod_32_eq_zero_iff (x : Word) : x % 32#32 = 0 ↔ x.toNat % 32 = 0 := by
  rw [← BitVec.toNat_inj, BitVec.toNat_umod]
  rfl

theorem commitPartial_whole {words : Nat} {d : Decoder} (h : d.bp % 32#32 = 0) : commitPartial words d = d := if_pos h

theorem commitPartial_mem {words : Nat} {d : Decoder} (h : d.bp % 32#32 ≠ 0) : (commitPartial words d).mem =
    d.mem.putMfm words (d.bp / 32#32).toNat (d.acc <<< (32 - (d.bp % 32#32).toNat)) := by
  rw [commitPartial, if_neg h]

/-- The partial commit keeps the decoder's own registers. -/
theorem commitPartial_registers (words : Nat) (d : Decoder) :
    (commitPartial words d).acc = d.acc ∧ (commitPartial words d).bp = d.bp := by
  unfold commitPartial
  split <;> exact ⟨rfl, rfl⟩

/-- Settles O37: the alignment clears the five low bits of the position, the partial word is the accumulator shifted
to the top. -/
theorem alignAndPartialWord : Obligations.AlignAndPartialWord := by
  unfold Obligations.AlignAndPartialWord
  refine ⟨fun syncword d => ⟨alignSync_acc syncword d, alignSync_mem syncword d,
    fun hne => by rw [alignSync_no_match hne], fun heq => by rw [alignSync_match heq, toNat_and_not_31]⟩, ?_⟩
  intro words d _ r w
  obtain ⟨hacc, hbp⟩ := commitPartial_registers words d
  have hword : (d.bp / 32#32).toNat = w := BitVec.toNat_udiv
  have hbits : (d.bp % 32#32).toNat = r := BitVec.toNat_umod
  refine ⟨hacc, hbp, fun hr => ?_, fun hr => ?_⟩
  · rw [commitPartial_whole ((mod_32_eq_zero_iff _).mpr hr)]
  · rw [commitPartial_mem (mt (mod_32_eq_zero_iff _).mp hr), hword, hbits]
    refine ⟨fun k hk => ?_, fun v hv => d.mem.mfmWord_putMfm_other words w v _ hv, d.mem.sameButMfm_putMfm words w _⟩
    rw [Memory.mfmWord_putMfm_same, BitVec.getLsbD_shiftLeft]
    by_cases hnew : 32 - r ≤ k
    · rw [if_pos hnew]
      simp [hk, show ¬ k < 32 - r by omega]
    · rw [if_neg hnew]
      simp [show k < 32 - r by omega]

end Sys2Proof.Machine
end

section
/-! WR_SERVICE (R165): the new samples as the claims list them, the words of `write_mfm.buf` a service stores to, and
the whole operation. -/

namespace Sys2Proof.Machine

/-! ## What the decoder leaves of the memory -/

/-- From `m` to `n` nothing changed but, in `write_mfm.buf`, the words with the numbers `stores`. -/
structure StoresOnly (words : Nat) (stores : List Nat) (m n : Memory) : Prop where
  rings : SameButMfm m n
  bytes : ∀ b, (∀ w ∈ stores, b / 4 ≠ w % words) → n.mfmByte b = m.mfmByte b

theorem StoresOnly.none (words : Nat) (m : Memory) : StoresOnly words [] m m :=
  ⟨⟨fun _ => rfl, fun _ => rfl⟩, fun _ _ => rfl⟩

theorem StoresOnly.append {words : Nat} {k l : List Nat} {m n o : Memory} (a : StoresOnly words k m n)
    (b : StoresOnly words l n o) : StoresOnly words (k ++ l) m o where
  rings := ⟨fun j => (b.rings.1 j).trans (a.rings.1 j), fun j => (b.rings.2 j).trans (a.rings.2 j)⟩
  bytes x hx := (b.bytes x fun w hw => hx w (List.mem_append_right k hw)).trans
    (a.bytes x fun w hw => hx w (List.mem_append_left l hw))

theorem Memory.putMfm_storesOnly (m : Memory) (words w : Nat) (v : Word) :
    StoresOnly words [w] m (m.putMfm words w v) where
  rings := m.sameButMfm_putMfm words w v
  bytes b hb := m.mfmByte_putMfm_other words w v (by have := hb w (List.mem_singleton_self w); omega)

theorem emit_storesOnly (words : Nat) (b : Bool) (d : Decoder) :
    StoresOnly words (emitStores d) d.mem (emit words b d).mem := by
  unfold emitStores
  split
  · next hfull => exact emit_mem_full hfull ▸ d.mem.putMfm_storesOnly words _ _
  · next hbetween => exact emit_mem_between hbetween ▸ .none words d.mem

theorem emitZeros_storesOnly (c : Config) (fuel curr : Nat) (d : Decoder) :
    StoresOnly c.mfmWords (zerosStores c fuel curr d) d.mem (emitZeros c fuel curr d).mem := by
  induction fuel generalizing curr d with
  | zero => exact .none _ _
  | succ fuel ih =>
    unfold zerosStores emitZeros
    split
    · exact (emit_storesOnly _ false d).append (ih _ _)
    · exact .none _ _

theorem decodeInterval_storesOnly (c : Config) (syncword : Word) (curr : Sample) (d : Decoder) :
    StoresOnly c.mfmWords (zerosStores c curr.toNat curr.toNat d ++ emitStores (emitZeros c curr.toNat curr.toNat d))
      d.mem (decodeInterval c syncword curr d).mem := by
  rw [decodeInterval, alignSync_mem]
  exact (emitZeros_storesOnly c _ _ d).append (emit_storesOnly _ true _)

theorem decodeSamples_storesOnly (c : Config) (syncword : Word) (samples : List Sample) (prev : Sample) (d : Decoder) :
    StoresOnly c.mfmWords (samplesStores c syncword samples prev d) d.mem
      (decodeSamples c syncword samples prev d).mem := by
  induction samples generalizing prev d with
  | nil => exact .none _ _
  | cons next rest ih => exact (decodeInterval_storesOnly c syncword (next - prev) d).append (ih _ _)

theorem commitPartial_storesOnly (words : Nat) (d : Decoder) :
    StoresOnly words (partialStores d) d.mem (commitPartial words d).mem := by
  unfold partialStores
  split
  · next hwhole => exact (commitPartial_whole hwhole).symm ▸ .none words d.mem
  · next hpartial => exact commitPartial_mem hpartial ▸ d.mem.putMfm_storesOnly words _ _

theorem decodeNew_storesOnly (s : State) : StoresOnly s.cfg.mfmWords (serviceStores s) s.mem (decodeNew s).mem :=
  (decodeSamples_storesOnly s.cfg _ _ _ (decoderOf s)).append (commitPartial_storesOnly _ _)

/-! ## The operation -/

/-- The new samples, by their number from `cons` on. -/
theorem newSamples_eq (a : Arch) : newSamples a =
    (List.range (wrPos a - a.wr.cons).toNat).map fun k => a.mem.wrEntry (a.wr.cons + BitVec.ofNat 10 k) := by
  rw [newSamples, ringDist, Memory.wrSamples_eq]

theorem wrService_idle {s : State} (h : s.wr.state = .inactive) :
    wrService s = { s with irq.wrDma := false, owed.wrService := none } := if_pos h

theorem wrService_decodes {s : State} (h : s.wr.state ≠ .inactive) :
    wrService s = wrServiceDecode { s with irq.wrDma := false, owed.wrService := none } := if_neg h

theorem wrService_env (s : State) : (wrService s).env = s.env ∧ (wrService s).cfg = s.cfg := by
  unfold wrService wrServiceDecode
  dsimp only
  split <;> exact ⟨rfl, rfl⟩

/-- What a service leaves when it decodes. -/
theorem wrServiceDecode_toArch (s : State) : (wrServiceDecode s).toArch = { s.toArch with
    mem := (decodeNew s).mem
    wr := { s.wr with
      cons := wrPos s.toArch, prevSample := (newSamples s.toArch).getLastD s.wr.prevSample
      mfm := (decodeSamples s.cfg s.image.syncword (newSamples s.toArch) s.wr.prevSample (decoderOf s)).acc }
    mfm.prod := (decodeSamples s.cfg s.image.syncword (newSamples s.toArch) s.wr.prevSample (decoderOf s)).bp } := by
  obtain ⟨hacc, hbp⟩ := commitPartial_registers s.cfg.mfmWords
    (decodeSamples s.cfg s.image.syncword (newSamples s.toArch) s.wr.prevSample (decoderOf s))
  rw [← hacc, ← hbp]
  rfl

/-- An enabled WR_SERVICE runs, and leaves the ring states. -/
theorem runsTo_wrService {s : State} {a : Arch} (hs : Ready s) (he : WrServiceEnabled s.toArch)
    (h : (wrService s).toArch = a) : RunsTo .wrService s a := by
  have ⟨_, _, hclear⟩ := hs
  obtain ⟨henv, hcfg⟩ := wrService_env s
  exact runsTo_plain rfl hs he h (h ▸ (wrService_still s).clear hclear) hcfg henv

/-- Settles O34: WR_SERVICE decodes the new samples and commits the partial word, each store at a word it names. -/
theorem writeServiceRule : Obligations.WriteServiceRule := by
  unfold Obligations.WriteServiceRule
  refine ⟨⟨rfl, rfl, rfl⟩, fun s hc hf he => operation_refused hc hf he, fun s hs hpend hdma hinactive => ?_,
    fun s hs hpend hdma hrunning => ?_, fun _ _ _ _ _ _ => ⟨rfl, rfl⟩⟩
  · exact runsTo_wrService hs ⟨hpend, hdma⟩ (by rw [wrService_idle hinactive])
  · intro p samples
    have hsamples : samples = newSamples s.toArch := (newSamples_eq s.toArch).symm
    rw [hsamples]
    obtain ⟨hrings, hbytes⟩ := decodeNew_storesOnly s
    refine ⟨runsTo_wrService hs ⟨hpend, hdma⟩ ?_, hrings, hbytes⟩
    rw [wrService_decodes hrunning]
    exact wrServiceDecode_toArch { s with irq.wrDma := false, owed.wrService := none }

end Sys2Proof.Machine
end

section
/-! The write gate: WGATE 1 (R161, R162, R164) and WGATE 0 (R175). -/

namespace Sys2Proof.Machine

/-! ## WGATE 1 -/

/-- A write gate is not heard: the inputs are not, or no image is mounted. -/
theorem gate_unheard_iff (s : State) : (¬ InputsHeard s ∨ s.image.loaded = false) ↔
    (s.irq.extiEn = false ∨ s.image.loaded = false ∨ (s.cfg.inputsNeedSel = true ∧ s.drive.sel = false)) := by
  rw [InputsHeard, not_and_or, Classical.not_imp, Bool.not_eq_true, Bool.not_eq_true, or_assoc,
    or_comm (a := _ ∧ _)]

theorem wgate1_unheard {s : State} (h : ¬ InputsHeard s ∨ s.image.loaded = false) : wgate1 s = s := if_pos h

theorem wgate1_missed {s : State} (h : ¬ (¬ InputsHeard s ∨ s.image.loaded = false)) (hw : s.wr.state ≠ .inactive) :
    wgate1 s = logError .missedWrite s := (if_neg h).trans (if_pos hw)

theorem wgate1_heard {s : State} (h : ¬ (¬ InputsHeard s ∨ s.image.loaded = false)) (hw : s.wr.state = .inactive) :
    wgate1 s = wdataStart s := (if_neg h).trans (if_neg (not_not_intro hw))

/-- The parts of the block that `wdata_start` reads are those before `rdata_stop`. -/
theorem readStopped_frame (r : Nat) (a : Arch) :
    (readStopped r a).wrDma = a.wrDma ∧ (readStopped r a).wrTim = a.wrTim ∧ (readStopped r a).image = a.image ∧
      (readStopped r a).now = a.now ∧ (readStopped r a).index.prevTime = a.index.prevTime := by
  unfold readStopped
  split <;> exact ⟨rfl, rfl, rfl, rfl, rfl⟩

/-- `wdata_start` after `rdata_stop`, the write engine being Inactive (R161). -/
theorem wdataStart_eq {s : State} (hw : s.wr.state = .inactive) : wdataStart s = { rdStop s with
    wr := { state := .starting, cons := 0, prevSample := 0, mfm := 0 }
    wrDma := { s.wrDma with cndtr := capCount, en := true }
    wrTim := { s.wrTim with cc1e := true, cnt := 0, en := true }
    image.writeStart := BitVec.ofInt 32 (((s.now : Int) - s.index.prevTime) % (rev s.cfg : Int)) } := by
  obtain ⟨hdma, htim, himage, hnow, hprev⟩ := readStopped_frame (rev s.cfg) s.toArch
  rw [← rdStop_toArch] at hdma htim himage hnow hprev
  unfold wdataStart
  rw [setWrState_legal (by rw [rdStop_wr, hw]; rfl)]
  dsimp only
  rw [hdma, htim, hnow, hprev, (rdStop_env s).2, sdiff]

theorem wgate1_env (s : State) : (wgate1 s).env = s.env ∧ (wgate1 s).cfg = s.cfg := by
  by_cases hheard : ¬ InputsHeard s ∨ s.image.loaded = false
  · rw [wgate1_unheard hheard]
    exact ⟨rfl, rfl⟩
  · by_cases hw : s.wr.state = .inactive
    · rw [wgate1_heard hheard hw, wdataStart_eq hw]
      exact rdStop_env s
    · rw [wgate1_missed hheard hw]
      exact ⟨rfl, rfl⟩

/-- WGATE 1 always runs, and no forbidden pair of ring states comes of it. -/
theorem runsTo_wgate1 {s : State} {a : Arch} (hs : Ready s) (h : (wgate1 s).toArch = a) : RunsTo .wgate1 s a := by
  have ⟨_, _, hclear⟩ := hs
  obtain ⟨henv, hcfg⟩ := wgate1_env s
  exact runsTo_plain rfl hs trivial h (h ▸ wgate1_clear hclear) hcfg henv

theorem rev_eq (c : Config) : rev c = 200 * 1000 * c.sysclkMhz := rfl

/-- A heard write gate with the write engine Inactive is `rdata_stop` and the start of the capture (R161). -/
theorem runsTo_wgate1_starts {s : State} (hs : Ready s) (h : ¬ (¬ InputsHeard s ∨ s.image.loaded = false))
    (hw : s.wr.state = .inactive) : RunsTo .wgate1 s { readStopped (rev s.cfg) s.toArch with
      wr := { state := .starting, cons := 0, prevSample := 0, mfm := 0 }
      wrDma := { s.wrDma with cndtr := 1024#11, en := true }
      wrTim := { s.wrTim with cc1e := true, cnt := 0, en := true }
      image.writeStart := BitVec.ofInt 32 (((s.now : Int) - s.index.prevTime) % (rev s.cfg : Int)) } := by
  refine runsTo_wgate1 hs ?_
  rw [wgate1_heard h hw, wdataStart_eq hw]
  dsimp only
  rw [rdStop_toArch]
  rfl

/-- Settles O14: WGATE 1 is not heard, is a missed write, or is `wdata_start`. -/
theorem writeGateOnRule : Obligations.WriteGateOnRule := by
  unfold Obligations.WriteGateOnRule
  refine ⟨⟨rfl, rfl, rfl⟩, fun s hs => ?_⟩
  rw [← gate_unheard_iff, ← rev_eq]
  refine ⟨fun hunheard => ?_, fun hheard hw => ?_, runsTo_wgate1_starts hs⟩
  · exact runsTo_wgate1 hs (by rw [wgate1_unheard hunheard])
  · exact runsTo_wgate1 hs (by rw [wgate1_missed hheard hw, logError_toArch])

/-! ## WGATE 0 -/

theorem wgate0_unheard {s : State} (h : s.irq.extiEn = false ∨ s.wr.state = .inactive ∨ s.wr.state = .stopping) :
    wgate0 s = s := by
  rcases h with hoff | hidle
  · exact if_pos hoff
  · unfold wgate0
    rw [if_pos hidle, ite_self]

/-- A write that has begun is sent Stopping, with capture disabled and the decoder pended (R175). -/
theorem wgate0_stops {s : State} (hen : s.irq.extiEn = true) (hw : s.wr.state = .starting ∨ s.wr.state = .active) :
    wgate0 s = { s with
      wr.state := .stopping
      wrTim := { s.wrTim with en := false, cc1e := false }
      wrDma.en := false
      irq.wrDma := true } := by
  have hlegal : s.wr.state.canBecome .stopping = true := by rcases hw with h | h <;> rw [h] <;> rfl
  have hrunning : ¬ (s.wr.state = .inactive ∨ s.wr.state = .stopping) := by rcases hw with h | h <;> simp [h]
  unfold wgate0
  rw [if_neg (by simp [hen]), if_neg hrunning, setWrState_legal hlegal]
  rfl

/-- WGATE 0 always runs, and no forbidden pair of ring states comes of it. -/
theorem runsTo_wgate0 {s u : State} (hs : Ready s) (h : wgate0 s = u) (hcfg : u.cfg = s.cfg) (henv : u.env = s.env) :
    RunsTo .wgate0 s u.toArch := by
  subst h
  have ⟨_, _, hclear⟩ := hs
  exact runsTo_plain rfl hs trivial rfl (wgate0_clear hclear) hcfg henv

/-- Settles O15: WGATE 0 is not heard, finds no write to end, or ends one. -/
theorem writeGateOffRule : Obligations.WriteGateOffRule := by
  unfold Obligations.WriteGateOffRule
  refine ⟨⟨rfl, rfl, rfl⟩, fun s hs => ⟨fun hidle => ?_, fun hen hw => ?_⟩⟩
  · exact runsTo_wgate0 hs (wgate0_unheard hidle) rfl rfl
  · exact runsTo_wgate0 hs (wgate0_stops hen hw) rfl rfl

end Sys2Proof.Machine
end

section
/-! The foreground operations of the write engine: WR_PUMP (R173), WR_DRAIN (R177, R178), WR_ACTIVATE (R171), and the
FG_HANDLE that turns a read into a write (R179). -/

namespace Sys2Proof.Machine

/-! ## Where `write_track` leaves the consumer (R40) -/

/-- The consumer stays, or goes forward within what is produced. -/
theorem consAnswer_within (s : State) : consAnswer s = s.mfm.cons ∨
    (s.mfm.cons.toNat ≤ (consAnswer s).toNat ∧ (consAnswer s).toNat ≤ s.mfm.prod.toNat) := by
  unfold consAnswer
  dsimp only
  split
  · next hwithin => exact .inr hwithin
  · exact .inl rfl

/-- A value of the trace is taken if it is within range. -/
theorem consAnswer_given {s : State} {v : Word} {rest : List Word} (h : s.env.note.mfmConses = v :: rest)
    (hlow : s.mfm.cons.toNat ≤ v.toNat) (hhigh : v.toNat ≤ s.mfm.prod.toNat) : consAnswer s = v := by
  have hanswer : answer s.env.note.mfmConses Config.freeMfmCons s.env.drawn = v := by rw [h]; rfl
  unfold consAnswer
  rw [hanswer]
  exact if_pos ⟨hlow, hhigh⟩

/-! ## WR_PUMP -/

/-- Without a fault, a condition beside "no fault" is what enables an operation. -/
theorem faultFree_and {a : Arch} {p : Prop} (hf : a.fault = none) : a.fault = none ∧ p ↔ p := by
  simp only [hf, true_and]

/-- Settles O40: WR_PUMP is one `write_track(false)`. -/
theorem writePumpRule : Obligations.WritePumpRule := by
  unfold Obligations.WritePumpRule
  refine ⟨⟨rfl, rfl, rfl⟩, fun s hc hf he => operation_refused hc hf (mt (faultFree_and hf).mp he),
    fun s hs hactive hwait => ⟨consAnswer s, ?_, consAnswer_within s, fun v rest => consAnswer_given⟩⟩
  have ⟨_, hfault, hclear⟩ := hs
  exact runsTo_of rfl hs ⟨hfault, hactive, hwait⟩ rfl (askWriteTrack_toArch false s) hclear rfl rfl rfl rfl

/-! ## WR_DRAIN -/

/-- Samples are left: the image takes what is decoded, and the foreground calls again. -/
theorem wrDrain_again {s : State} (h : s.wr.cons ≠ wrPos s.toArch) :
    wrDrain s = returning .again (askWriteTrack false s) := by
  have hflush : decide (s.wr.cons = wrPos s.toArch) = false := decide_eq_false h
  rw [wrDrain, hflush]
  exact if_pos h

/-- The ring is empty: the write is flushed and ended. -/
theorem wrDrain_ends {s : State} (h : s.wr.cons = wrPos s.toArch) (hstop : s.wr.state = .stopping) : wrDrain s =
    { fileSync (askWriteTrack true s) with
      mfm := { prod := 0, cons := 0 }
      data := { prod := 0, cons := 0 }
      wr.state := .inactive } := by
  have hflush : decide (s.wr.cons = wrPos s.toArch) = true := decide_eq_true h
  rw [wrDrain, hflush]
  exact (if_neg (not_not_intro h)).trans (setWrState_inactive (.inr hstop))

/-- Settles O41: WR_DRAIN asks again while samples are left, and else ends the write. -/
theorem writeDrainRule : Obligations.WriteDrainRule := by
  unfold Obligations.WriteDrainRule
  refine ⟨⟨rfl, rfl, rfl⟩, fun s hc hf he => operation_refused hc hf (mt (faultFree_and hf).mp he),
    fun s hs hstop hread hwait => ?_⟩
  have ⟨_, hfault, _⟩ := hs
  have henabled : WrDrainEnabled s.toArch := ⟨hfault, hstop, hread, hwait⟩
  refine ⟨fun hleft => ⟨consAnswer s, ?_, consAnswer_within s⟩, fun hempty => ?_⟩
  · exact runsTo_of rfl hs henabled (congrArg _ (wrDrain_again hleft)) rfl (not_Overlap_of_read hread) rfl rfl rfl rfl
  · exact runsTo_of rfl hs henabled (congrArg _ (wrDrain_ends hempty hstop)) rfl (not_Overlap_of_read hread) rfl rfl
      (List.append_assoc _ _ _) rfl

/-! ## WR_ACTIVATE -/

/-- The operation's own assertion (R171). -/
theorem wrActivate_overlap {s : State} (hf : s.fault = none) (hrun : ReadRunning s.toArch) :
    wrActivate s = .next { s with fault := some .engineOverlap } := by
  rw [wrActivate, if_pos hrun, raiseFatal, hf]
  rfl

theorem not_ReadRunning_of_inactive {a : Arch} (h : a.rd.state = .inactive) : ¬ ReadRunning a := fun hrun => hrun.ne.1 h

theorem casWr_won {s : State} (h : s.wr.state = .starting) :
    (casWr .starting .active s).2 = { s with wr.state := .active } := by
  rw [casWr, if_pos h]
  exact setWrState_legal (by rw [h]; rfl)

theorem casWr_lost {s : State} (h : s.wr.state ≠ .starting) : (casWr .starting .active s).2 = s := by
  rw [casWr, if_neg h]

/-- WR_ACTIVATE by what its preemption point leaves. -/
theorem wrActivate_of_preempt {s u : State} (hr : s.rd.state = .inactive)
    (h : preempt s.env.note.atP1 (askSeek (trackOf s.drive) none s) = .next u) : wrActivate s =
      .next (if (seekAnswer s).1 then returning .retry u else (casWr .starting .active u).2) := by
  rw [wrActivate, if_neg (not_ReadRunning_of_inactive hr), h, andThen_next]
  split <;> rfl

/-- With nothing at the preemption point and the image not busy the write becomes Active. -/
theorem wrActivate_activates {s : State} (hr : s.rd.state = .inactive) (hw : s.wr.state = .starting)
    (hP1 : s.env.note.atP1 = []) (hbusy : (seekAnswer s).1 = false) :
    wrActivate s = .next { askSeek (trackOf s.drive) none s with wr.state := .active } := by
  rw [wrActivate_of_preempt hr (by rw [hP1]; rfl), hbusy]
  exact congrArg _ (casWr_won (s := askSeek (trackOf s.drive) none s) hw)

theorem wrActivate_busy {s : State} (hr : s.rd.state = .inactive) (hP1 : s.env.note.atP1 = [])
    (hbusy : (seekAnswer s).1 = true) :
    wrActivate s = .next (returning .retry (askSeek (trackOf s.drive) none s)) := by
  rw [wrActivate_of_preempt hr (by rw [hP1]; rfl), hbusy]
  rfl

theorem preempt_wgate0 {s : State} (hf : s.fault = none) : preempt [.wgate0] s = .next (wgate0 s) := by
  have hone : runPreempting .wgate0 s = .next (wgate0 s) := attempt_eq_next.mpr ⟨hf, trivial, rfl⟩
  rw [preempt, hone]
  rfl

/-- A WGATE 0 at the preemption point makes the CAS lose: whatever the image answers, what it leaves stays. -/
theorem wrActivate_wgate0 {s u : State} (hf : s.fault = none) (hr : s.rd.state = .inactive)
    (hP1 : s.env.note.atP1 = [.wgate0]) (hu : wgate0 (askSeek (trackOf s.drive) none s) = u)
    (hstop : u.wr.state = .stopping) :
    wrActivate s = .next (if (seekAnswer s).1 then returning .retry u else u) := by
  rw [wrActivate_of_preempt hr (by rw [hP1, preempt_wgate0 (s := askSeek _ _ s) hf, hu]),
    casWr_lost (by rw [hstop]; nofun)]

/-- Settles O39: WR_ACTIVATE is the seek with its preemption point and a CAS that a WGATE 0 there makes lose. -/
theorem writeActivateRule : Obligations.WriteActivateRule := by
  unfold Obligations.WriteActivateRule
  refine ⟨⟨rfl, rfl, rfl⟩, fun s hc hf he => operation_refused hc hf (mt (faultFree_and hf).mp he),
    fun s hs hstart hread hwait => ?_, fun s => wrActivate_overlap⟩
  have ⟨_, hfault, hclear⟩ := hs
  have henabled : WrActivateEnabled s.toArch := ⟨hfault, hstart, hread, hwait⟩
  rw [← trackOf_eq]
  refine ⟨fun hP1 => ⟨fun hbusy => ?_, fun hbusy => ?_⟩, fun hP1 hen => ?_⟩
  · exact runsTo_of rfl hs henabled (wrActivate_busy hread hP1 hbusy) rfl hclear rfl rfl rfl rfl
  · exact runsTo_of rfl hs henabled (wrActivate_activates hread hstart hP1 hbusy) rfl (not_Overlap_of_read hread)
      rfl rfl rfl rfl
  · have hgate := wgate0_stops (s := askSeek (trackOf s.drive) none s) hen (.inl hstart)
    have hrun := wrActivate_wgate0 hfault hread hP1 hgate rfl
    cases hbusy : (seekAnswer s).1 <;> rw [hbusy] at hrun <;>
      exact ⟨_, runsTo_of rfl hs henabled hrun rfl (not_Overlap_of_read hread) rfl rfl rfl rfl⟩

/-! ## A write gate during a read (R179) -/

/-- The write part of FG_HANDLE activates a write once the read is Inactive. -/
theorem fgWrite_activates {s : State} (hf : s.fault = none) (hwait : s.fgWait = none) (hr : s.rd.state = .inactive)
    (hw : s.wr.state = .starting) (hP1 : s.env.note.atP1 = []) (hbusy : (seekAnswer s).1 = false) :
    fgWrite s = .next { askSeek (trackOf s.drive) none s with wr.state := .active } := by
  simp only [fgWrite, hw]
  rw [ifEnabled_pos ⟨hf, hwait, by rw [hr]; nofun⟩]
  exact wrActivate_activates hr hw hP1 hbusy

/-- During a write the read part of FG_HANDLE begins no read. -/
theorem fgRead_during_write {s : State} (hr : s.rd.state = .inactive) (hw : s.wr.state = .active) :
    fgRead s = .next s := by
  simp only [fgRead, hr]
  exact ifEnabled_neg fun ⟨_, _, hinactive, _⟩ => absurd (hw.symm.trans hinactive) nofun

/-- A read Stopping and a write Starting: the FG_HANDLE that ends the one and, the image not busy, activates the
other. -/
theorem fgHandle_ends_read_activates_write {s u : State} (hf : s.fault = none) (hloaded : s.image.loaded = true)
    (hwait : s.fgWait = none) (hr : s.rd.state = .stopping) (hw : s.wr.state = .starting) (hP1 : s.env.note.atP1 = [])
    (hbusy : (seekAnswer s).1 = false)
    (hu : u = { askSeek (trackOf s.drive) none s with
      rd := { s.rd with state := .inactive, cons := 0, prod := 0, kick := false }
      rdDma.cndtr := capCount
      wr.state := .active }) : fgHandle s = .next (returning (.reenter true) u) := by
  have hwrite : fgWrite (rdFinish s) = .next u := by
    rw [rdFinish_stopping hr, hu]
    exact fgWrite_activates hf hwait rfl hw hP1 hbusy
  have hread : fgRead u = .next u := hu ▸ fgRead_during_write rfl rfl
  have hreturn : fgReturn u = returning (.reenter true) u := by
    rw [fgReturn, show u.wr.state = .active by rw [hu]]
    simp
  rw [fgHandle, if_neg (by simp [hloaded]), if_pos hwait, fgParts, ifEnabled_pos ⟨⟨hf, hloaded, hwait⟩, hr⟩,
    andThen_next, hwrite, andThen_next, hread, andThen_next, hreturn]

/-- Settles O48: WGATE 1 stops the read, the FG_HANDLE after it ends it and activates the write. -/
theorem foregroundTurnsReadIntoWrite : Obligations.ForegroundTurnsReadIntoWrite := by
  unfold Obligations.ForegroundTurnsReadIntoWrite
  intro s hs hactive hwait hloaded hheard
  have ⟨hvalid, hfault, hclear⟩ := hs
  have hrun : ReadRunning s.toArch := .inr hactive
  have hidle : s.wr.state = .inactive := write_inactive_of hclear hrun
  have hgate : ¬ (¬ InputsHeard s ∨ s.image.loaded = false) := by
    rw [not_or, not_not, Bool.not_eq_false]
    exact ⟨hheard, hloaded⟩
  obtain ⟨t, ht, harch, hcfg, -⟩ := runsTo_wgate1_starts hs hgate hidle
  rw [readStopped_of_running hrun] at harch
  have hr : t.rd.state = .stopping := by rw [harch]
  have hw : t.wr.state = .starting := by rw [harch]
  have htim : t.rdTim.en = false := by rw [harch]
  have hf : t.fault = none := by rw [harch]; exact hfault
  refine ⟨t, ht, hr, hw, pinRdata_of_disabled htim, fun n pos hP1 hseek => ?_⟩
  have hready : Ready { t with env.note := n } := ⟨hcfg ▸ hvalid, hf, not_Overlap_stopping hr (by rw [hw]; nofun)⟩
  have hbusy : (seekAnswer { t with env.note := n }).1 = false := by simp [seekAnswer, answer, hseek]
  have hhandle := fgHandle_ends_read_activates_write (s := { t with env.note := n }) hf (by rw [harch]; exact hloaded)
    (by rw [harch]; exact hwait) hr hw hP1 hbusy rfl
  obtain ⟨u, hu, huarch, -, -, -, hret⟩ : RunsTo .fgHandle { t with env.note := n } { t.toArch with
      rd := { t.rd with state := .inactive, cons := 0, prod := 0, kick := false }
      rdDma.cndtr := 1024#11
      wr.state := .active } [.seekTrack (trackOf t.drive) none] (some (.reenter true)) :=
    runsTo_of rfl hready trivial hhandle rfl (not_Overlap_of_read rfl) rfl rfl rfl rfl
  have hmem : t.mem = s.mem := by rw [harch]
  have hsilent : pinRdata u.toArch = false := pinRdata_of_disabled (by rw [huarch]; exact htim)
  refine ⟨u, hu, ?_, ?_, ?_, ?_, ?_, hsilent, ?_, ?_, ?_, hret⟩ <;> rw [huarch]
  exact hmem

end Sys2Proof.Machine
end

section
/-! The index timer (R201 to R204): IDX_FIRE, and the TICK that makes `now` the deadline of a software timer (R202, R225,
R262). -/

namespace Sys2Proof.Machine

/-! ## IDX_FIRE -/

theorem indexHigh_eq (c : Config) : indexHigh c = 2 * 1000 * c.sysclkMhz := rfl

/-- The end of the low phase (R204): the index pulse begins, its end timed from the deadline fired for. -/
theorem idxFire_low {s : State} (h : s.index.active = false) : (idxFire s).toArch = { s.toArch with
    index := {
      active := true
      prevTime := s.index.timer.deadline
      timer := { armed := true, deadline := s.index.timer.deadline + indexHigh s.cfg } }
    outs := muxOutputs pinIndex true s.drive.sel s.outs } := by
  unfold idxFire
  rw [if_neg (by simp [h])]
  rfl

/-- The end of the high phase: the index pulse ends, and but for an Active read the next one is timed. -/
theorem idxFire_high {s : State} (h : s.index.active = true) : (idxFire s).toArch = { s.toArch with
    index := {
      active := false
      prevTime := s.index.prevTime
      timer := if s.rd.state = .active then { armed := false, deadline := s.index.timer.deadline }
        else { armed := true, deadline := s.index.prevTime + rev s.cfg } }
    outs := muxOutputs pinIndex false s.drive.sel s.outs } := by
  unfold idxFire indexDeassert
  rw [if_pos h]
  by_cases hr : s.rd.state = .active
  · simp [hr]
  · simp [hr]

/-- IDX_FIRE runs once the index timer is due, and leaves the ring states. -/
theorem runsTo_idxFire {s : State} {a : Arch} (hs : Ready s) (hdue : s.index.timer.Due s.now)
    (h : (idxFire s).toArch = a) : RunsTo .idxFire s a := by
  have ⟨_, _, hclear⟩ := hs
  obtain ⟨hcfg, henv, -⟩ := idxFire_keeps s
  exact runsTo_plain rfl hs hdue h (h ▸ (idxFire_still s).clear hclear) hcfg henv

/-- Settles O19: IDX_FIRE ends the low phase or the high phase. -/
theorem indexFireRule : Obligations.IndexFireRule := by
  unfold Obligations.IndexFireRule
  refine ⟨⟨rfl, rfl, rfl⟩, fun s hc hf he => operation_refused hc hf he, fun s hs harmed hdeadline =>
    ⟨fun hlow => ?_, fun hhigh => ?_⟩⟩
  · refine runsTo_idxFire hs ⟨harmed, hdeadline⟩ ?_
    rw [idxFire_low hlow, indexHigh_eq]
    push_cast
    rfl
  · refine runsTo_idxFire hs ⟨harmed, hdeadline⟩ ?_
    rw [idxFire_high hhigh, rev_eq]
    push_cast
    rfl

/-! ## The software timers inside a tick (R262) -/

theorem tickTimers_env (s : State) : (tickTimers s).env = s.env := by
  have hidx : (if IdxFireOwed s.toArch then idxFire s else s).env = s.env := by
    split
    · exact (idxFire_keeps s).2.1
    · rfl
  unfold tickTimers
  split
  · dsimp only
    generalize (if IdxFireOwed s.toArch then idxFire s else s) = u at hidx ⊢
    split
    · exact (stepFire_keeps u).2.trans hidx
    · exact hidx
  · rfl

theorem tickTimers_clear {s : State} (ho : ¬ Overlap s.toArch) : ¬ Overlap (tickTimers s).toArch := by
  have hmoves := tickTimers_tick s
  rwa [Overlap_congr hmoves.rd hmoves.wr]

/-- With only the index timer due a tick runs IDX_FIRE alone. -/
theorem tickTimers_index {s : State} (hlat : s.cfg.maxIrqLatency = 0) (hi : s.index.timer.Due s.now)
    (ht : ¬ s.stepper.timer.Due s.now) : tickTimers s = idxFire s := by
  obtain ⟨-, -, hstepper, hnow⟩ := idxFire_keeps s
  have hnot : ¬ StepFireOwed (idxFire s).toArch := by rwa [StepFireOwed, hstepper, hnow]
  unfold tickTimers
  rw [if_pos hlat, if_pos hi]
  exact if_neg hnot

/-- With only the step timer due a tick runs STEP_FIRE alone. -/
theorem tickTimers_stepper {s : State} (hlat : s.cfg.maxIrqLatency = 0) (hi : ¬ s.index.timer.Due s.now)
    (ht : s.stepper.timer.Due s.now) : tickTimers s = stepFire s := by
  unfold tickTimers
  rw [if_pos hlat, if_neg hi]
  exact if_pos ht

/-! ## Ticks up to a deadline -/

/-- The block after `k` ticks that only count, the PWM timer being stopped. -/
def ticksCounted (k : Nat) (a : Arch) : Arch :=
  { a with
    now := a.now + k
    wrTim.cnt := if a.wrTim.en then a.wrTim.cnt + BitVec.ofNat 16 k else a.wrTim.cnt }

theorem ticksCounted_succ (k : Nat) (a : Arch) : ticksCounted 1 (ticksCounted k a) = ticksCounted (k + 1) a := by
  unfold ticksCounted
  cases a.wrTim.en
  · rfl
  · simp only [if_true, BitVec.add_assoc, Nat.add_assoc, BitVec.ofNat_add]

/-- Nothing is owed or waited for, the PWM timer is stopped, and no software timer falls due within `k` ticks. -/
structure Undisturbed (k : Nat) (s : State) : Prop where
  ready : Ready s
  notOwed : ¬ AnyOwed s.toArch
  timer : s.rdTim.en = false
  noWait : s.fgWait = none
  index : ¬ s.index.timer.Due (s.now + k)
  stepper : ¬ s.stepper.timer.Due (s.now + k)

theorem updateGap_stopped (n : Nat) {t : ReadTimer} (h : t.en = false) : updateGap n t = n := if_neg (by simp [h])

theorem Undisturbed.tickTimes_eq {n : Nat} {s : State} (h : Undisturbed n s) :
    tickTimes n s = .next (tickQuiet n s) :=
  tickTimes_quiet n
    (le_quietSpan h.ready h.notOwed h.noWait h.index h.stepper (updateGap_stopped n h.timer).ge le_rfl)

theorem Undisturbed.quiet_toArch {n : Nat} {s : State} (h : Undisturbed n s) :
    (tickQuiet n s).toArch = ticksCounted n s.toArch := by
  rw [tickQuiet_toArch, if_neg (by simp [h.timer])]
  rfl

/-- After `n` undisturbed ticks the next one counts, and then runs what software timers it makes due. -/
theorem Undisturbed.runsTo_next {n : Nat} {s : State} (h : Undisturbed n s) : ∃ v : State,
    v.toArch = ticksCounted (n + 1) s.toArch ∧ v.cfg = s.cfg ∧ RunsTo (.tick (n + 1)) s (tickTimers v).toArch := by
  have ⟨_, hfault, hclear⟩ := h.ready
  have harch := h.quiet_toArch
  obtain ⟨v, hv, hva, hcfg, henv⟩ := tickOne_count (v := tickQuiet n s) (by rw [harch]; exact h.timer)
  have hcounted : v.toArch = ticksCounted (n + 1) s.toArch :=
    hva.trans ((congrArg (ticksCounted 1) harch).trans (ticksCounted_succ n s.toArch))
  have hends : ¬ Overlap (tickTimers v).toArch := tickTimers_clear (by rw [hcounted]; exact hclear)
  have hstep := tickStep_of_tickOne (by rw [harch]; exact hfault)
    (notOwed_quiet h.notOwed h.noWait h.index h.stepper) hv hends
  have hticks := tickTimes_last n h.tickTimes_eq
  rw [hstep] at hticks
  have hvcfg : v.cfg = s.cfg := hcfg.trans (tickQuiet_cfg n s)
  exact ⟨v, hcounted, hvcfg, execTick_runs h.ready hticks rfl hends ((tickTimers_tick v).cfg.trans hvcfg)
    ((tickTimers_env v).trans (henv.trans (tickQuiet_env n s)))⟩

/-- A deadline is not due one tick before it. -/
theorem notDue_before {t : SoftTimer} {now n : Nat} (h : t.deadline = (now : Int) + (n + 1)) : ¬ t.Due (now + n) :=
  fun ⟨_, hd⟩ => by push_cast at hd; omega

/-- Settles O22: all ticks but the last are undisturbed, and the last runs the timer that it makes due. -/
theorem timersFireOnTime : Obligations.TimersFireOnTime := by
  unfold Obligations.TimersFireOnTime
  intro s n hs hlat howed htim hwait u
  have hquiet (hi : ¬ s.index.timer.Due (s.now + n)) (ht : ¬ s.stepper.timer.Due (s.now + n)) : ∃ v : State,
      v.toArch = u.toArch ∧ v.cfg = u.cfg ∧ RunsTo (.tick (n + 1)) s (tickTimers v).toArch :=
    Undisturbed.runsTo_next ⟨hs, howed, htim, hwait, hi, ht⟩
  have hbefore {t : SoftTimer} : ¬ t.Due (s.now + (n + 1)) → ¬ t.Due (s.now + n) := due_mono (by omega)
  refine ⟨fun harmed hdeadline hstepper => ?_, fun harmed hdeadline hindex => ?_, fun hindex hstepper => ?_⟩
  · obtain ⟨v, hv, hcfg, hrun⟩ := hquiet (notDue_before hdeadline) (hbefore hstepper)
    have hdue : v.index.timer.Due v.now := hv ▸ ⟨harmed, hdeadline.le⟩
    rwa [tickTimers_index (hcfg ▸ hlat) hdue (hv ▸ hstepper), idxFire_congr hv hcfg] at hrun
  · obtain ⟨v, hv, hcfg, hrun⟩ := hquiet (hbefore hindex) (notDue_before hdeadline)
    have hdue : v.stepper.timer.Due v.now := hv ▸ ⟨harmed, hdeadline.le⟩
    rwa [tickTimers_stepper (hcfg ▸ hlat) (hv ▸ hindex) hdue, stepFire_congr hv hcfg] at hrun
  · obtain ⟨v, hv, -, hrun⟩ := hquiet (hbefore hindex) (hbefore hstepper)
    rwa [tickTimers_none (hv ▸ hindex) (hv ▸ hstepper), hv] at hrun

end Sys2Proof.Machine
end

section
/-! The step machine (R221 to R228), side select (R232), drive select and the status outputs (R240 to R242). -/

namespace Sys2Proof.Machine

/-! ## STEP -/

/-- A step pulse is not heard: EXTI is disabled, or the inputs need a selection that is not there. -/
theorem step_unheard_iff (s : State) : ¬ InputsHeard s ↔
    (s.irq.extiEn = false ∨ (s.cfg.inputsNeedSel = true ∧ s.drive.sel = false)) := by
  rw [InputsHeard, not_and_or, Classical.not_imp, Bool.not_eq_true, Bool.not_eq_true]

theorem stepPulse_unheard {s : State} (d : Bool) (h : ¬ InputsHeard s) : stepPulse d s = s := if_pos h

/-- Settles O7: STEP is heard or not. -/
theorem stepPulseRule : Obligations.StepPulseRule := by
  unfold Obligations.StepPulseRule
  refine ⟨fun d => by cases d <;> exact ⟨rfl, rfl, rfl⟩, fun d s hs => ?_⟩
  have ⟨_, _, hclear⟩ := hs
  rw [← step_unheard_iff, not_not]
  refine ⟨fun hunheard => ?_, fun hheard => ?_⟩
  · have hrun := stepPulse_unheard d hunheard
    exact runsTo_plain rfl hs trivial (by rw [hrun]) hclear (by rw [hrun]) (by rw [hrun])
  · have hrun := stepPulse_heard d hheard
    exact runsTo_plain rfl hs trivial (by rw [hrun, pendStep_toArch]) hclear (by rw [hrun]; rfl) (by rw [hrun]; rfl)

/-! ## STEP_SOFTIRQ -/

theorem stepLatch_eq (c : Config) : stepLatch c = 2 * 1000 * c.sysclkMhz := rfl

theorem stepSoftirq_other {s : State} (h : s.stepper.state ≠ .started) :
    stepSoftirq s = { s with irq.stepSoft := false, owed.stepSoftirq := none } := if_pos h

theorem stepSoftirq_started {s : State} (h : s.stepper.state = .started) : stepSoftirq s = { s with
    irq.stepSoft := false
    owed.stepSoftirq := none
    stepper := { s.stepper with
      state := .latched
      timer := { armed := true, deadline := s.stepper.start + stepLatch s.cfg } } } := if_neg (not_not_intro h)

/-- Settles O8: STEP_SOFTIRQ clears its request, and latches a started step. -/
theorem stepSoftirqRule : Obligations.StepSoftirqRule := by
  unfold Obligations.StepSoftirqRule
  refine ⟨⟨rfl, rfl, rfl⟩, fun s hc hf he => operation_refused hc hf he, fun s hs hpend => ?_⟩
  have ⟨_, _, hclear⟩ := hs
  refine ⟨fun hother => ?_, fun hstarted => ?_⟩
  · have hrun := stepSoftirq_other hother
    exact runsTo_plain rfl hs hpend (by rw [hrun]) hclear (by rw [hrun]) (by rw [hrun])
  · have hrun := stepSoftirq_started hstarted
    refine runsTo_plain rfl hs hpend ?_ hclear (by rw [hrun]) (by rw [hrun])
    rw [hrun, stepLatch_eq]
    push_cast
    rfl

/-! ## STEP_FIRE -/

theorem settle_eq (c : Config) : settle c = c.settleMs * 1000 * c.sysclkMhz := rfl

/-- In Latched STEP_FIRE clicks, moves the head, drives the track-0 output and settles (R226). -/
theorem stepFire_latched {s : State} (h : s.stepper.state = .latched) : (stepFire s).toArch = { s.toArch with
    clicks := s.clicks + 1
    drive.cyl := stepCyl s.drive.cyl s.stepper.inward
    outs := muxOutputs pinTrk0 (decide (stepCyl s.drive.cyl s.stepper.inward = 0)) s.drive.sel s.outs
    stepper := { s.stepper with
      state := .settling
      timer := { armed := true, deadline := s.stepper.start + settle s.cfg } } } := by
  simp only [stepFire, h]
  rfl

/-- In Settling STEP_FIRE goes Idle (R227). -/
theorem stepFire_settling {s : State} (h : s.stepper.state = .settling) : (stepFire s).toArch =
    { s.toArch with stepper := { s.stepper with state := .idle, timer.armed := false } } := by
  simp [stepFire, settlingFire, casStep, h]

/-- In Started and Idle STEP_FIRE only disarms the timer. -/
theorem stepFire_rest {s : State} (h : s.stepper.state = .started ∨ s.stepper.state = .idle) :
    (stepFire s).toArch = { s.toArch with stepper.timer.armed := false } := by
  rcases h with h | h <;> simp only [stepFire, h]

/-- STEP_FIRE runs once the step timer is due, and leaves the ring states. -/
theorem runsTo_stepFire {s : State} {a : Arch} (hs : Ready s) (hdue : s.stepper.timer.Due s.now)
    (h : (stepFire s).toArch = a) : RunsTo .stepFire s a := by
  have ⟨_, _, hclear⟩ := hs
  obtain ⟨hcfg, henv⟩ := stepFire_keeps s
  exact runsTo_plain rfl hs hdue h (h ▸ stepFire_clear hclear) hcfg henv

/-- Settles O9: STEP_FIRE by the state of the step machine. -/
theorem stepFireRule : Obligations.StepFireRule := by
  unfold Obligations.StepFireRule
  refine ⟨⟨rfl, rfl, rfl⟩, fun s hc hf he => operation_refused hc hf he, fun s hs harmed hdeadline => ?_⟩
  have hdue : s.stepper.timer.Due s.now := ⟨harmed, hdeadline⟩
  refine ⟨fun hlatched => runsTo_stepFire hs hdue ?_, fun hsettling => runsTo_stepFire hs hdue ?_,
    fun hrest => runsTo_stepFire hs hdue (stepFire_rest hrest)⟩
  · rw [stepFire_latched hlatched, settle_eq]
    push_cast
    rfl
  · exact stepFire_settling hsettling

/-! ## step_cyl -/

theorem stepCyl_clamped {cyl : BitVec 8} (h : 84 ≤ cyl.toNat) : stepCyl cyl false = 83#8 := by
  have hle : 84#8 ≤ cyl := h
  simp [stepCyl, hle]

theorem stepCyl_outward {cyl : BitVec 8} (h : cyl.toNat < 84) : (stepCyl cyl false).toNat = cyl.toNat - 1 := by
  have hle : ¬ 84#8 ≤ cyl := Nat.not_le.mpr h
  simp only [stepCyl, Bool.false_eq_true, if_false, if_neg hle]
  split <;> bv_omega

theorem stepCyl_inward {cyl : BitVec 8} (h : cyl.toNat < 255) : (stepCyl cyl true).toNat = cyl.toNat + 1 := by
  have hlt : cyl < 255#8 := h
  simp only [stepCyl, if_true, if_pos hlt]
  bv_omega

theorem stepCyl_ceiling {cyl : BitVec 8} (h : cyl.toNat = 255) : stepCyl cyl true = cyl := by
  have hlt : ¬ cyl < 255#8 := h.ge.not_gt
  simp only [stepCyl, if_true, if_neg hlt]

/-- Settles O10: `step_cyl` by its four ranges, and STEP_FIRE in Latched by its rule. -/
theorem stepCylTable : Obligations.StepCylTable := by
  unfold Obligations.StepCylTable
  refine ⟨fun cyl => ⟨fun h => congrArg BitVec.toNat (stepCyl_clamped h), stepCyl_outward, stepCyl_inward,
    stepCyl_ceiling⟩, fun s hs harmed hdeadline hlatched => ?_⟩
  obtain ⟨t, hexec, harch, -⟩ := runsTo_stepFire hs ⟨harmed, hdeadline⟩ (stepFire_latched hlatched)
  exact ⟨t, hexec, by rw [harch], by rw [harch], by rw [harch]⟩

/-! ## SIDE and SEL -/

/-- Settles O11: SIDE always runs and writes the head. -/
theorem sideSelectRule : Obligations.SideSelectRule := by
  unfold Obligations.SideSelectRule
  refine ⟨fun h => by cases h <;> exact ⟨rfl, rfl, rfl⟩, fun h s hs => ?_⟩
  have ⟨_, _, hclear⟩ := hs
  exact runsTo_plain (u := sideSelect h s) rfl hs trivial rfl hclear rfl rfl

/-- Settles O12: SEL always runs and writes the selection and the port. -/
theorem driveSelectRule : Obligations.DriveSelectRule := by
  unfold Obligations.DriveSelectRule
  refine ⟨fun b => by cases b <;> exact ⟨rfl, rfl, rfl⟩, fun b s hs => ?_⟩
  have ⟨_, _, hclear⟩ := hs
  exact runsTo_plain (u := driveSelect b s) rfl hs trivial rfl hclear rfl rfl

/-! ## CHANGE_OUTPUTS -/

theorem changeOutputs_encodedAs (m : OutSet) (v : Bool) : EncodedAs (.changeOutputs m v)
    (0x43000000#32 ||| (BitVec.ofBool v).setWidth 32 <<< 8 ||| m.setWidth 32) .control := by
  revert m v
  decide

/-- `change_outputs` done twice is done once (R241). -/
theorem muxOutputs_idem (m : OutSet) (v sel : Bool) (o : OutputRegs) :
    muxOutputs m v sel (muxOutputs m v sel o) = muxOutputs m v sel o := by
  cases v <;> cases sel <;> simp [muxOutputs, BitVec.or_assoc, BitVec.and_assoc]

/-- CHANGE_OUTPUTS always runs, and only writes the outputs. -/
theorem runsTo_changeOutputs (m : OutSet) (v : Bool) {s : State} (hs : Ready s) :
    RunsTo (.changeOutputs m v) s { s.toArch with outs := muxOutputs m v s.drive.sel s.outs } := by
  have ⟨_, _, hclear⟩ := hs
  exact runsTo_plain rfl hs trivial (setOutputs_toArch m v s) hclear rfl rfl

/-- Settles O13: CHANGE_OUTPUTS is one `change_outputs`, which is idempotent and leaves a block that runs it again. -/
theorem changeOutputsRule : Obligations.ChangeOutputsRule := by
  unfold Obligations.ChangeOutputsRule
  refine ⟨changeOutputs_encodedAs, fun m v s hs => runsTo_changeOutputs m v hs, fun m v s t hs ht => ?_⟩
  obtain ⟨t', ht', harch, hcfg, -⟩ := runsTo_changeOutputs m v hs
  obtain rfl := Host.Outcome.next.inj (ht'.symm.trans ht)
  have ⟨hvalid, hfault, hclear⟩ := hs
  have hready : Ready t' := ⟨hcfg ▸ hvalid, by rw [harch]; exact hfault, by rw [harch]; exact hclear⟩
  obtain ⟨u, hu, huarch, -⟩ := runsTo_changeOutputs m v hready
  refine ⟨u, hu, ?_⟩
  rw [huarch, harch]
  exact muxOutputs_idem m v s.drive.sel s.outs

end Sys2Proof.Machine
end

section
/-! Who moves the head (R231): STEP_FIRE by one `step_cyl`, a TICK by one inside it, every other operation but INIT only
by a STEP_FIRE at its preemption points. -/

namespace Sys2Proof.Machine

/-- The head moves by `step_cyl` only, at most as often as STEP_FIRE stands in `l`. -/
def HeadWithin (l : List Instr) (s t : State) : Prop :=
  ∃ ds : List Bool, ds.length ≤ l.count .stepFire ∧ t.drive.cyl = ds.foldl stepCyl s.drive.cyl

theorem HeadWithin.of_eq {s t : State} (l : List Instr) (h : t.drive.cyl = s.drive.cyl) : HeadWithin l s t :=
  ⟨[], Nat.zero_le _, h⟩

/-- An operation that runs no STEP_FIRE leaves the head. -/
theorem WriteMoves.head_still {l : List Instr} {s t : State} (h : WriteMoves l s t) (hl : .stepFire ∉ l) :
    t.drive.cyl = s.drive.cyl := by
  obtain ⟨ds, hlen, hcyl⟩ := h.head
  rw [List.count_eq_zero_of_not_mem hl, Nat.le_zero, List.length_eq_zero_iff] at hlen
  rwa [hlen] at hcyl

theorem operation_head {l : List Instr} {s t : State} {e : Prop} {_ : Decidable e} {r : Result}
    (h : ∀ u, e → r = .next u → HeadWithin l s u) (ht : operation s e r = .next t) : HeadWithin l s t := by
  obtain ⟨he, u, hu, k⟩ := operation_next ht
  obtain ⟨ds, hlen, hcyl⟩ := h u he hu
  exact ⟨ds, hlen, k.cyl.trans hcyl⟩

/-- The same for an operation that ends in the state `u` it computes, with the head where it was. -/
theorem operation_next_head {l : List Instr} {s t u : State} {e : Prop} {_ : Decidable e}
    (h : e → u.drive.cyl = s.drive.cyl) (ht : operation s e (.next u) = .next t) : HeadWithin l s t :=
  operation_head (fun _ he hv => Host.Outcome.next.inj hv ▸ .of_eq l (h he)) ht

/-- Every operation but STEP_FIRE, TICK and INIT moves the head at its preemption points only. -/
theorem exec_head {i : Instr} {s t : State} (ht : exec i s = .next t) (hinit : i ≠ .init) (hfire : i ≠ .stepFire)
    (htick : ∀ n, i ≠ .tick n) : HeadWithin (s.env.note.atP1 ++ s.env.note.atP2) s t := by
  cases i with
  | wgate1 => exact operation_next_head (fun _ => (wgate1_moves s).head_still (by simp)) ht
  | wgate0 => exact operation_next_head (fun _ => (wgate0_moves s).head_still (by simp)) ht
  | tick n => exact absurd rfl (htick n)
  | stepFire => exact absurd rfl hfire
  | fgHandle => exact operation_head (fun _ _ hu => (fgHandle_moves hu).head) ht
  | rdSeek => exact operation_head (fun _ _ hu => (rdSeek_moves hu).1.head) ht
  | rdStart => exact operation_head (fun _ _ hu => .of_eq _ ((rdStart_moves hu).1.head_still (by simp))) ht
  | rdStop => exact operation_next_head (fun _ => (rdStop_write s).head_still (by simp)) ht
  | rdFinish => exact operation_next_head (fun _ => (rdFinish_write s).1.head_still (by simp)) ht
  | wrActivate => exact operation_head (fun _ ⟨_, hw, _⟩ hu => ((wrActivate_moves hw hu).1.append _).head) ht
  | wrDrain => exact operation_next_head (fun ⟨_, hw, _⟩ => (wrDrain_moves hw).1.head_still (by simp)) ht
  | init => exact absurd rfl hinit
  | cancel => exact operation_next_head (fun _ => (cancelAll_moves s).2.2) ht
  | step _ | side _ | sel _ | wdataEdge | rdBeat | wrBeat | idxFire | rdService | wrService | stepSoftirq | rdPrefill
  | rdReplenish | wrPump | mount | changeOutputs _ _ => exact .of_eq _ (exec_still ht trivial).cyl

/-- STEP_FIRE moves the head by one `step_cyl` or not at all. -/
theorem execStepFire_head {s t : State} (h : execStepFire s = .next t) :
    t.drive.cyl = s.drive.cyl ∨ t.drive.cyl = stepCyl s.drive.cyl s.stepper.inward := by
  obtain ⟨-, u, hu, k⟩ := operation_next h
  obtain rfl := Host.Outcome.next.inj hu
  exact (stepFire_moves s).2.imp k.cyl.trans k.cyl.trans

/-- Settles O53: STEP_FIRE by what it does, a TICK by the moves of its inner ticks, every other operation by those of
its preemption points. -/
theorem onlyTheStepTimerMovesTheHead : Obligations.OnlyTheStepTimerMovesTheHead := by
  unfold Obligations.OnlyTheStepTimerMovesTheHead
  intro i s t ht hinit
  refine ⟨?_, ?_, exec_head ht hinit⟩
  · rintro (rfl | ⟨n, rfl⟩)
    · exact execStepFire_head ht
    · exact (execTick_moves ht).head.imp (fun ⟨hstill, _⟩ => hstill) fun ⟨_, _, hmoved, _⟩ => hmoved
  · rintro ⟨n, rfl⟩ hlatency
    rcases (execTick_moves ht).head with ⟨hstill, -⟩ | ⟨-, hzero, -⟩
    · exact hstill
    · omega

end Sys2Proof.Machine
end

section
/-! The mux invariant (R243): kept by every operation from every state that has it, through the updates that touch
neither the outputs nor the selection, and the three that do: `change_outputs`, SEL and INIT. -/

namespace Sys2Proof.Machine

/-- Where the operation answers a next state, that state has the mux invariant. -/
def MuxAfter : Result → Prop
  | .next t => MuxOk t.toArch
  | .fault _ | .refused _ => True

/-- The mux invariant, selected and not. -/
theorem muxOk_iff (a : Arch) : MuxOk a ↔
    (a.drive.sel = true → a.outs.port = a.outs.shadow) ∧ (a.drive.sel = false → a.outs.port = 0) := by
  unfold MuxOk
  cases a.drive.sel <;> simp

/-! ## Sequencing and the frame of an operation -/

theorem MuxAfter.of_next {r : Result} {t : State} (h : MuxAfter r) (hr : r = .next t) : MuxOk t.toArch := by
  rwa [hr] at h

theorem MuxAfter.andThen {r : Result} {f : State → Result} (hr : MuxAfter r)
    (hf : ∀ u, MuxOk u.toArch → MuxAfter (f u)) : MuxAfter (andThen r f) := by
  cases r with
  | next u => exact hf u hr
  | fault _ => trivial
  | refused _ => trivial

theorem MuxAfter.ite {c : Prop} {_ : Decidable c} {r q : Result} (hr : MuxAfter r) (hq : MuxAfter q) :
    MuxAfter (if c then r else q) := by
  split
  · exact hr
  · exact hq

theorem muxOk_ite {c : Prop} {_ : Decidable c} {s t : State} (hs : MuxOk s.toArch) (ht : MuxOk t.toArch) :
    MuxOk (if c then s else t).toArch := by
  split
  · exact hs
  · exact ht

theorem boundary_mux {s : State} (h : MuxOk s.toArch) : MuxOk (boundary s).toArch := by
  rw [boundary_toArch]
  split <;> exact h

theorem MuxAfter.operation {s : State} {e : Prop} {_ : Decidable e} {r : Result} (h : MuxAfter r) :
    MuxAfter (operation s e r) :=
  .ite trivial (.ite trivial (.ite (h.andThen fun _ => boundary_mux) trivial))

theorem MuxAfter.attempt {s : State} {e : Prop} {_ : Decidable e} {r : Result} (h : MuxAfter r) :
    MuxAfter (attempt s e r) :=
  .ite trivial (.ite h trivial)

theorem MuxAfter.ifEnabled {s : State} {e : Prop} {_ : Decidable e} {r : Result} (hs : MuxOk s.toArch)
    (h : MuxAfter r) : MuxAfter (ifEnabled s e r) :=
  .ite h hs

/-! ## Guarded writes, outputs, selection -/

theorem setRdState_mux (n : RingState) {s : State} (h : MuxOk s.toArch) : MuxOk (setRdState n s).toArch :=
  muxOk_ite h (muxOk_ite h h)

theorem setWrState_mux (n : RingState) {s : State} (h : MuxOk s.toArch) : MuxOk (setWrState n s).toArch :=
  muxOk_ite h (muxOk_ite h h)

theorem setOutputs_mux (m : OutSet) (v : Bool) {s : State} (h : MuxOk s.toArch) : MuxOk (setOutputs m v s).toArch :=
  muxOutputs_ok m v _ _ h

/-- SEL establishes the mux invariant. -/
theorem driveSelect_mux (b : Bool) (s : State) : MuxOk (driveSelect b s).toArch := rfl

/-! ## What may stand at a preemption point -/

theorem idxFire_mux {s : State} (h : MuxOk s.toArch) : MuxOk (idxFire s).toArch := by
  cases hactive : s.index.active
  · rw [idxFire_low hactive]
    exact muxOutputs_ok _ _ _ _ h
  · rw [idxFire_high hactive]
    exact muxOutputs_ok _ _ _ _ h

theorem stepFire_mux {s : State} (h : MuxOk s.toArch) : MuxOk (stepFire s).toArch := by
  cases hstate : s.stepper.state with
  | latched =>
    rw [stepFire_latched hstate]
    exact muxOutputs_ok _ _ _ _ h
  | settling => rwa [stepFire_settling hstate]
  | started => rwa [stepFire_rest (.inl hstate)]
  | idle => rwa [stepFire_rest (.inr hstate)]

theorem wrBeat_mux {s : State} (h : MuxOk s.toArch) : MuxOk (wrBeat s).toArch := by rwa [wrBeat_toArch]

theorem wdataEdge_mux {s : State} (h : MuxOk s.toArch) : MuxOk (wdataEdge s).toArch :=
  muxOk_ite (muxOk_ite (wrBeat_mux (s := { s with wrTim.ccr1 := s.wrTim.cnt, wrDma.req := true }) h) h) h

theorem rdStop_mux {s : State} (h : MuxOk s.toArch) : MuxOk (rdStop s).toArch := by
  rw [rdStop_toArch, readStopped]
  split <;> exact h

theorem wgate1_mux {s : State} (h : MuxOk s.toArch) : MuxOk (wgate1 s).toArch :=
  muxOk_ite h (muxOk_ite h (setWrState_mux .starting (rdStop_mux h)))

theorem wgate0_mux {s : State} (h : MuxOk s.toArch) : MuxOk (wgate0 s).toArch :=
  muxOk_ite h (muxOk_ite h (setWrState_mux .stopping h))

theorem rdService_mux {s : State} (h : MuxOk s.toArch) : MuxOk (rdService s).toArch := by
  by_cases hactive : s.rd.state = .active
  · obtain ⟨harch, -⟩ := rdService_active_spec hactive rfl rfl rfl
    rwa [harch]
  · rwa [rdService_idle hactive]

theorem wrService_mux {s : State} (h : MuxOk s.toArch) : MuxOk (wrService s).toArch := muxOk_ite h h

theorem runPreempting_mux (i : Instr) {s : State} (h : MuxOk s.toArch) : MuxAfter (runPreempting i s) := by
  cases i with
  | step d => exact .attempt (muxOk_ite h h)
  | side b => exact .attempt h
  | sel b => exact .attempt (driveSelect_mux b s)
  | wgate1 => exact .attempt (wgate1_mux h)
  | wgate0 => exact .attempt (wgate0_mux h)
  | wdataEdge => exact .attempt (wdataEdge_mux h)
  | idxFire => exact .attempt (idxFire_mux h)
  | stepFire => exact .attempt (stepFire_mux h)
  | rdService => exact .attempt (rdService_mux h)
  | wrService => exact .attempt (wrService_mux h)
  | stepSoftirq => exact .attempt (muxOk_ite h h)
  | tick _ | rdBeat | wrBeat | fgHandle | rdSeek | rdPrefill | rdStart | rdReplenish | rdStop | rdFinish
  | wrActivate | wrPump | wrDrain | init | mount | cancel | changeOutputs _ _ => trivial

theorem preempt_mux (l : List Instr) {s : State} (h : MuxOk s.toArch) : MuxAfter (preempt l s) := by
  induction l generalizing s with
  | nil => exact h
  | cons i l ih => exact (runPreempting_mux i h).andThen fun _ => ih

/-! ## The foreground operations -/

theorem rdBeat_mux {s : State} (h : MuxOk s.toArch) : MuxAfter (rdBeat s) := by
  refine .ite trivial ?_
  rwa [MuxAfter, rdBeatWith_toArch]

theorem rdStart_mux {s : State} (h : MuxOk s.toArch) : MuxAfter (rdStart s) := by
  refine .ite h ?_
  unfold rdStartNow casRd
  dsimp only
  split
  · rw [if_pos rfl]
    exact rdBeat_mux (setRdState_mux .active (s := { s with fgWait := none, owed.rdStart := none }) h)
  · exact h

theorem rdFinish_mux {s : State} (h : MuxOk s.toArch) : MuxOk (rdFinish s).toArch := setRdState_mux .inactive h

theorem wrDrain_mux {s : State} (h : MuxOk s.toArch) : MuxOk (wrDrain s).toArch :=
  muxOk_ite h (setWrState_mux .inactive h)

theorem casWr_mux (old new : RingState) {s : State} (h : MuxOk s.toArch) : MuxOk (casWr old new s).2.toArch := by
  unfold casWr
  split
  · exact setWrState_mux new h
  · exact h

theorem wrActivate_mux {s : State} (h : MuxOk s.toArch) : MuxAfter (wrActivate s) := by
  have hseek : MuxAfter (preempt s.env.note.atP1 (askSeek (trackOf s.drive) none s)) := preempt_mux _ h
  exact .ite h (hseek.andThen fun _ hu => .ite hu (casWr_mux .starting .active hu))

theorem rdSeek_mux {s : State} (h : MuxOk s.toArch) : MuxAfter (rdSeek s) := by
  have hseek (p : Int) : MuxAfter (preempt s.env.note.atP1 (askSeek (trackOf s.drive) (some p) s)) := preempt_mux _ h
  have hcommit {u : State} (hu : MuxOk u.toArch) (l : List Instr) :
      MuxAfter (preempt l (barrier (seekCommit s.index.prevTime (trackOf s.drive) (seekAnswer s).2 u))) :=
    preempt_mux l (setRdState_mux .starting hu)
  exact (hseek _).andThen fun _ hu => .ite hu ((hcommit hu _).andThen fun _ hv =>
    muxOk_ite (setRdState_mux .stopping hv) hv)

/-! ## FG_HANDLE -/

theorem fgWrite_mux {s : State} (h : MuxOk s.toArch) : MuxAfter (fgWrite s) := by
  unfold fgWrite
  split
  · exact .ifEnabled h (wrActivate_mux h)
  · exact .ifEnabled h h
  · exact .ifEnabled h (wrDrain_mux h)
  · exact h

theorem fgRead_mux {s : State} (h : MuxOk s.toArch) : MuxAfter (fgRead s) := by
  have hstop : MuxAfter (ifEnabled s (RdStopEnabled s.toArch) (.next (rdStop s))) := .ifEnabled h (rdStop_mux h)
  have hfill : MuxAfter (ifEnabled s (RdPrefillEnabled s) (.next (rdPrefill s))) := .ifEnabled h h
  unfold fgRead
  split
  · exact .ifEnabled h (rdSeek_mux h)
  · exact .ite hstop (hfill.andThen fun _ hu => .ifEnabled hu (rdStart_mux hu))
  · exact .ite hstop (.ifEnabled h (muxOk_ite h h))
  · exact h

theorem fgParts_mux {s : State} (h : MuxOk s.toArch) : MuxAfter (fgParts s) := by
  have hfinish : MuxAfter (ifEnabled s (RdFinishEnabled s.toArch) (.next (rdFinish s))) :=
    .ifEnabled h (rdFinish_mux h)
  exact hfinish.andThen fun _ hu => (fgWrite_mux hu).andThen fun _ hv => (fgRead_mux hv).andThen fun _ hw => hw

theorem fgHandle_mux {s : State} (h : MuxOk s.toArch) : MuxAfter (fgHandle s) := by
  have hstart : MuxAfter (ifEnabled s (RdStartEnabled s) (rdStart s)) := .ifEnabled h (rdStart_mux h)
  exact .ite h (.ite (fgParts_mux h) (.ite (hstart.andThen fun _ => fgParts_mux) h))

/-! ## MOUNT and CANCEL -/

theorem mounted_mux {s : State} (h : MuxOk s.toArch) : MuxOk (mounted s).toArch := by
  unfold mounted
  dsimp only
  split
  · exact setOutputs_mux pinWrprot false (setOutputs_mux pinRdy true (s := s) h)
  · exact setOutputs_mux pinRdy true (s := s) h

theorem mountImage_mux {s : State} (h : MuxOk s.toArch) : MuxOk (mountImage s).toArch :=
  muxOk_ite (mounted_mux (s := askOpen s) h) h

theorem cancelAll_mux {s : State} (h : MuxOk s.toArch) : MuxOk (cancelAll s).toArch := by
  unfold cancelAll
  dsimp only
  rw [cancelRead_eq]
  obtain ⟨env, hwrite⟩ := cancelWrite_eq _
  rw [hwrite]
  exact setOutputs_mux (pinDskchg ||| pinWrprot) true (setOutputs_mux (pinIndex ||| pinRdy) false (s := s) h)

/-! ## TICK -/

theorem tickRdTim_mux {s : State} (h : MuxOk s.toArch) : MuxAfter (tickRdTim s) :=
  .ite h (.ite (.ite (rdBeat_mux (s := { s with rdTim.cnt := 0, rdDma.req := true }) h) h) h)

theorem tickTimers_mux {s : State} (h : MuxOk s.toArch) : MuxOk (tickTimers s).toArch := by
  have hidx : MuxOk (if IdxFireOwed s.toArch then idxFire s else s).toArch := muxOk_ite (idxFire_mux h) h
  exact muxOk_ite (muxOk_ite (stepFire_mux hidx) hidx) h

theorem tickOne_mux {s : State} (h : MuxOk s.toArch) : MuxAfter (tickOne s) :=
  .andThen (tickRdTim_mux (s := { s with now := s.now + 1 }) h) fun _ hu => tickTimers_mux (muxOk_ite hu hu)

theorem tickStep_mux {s : State} (h : MuxOk s.toArch) : MuxAfter (tickStep s) :=
  .ite trivial (.ite ((tickOne_mux h).andThen fun _ => boundary_mux) trivial)

theorem tickTimes_mux (n : Nat) {s : State} (h : MuxOk s.toArch) : MuxAfter (tickTimes n s) := by
  induction n generalizing s with
  | zero => exact h
  | succ n ih => exact (tickStep_mux h).andThen fun _ => ih

theorem execTick_mux (n : Nat) {s : State} (h : MuxOk s.toArch) : MuxAfter (execTick n s) := by
  rw [execTick_eq]
  exact .operation (tickTimes_mux n h)

/-! ## Every operation -/

/-- Every operation keeps the mux invariant. -/
theorem exec_mux (i : Instr) {s : State} (h : MuxOk s.toArch) : MuxAfter (exec i s) := by
  cases i with
  | step d => exact .operation (muxOk_ite h h)
  | side b => exact .operation h
  | sel b => exact .operation (driveSelect_mux b s)
  | wgate1 => exact .operation (wgate1_mux h)
  | wgate0 => exact .operation (wgate0_mux h)
  | wdataEdge => exact .operation (wdataEdge_mux h)
  | tick n => exact execTick_mux n h
  | rdBeat => exact .operation (rdBeat_mux h)
  | wrBeat => exact .operation (wrBeat_mux h)
  | idxFire => exact .operation (idxFire_mux h)
  | stepFire => exact .operation (stepFire_mux h)
  | rdService => exact .operation (rdService_mux h)
  | wrService => exact .operation (wrService_mux h)
  | stepSoftirq => exact .operation (muxOk_ite h h)
  | fgHandle => exact .operation (fgHandle_mux h)
  | rdSeek => exact .operation (rdSeek_mux h)
  | rdPrefill => exact .operation h
  | rdStart => exact .operation (rdStart_mux h)
  | rdReplenish => exact .operation (muxOk_ite h h)
  | rdStop => exact .operation (rdStop_mux h)
  | rdFinish => exact .operation (rdFinish_mux h)
  | wrActivate => exact .operation (wrActivate_mux h)
  | wrPump => exact .operation h
  | wrDrain => exact .operation (wrDrain_mux h)
  | init => exact .ite rfl trivial
  | mount => exact .operation (mountImage_mux h)
  | cancel => exact .operation (cancelAll_mux h)
  | changeOutputs m v => exact .operation (setOutputs_mux m v h)

/-- Settles O55: a step runs one operation on a state that differs in its inputs and outputs only, and every operation
keeps the mux invariant. -/
theorem muxInvariantKept : Obligations.MuxInvariantKept := by
  unfold Obligations.MuxInvariantKept
  refine ⟨fun s t hselected hreleased ht => ?_, (muxOk_iff State.reset.toArch).mp rfl⟩
  obtain ⟨e, rest, i, -, -, hexec⟩ := step_eq_next.mp ht
  have htaken : MuxOk (s.taking e rest).toArch := (muxOk_iff s.toArch).mpr ⟨hselected, hreleased⟩
  exact (muxOk_iff t.toArch).mp ((exec_mux i htaken).of_next hexec)

end Sys2Proof.Machine
end

section
/-! Time, reset and mount: INIT (R48, R266), TICK as the only operation that moves `now` (R260), MOUNT (R268, R269). -/

namespace Sys2Proof.Machine

/-! ## INIT -/

/-- With possible parameters INIT always runs, and leaves the block of R48. -/
theorem runsTo_init {s : State} (hvalid : s.cfg.Valid) : RunsTo .init s (Arch.reset s.cfg (s.mem.epoch + 1)) :=
  ⟨initBlock s, if_pos hvalid, rfl, rfl, rfl, (List.append_nil _).symm, rfl⟩

/-- Settles O42: INIT writes the whole architectural state, and R48's table is read off it field by field. -/
theorem initRule : Obligations.InitRule := by
  unfold Obligations.InitRule
  refine ⟨⟨rfl, rfl, rfl⟩, fun s => runsTo_init, rfl, fun c e => ?_⟩
  and_intros <;> rfl

/-! ## The time -/

theorem execInit_eq_next {s t : State} : execInit s = .next t ↔ s.cfg.Valid ∧ t = initBlock s := by
  unfold execInit
  split
  · next hvalid => exact ⟨fun h => ⟨hvalid, (Host.Outcome.next.inj h).symm⟩, fun h => congrArg _ h.2.symm⟩
  · next hvalid => exact ⟨nofun, fun h => absurd h.1 hvalid⟩

/-- Settles O52: a TICK by its inner ticks, INIT by the reset value, every other operation by what it leaves. -/
theorem onlyTickMovesTime : Obligations.OnlyTickMovesTime := by
  unfold Obligations.OnlyTickMovesTime
  intro i s t h
  cases i with
  | tick n => exact (execTick_log h).now
  | init =>
    obtain ⟨-, rfl⟩ := execInit_eq_next.mp h
    rfl
  | _ => exact (exec_log h nofun nofun).now

/-! ## MOUNT -/

/-- MOUNT after the image opened, as the claims word it. -/
theorem mounted_toArch (s : State) : (mounted s).toArch = { s.toArch with
    image := {
      loaded := true
      writable := writableAnswer s
      syncword := syncwordAnswer (askWritable s)
      writeStart := s.image.writeStart }
    rd := { s.rd with cons := 0, prod := 0, kick := false }
    rdDma.cndtr := capCount
    wr := { s.wr with cons := 0, prevSample := 0, mfm := 0 }
    wrDma.cndtr := capCount
    mfm := { prod := 0, cons := 0 }
    data := { prod := 0, cons := 0 }
    index := { active := false, prevTime := s.now, timer := { armed := true, deadline := s.now + rev s.cfg } }
    outs :=
      if writableAnswer s then
        muxOutputs pinWrprot false s.drive.sel (muxOutputs pinRdy true s.drive.sel s.outs)
      else muxOutputs pinRdy true s.drive.sel s.outs
    irq := { s.irq with extiEn := true, dmaEn := true } } := by
  unfold mounted
  dsimp only
  split
  · next hwritable =>
    rw [if_pos (show writableAnswer s = true from hwritable)]
    rfl
  · next hwritable =>
    rw [if_neg (show ¬ writableAnswer s = true from hwritable)]
    rfl

theorem mounted_env (s : State) : (mounted s).cfg = s.cfg ∧ (mounted s).env.trace = s.env.trace ∧
    (mounted s).env.calls = s.env.calls ∧ (mounted s).env.ret = s.env.ret := by
  unfold mounted
  dsimp only
  split <;> exact ⟨rfl, rfl, rfl, rfl⟩

theorem mountImage_fails {s : State} (h : openAnswer s = false) : mountImage s = askOpen s := if_neg (by simp [h])

theorem mountImage_opens {s : State} (h : openAnswer s = true) : mountImage s = mounted (askOpen s) := if_pos h

/-- Settles O43: MOUNT is the open alone, or the open and what follows it. -/
theorem mountRule : Obligations.MountRule := by
  unfold Obligations.MountRule
  refine ⟨⟨rfl, rfl, rfl⟩, fun s hc hf he => operation_refused hc hf he, fun s hs hempty =>
    ⟨fun hfails => ?_, fun hopens => ?_⟩⟩
  · have ⟨_, _, hclear⟩ := hs
    exact runsTo_of rfl hs hempty (congrArg _ (mountImage_fails hfails)) rfl hclear rfl rfl rfl rfl
  · have ⟨_, _, hclear⟩ := hs
    obtain ⟨hcfg, htrace, hcalls, hret⟩ := mounted_env (askOpen s)
    refine runsTo_of rfl hs hempty (congrArg _ (mountImage_opens hopens)) ?_ hclear hcfg htrace hcalls hret
    rw [mounted_toArch, askOpen_toArch, askOpen_cfg, rev_eq]
    push_cast
    rfl

end Sys2Proof.Machine
end

section
/-! The marks of R261: what a mark says, when they let time pass, and that every operation leaves them up to date. -/

namespace Sys2Proof.Machine

/-! ## When TICK 1 is allowed -/

/-- The marks, one for each handler R261 lists. -/
def OwedSince.marks (o : OwedSince) : List (Option Nat) :=
  [o.rdService, o.wrService, o.stepSoftirq, o.idxFire, o.stepFire, o.rdStart]

theorem tickAllowed_iff_marks (s : State) : tickAllowed s = true ↔
    ∀ t ∈ (s.owed.update s.toArch).marks, mayWait s.cfg.maxIrqLatency s.now t = true := by
  simp [tickAllowed, OwedSince.marks, and_assoc]

/-- A handler may wait while its mark, if it has one, is young enough. -/
theorem mayWait_iff (latency now : Nat) (t : Option Nat) :
    mayWait latency now t = true ↔ ∀ k, t = some k → now - k < latency := by
  cases t <;> simp [mayWait]

/-- With latency 0 no handler with a mark may wait. -/
theorem mayWait_zero_iff (now : Nat) (t : Option Nat) : mayWait 0 now t = true ↔ t = none := by
  cases t <;> simp [mayWait]

theorem owedMark_eq_none_iff (b : Bool) (since : Option Nat) (now : Nat) :
    owedMark b since now = none ↔ b = false := by
  cases b <;> simp [owedMark]

theorem owedMark_decide (p : Prop) [Decidable p] (since : Option Nat) (now : Nat) :
    owedMark (decide p) since now = if p then some (since.getD now) else none := by
  by_cases hp : p <;> simp [owedMark, hp]

/-- A mark stands for each handler that is owed. -/
theorem marks_update_none_iff (o : OwedSince) (a : Arch) :
    (∀ t ∈ (o.update a).marks, t = none) ↔ ¬ AnyOwed a := by
  simp only [OwedSince.marks, OwedSince.update, List.forall_mem_cons, List.not_mem_nil, false_implies, implies_true,
    owedMark_eq_none_iff, decide_eq_false_iff_not, and_true, AnyOwed, not_or, Bool.not_eq_true]

theorem tickAllowed_zero_iff {s : State} (hlat : s.cfg.maxIrqLatency = 0) :
    tickAllowed s = true ↔ ¬ AnyOwed s.toArch := by
  simp only [tickAllowed_iff_marks, hlat, mayWait_zero_iff, marks_update_none_iff]

/-- A tick that R261 does not allow refuses the TICK it begins. -/
theorem execTick_refused {n : Nat} {s : State} (hs : Ready s) (h : tickAllowed s = false) :
    exec (.tick (n + 1)) s = .refused .handlerOwed := by
  have ⟨hvalid, hfault, _⟩ := hs
  have hstep : tickStep s = .refused .handlerOwed := by
    unfold tickStep
    rw [if_neg (not_not_intro hfault), if_neg (by simp [h])]
  change execTick (n + 1) s = _
  rw [execTick_eq, operation_run hvalid hfault trivial, tickTimes, hstep, andThen_refused, andThen_refused]

/-! ## Every operation -/

theorem boundary_marks (s : State) : (boundary s).owed.update (boundary s).toArch = (boundary s).owed :=
  OwedSince.update_idem _ _

theorem operation_marks {s t : State} {e : Prop} {_ : Decidable e} {r : Result} (h : operation s e r = .next t) :
    t.owed.update t.toArch = t.owed := by
  obtain ⟨-, -, -, u, -, rfl⟩ := operation_eq_next.mp h
  exact boundary_marks u

/-- Every operation but INIT runs in the frame of R94. -/
theorem exec_eq_operation (i : Instr) (s : State) (hinit : i ≠ .init) :
    ∃ (e : Prop) (_ : Decidable e) (r : Result), exec i s = operation s e r := by
  cases i with
  | init => exact absurd rfl hinit
  | _ => exact ⟨_, _, _, rfl⟩

/-- Every operation leaves the marks up to date: at its boundary, or by a reset with nothing owed. -/
theorem exec_marks {i : Instr} {s t : State} (h : exec i s = .next t) : t.owed.update t.toArch = t.owed := by
  by_cases hinit : i = .init
  · subst hinit
    obtain ⟨-, rfl⟩ := execInit_eq_next.mp h
    rfl
  · obtain ⟨e, _, r, heq⟩ := exec_eq_operation i s hinit
    exact operation_marks (heq.symm.trans h)

/-- Settles O21: by what a mark says, and by the boundary that brings the marks up to date. -/
theorem tickWaitsForOwedHandlers : Obligations.TickWaitsForOwedHandlers := by
  unfold Obligations.TickWaitsForOwedHandlers
  refine ⟨fun s n hs hlat howed => ?_, fun s => tickAllowed_zero_iff, fun s _ => ?_, fun o a => ?_,
    fun i s t => exec_marks⟩
  · exact execTick_refused hs (Bool.eq_false_iff.mpr fun h => (tickAllowed_zero_iff hlat).mp h howed)
  · simp only [tickAllowed_iff_marks, mayWait_iff, OwedSince.marks]
  · have hwait : (o.update a).rdStart =
        if ∃ w, a.fgWait = some w ∧ w ≤ (a.now : Int) then some (o.rdStart.getD a.now) else none := by
      simp only [OwedSince.update, owedMark, waitOver_iff]
    exact ⟨owedMark_decide _ _ _, owedMark_decide _ _ _, owedMark_decide _ _ _, owedMark_decide _ _ _,
      owedMark_decide _ _ _, hwait⟩

end Sys2Proof.Machine
end

section
/-! FG_HANDLE by its parts (R270), and the FG_HANDLE that does nothing (R271). -/

namespace Sys2Proof.Machine

/-! ## The parts of FG_HANDLE -/

theorem fgWrite_idle {s : State} (h : s.wr.state = .inactive) : fgWrite s = .next s := by simp only [fgWrite, h]

theorem fgWrite_starting {s : State} (h : s.wr.state = .starting) : fgWrite s =
    ifEnabled s (s.fault = none ∧ s.fgWait = none ∧ s.rd.state ≠ .stopping) (wrActivate s) := by
  simp only [fgWrite, h]

theorem fgWrite_active {s : State} (h : s.wr.state = .active) :
    fgWrite s = ifEnabled s (WrPumpEnabled s.toArch) (.next (wrPump s)) := by simp only [fgWrite, h]

theorem fgWrite_stopping {s : State} (h : s.wr.state = .stopping) :
    fgWrite s = ifEnabled s (WrDrainEnabled s.toArch) (.next (wrDrain s)) := by simp only [fgWrite, h]

theorem fgRead_inactive {s : State} (h : s.rd.state = .inactive) :
    fgRead s = ifEnabled s (RdSeekEnabled s.toArch) (rdSeek s) := by simp only [fgRead, h]

theorem fgRead_starting {s : State} (h : s.rd.state = .starting) : fgRead s =
    if StopCondition s.toArch then ifEnabled s (RdStopEnabled s.toArch) (.next (rdStop s))
    else andThen (ifEnabled s (RdPrefillEnabled s) (.next (rdPrefill s))) fun t =>
      ifEnabled t (RdStartEnabled t) (rdStart t) := by simp only [fgRead, h]

theorem fgRead_active {s : State} (h : s.rd.state = .active) : fgRead s =
    if StopCondition s.toArch then ifEnabled s (RdStopEnabled s.toArch) (.next (rdStop s))
    else ifEnabled s (RdReplenishEnabled s.toArch) (.next (rdReplenish s)) := by simp only [fgRead, h]

theorem fgRead_stopping {s : State} (h : s.rd.state = .stopping) : fgRead s = .next s := by simp only [fgRead, h]

/-- The parts of FG_HANDLE after RD_FINISH. -/
def fgTail (s : State) : Result :=
  andThen (fgWrite s) fun t => andThen (fgRead t) fun u => .next (fgReturn u)

theorem fgParts_eq (s : State) :
    fgParts s = andThen (ifEnabled s (RdFinishEnabled s.toArch) (.next (rdFinish s))) fgTail := rfl

/-- Without a read to end FG_HANDLE is its write part and its read part. -/
theorem fgParts_of_not_stopping {s : State} (h : s.rd.state ≠ .stopping) : fgParts s = fgTail s := by
  rw [fgParts_eq, ifEnabled_neg fun he => h he.2, andThen_next]

/-! ## FG_HANDLE with nothing to do -/

/-- The read part begins no read while RD_SEEK is not enabled. -/
theorem fgRead_idle {s : State} (h : s.rd.state = .inactive) (hseek : ¬ RdSeekEnabled s.toArch) :
    fgRead s = .next s := by
  rw [fgRead_inactive h, ifEnabled_neg hseek]

/-- Both engines Inactive and a step active: all parts pass (R270). -/
theorem fgParts_idle {s : State} (hr : s.rd.state = .inactive) (hw : s.wr.state = .inactive)
    (hstep : StepActive s.toArch) : fgParts s = .next (returning (.reenter false) s) := by
  rw [fgParts_of_not_stopping (by rw [hr]; nofun), fgTail, fgWrite_idle hw, andThen_next,
    fgRead_idle hr fun ⟨_, _, _, hno⟩ => hno hstep, andThen_next, fgReturn]
  simp [hr, hw]

theorem fgHandle_unmounted {s : State} (h : s.image.loaded = false) :
    fgHandle s = .next (returning (.reenter false) s) := if_pos h

/-- With an image and no busy-wait FG_HANDLE is its three parts. -/
theorem fgHandle_free {s : State} (hloaded : s.image.loaded = true) (hwait : s.fgWait = none) :
    fgHandle s = fgParts s := by
  rw [fgHandle, if_neg (by simp [hloaded]), if_pos hwait]

theorem fgHandle_waits {s : State} {w : Int} (hloaded : s.image.loaded = true) (hwait : s.fgWait = some w)
    (hlate : (s.now : Int) < w) : fgHandle s = .next (returning (.reenter true) s) := by
  have hover : ¬ waitOver s.toArch = true := by
    rw [waitOver_iff]
    rintro ⟨v, hv, hle⟩
    obtain rfl := Option.some.inj (hwait.symm.trans hv)
    exact absurd hle (not_le.mpr hlate)
  rw [fgHandle, if_neg (by simp [hloaded]), if_neg (by simp [hwait]), if_neg hover]

/-- An FG_HANDLE that only returns. -/
theorem runsTo_fgHandle_returning {s : State} {r : Returned} (hs : Ready s)
    (h : fgHandle s = .next (returning r s)) : RunsTo .fgHandle s s.toArch [] (some r) :=
  have ⟨_, _, hclear⟩ := hs
  runsTo_of rfl hs trivial h rfl hclear rfl rfl (List.append_nil _).symm rfl

/-- Settles O46: nothing is mounted, the busy-wait goes on, or all parts pass. -/
theorem foregroundIdle : Obligations.ForegroundIdle := by
  unfold Obligations.ForegroundIdle
  refine ⟨⟨rfl, rfl, rfl⟩, fun s hs => ⟨fun hempty => ?_, fun hloaded ⟨w, hwait, hlate⟩ => ?_,
    fun hloaded hwait hr hw hstep => ?_⟩⟩
  · exact runsTo_fgHandle_returning hs (fgHandle_unmounted hempty)
  · exact runsTo_fgHandle_returning hs (fgHandle_waits hloaded hwait hlate)
  · exact runsTo_fgHandle_returning hs ((fgHandle_free hloaded hwait).trans (fgParts_idle hr hw hstep))

end Sys2Proof.Machine
end

section
/-! CANCEL (R272), and what stands still after it (R273). -/

namespace Sys2Proof.Machine

/-! ## CANCEL -/

/-- The calls CANCEL makes: a write in progress is flushed. -/
def cancelCalls (w : RingState) : List ImageCall := if w = .inactive then [] else [.writeTrack true, .fileSync]

theorem cancelWrite_calls (s : State) : (cancelWrite s).env.calls = s.env.calls ++ cancelCalls s.wr.state ∧
    (cancelWrite s).env.ret = s.env.ret := by
  have hstop : (if s.wr.state = .starting ∨ s.wr.state = .active then setWrState .stopping s else s).env = s.env := by
    split
    · exact (setWrState_spec .stopping s).2.2.1
    · rfl
  unfold cancelWrite
  dsimp only
  generalize (if s.wr.state = .starting ∨ s.wr.state = .active then setWrState .stopping s else s) = u at hstop ⊢
  rw [(setWrState_spec _ _).2.2.1, cancelCalls, ← hstop]
  by_cases hw : s.wr.state = .inactive
  · rw [if_neg (not_not_intro hw), if_pos hw]
    exact ⟨(List.append_nil _).symm, rfl⟩
  · rw [if_pos hw, if_neg hw]
    exact ⟨List.append_assoc _ _ _, rfl⟩

theorem cancelAll_calls (s : State) : (cancelAll s).env.calls = s.env.calls ++ cancelCalls s.wr.state ∧
    (cancelAll s).env.ret = s.env.ret := by
  unfold cancelAll
  dsimp only
  rw [cancelRead_eq]
  exact cancelWrite_calls _

/-- CANCEL runs in every state without a fault, a forbidden pair of ring states too. -/
theorem runsTo_cancel {s : State} (hvalid : s.cfg.Valid) (hfault : s.fault = none) :
    RunsTo .cancel s (cancelAll s).toArch (cancelCalls s.wr.state) := by
  obtain ⟨hr, -⟩ := cancelAll_moves s
  obtain ⟨hcfg, htrace⟩ := given_eq_iff.mp (cancelAll_given s)
  obtain ⟨hcalls, hret⟩ := cancelAll_calls s
  refine ⟨boundary (cancelAll s), operation_run hvalid hfault trivial, ?_, ?_⟩
  · rw [boundary_of_clear (not_Overlap_of_read hr)]
  · rw [boundary_cfg, boundary_env]
    exact ⟨hcfg, htrace, hcalls, hret⟩

/-- Settles O44: CANCEL by the state and the calls it computes. -/
theorem cancelRule : Obligations.CancelRule := by
  unfold Obligations.CancelRule
  refine ⟨⟨rfl, rfl, rfl⟩, fun s hvalid hfault => ?_⟩
  have hrun := runsTo_cancel hvalid hfault
  obtain ⟨e, heq⟩ := cancelAll_eq s
  rw [heq] at hrun
  exact hrun

/-! ## After CANCEL -/

/-- What MOUNT brings and CANCEL takes away: no image, and the interrupts it is served by disabled. -/
def Unmounted (s : State) : Prop := s.image.loaded = false ∧ s.irq.extiEn = false ∧ s.irq.dmaEn = false

/-- Where the operation answers a next state, the block is still unmounted. -/
def UnmountedAfter : Result → Prop
  | .next t => Unmounted t
  | .fault _ | .refused _ => True

theorem UnmountedAfter.of_next {r : Result} {t : State} (h : UnmountedAfter r) (hr : r = .next t) : Unmounted t := by
  rwa [hr] at h

theorem UnmountedAfter.andThen {r : Result} {f : State → Result} (hr : UnmountedAfter r)
    (hf : ∀ {u}, Unmounted u → UnmountedAfter (f u)) : UnmountedAfter (andThen r f) := by
  cases r with
  | next u => exact hf hr
  | fault _ => trivial
  | refused _ => trivial

theorem UnmountedAfter.ite {c : Prop} {_ : Decidable c} {r q : Result} (hr : c → UnmountedAfter r)
    (hq : UnmountedAfter q) : UnmountedAfter (if c then r else q) := by
  split
  · next hc => exact hr hc
  · exact hq

theorem unmounted_ite {c : Prop} {_ : Decidable c} {s t : State} (hs : Unmounted s) (ht : Unmounted t) :
    Unmounted (if c then s else t) := by
  split
  · exact hs
  · exact ht

theorem boundary_unmounted {s : State} (h : Unmounted s) : Unmounted (boundary s) := by
  unfold Unmounted
  rw [boundary_toArch]
  split <;> exact h

/-- An operation is to be looked at only where it is enabled. -/
theorem UnmountedAfter.operation {s : State} {e : Prop} {_ : Decidable e} {r : Result} (h : e → UnmountedAfter r) :
    UnmountedAfter (operation s e r) :=
  .ite (fun _ => trivial) (.ite (fun _ => trivial) (.ite (fun he => (h he).andThen boundary_unmounted) trivial))

theorem UnmountedAfter.attempt {s : State} {e : Prop} {_ : Decidable e} {r : Result} (h : e → UnmountedAfter r) :
    UnmountedAfter (attempt s e r) :=
  .ite (fun _ => trivial) (.ite h trivial)

/-! ## What needs an image or an interrupt is not heard or not enabled -/

theorem Unmounted.unheard {s : State} (h : Unmounted s) : ¬ InputsHeard s := fun ⟨hexti, _⟩ =>
  nomatch h.2.1.symm.trans hexti

theorem Unmounted.not_free {s : State} (h : Unmounted s) : ¬ ForegroundFree s.toArch := fun ⟨_, hloaded, _⟩ =>
  nomatch h.1.symm.trans hloaded

theorem Unmounted.not_started {s : State} (h : Unmounted s) : ¬ RdStartEnabled s := fun ⟨_, hloaded, _⟩ =>
  nomatch h.1.symm.trans hloaded

theorem Unmounted.no_rdService {s : State} (h : Unmounted s) : ¬ RdServiceEnabled s.toArch := fun ⟨_, hdma⟩ =>
  nomatch h.2.2.symm.trans hdma

theorem Unmounted.no_wrService {s : State} (h : Unmounted s) : ¬ WrServiceEnabled s.toArch := fun ⟨_, hdma⟩ =>
  nomatch h.2.2.symm.trans hdma

theorem Unmounted.stepPulse_eq {s : State} (h : Unmounted s) (d : Bool) : stepPulse d s = s :=
  stepPulse_unheard d h.unheard

theorem Unmounted.wgate1_eq {s : State} (h : Unmounted s) : wgate1 s = s := wgate1_unheard (.inl h.unheard)

theorem Unmounted.wgate0_eq {s : State} (h : Unmounted s) : wgate0 s = s := wgate0_unheard (.inl h.2.1)

/-! ## What runs leaves the image and the enables -/

theorem stepPulse_unmounted (d : Bool) {s : State} (h : Unmounted s) : Unmounted (stepPulse d s) := by
  rwa [h.stepPulse_eq]

theorem wgate1_unmounted {s : State} (h : Unmounted s) : Unmounted (wgate1 s) := by rwa [h.wgate1_eq]

theorem wgate0_unmounted {s : State} (h : Unmounted s) : Unmounted (wgate0 s) := by rwa [h.wgate0_eq]

theorem setWrState_unmounted (n : RingState) {s : State} (h : Unmounted s) : Unmounted (setWrState n s) :=
  unmounted_ite h (unmounted_ite h h)

theorem wrBeat_unmounted {s : State} (h : Unmounted s) : Unmounted (wrBeat s) := unmounted_ite h h

theorem wdataEdge_unmounted {s : State} (h : Unmounted s) : Unmounted (wdataEdge s) :=
  unmounted_ite (unmounted_ite (wrBeat_unmounted (s := { s with wrTim.ccr1 := s.wrTim.cnt, wrDma.req := true }) h) h) h

theorem stepSoftirq_unmounted {s : State} (h : Unmounted s) : Unmounted (stepSoftirq s) := unmounted_ite h h

theorem idxFire_unmounted {s : State} (h : Unmounted s) : Unmounted (idxFire s) :=
  unmounted_ite (unmounted_ite h h) h

theorem stepFire_unmounted {s : State} (h : Unmounted s) : Unmounted (stepFire s) := by
  unfold stepFire
  dsimp only
  split
  · exact h
  · unfold settlingFire casStep
    split <;> exact h
  · exact h
  · exact h

theorem runPreempting_unmounted (i : Instr) {s : State} (h : Unmounted s) : UnmountedAfter (runPreempting i s) := by
  cases i with
  | step d => exact .attempt fun _ => stepPulse_unmounted d h
  | side b => exact .attempt fun _ => h
  | sel b => exact .attempt fun _ => h
  | wgate1 => exact .attempt fun _ => wgate1_unmounted h
  | wgate0 => exact .attempt fun _ => wgate0_unmounted h
  | wdataEdge => exact .attempt fun _ => wdataEdge_unmounted h
  | idxFire => exact .attempt fun _ => idxFire_unmounted h
  | stepFire => exact .attempt fun _ => stepFire_unmounted h
  | rdService => exact .attempt fun he => absurd he h.no_rdService
  | wrService => exact .attempt fun he => absurd he h.no_wrService
  | stepSoftirq => exact .attempt fun _ => stepSoftirq_unmounted h
  | tick _ | rdBeat | wrBeat | fgHandle | rdSeek | rdPrefill | rdStart | rdReplenish | rdStop | rdFinish
  | wrActivate | wrPump | wrDrain | init | mount | cancel | changeOutputs _ _ => trivial

theorem preempt_unmounted (l : List Instr) {s : State} (h : Unmounted s) : UnmountedAfter (preempt l s) := by
  induction l generalizing s with
  | nil => exact h
  | cons i l ih => exact (runPreempting_unmounted i h).andThen ih

theorem wrActivate_unmounted {s : State} (h : Unmounted s) : UnmountedAfter (wrActivate s) := by
  refine .ite (fun _ => h) ((preempt_unmounted _ (s := askSeek _ _ s) h).andThen fun {u} hu => .ite (fun _ => hu) ?_)
  change Unmounted (casWr .starting .active u).2
  unfold casWr
  split
  · exact setWrState_unmounted .active hu
  · exact hu

theorem wrDrain_unmounted {s : State} (h : Unmounted s) : Unmounted (wrDrain s) :=
  unmounted_ite h (setWrState_unmounted .inactive h)

theorem rdBeat_unmounted {s : State} (h : Unmounted s) : UnmountedAfter (rdBeat s) :=
  .ite (fun _ => trivial) (show Unmounted (rdBeatWith _ s) from unmounted_ite h h)

theorem tickRdTim_unmounted {s : State} (h : Unmounted s) : UnmountedAfter (tickRdTim s) :=
  have hbeat : UnmountedAfter (requestRdBeat { s with rdTim.cnt := 0 }) :=
    rdBeat_unmounted (s := { s with rdTim.cnt := 0, rdDma.req := true }) h
  .ite (fun _ => h) (.ite (fun _ => .ite (fun _ => hbeat) h) h)

theorem tickTimers_unmounted {s : State} (h : Unmounted s) : Unmounted (tickTimers s) := by
  have hidx : Unmounted (if IdxFireOwed s.toArch then idxFire s else s) := unmounted_ite (idxFire_unmounted h) h
  exact unmounted_ite (unmounted_ite (stepFire_unmounted hidx) hidx) h

theorem tickStep_unmounted {s : State} (h : Unmounted s) : UnmountedAfter (tickStep s) := by
  have hone : UnmountedAfter (tickOne s) := (tickRdTim_unmounted (s := { s with now := s.now + 1 }) h).andThen
    fun hu => tickTimers_unmounted (unmounted_ite hu hu)
  exact .ite (fun _ => trivial) (.ite (fun _ => hone.andThen boundary_unmounted) trivial)

theorem tickTimes_unmounted (n : Nat) {s : State} (h : Unmounted s) : UnmountedAfter (tickTimes n s) := by
  induction n generalizing s with
  | zero => exact h
  | succ n ih => exact (tickStep_unmounted h).andThen ih

theorem execTick_unmounted (n : Nat) {s : State} (h : Unmounted s) : UnmountedAfter (execTick n s) := by
  rw [execTick_eq]
  exact .operation fun _ => tickTimes_unmounted n h

theorem cancelAll_unmounted (s : State) : Unmounted (cancelAll s) := by
  obtain ⟨e, heq⟩ := cancelAll_eq s
  rw [heq]
  exact ⟨rfl, rfl, rfl⟩

/-- Only MOUNT and INIT bring an unmounted block back. -/
theorem exec_unmounted {i : Instr} {s : State} (h : Unmounted s) (hmount : i ≠ .mount) (hinit : i ≠ .init) :
    UnmountedAfter (exec i s) := by
  cases i with
  | step d => exact .operation fun _ => stepPulse_unmounted d h
  | side b => exact .operation fun _ => h
  | sel b => exact .operation fun _ => h
  | wgate1 => exact .operation fun _ => wgate1_unmounted h
  | wgate0 => exact .operation fun _ => wgate0_unmounted h
  | wdataEdge => exact .operation fun _ => wdataEdge_unmounted h
  | tick n => exact execTick_unmounted n h
  | rdBeat => exact .operation fun _ => rdBeat_unmounted h
  | wrBeat => exact .operation fun _ => wrBeat_unmounted h
  | idxFire => exact .operation fun _ => idxFire_unmounted h
  | stepFire => exact .operation fun _ => stepFire_unmounted h
  | rdService => exact .operation fun he => absurd he h.no_rdService
  | wrService => exact .operation fun he => absurd he h.no_wrService
  | stepSoftirq => exact .operation fun _ => stepSoftirq_unmounted h
  | fgHandle => exact .operation fun _ => fgHandle_unmounted h.1 ▸ h
  | rdSeek => exact .operation fun he => absurd he.1 h.not_free
  | rdPrefill => exact .operation fun he => absurd he.1 h.not_free
  | rdStart => exact .operation fun he => absurd he h.not_started
  | rdReplenish => exact .operation fun he => absurd he.1 h.not_free
  | rdStop => exact .operation fun he => absurd he.1 h.not_free
  | rdFinish => exact .operation fun he => absurd he.1 h.not_free
  | wrActivate => exact .operation fun _ => wrActivate_unmounted h
  | wrPump => exact .operation fun _ => h
  | wrDrain => exact .operation fun _ => wrDrain_unmounted h
  | init => exact absurd rfl hinit
  | mount => exact absurd rfl hmount
  | cancel => exact .operation fun _ => cancelAll_unmounted s
  | changeOutputs m v => exact .operation fun _ => h

/-! ## The state CANCEL leaves -/

/-- What CANCEL leaves is a block in which operations run, unmounted and at rest. -/
theorem execCancel_spec {s t : State} (hs : Ready s) (h : exec .cancel s = .next t) : Ready t ∧ Unmounted t ∧
    t.index.timer.armed = false ∧ t.stepper.timer.armed = false ∧ t.rdTim.en = false ∧ t.wrTim.en = false := by
  have ⟨hvalid, hfault, _⟩ := hs
  obtain ⟨u, hu, harch, hcfg, -⟩ := runsTo_cancel hvalid hfault
  obtain rfl := Host.Outcome.next.inj (hu.symm.trans h)
  obtain ⟨e, heq⟩ := cancelAll_eq s
  rw [heq] at harch
  unfold Ready Unmounted
  rw [hcfg, harch]
  exact ⟨⟨hvalid, hfault, not_Overlap_of_read rfl⟩, ⟨rfl, rfl, rfl⟩, rfl, rfl, rfl, rfl⟩

/-- Settles O45: after CANCEL nothing is mounted, and only MOUNT and INIT change that. -/
theorem afterCancel : Obligations.AfterCancel := by
  unfold Obligations.AfterCancel
  refine ⟨fun s t hs ht => ?_, fun i s t ht hloaded hexti hdma hmount hinit =>
    (exec_unmounted ⟨hloaded, hexti, hdma⟩ hmount hinit).of_next ht⟩
  obtain ⟨hready, hrest, hindex, hstepper, hrd, hwr⟩ := execCancel_spec hs ht
  have ⟨_, _, hclear⟩ := hready
  exact ⟨fun d => runsTo_plain rfl hready trivial (by rw [hrest.stepPulse_eq]) hclear (by rw [hrest.stepPulse_eq])
      (by rw [hrest.stepPulse_eq]),
    runsTo_wgate1 hready (by rw [hrest.wgate1_eq]), runsTo_wgate0 hready hrest.wgate0_eq rfl rfl,
    fun b => sideSelectRule.2 b t hready, fun b => driveSelectRule.2 b t hready, hindex, hstepper, hrd, hwr,
    runsTo_fgHandle_returning hready (fgHandle_unmounted hrest.1)⟩

end Sys2Proof.Machine
end

section
/-! TICK (R262, R106, R111): its event word, TICK as repeated TICK 1, and what one tick counts and fires. -/

namespace Sys2Proof.Machine

/-! ## The event word (R80, R81, R91) -/

theorem opField_eventWord (op : BitVec 8) (arg : BitVec 24) : opField (eventWord op arg) = op :=
  BitVec.extractLsb'_append_eq_left

theorem nField_eventWord (op : BitVec 8) (arg : BitVec 24) : nField (eventWord op arg) = arg.toNat :=
  congrArg BitVec.toNat BitVec.extractLsb'_append_eq_right

/-- A word of a row whose format fixes the whole opcode byte has the opcode of the row. -/
theorem OpcodeRow.fits_opField {r : OpcodeRow} {w : Word} (hmask : opField r.mask = 0xFF#8) (h : r.fits w = true) :
    opField w = opField r.matched := by
  have hbyte : opField (w &&& r.mask) = opField w &&& opField r.mask := BitVec.extractLsb'_and
  rw [← beq_iff_eq.mp h, hbyte, hmask]
  exact BitVec.and_allOnes.symm

theorem decode_of_find {w : Word} {r : OpcodeRow} (h : opcodeRows.find? (·.fits w) = some r) :
    decode w = .ok (r.build w) := by
  rw [decode, h]

/-- The row of TICK. -/
def tickRow : OpcodeRow := ⟨0xFF000000#32, 0x10000000#32, fun w => .tick (nField w)⟩

theorem tickRow_fits (arg : BitVec 24) : tickRow.fits (eventWord 0x10#8 arg) = true := by
  have hmasked : eventWord 0x10#8 arg &&& 0xFF#8 ++ 0#24 = 0x10#8 ++ 0#24 := by
    rw [eventWord, BitVec.and_append, BitVec.and_zero]
    rfl
  exact beq_iff_eq.mpr hmasked

theorem decode_tick (arg : BitVec 24) : decode (eventWord 0x10#8 arg) = .ok (.tick arg.toNat) := by
  have hhost : hostRows.find? (·.fits (eventWord 0x10#8 arg)) = none := by
    refine List.find?_eq_none.mpr fun r hr hfits => ?_
    have hrows : ∀ r ∈ hostRows, opField r.mask = 0xFF#8 ∧ opField r.matched ≠ 0x10#8 := by decide
    obtain ⟨hmask, hother⟩ := hrows r hr
    exact hother ((OpcodeRow.fits_opField hmask hfits).symm.trans (opField_eventWord _ _))
  have hfind : opcodeRows.find? (·.fits (eventWord 0x10#8 arg)) = some tickRow := by
    rw [opcodeRows, List.append_assoc, List.append_assoc, List.find?_append, hhost, Option.none_or]
    exact List.find?_cons_of_pos (p := fun r : OpcodeRow => r.fits (eventWord 0x10#8 arg)) (tickRow_fits arg)
  rw [decode_of_find hfind, ← nField_eventWord 0x10#8 arg]
  rfl

theorem tick_encodedAs {n : Nat} (hn : n < 2 ^ 24) :
    EncodedAs (.tick n) (0x10000000#32 ||| BitVec.ofNat 32 n) .clock := by
  have harg : BitVec.ofNat 32 n = 0#8 ++ BitVec.ofNat 24 n := by
    refine BitVec.eq_of_toNat_eq ?_
    simp only [BitVec.toNat_append, BitVec.toNat_ofNat, Nat.zero_mod, Nat.zero_shiftLeft, Nat.zero_or]
    omega
  have hword : 0x10000000#32 ||| BitVec.ofNat 32 n = eventWord 0x10#8 (BitVec.ofNat 24 n) := by
    rw [harg, show 0x10000000#32 = 0x10#8 ++ 0#24 from rfl, BitVec.or_append, BitVec.zero_or, BitVec.or_zero]
    rfl
  rw [EncodedAs, hword, decode_tick, BitVec.toNat_ofNat, Nat.mod_eq_of_lt hn]
  exact ⟨rfl, rfl, rfl⟩

/-! ## TICK as repeated TICK 1 -/

/-- A boundary changes nothing of a state that has the invariant. -/
theorem boundary_of_inv {s : State} (h : Inv s) : boundary s = s := by
  obtain ⟨-, hclear, hmarks⟩ := h
  rw [boundary_of_clear hclear, hmarks]

/-- From a state that has the invariant TICK ends where its ticks end. -/
theorem execTick_of_inv (n : Nat) {s : State} (h : Inv s) : exec (.tick n) s = tickTimes n s := by
  have ⟨⟨hvalid, hfault, _⟩, _⟩ := h
  change execTick n s = _
  rw [execTick_eq, operation_run hvalid hfault trivial]
  cases hn : tickTimes n s with
  | next u => rw [andThen_next, boundary_of_inv (tickTimes_inv n h hn)]
  | fault _ => rfl
  | refused _ => rfl

theorem execTick_add (m n : Nat) {s : State} (h : Inv s) :
    exec (.tick (m + n)) s = andThen (exec (.tick m) s) fun t => exec (.tick n) t := by
  rw [execTick_of_inv _ h, execTick_of_inv _ h, tickTimes_add]
  cases hm : tickTimes m s with
  | next u => exact (execTick_of_inv n (tickTimes_inv m h hm)).symm
  | fault _ => rfl
  | refused _ => rfl

/-! ## What one tick counts -/

/-- The tick brings an update event of the PWM timer (R106). -/
def updateDue (a : Arch) : Bool := a.rdTim.en && decide (a.rdTim.cnt + 1 = a.rdTim.arr)

/-- The tick makes a beat of the read channel (R106). -/
def beatDue (a : Arch) : Bool := updateDue a && a.rdDma.en

/-- The state after the tick's counting and its beat, before its timers. -/
def ticked (s : State) : State :=
  { s with
    now := s.now + 1
    rdTim := { s.rdTim with
      cnt := if updateDue s.toArch then 0 else if s.rdTim.en then s.rdTim.cnt + 1 else s.rdTim.cnt
      arr := if beatDue s.toArch then s.mem.rdEntry (rdPos s.toArch) else s.rdTim.arr }
    rdDma := if beatDue s.toArch then channelBeaten s.rdDma else s.rdDma
    irq.rdDma := s.irq.rdDma || (beatDue s.toArch && beatPends s.rdDma)
    wrTim.cnt := if s.wrTim.en then s.wrTim.cnt + 1 else s.wrTim.cnt }

theorem rdBeatWith_eq (v : Sample) (s : State) : rdBeatWith v s =
    { s with
      rdTim.arr := v
      rdDma := channelBeaten s.rdDma
      irq.rdDma := s.irq.rdDma || beatPends s.rdDma } := by
  unfold rdBeatWith
  by_cases h : s.rdDma.BeatPends
  · rw [if_pos h, (beatPends_iff _).mpr h, Bool.or_true]
    rfl
  · rw [if_neg h, Bool.eq_false_iff.mpr (mt (beatPends_iff _).mp h), Bool.or_false]
    rfl

theorem tickWrTim_eq (s : State) :
    tickWrTim s = { s with wrTim.cnt := if s.wrTim.en then s.wrTim.cnt + 1 else s.wrTim.cnt } := by
  unfold tickWrTim
  split <;> rfl

theorem updateDue_iff (a : Arch) : updateDue a = true ↔ a.rdTim.en = true ∧ a.rdTim.cnt + 1 = a.rdTim.arr := by
  rw [updateDue, Bool.and_eq_true, decide_eq_true_iff]

theorem beatDue_iff (a : Arch) : beatDue a = true ↔ updateDue a = true ∧ a.rdDma.en = true := Bool.and_eq_true_iff

/-- Without an update event only the counters move. -/
theorem ticked_quiet {s : State} (h : updateDue s.toArch = false) : ticked s = tickWrTim
    { s with now := s.now + 1, rdTim.cnt := if s.rdTim.en then s.rdTim.cnt + 1 else s.rdTim.cnt } := by
  rw [tickWrTim_eq, ticked, beatDue, h]
  simp only [Bool.false_and, Bool.false_eq_true, if_false, Bool.or_false]

/-- An update event with the channel disabled clears the counter and makes no beat. -/
theorem ticked_update {s : State} (h : updateDue s.toArch = true) (hdma : s.rdDma.en = false) :
    ticked s = tickWrTim { s with now := s.now + 1, rdTim.cnt := 0 } := by
  rw [tickWrTim_eq, ticked, beatDue, h, hdma]
  simp only [Bool.and_false, Bool.false_and, Bool.false_eq_true, if_false, if_true, Bool.or_false]

/-- The state in which the beat of an update event is made (R106). -/
def updating (s : State) : State := { s with now := s.now + 1, rdTim.cnt := 0, rdDma.req := true }

theorem ticked_beat {s : State} (h : beatDue s.toArch = true) :
    ticked s = tickWrTim (rdBeatWith (s.mem.rdEntry (rdPos s.toArch)) (updating s)) := by
  obtain ⟨hupdate, -⟩ := (beatDue_iff _).mp h
  rw [tickWrTim_eq, rdBeatWith_eq, ticked, updating, h, hupdate]
  simp only [if_true, Bool.true_and]
  rfl

theorem tickOne_of_tickRdTim {s u : State} (h : tickRdTim { s with now := s.now + 1 } = .next u)
    (hu : tickWrTim u = ticked s) : tickOne s = .next (tickTimers (ticked s)) := by
  rw [tickOne, h, andThen_next, hu]

theorem tickRdTim_beats {s : State} (h : beatDue s.toArch = true) :
    tickRdTim { s with now := s.now + 1 } = rdBeat (updating s) := by
  obtain ⟨hupdate, hdma⟩ := (beatDue_iff _).mp h
  obtain ⟨hen, hcnt⟩ := (updateDue_iff _).mp hupdate
  exact (if_neg (by simp [hen])).trans ((if_pos hcnt).trans (if_pos hdma))

theorem tickRdTim_wraps {s : State} (h : updateDue s.toArch = true) (hdma : s.rdDma.en = false) :
    tickRdTim { s with now := s.now + 1 } = .next { s with now := s.now + 1, rdTim.cnt := 0 } := by
  obtain ⟨hen, hcnt⟩ := (updateDue_iff _).mp h
  exact (if_neg (by simp [hen])).trans ((if_pos hcnt).trans (if_neg (by simp [hdma])))

theorem tickRdTim_counts {s : State} (h : updateDue s.toArch = false) : tickRdTim { s with now := s.now + 1 } =
    .next { s with now := s.now + 1, rdTim.cnt := if s.rdTim.en then s.rdTim.cnt + 1 else s.rdTim.cnt } := by
  by_cases hen : s.rdTim.en = true
  · have hcnt : s.rdTim.cnt + 1 ≠ s.rdTim.arr := fun hcnt =>
      nomatch h.symm.trans ((updateDue_iff _).mpr ⟨hen, hcnt⟩)
    rw [if_pos hen]
    exact (if_neg (by simp [hen])).trans (if_neg hcnt)
  · rw [if_neg hen]
    exact if_pos (Bool.eq_false_iff.mpr hen)

theorem tickOne_refused {s : State} (h : beatDue s.toArch = true) (hz : s.mem.rdEntry (rdPos s.toArch) = 0) :
    tickOne s = .refused .zeroFluxSample := by
  rw [tickOne, tickRdTim_beats h, rdBeat_refused (s := updating s) hz, andThen_refused]

/-- A tick whose beat, if it makes one, finds a sample. -/
theorem tickOne_eq {s : State} (hz : beatDue s.toArch = true → s.mem.rdEntry (rdPos s.toArch) ≠ 0) :
    tickOne s = .next (tickTimers (ticked s)) := by
  cases hupdate : updateDue s.toArch
  case false => exact tickOne_of_tickRdTim (tickRdTim_counts hupdate) (ticked_quiet hupdate).symm
  cases hdma : s.rdDma.en
  case false => exact tickOne_of_tickRdTim (tickRdTim_wraps hupdate hdma) (ticked_update hupdate hdma).symm
  have hbeat : beatDue s.toArch = true := (beatDue_iff _).mpr ⟨hupdate, hdma⟩
  exact tickOne_of_tickRdTim ((tickRdTim_beats hbeat).trans (rdBeat_loads (s := updating s) (hz hbeat)))
    (ticked_beat hbeat).symm

/-- The software timers of a tick, one after the other. -/
theorem tickTimers_eq {s v : State}
    (hv : v = if s.cfg.maxIrqLatency = 0 ∧ IdxFireOwed s.toArch then idxFire s else s) :
    tickTimers s = if s.cfg.maxIrqLatency = 0 ∧ StepFireOwed v.toArch then stepFire v else v := by
  subst hv
  unfold tickTimers
  by_cases hlat : s.cfg.maxIrqLatency = 0
  · simp only [hlat, true_and, if_true]
  · simp only [hlat, false_and, if_false]

/-! ## The operation -/

/-- TICK 1 where R261 allows it is one tick. -/
theorem tickTimes_one {s : State} (hfault : s.fault = none) (hallowed : tickAllowed s = true) :
    tickTimes 1 s = andThen (tickOne s) fun t => .next (boundary t) := by
  have hstep : tickStep s = andThen (tickOne s) fun t => .next (boundary t) := by
    rw [tickStep, if_neg (not_not_intro hfault), if_pos hallowed]
  exact (tickTimes_last 0 rfl).trans hstep

theorem execTick_one_refused {s : State} (hs : Ready s) (hallowed : tickAllowed s = true)
    (hbeat : beatDue s.toArch = true) (hz : s.mem.rdEntry (rdPos s.toArch) = 0) :
    exec (.tick 1) s = .refused .zeroFluxSample := by
  have ⟨hvalid, hfault, _⟩ := hs
  change execTick 1 s = _
  rw [execTick_eq, operation_run hvalid hfault trivial, tickTimes_one hfault hallowed, tickOne_refused hbeat hz]
  rfl

theorem runsTo_tick_one {s : State} (hs : Ready s) (hallowed : tickAllowed s = true)
    (hz : beatDue s.toArch = true → s.mem.rdEntry (rdPos s.toArch) ≠ 0) :
    RunsTo (.tick 1) s (tickTimers (ticked s)).toArch := by
  have ⟨_, hfault, hclear⟩ := hs
  have hends : ¬ Overlap (tickTimers (ticked s)).toArch := tickTimers_clear (s := ticked s) hclear
  have hone : tickTimes 1 s = .next (boundary (tickTimers (ticked s))) := by
    rw [tickTimes_one hfault hallowed, tickOne_eq hz, andThen_next]
  refine execTick_runs hs hone (by rw [boundary_of_clear hends]) hends ?_ ?_
  · rw [boundary_cfg, (tickTimers_tick _).cfg]
    rfl
  · rw [boundary_env, tickTimers_env]
    rfl

/-- Settles O20: TICK by its repeated ticks, and one tick by what it counts and the timers it fires. -/
theorem tickRule : Obligations.TickRule := by
  unfold Obligations.TickRule
  refine ⟨fun n => tick_encodedAs, fun s hs => ?_, fun m n s => execTick_add m n, fun s hs =>
    ⟨execTick_refused (n := 0) hs, fun hallowed => ⟨execTick_one_refused hs hallowed, fun hz => ?_⟩⟩⟩
  · have ⟨_, _, hclear⟩ := hs
    exact execTick_runs hs rfl rfl hclear rfl rfl
  · have hrun := runsTo_tick_one hs hallowed hz
    rw [tickTimers_eq rfl] at hrun
    exact hrun

end Sys2Proof.Machine
end

section
/-! No operation reads the marks of R261: from states that differ in them alone, the parts of FG_HANDLE and what may
stand at their preemption points end in states that differ in them alone. -/

namespace Sys2Proof.Machine

/-! ## The relation -/

/-- Two states that are alike but for the marks of R261. -/
inductive Alike : State → State → Prop
  | mk (a : Arch) (c : Config) (o p : OwedSince) (e : Env) : Alike ⟨a, c, o, e⟩ ⟨a, c, p, e⟩

/-- Two outcomes that are alike: the same stop, or next states that are alike. -/
inductive AlikeResults : Result → Result → Prop
  | next {s t : State} (h : Alike s t) : AlikeResults (.next s) (.next t)
  | fault (r : Fault) : AlikeResults (.fault r) (.fault r)
  | refused (r : Refusal) : AlikeResults (.refused r) (.refused r)

theorem Alike.of_eq {s t : State} (harch : t.toArch = s.toArch) (hcfg : t.cfg = s.cfg) (henv : t.env = s.env) :
    Alike s t := by
  obtain ⟨a, c, o, e⟩ := s
  obtain ⟨a', c', p, e'⟩ := t
  obtain rfl : a' = a := harch
  obtain rfl : c' = c := hcfg
  obtain rfl : e' = e := henv
  exact .mk _ _ _ _ _

theorem Alike.toArch {s t : State} (h : Alike s t) : t.toArch = s.toArch := by cases h; rfl

theorem Alike.cfg {s t : State} (h : Alike s t) : t.cfg = s.cfg := by cases h; rfl

theorem Alike.env {s t : State} (h : Alike s t) : t.env = s.env := by cases h; rfl

theorem Alike.symm {s t : State} (h : Alike s t) : Alike t s := .of_eq h.toArch.symm h.cfg.symm h.env.symm

theorem Alike.ite {c : Prop} {_ : Decidable c} {s t s' t' : State} (h : Alike s t) (h' : Alike s' t') :
    Alike (if c then s else s') (if c then t else t') := by
  split
  · exact h
  · exact h'

theorem AlikeResults.ite {c : Prop} {_ : Decidable c} {r q r' q' : Result} (h : AlikeResults r q)
    (h' : AlikeResults r' q') : AlikeResults (if c then r else r') (if c then q else q') := by
  split
  · exact h
  · exact h'

theorem AlikeResults.andThen {r q : Result} {f g : State → Result} (h : AlikeResults r q)
    (hf : ∀ {u v}, Alike u v → AlikeResults (f u) (g v)) : AlikeResults (andThen r f) (andThen q g) := by
  cases h with
  | next h => exact hf h
  | fault r => exact .fault r
  | refused r => exact .refused r

theorem AlikeResults.of_next {r q : Result} {s : State} (h : AlikeResults r q) (hr : r = .next s) :
    ∃ t, q = .next t ∧ Alike s t := by
  cases h with
  | next h =>
    obtain rfl := Host.Outcome.next.inj hr
    exact ⟨_, rfl, h⟩
  | fault _ => cases hr
  | refused _ => cases hr

theorem AlikeResults.attempt {s t : State} {e : Prop} {_ : Decidable e} {r q : Result} (h : Alike s t)
    (hr : AlikeResults r q) : AlikeResults (attempt s e r) (attempt t e q) := by
  cases h
  exact .ite (.refused _) (.ite hr (.refused _))

theorem AlikeResults.ifEnabled {s t : State} {e : Prop} {_ : Decidable e} {r q : Result} (h : Alike s t)
    (hr : AlikeResults r q) : AlikeResults (ifEnabled s e r) (ifEnabled t e q) := .ite hr (.next h)

/-- A boundary passed is passed alike. -/
theorem Alike.boundary {s t : State} (h : Alike s t) : Alike (boundary s) (boundary t) := by
  cases h
  exact .of_eq (by rw [boundary_toArch, boundary_toArch]) (by rw [boundary_cfg, boundary_cfg])
    (by rw [boundary_env, boundary_env])

/-- At a boundary with no forbidden pair of ring states only marks change. -/
theorem alike_boundary {s : State} (h : ¬ Overlap s.toArch) : Alike s (boundary s) :=
  .of_eq (by rw [boundary_toArch, if_neg h]) (boundary_cfg s) (boundary_env s)

/-! ## Guarded writes -/

theorem setRdState_alike (n : RingState) {s t : State} (h : Alike s t) : Alike (setRdState n s) (setRdState n t) := by
  cases h
  exact .ite (.mk _ _ _ _ _) (.ite (.mk _ _ _ _ _) (.mk _ _ _ _ _))

theorem setWrState_alike (n : RingState) {s t : State} (h : Alike s t) : Alike (setWrState n s) (setWrState n t) := by
  cases h
  exact .ite (.mk _ _ _ _ _) (.ite (.mk _ _ _ _ _) (.mk _ _ _ _ _))

/-! ## What may stand at a preemption point -/

theorem stepPulse_alike (d : Bool) {s t : State} (h : Alike s t) : Alike (stepPulse d s) (stepPulse d t) := by
  cases h
  exact .ite (.mk _ _ _ _ _) (.mk _ _ _ _ _)

theorem sideSelect_alike (b : Bool) {s t : State} (h : Alike s t) : Alike (sideSelect b s) (sideSelect b t) := by
  cases h
  exact .mk _ _ _ _ _

theorem driveSelect_alike (b : Bool) {s t : State} (h : Alike s t) : Alike (driveSelect b s) (driveSelect b t) := by
  cases h
  exact .mk _ _ _ _ _

theorem stepSoftirq_alike {s t : State} (h : Alike s t) : Alike (stepSoftirq s) (stepSoftirq t) := by
  cases h
  exact .ite (.mk _ _ _ _ _) (.mk _ _ _ _ _)

theorem idxFire_alike {s t : State} (h : Alike s t) : Alike (idxFire s) (idxFire t) := by
  obtain ⟨hcfg, henv, -⟩ := idxFire_keeps s
  obtain ⟨hcfg', henv', -⟩ := idxFire_keeps t
  exact .of_eq (idxFire_congr h.toArch h.cfg) (by rw [hcfg, hcfg', h.cfg]) (by rw [henv, henv', h.env])

theorem stepFire_alike {s t : State} (h : Alike s t) : Alike (stepFire s) (stepFire t) := by
  obtain ⟨hcfg, henv⟩ := stepFire_keeps s
  obtain ⟨hcfg', henv'⟩ := stepFire_keeps t
  exact .of_eq (stepFire_congr h.toArch h.cfg) (by rw [hcfg, hcfg', h.cfg]) (by rw [henv, henv', h.env])

theorem wdataEdge_alike {s t : State} (h : Alike s t) : Alike (wdataEdge s) (wdataEdge t) := by
  cases h
  exact .ite (.ite (.ite (.mk _ _ _ _ _) (.mk _ _ _ _ _)) (.mk _ _ _ _ _)) (.mk _ _ _ _ _)

theorem rdStop_alike {s t : State} (h : Alike s t) : Alike (rdStop s) (rdStop t) := by
  obtain ⟨henv, hcfg⟩ := rdStop_env s
  obtain ⟨henv', hcfg'⟩ := rdStop_env t
  exact .of_eq (by rw [rdStop_toArch, rdStop_toArch, h.toArch, h.cfg]) (by rw [hcfg, hcfg', h.cfg])
    (by rw [henv, henv', h.env])

theorem wdataStart_alike {s t : State} (h : Alike s t) : Alike (wdataStart s) (wdataStart t) := by
  have hset := setWrState_alike .starting (rdStop_alike h)
  unfold wdataStart
  generalize setWrState .starting (rdStop s) = u at hset ⊢
  generalize setWrState .starting (rdStop t) = v at hset ⊢
  cases hset
  exact .mk _ _ _ _ _

theorem wgate1_alike {s t : State} (h : Alike s t) : Alike (wgate1 s) (wgate1 t) := by
  have hstart := wdataStart_alike h
  cases h
  exact .ite (.mk _ _ _ _ _) (.ite (.mk _ _ _ _ _) hstart)

theorem wgate0_alike {s t : State} (h : Alike s t) : Alike (wgate0 s) (wgate0 t) := by
  have hset := setWrState_alike .stopping h
  unfold wgate0
  generalize setWrState .stopping s = u at hset ⊢
  generalize setWrState .stopping t = v at hset ⊢
  cases h
  cases hset
  exact .ite (.mk _ _ _ _ _) (.ite (.mk _ _ _ _ _) (.mk _ _ _ _ _))

theorem observePosition_alike {s t : State} (h : Alike s t) : Alike (observePosition s) (observePosition t) := by
  cases h
  rw [observePosition_eq, observePosition_eq]
  exact .mk _ _ _ _ _

theorem refill_alike (c : RingIx) {s t : State} (h : Alike s t) : Alike (refill c s) (refill c t) := by
  cases h
  exact .ite (.mk _ _ _ _ _) (.mk _ _ _ _ _)

theorem noteOffset_alike {s t : State} (h : Alike s t) : Alike (noteOffset s) (noteOffset t) := by
  obtain ⟨harch, henv, hcfg⟩ := noteOffset_spec (s := s) rfl
  obtain ⟨harch', henv', hcfg'⟩ := noteOffset_spec (s := t) rfl
  cases h
  exact .of_eq (harch'.trans harch.symm) (hcfg'.trans hcfg.symm) (henv'.trans henv.symm)

theorem rdServiceActive_alike {s t : State} (h : Alike s t) : Alike (rdServiceActive s) (rdServiceActive t) := by
  rw [rdServiceActive_eq, rdServiceActive_eq, h.toArch]
  exact noteOffset_alike (refill_alike _ (observePosition_alike h))

theorem rdService_alike {s t : State} (h : Alike s t) : Alike (rdService s) (rdService t) := by
  cases h
  exact .ite (rdServiceActive_alike (.mk _ _ _ _ _)) (.mk _ _ _ _ _)

theorem wrService_alike {s t : State} (h : Alike s t) : Alike (wrService s) (wrService t) := by
  cases h
  exact .ite (.mk _ _ _ _ _) (.mk _ _ _ _ _)

theorem runPreempting_alike (i : Instr) {s t : State} (h : Alike s t) :
    AlikeResults (runPreempting i s) (runPreempting i t) := by
  have harch := h.toArch
  cases i with
  | step d => exact .attempt h (.next (stepPulse_alike d h))
  | side b => exact .attempt h (.next (sideSelect_alike b h))
  | sel b => exact .attempt h (.next (driveSelect_alike b h))
  | wgate1 => exact .attempt h (.next (wgate1_alike h))
  | wgate0 => exact .attempt h (.next (wgate0_alike h))
  | wdataEdge => exact .attempt h (.next (wdataEdge_alike h))
  | idxFire => simp only [runPreempting, harch]; exact .attempt h (.next (idxFire_alike h))
  | stepFire => simp only [runPreempting, harch]; exact .attempt h (.next (stepFire_alike h))
  | rdService => simp only [runPreempting, harch]; exact .attempt h (.next (rdService_alike h))
  | wrService => simp only [runPreempting, harch]; exact .attempt h (.next (wrService_alike h))
  | stepSoftirq => simp only [runPreempting, harch]; exact .attempt h (.next (stepSoftirq_alike h))
  | tick _ | rdBeat | wrBeat | fgHandle | rdSeek | rdPrefill | rdStart | rdReplenish | rdStop | rdFinish
  | wrActivate | wrPump | wrDrain | init | mount | cancel | changeOutputs _ _ => exact .refused _

theorem preempt_alike (l : List Instr) {s t : State} (h : Alike s t) : AlikeResults (preempt l s) (preempt l t) := by
  induction l generalizing s t with
  | nil => exact .next h
  | cons i l ih => exact (runPreempting_alike i h).andThen ih

/-! ## The foreground operations -/

theorem seekCommit_alike (i : Int) (k : Track) (p : Word) {s t : State} (h : Alike s t) :
    Alike (seekCommit i k p s) (seekCommit i k p t) := by
  cases h
  exact setRdState_alike .starting (.mk _ _ _ _ _)

theorem seekRecheck_alike (k : Track) {s t : State} (h : Alike s t) : Alike (seekRecheck k s) (seekRecheck k t) := by
  have hset := setRdState_alike .stopping h
  cases h
  exact .ite hset (.mk _ _ _ _ _)

theorem returning_alike (r : Returned) {s t : State} (h : Alike s t) : Alike (returning r s) (returning r t) := by
  cases h
  exact .mk _ _ _ _ _

theorem askSeek_alike (k : Track) (p : Option Int) {s t : State} (h : Alike s t) :
    Alike (askSeek k p s) (askSeek k p t) := by
  cases h
  exact .mk _ _ _ _ _

theorem rdSeek_alike {s t : State} (h : Alike s t) : AlikeResults (rdSeek s) (rdSeek t) := by
  cases h
  refine (preempt_alike _ (askSeek_alike _ _ (.mk _ _ _ _ _))).andThen fun {u v} hu =>
    .ite (.next (returning_alike .retry hu)) ?_
  rw [hu.env]
  exact (preempt_alike _ (seekCommit_alike _ _ _ hu)).andThen fun hv =>
    .next (returning_alike .again (seekRecheck_alike _ hv))

theorem casWr_alike (old new : RingState) {s t : State} (h : Alike s t) :
    Alike (casWr old new s).2 (casWr old new t).2 := by
  unfold casWr
  rw [h.toArch]
  split
  · exact setWrState_alike new h
  · exact h

theorem wrActivate_alike {s t : State} (h : Alike s t) : AlikeResults (wrActivate s) (wrActivate t) := by
  cases h
  exact .ite (.next (.mk _ _ _ _ _)) ((preempt_alike _ (askSeek_alike _ _ (.mk _ _ _ _ _))).andThen fun hu =>
    .ite (.next (returning_alike .retry hu)) (.next (casWr_alike .starting .active hu)))

theorem wrPump_alike {s t : State} (h : Alike s t) : Alike (wrPump s) (wrPump t) := by
  cases h
  exact .mk _ _ _ _ _

theorem wrDrain_alike {s t : State} (h : Alike s t) : Alike (wrDrain s) (wrDrain t) := by
  cases h
  exact .ite (.mk _ _ _ _ _) (setWrState_alike .inactive (.mk _ _ _ _ _))

theorem rdFinish_alike {s t : State} (h : Alike s t) : Alike (rdFinish s) (rdFinish t) := by
  cases h
  exact setRdState_alike .inactive (.mk _ _ _ _ _)

theorem rdReplenish_alike {s t : State} (h : Alike s t) : Alike (rdReplenish s) (rdReplenish t) := by
  cases h
  exact .ite (.mk _ _ _ _ _) (.mk _ _ _ _ _)

theorem rdBeat_alike {s t : State} (h : Alike s t) : AlikeResults (rdBeat s) (rdBeat t) := by
  cases h
  exact .ite (.refused _) (.next (.ite (.mk _ _ _ _ _) (.mk _ _ _ _ _)))

theorem rdStartNow_alike {s t : State} (h : Alike s t) : AlikeResults (rdStartNow s) (rdStartNow t) := by
  have harch := h.toArch
  by_cases hstart : s.rd.state = .starting
  · rw [rdStartNow_starting hstart, rdStartNow_starting (by rwa [harch])]
    cases h
    exact rdBeat_alike (.mk _ _ _ _ _)
  · rw [rdStartNow_stopped hstart, rdStartNow_stopped (by rwa [harch])]
    cases h
    exact .next (.mk _ _ _ _ _)

theorem rdStart_alike {s t : State} (h : Alike s t) : AlikeResults (rdStart s) (rdStart t) := by
  have hnow := rdStartNow_alike h
  cases h
  exact .ite (.next (.mk _ _ _ _ _)) hnow

/-! ## FG_HANDLE -/

theorem fgWrite_alike {s t : State} (h : Alike s t) : AlikeResults (fgWrite s) (fgWrite t) := by
  have harch := h.toArch
  have hwr : t.wr.state = s.wr.state := by rw [harch]
  cases hs : s.wr.state with
  | inactive =>
    rw [fgWrite_idle hs, fgWrite_idle (hwr.trans hs)]
    exact .next h
  | starting =>
    rw [fgWrite_starting hs, fgWrite_starting (hwr.trans hs), harch]
    exact .ifEnabled h (wrActivate_alike h)
  | active =>
    rw [fgWrite_active hs, fgWrite_active (hwr.trans hs), harch]
    exact .ifEnabled h (.next (wrPump_alike h))
  | stopping =>
    rw [fgWrite_stopping hs, fgWrite_stopping (hwr.trans hs), harch]
    exact .ifEnabled h (.next (wrDrain_alike h))

theorem rdStart_ifEnabled_alike {s t : State} (h : Alike s t) :
    AlikeResults (ifEnabled s (RdStartEnabled s) (rdStart s)) (ifEnabled t (RdStartEnabled t) (rdStart t)) := by
  have hstart := rdStart_alike h
  cases h
  exact .ifEnabled (.mk _ _ _ _ _) hstart

theorem rdPrefill_ifEnabled_alike {s t : State} (h : Alike s t) :
    AlikeResults (ifEnabled s (RdPrefillEnabled s) (.next (rdPrefill s)))
      (ifEnabled t (RdPrefillEnabled t) (.next (rdPrefill t))) := by
  cases h
  exact .ifEnabled (.mk _ _ _ _ _) (.next (.mk _ _ _ _ _))

theorem fgRead_alike {s t : State} (h : Alike s t) : AlikeResults (fgRead s) (fgRead t) := by
  have harch := h.toArch
  have hrd : t.rd.state = s.rd.state := by rw [harch]
  cases hs : s.rd.state with
  | inactive =>
    rw [fgRead_inactive hs, fgRead_inactive (hrd.trans hs), harch]
    exact .ifEnabled h (rdSeek_alike h)
  | starting =>
    rw [fgRead_starting hs, fgRead_starting (hrd.trans hs)]
    have hstop := rdStop_alike h
    have hstart := (rdPrefill_ifEnabled_alike h).andThen rdStart_ifEnabled_alike
    cases h
    exact .ite (.ifEnabled (.mk _ _ _ _ _) (.next hstop)) hstart
  | active =>
    rw [fgRead_active hs, fgRead_active (hrd.trans hs), harch]
    exact .ite (.ifEnabled h (.next (rdStop_alike h))) (.ifEnabled h (.next (rdReplenish_alike h)))
  | stopping =>
    rw [fgRead_stopping hs, fgRead_stopping (hrd.trans hs)]
    exact .next h

theorem fgReturn_alike {s t : State} (h : Alike s t) : Alike (fgReturn s) (fgReturn t) := by
  cases h
  exact .mk _ _ _ _ _

theorem fgTail_alike {s t : State} (h : Alike s t) : AlikeResults (fgTail s) (fgTail t) :=
  (fgWrite_alike h).andThen fun hu => (fgRead_alike hu).andThen fun hv => .next (fgReturn_alike hv)

theorem fgParts_alike {s t : State} (h : Alike s t) : AlikeResults (fgParts s) (fgParts t) := by
  rw [fgParts_eq, fgParts_eq, h.toArch]
  exact (AlikeResults.ifEnabled h (.next (rdFinish_alike h))).andThen fgTail_alike

end Sys2Proof.Machine
end

section
/-! FG_HANDLE and the operations that are due (R270): row by row of the dispatch table, it has the effect of the
operations of the row run one after the other. -/

namespace Sys2Proof.Machine

/-! ## What FG_HANDLE does as the operations do -/

/-- FG_HANDLE answers with the architectural state and the calls of `t`, and returns whether an engine is then not
Inactive. -/
def FgAnswers (s t : State) : Prop :=
  ∃ u, exec .fgHandle s = .next u ∧ u.toArch = t.toArch ∧ u.env.calls = t.env.calls ∧
    u.env.ret = some (.reenter (decide (t.rd.state ≠ .inactive ∨ t.wr.state ≠ .inactive)))

/-- The operations of a row: if they run, FG_HANDLE answers as they do. -/
def Due (l : List Instr) (s : State) : Prop := ∀ t, runAll l s = .next t → FgAnswers s t

/-- A ready block with an image, outside a busy-wait: FG_HANDLE is its parts. -/
structure FgFree (s : State) : Prop where
  ready : Ready s
  loaded : s.image.loaded = true
  noWait : s.fgWait = none

theorem Alike.ready {s t : State} (h : Alike s t) (hs : Ready s) : Ready t := by
  cases h
  exact hs

theorem Alike.fgFree {s t : State} (h : Alike s t) (hs : FgFree s) : FgFree t := by
  have hready := h.ready hs.ready
  obtain ⟨-, hloaded, hwait⟩ := hs
  cases h
  exact ⟨hready, hloaded, hwait⟩

theorem exec_fgHandle {s u : State} (hs : Ready s) (h : fgHandle s = .next u) :
    exec .fgHandle s = .next (boundary u) :=
  have ⟨hvalid, hfault, _⟩ := hs
  operation_eq_next.mpr ⟨hvalid, hfault, trivial, u, h, rfl⟩

/-- The last operation ends in `w` before its boundary, the parts of FG_HANDLE in a `v` that agrees with it. -/
theorem fgAnswers_of {s v w : State} (hs : Ready s) (h : fgHandle s = .next (fgReturn v)) (harch : w.toArch = v.toArch)
    (hcalls : w.env.calls = v.env.calls) : FgAnswers s (boundary w) := by
  refine ⟨_, exec_fgHandle hs h, ?_, ?_, ?_⟩
  · rw [boundary_toArch, boundary_toArch, harch]
    rfl
  · rw [boundary_env, boundary_env, hcalls]
    rfl
  · rw [boundary_env, (boundary_still w).rd, (boundary_still w).wr, harch]
    rfl

/-- FG_HANDLE from states that are alike. -/
theorem FgAnswers.of_alike {s t v : State} (hs : Ready s) (h : AlikeResults (fgHandle t) (fgHandle s))
    (ht : FgAnswers t v) : FgAnswers s v := by
  obtain ⟨u, hu, harch, hcalls, hret⟩ := ht
  obtain ⟨-, -, -, x, hx, rfl⟩ := operation_eq_next.mp hu
  obtain ⟨y, hy, hxy⟩ := h.of_next hx
  have hend := hxy.boundary
  exact ⟨_, exec_fgHandle hs hy, hend.toArch.trans harch, by rw [hend.env, hcalls], by rw [hend.env, hret]⟩

theorem runAll_one (i : Instr) (s : State) : runAll [i] s = exec i s := by
  rw [runAll_cons]
  cases exec i s <;> rfl

/-- A row of one operation: where it is enabled and ends in `v`, the parts of FG_HANDLE end in `v`. -/
theorem due_one {i : Instr} {s : State} {e : Prop} {_ : Decidable e} {r : Result} (hexec : exec i s = operation s e r)
    (hs : Ready s) (h : ∀ v, e → r = .next v → fgHandle s = .next (fgReturn v)) : Due [i] s := by
  intro t ht
  rw [runAll_one, hexec] at ht
  obtain ⟨-, -, he, v, hv, rfl⟩ := operation_eq_next.mp ht
  exact fgAnswers_of hs (h v he hv) rfl rfl

/-- A row that begins with an operation after which FG_HANDLE does what it would have done before it. -/
theorem due_cons {i : Instr} {l : List Instr} {s : State} (hs : Ready s)
    (h : ∀ t, exec i s = .next t → AlikeResults (fgHandle t) (fgHandle s) ∧ Due l t) : Due (i :: l) s := by
  intro t ht
  rw [runAll_cons] at ht
  obtain ⟨u, hu, ht⟩ := andThen_eq_next.mp ht
  obtain ⟨halike, hdue⟩ := h u hu
  exact (hdue t ht).of_alike hs halike

/-! ## FG_HANDLE by its parts -/

/-- Without a read to end FG_HANDLE is its write part and its read part. -/
theorem FgFree.fgHandle_eq {s : State} (h : FgFree s) (hr : s.rd.state ≠ .stopping) : fgHandle s = fgTail s :=
  (fgHandle_free h.loaded h.noWait).trans (fgParts_of_not_stopping hr)

/-- While a write is begun or a step active, the write part is all there is to do. -/
theorem fgTail_of_write {s v : State} (hw : fgWrite s = .next v) (hr : v.rd.state = .inactive)
    (hno : v.wr.state ≠ .inactive ∨ StepActive v.toArch) : fgTail s = .next (fgReturn v) := by
  have hseek : ¬ RdSeekEnabled v.toArch := fun ⟨_, _, hwr, hstep⟩ => hno.elim (absurd hwr) fun k => hstep k
  rw [fgTail, hw, andThen_next, fgRead_idle hr hseek, andThen_next]

/-- With the write engine Inactive the read part is all there is to do. -/
theorem fgTail_of_read {s v : State} (hw : s.wr.state = .inactive) (h : fgRead s = .next v) :
    fgTail s = .next (fgReturn v) := by
  rw [fgTail, fgWrite_idle hw, andThen_next, h, andThen_next]

theorem fgParts_ends {s u : State} (h : fgParts s = .next u) : ∃ v, u = fgReturn v := by
  obtain ⟨_, -, h⟩ := andThen_eq_next.mp h
  obtain ⟨_, -, h⟩ := andThen_eq_next.mp h
  obtain ⟨v, -, h⟩ := andThen_eq_next.mp h
  exact ⟨v, (Host.Outcome.next.inj h).symm⟩

/-- FG_HANDLE itself as a row. -/
theorem FgFree.due_fgHandle {s : State} (h : FgFree s) : Due [.fgHandle] s := by
  intro t ht
  rw [runAll_one] at ht
  obtain ⟨-, -, -, u, hu, rfl⟩ := operation_eq_next.mp ht
  obtain ⟨v, rfl⟩ := fgParts_ends ((fgHandle_free h.loaded h.noWait).symm.trans hu)
  exact fgAnswers_of h.ready hu rfl rfl

/-! ## The read engine Inactive -/

section
variable {s : State} (h : FgFree s) (hr : s.rd.state = .inactive)
include h hr

theorem FgFree.fgHandle_inactive : fgHandle s = fgTail s := h.fgHandle_eq (by rw [hr]; nofun)

theorem FgFree.due_rdSeek (hw : s.wr.state = .inactive) : Due [.rdSeek] s :=
  due_one (e := RdSeekEnabled s.toArch) rfl h.ready fun v he hv => by
    rw [h.fgHandle_inactive hr]
    exact fgTail_of_read hw (by rw [fgRead_inactive hr, ifEnabled_pos he, hv])

theorem FgFree.due_wrActivate (hw : s.wr.state = .starting) : Due [.wrActivate] s :=
  due_one (e := WrActivateEnabled s.toArch) rfl h.ready fun v _ hv => by
    have hwrite : fgWrite s = .next v := by
      rw [fgWrite_starting hw, ifEnabled_pos ⟨h.ready.2.1, h.noWait, by rw [hr]; nofun⟩, hv]
    obtain ⟨-, hread, hends⟩ := wrActivate_moves hw hv
    rw [h.fgHandle_inactive hr]
    refine fgTail_of_write hwrite ?_ (.inl ?_)
    · exact (hread.resolve_right fun ⟨_, hrun⟩ => hrun.ne.1 hr).trans hr
    · rcases hends with hends | hends | hends <;> rw [hends] <;> nofun

theorem FgFree.due_wrPump (hw : s.wr.state = .active) : Due [.wrPump] s :=
  due_one (e := WrPumpEnabled s.toArch) rfl h.ready fun v he hv => by
    obtain rfl := Host.Outcome.next.inj hv
    rw [h.fgHandle_inactive hr]
    exact fgTail_of_write (by rw [fgWrite_active hw, ifEnabled_pos he]) hr
      (.inl (by rw [(wrPump_still s).wr, hw]; nofun))

theorem FgFree.due_wrDrain (hw : s.wr.state = .stopping)
    (hno : ¬ s.wr.cons = wrPos s.toArch ∨ StepActive s.toArch) : Due [.wrDrain] s :=
  due_one (e := WrDrainEnabled s.toArch) rfl h.ready fun v he hv => by
    obtain rfl := Host.Outcome.next.inj hv
    rw [h.fgHandle_inactive hr]
    refine fgTail_of_write (by rw [fgWrite_stopping hw, ifEnabled_pos he]) ?_ ?_
    · exact (wrDrain_moves hw).2.1.trans hr
    · by_cases hdrained : s.wr.cons = wrPos s.toArch
      · rw [wrDrain_ends hdrained hw]
        exact .inr (hno.resolve_left (not_not_intro hdrained))
      · rw [wrDrain_again hdrained]
        exact .inl (by rw [returning_toArch, askWriteTrack_toArch, hw]; nofun)

/-- A WR_DRAIN that finds the ring empty ends the write, and a read may begin. -/
theorem FgFree.due_wrDrain_rdSeek (hw : s.wr.state = .stopping) (hdrained : s.wr.cons = wrPos s.toArch) :
    Due [.wrDrain, .rdSeek] s :=
  due_cons h.ready fun t ht => by
    obtain ⟨-, -, he, v, hv, rfl⟩ := operation_eq_next.mp ht
    obtain rfl := Host.Outcome.next.inj hv
    have hends := wrDrain_ends hdrained hw
    have hrv : (wrDrain s).rd.state = .inactive := by rw [hends]; exact hr
    have hwv : (wrDrain s).wr.state = .inactive := by rw [hends]
    have hfree : FgFree (wrDrain s) := by
      rw [hends]
      exact ⟨⟨h.ready.1, h.ready.2.1, not_Overlap_of_read hr⟩, h.loaded, h.noWait⟩
    have halike := alike_boundary (not_Overlap_of_read hrv)
    have hrt : (boundary (wrDrain s)).rd.state = .inactive := (boundary_still _).rd.trans hrv
    have hthen : fgTail s = fgTail (wrDrain s) := by
      rw [fgTail, fgTail, fgWrite_stopping hw, ifEnabled_pos he, fgWrite_idle hwv, andThen_next]
    refine ⟨?_, (halike.fgFree hfree).due_rdSeek hrt ((boundary_still _).wr.trans hwv)⟩
    rw [(halike.fgFree hfree).fgHandle_inactive hrt, h.fgHandle_inactive hr, hthen]
    exact fgTail_alike halike.symm

/-- Nothing is due. -/
theorem FgFree.due_nothing (hw : s.wr.state = .inactive) (hstep : StepActive s.toArch) : Due [] s := by
  intro t ht
  obtain rfl := Host.Outcome.next.inj ht
  obtain ⟨u, hu, harch, -, -, hcalls, hret⟩ := foregroundIdle.2 s h.ready |>.2.2 h.loaded h.noWait hr hw hstep
  refine ⟨u, hu, harch, by rw [hcalls, List.append_nil], ?_⟩
  rw [hret, hr, hw]
  rfl

end

/-! ## The read engine Stopping -/

/-- The block after RD_FINISH (R145). -/
def finished (a : Arch) : Arch :=
  { a with
    rd := { a.rd with state := .inactive, cons := 0, prod := 0, kick := false }
    rdDma.cndtr := capCount }

/-- RD_FINISH is done, and the rest of the row is for the block it leaves. -/
theorem FgFree.due_rdFinish {l : List Instr} {s : State} (h : FgFree s) (hr : s.rd.state = .stopping)
    (hl : ∀ t, FgFree t → t.toArch = finished s.toArch → Due l t) : Due (.rdFinish :: l) s :=
  due_cons h.ready fun t ht => by
    obtain ⟨-, -, he, v, hv, rfl⟩ := operation_eq_next.mp ht
    obtain rfl := Host.Outcome.next.inj hv
    have hends : rdFinish s = { s with toArch := finished s.toArch } := rdFinish_stopping hr
    have hfree : FgFree (rdFinish s) := by
      rw [hends]
      exact ⟨⟨h.ready.1, h.ready.2.1, not_Overlap_of_read rfl⟩, h.loaded, h.noWait⟩
    have halike := alike_boundary (s := rdFinish s) (not_Overlap_of_read (by rw [hends]; rfl))
    have harch : (boundary (rdFinish s)).toArch = finished s.toArch := by rw [halike.toArch, hends]
    have hthen : fgHandle s = fgTail (rdFinish s) := by
      rw [fgHandle_free h.loaded h.noWait, fgParts_eq, ifEnabled_pos he, andThen_next]
    refine ⟨?_, hl _ (halike.fgFree hfree) harch⟩
    rw [hthen, (halike.fgFree hfree).fgHandle_inactive (by rw [harch]; rfl)]
    exact fgTail_alike halike.symm

/-! ## The read engine Starting or Active -/

theorem not_StopCondition_write {a : Arch} (h : ¬ StopCondition a) : a.wr.state = .inactive := by
  by_contra hw
  exact h (.inr (.inr hw))

theorem fgRead_prefills {s : State} (hr : s.rd.state = .starting) (hstop : ¬ StopCondition s.toArch)
    (he : RdPrefillEnabled s) :
    fgRead s = ifEnabled (rdPrefill s) (RdStartEnabled (rdPrefill s)) (rdStart (rdPrefill s)) := by
  rw [fgRead_starting hr, if_neg hstop, ifEnabled_pos he, andThen_next]

theorem fgRead_no_prefill {s : State} (hr : s.rd.state = .starting) (hstop : ¬ StopCondition s.toArch)
    (he : ¬ RdPrefillEnabled s) : fgRead s = ifEnabled s (RdStartEnabled s) (rdStart s) := by
  rw [fgRead_starting hr, if_neg hstop, ifEnabled_neg he, andThen_next]

theorem rdStart_refuses {s : State} {r : Refusal} (h : rdStart s = .refused r) : r = .zeroFluxSample := by
  unfold rdStart at h
  split at h
  · cases h
  · by_cases hr : s.rd.state = .starting
    · rw [rdStartNow_starting hr] at h
      unfold rdBeat at h
      dsimp only at h
      split at h <;> cases h
      rfl
    · rw [rdStartNow_stopped hr] at h
      cases h

/-- An RD_START that is refused as not enabled is not enabled. -/
theorem not_enabled_of_refused {s : State} (hs : Ready s) (h : exec .rdStart s = .refused .notEnabled) :
    ¬ RdStartEnabled s := by
  intro he
  have ⟨hvalid, hfault, _⟩ := hs
  change operation s (RdStartEnabled s) (rdStart s) = _ at h
  rw [operation_run hvalid hfault he] at h
  cases hrun : rdStart s with
  | next u => rw [hrun] at h; cases h
  | fault r => rw [hrun] at h; cases h
  | refused r => rw [hrun, rdStart_refuses hrun] at h; cases h

/-- With no write begun only marks change at the boundary of an RD_PREFILL. -/
theorem execRdPrefill_spec {s t : State} (hw : s.wr.state = .inactive) (ht : exec .rdPrefill s = .next t) :
    RdPrefillEnabled s ∧ Alike (rdPrefill s) t := by
  obtain ⟨-, -, he, v, hv, rfl⟩ := operation_eq_next.mp ht
  obtain rfl := Host.Outcome.next.inj hv
  exact ⟨he, alike_boundary (not_Overlap_of_write ((rdPrefill_still s).wr.trans hw))⟩

theorem Alike.rdStartEnabled_iff {s t : State} (h : Alike s t) : RdStartEnabled s ↔ RdStartEnabled t := by
  cases h
  exact .rfl

section
variable {s : State} (h : FgFree s) (hr : s.rd.state = .starting) (hstop : ¬ StopCondition s.toArch)
include h hr hstop

theorem FgFree.fgHandle_starting {v : State} (hread : fgRead s = .next v) : fgHandle s = .next (fgReturn v) := by
  rw [h.fgHandle_eq (by rw [hr]; nofun)]
  exact fgTail_of_read (not_StopCondition_write hstop) hread

/-- RD_PREFILL alone, where it leaves no RD_START enabled. -/
theorem FgFree.due_rdPrefill {t : State} (ht : exec .rdPrefill s = .next t)
    (hno : exec .rdStart t = .refused .notEnabled) : Due [.rdPrefill] s := by
  obtain ⟨he, halike⟩ := execRdPrefill_spec (not_StopCondition_write hstop) ht
  have hfilled : Ready (rdPrefill s) := h.ready
  have hoff : ¬ RdStartEnabled (rdPrefill s) :=
    mt halike.rdStartEnabled_iff.mp (not_enabled_of_refused (halike.ready hfilled) hno)
  refine due_one (e := RdPrefillEnabled s) rfl h.ready fun v _ hv => ?_
  obtain rfl := Host.Outcome.next.inj hv
  exact h.fgHandle_starting hr hstop (by rw [fgRead_prefills hr hstop he, ifEnabled_neg hoff])

theorem FgFree.due_rdPrefill_rdStart : Due [.rdPrefill, .rdStart] s := by
  intro w hw
  rw [runAll_cons] at hw
  obtain ⟨t, ht, hw⟩ := andThen_eq_next.mp hw
  rw [runAll_one] at hw
  obtain ⟨he, halike⟩ := execRdPrefill_spec (not_StopCondition_write hstop) ht
  obtain ⟨-, -, hstart, x, hx, rfl⟩ := operation_eq_next.mp hw
  obtain ⟨y, hy, hxy⟩ := (rdStart_alike halike.symm).of_next hx
  have hread : fgRead s = .next y := by
    rw [fgRead_prefills hr hstop he, ifEnabled_pos (halike.rdStartEnabled_iff.mpr hstart), hy]
  exact fgAnswers_of h.ready (h.fgHandle_starting hr hstop hread) hxy.symm.toArch (by rw [hxy.env])

/-- RD_START alone, where RD_PREFILL is not enabled. -/
theorem FgFree.due_rdStart (hno : exec .rdPrefill s = .refused .notEnabled) : Due [.rdStart] s := by
  have hoff : ¬ RdPrefillEnabled s := fun he => by
    have hrun : exec .rdPrefill s = andThen (.next (rdPrefill s)) fun t => .next (boundary t) :=
      operation_run h.ready.1 h.ready.2.1 he
    exact nomatch hrun.symm.trans hno
  refine due_one (e := RdStartEnabled s) rfl h.ready fun v he hv => ?_
  exact h.fgHandle_starting hr hstop (by rw [fgRead_no_prefill hr hstop hoff, ifEnabled_pos he, hv])

end

theorem FgFree.due_rdReplenish {s : State} (h : FgFree s) (hstop : ¬ StopCondition s.toArch) :
    Due [.rdReplenish] s :=
  due_one (e := RdReplenishEnabled s.toArch) rfl h.ready fun v he hv => by
    have hr : s.rd.state = .active := he.2
    rw [h.fgHandle_eq (by rw [hr]; nofun)]
    exact fgTail_of_read (not_StopCondition_write hstop) (by rw [fgRead_active hr, if_neg hstop, ifEnabled_pos he, hv])

theorem due_rdStop {s : State} (hs : Ready s) : Due [.rdStop] s :=
  due_one (e := RdStopEnabled s.toArch) rfl hs fun v he hv => by
    obtain rfl := Host.Outcome.next.inj hv
    exact fgHandle_stops he (write_inactive_of hs.2.2 he.2.1)

/-! ## The end of a busy-wait -/

/-- What RD_START's last part leaves: the wait is over, and what the stop condition looks at is what it was. -/
theorem rdStartNow_spec {s t : State} (h : rdStartNow s = .next t) : t.fgWait = none ∧ t.stepper = s.stepper ∧
    t.drive = s.drive ∧ t.rd.track = s.rd.track ∧ t.wr = s.wr ∧ t.image = s.image ∧ t.fault = s.fault := by
  by_cases hr : s.rd.state = .starting
  · rw [rdStartNow_starting hr] at h
    unfold rdBeat at h
    dsimp only at h
    split at h
    · cases h
    · obtain rfl := Host.Outcome.next.inj h
      rw [rdBeatWith_toArch]
      exact ⟨rfl, rfl, rfl, rfl, rfl, rfl, rfl⟩
  · rw [rdStartNow_stopped hr] at h
    obtain rfl := Host.Outcome.next.inj h
    exact ⟨rfl, rfl, rfl, rfl, rfl, rfl, rfl⟩

/-- The wait is over: RD_START is made, and the rest of the row is for the block it leaves. -/
theorem due_wait_rdStart {l : List Instr} {s : State} (hs : Ready s) (hloaded : s.image.loaded = true)
    (hwait : s.fgWait ≠ none)
    (hl : ∀ t, FgFree t → (StopCondition t.toArch ↔ StopCondition s.toArch) → Due l t) : Due (.rdStart :: l) s :=
  due_cons hs fun t ht => by
    obtain ⟨-, -, he, v, hv, rfl⟩ := operation_eq_next.mp ht
    have hover : waitOver s.toArch = true := he.2.2.elim And.right fun k => absurd k.2.1 hwait
    have hnow : rdStartNow s = .next v := (rdStart_at_once fun k => absurd k hwait).symm.trans hv
    obtain ⟨hfree, hstepper, hdrive, htrack, hwr, himage, hfault⟩ := rdStartNow_spec hnow
    obtain ⟨hcfg, -⟩ := given_eq_iff.mp ((rdStart_given s).of_next hv)
    have hclear := rdStart_clear hs.2.2 hv
    have halike := alike_boundary hclear
    have hv' : FgFree v :=
      ⟨⟨hcfg ▸ hs.1, hfault.trans hs.2.1, hclear⟩, (congrArg _ himage).trans hloaded, hfree⟩
    have hthen : fgHandle s = fgParts v := by
      rw [fgHandle, if_neg (by simp [hloaded]), if_neg hwait, if_pos hover, ifEnabled_pos he, hv, andThen_next]
    refine ⟨?_, hl _ (halike.fgFree hv') ?_⟩
    · rw [hthen, fgHandle_free (halike.fgFree hv').loaded (halike.fgFree hv').noWait]
      exact fgParts_alike halike.symm
    · rw [halike.toArch, StopCondition, StepActive, hstepper, hdrive, htrack, hwr]

/-! ## The table -/

/-- Settles O47: a row of one operation by the part that runs it; a row that begins with RD_FINISH, a WR_DRAIN that
ends the write or the RD_START of a busy-wait by the rest of it, which is due in the block that operation leaves. -/
theorem foregroundRunsWhatIsDue : Obligations.ForegroundRunsWhatIsDue := by
  unfold Obligations.ForegroundRunsWhatIsDue
  intro s hs hloaded
  refine ⟨fun hwait => ?_, fun hwait => ?_⟩
  · have h : FgFree s := ⟨hs, hloaded, hwait⟩
    refine ⟨fun hr => ?_, fun hr => ?_, fun hr hstop => ?_, fun _ => h.due_rdReplenish,
      fun _ _ => due_rdStop hs⟩
    · exact ⟨fun hw _ => h.due_rdSeek hr hw, h.due_wrActivate hr, h.due_wrPump hr, h.due_wrDrain hr,
        fun hw hdrained _ => h.due_wrDrain_rdSeek hr hw hdrained⟩
    · refine ⟨fun hw hstep => ?_, fun hw _ => ?_, fun hw => ?_, fun hw hno => ?_, fun hw hdrained _ => ?_⟩ <;>
        refine h.due_rdFinish hr fun t ht harch => ?_ <;>
        have hrt : t.rd.state = .inactive := by rw [harch]; rfl
      · exact ht.due_nothing hrt (by rw [harch]; exact hw) (by rw [harch]; exact hstep)
      · exact ht.due_rdSeek hrt (by rw [harch]; exact hw)
      · exact ht.due_wrActivate hrt (by rw [harch]; exact hw)
      · exact ht.due_wrDrain hrt (by rw [harch]; exact hw) (by rw [harch]; exact hno)
      · exact ht.due_wrDrain_rdSeek hrt (by rw [harch]; exact hw) (by rw [harch]; exact hdrained)
    · exact ⟨fun t => h.due_rdPrefill hr hstop, h.due_rdPrefill_rdStart hr hstop, h.due_rdStart hr hstop⟩
  · refine ⟨fun _ => ?_, fun _ hstop => ?_, fun _ _ => ?_⟩ <;>
      refine due_wait_rdStart hs hloaded hwait fun t ht hcond => ?_
    · exact ht.due_fgHandle
    · exact ht.due_rdReplenish (mt hcond.mp hstop)
    · exact due_rdStop ht.ready

end Sys2Proof.Machine
end

section
/-! The one exception of the block (R39, R286): what an illegal write of a ring state leaves, that a faulted block
refuses every operation, and that no operation ends with a forbidden pair of ring states and no fault. -/

namespace Sys2Proof.Machine

/-! ## Guarded writes outside the transitions of R21 -/

theorem setRdState_illegal {n : RingState} {s : State} (hne : n ≠ s.rd.state) (h : s.rd.state.canBecome n = false) :
    setRdState n s = raiseFatal .badTransition s := by
  unfold setRdState
  rw [if_neg hne, if_neg (by simp [h])]

theorem setWrState_illegal {n : RingState} {s : State} (hne : n ≠ s.wr.state) (h : s.wr.state.canBecome n = false) :
    setWrState n s = raiseFatal .badTransition s := by
  unfold setWrState
  rw [if_neg hne, if_neg (by simp [h])]

/-- In a block without a fault the reason raised is the one kept. -/
theorem raiseFatal_first {r : FatalReason} {s : State} (hf : s.fault = none) :
    (raiseFatal r s).toArch = { s.toArch with fault := some r } := by
  rw [raiseFatal_toArch, hf, Option.getD_none]

/-! ## The faulted block -/

theorem operation_blockFaulted {s : State} {e : Prop} {_ : Decidable e} {r : Result} (hc : s.cfg.Valid)
    (hf : s.fault ≠ none) : operation s e r = .refused .blockFaulted := by
  unfold operation
  rw [if_neg (not_not_intro hc), if_pos hf]

theorem exec_blockFaulted {i : Instr} {s : State} (hc : s.cfg.Valid) (hf : s.fault ≠ none) (hinit : i ≠ .init) :
    exec i s = .refused .blockFaulted := by
  obtain ⟨e, _, r, heq⟩ := exec_eq_operation i s hinit
  rw [heq, operation_blockFaulted hc hf]

/-! ## Forbidden pairs of ring states -/

/-- A boundary moves no ring state, so a forbidden pair after it was one before it, and has raised the fault. -/
theorem boundary_overlap {s : State} (h : Overlap (boundary s).toArch) : (boundary s).fault ≠ none := by
  have hbefore : Overlap s.toArch := by
    unfold Overlap ReadRunning at h ⊢
    rwa [(boundary_still s).rd, (boundary_still s).wr] at h
  rw [boundary_toArch, if_pos hbefore]
  exact Option.some_ne_none _

/-- Every operation but INIT ends at a boundary, and INIT leaves both engines Inactive. -/
theorem exec_overlap {i : Instr} {s t : State} (ht : exec i s = .next t) (h : Overlap t.toArch) : t.fault ≠ none := by
  by_cases hinit : i = .init
  · subst hinit
    obtain ⟨-, rfl⟩ := execInit_eq_next.mp ht
    exact absurd h (not_Overlap_of_read rfl)
  · obtain ⟨e, _, r, heq⟩ := exec_eq_operation i s hinit
    obtain ⟨-, -, -, u, -, rfl⟩ := operation_eq_next.mp (heq.symm.trans ht)
    exact boundary_overlap h

/-- Settles O49: by the frame every operation but INIT runs in, which refuses a faulted block and ends at a boundary,
and by what an illegal write of a ring state raises. -/
theorem faultIsFinal : Obligations.FaultIsFinal := by
  unfold Obligations.FaultIsFinal
  refine ⟨raiseFatal_toArch, fun _ _ => exec_blockFaulted, fun s hc => ?_, fun _ _ _ => exec_overlap,
    fun n s hne h hf => ?_, fun n s hne h hf => ?_⟩
  · exact ⟨initBlock s, execInit_eq_next.mpr ⟨hc, rfl⟩, rfl⟩
  · rw [setRdState_illegal hne h, raiseFatal_first hf]
  · rw [setWrState_illegal hne h, raiseFatal_first hf]

end Sys2Proof.Machine
end

section
/-! Event words and operations (30_encoding.md sections 1 and 3). The rows of the opcode map exclude each other, so a
word decodes to the one row it fits (R91); and a word that fits a row is the row's fixed bits with the operand fields in
the free ones, which is what the encoder writes (R80, R81). -/

namespace Sys2Proof

open Machine

/-! ## The one row of a word (R91) -/

/-- Any two rows fix some bit to different values, so that no word fits both. -/
theorem opcodeRows_clash : opcodeRows.Pairwise fun r q => r.matched &&& q.mask ≠ q.matched &&& r.mask := by
  decide

/-- A word that fits two rows has the bits both fix. -/
theorem OpcodeRow.matched_agree {r q : OpcodeRow} {w : Word} (hr : r.fits w = true) (hq : q.fits w = true) :
    r.matched &&& q.mask = q.matched &&& r.mask := by
  rw [← beq_iff_eq.mp hr, ← beq_iff_eq.mp hq, BitVec.and_assoc, BitVec.and_assoc, BitVec.and_comm r.mask]

/-- A word fits at most one row. -/
theorem opcodeRow_unique {r q : OpcodeRow} {w : Word} (hr : r ∈ opcodeRows) (hq : q ∈ opcodeRows)
    (hrfits : r.fits w = true) (hqfits : q.fits w = true) : q = r := by
  by_contra hne
  have hsymm : Std.Symm fun r q : OpcodeRow => r.matched &&& q.mask ≠ q.matched &&& r.mask := ⟨fun _ _ => Ne.symm⟩
  exact opcodeRows_clash.forall hq hr hne (OpcodeRow.matched_agree hqfits hrfits)

theorem fits_of_find {w : Word} {r : OpcodeRow} (h : opcodeRows.find? (·.fits w) = some r) : r.fits w = true :=
  List.find?_some (p := fun q : OpcodeRow => q.fits w) h

/-- A word that decodes fits the row the search finds. -/
theorem decode_eq_ok {w : Word} {i : Instr} (h : decode w = .ok i) :
    ∃ r ∈ opcodeRows, r.fits w = true ∧ r.build w = i := by
  cases hfind : opcodeRows.find? (·.fits w) with
  | none =>
    have hnone : ∀ r ∈ opcodeRows, r.fits w = false := fun r hr =>
      Bool.eq_false_iff.mpr (List.find?_eq_none.mp hfind r hr)
    cases h.symm.trans (decode_of_no_row hnone)
  | some r =>
    exact ⟨r, List.mem_of_find?_eq_some hfind, fits_of_find hfind,
      Except.ok.inj ((decode_of_find hfind).symm.trans h)⟩

/-- The search of the map cannot find another row than the one the word fits. -/
theorem decode_of_fits {r : OpcodeRow} {w : Word} (hr : r ∈ opcodeRows) (hfits : r.fits w = true) :
    decode w = .ok (r.build w) := by
  obtain ⟨q, hfind⟩ := Option.isSome_iff_exists.mp (List.find?_isSome (p := (·.fits w)).mpr ⟨r, hr, hfits⟩)
  obtain rfl := opcodeRow_unique hr (List.mem_of_find?_eq_some hfind) hfits (fits_of_find hfind)
  exact decode_of_find hfind

/-- Settles O3: rows exclude each other, so the row the search finds is the only one the word fits. -/
theorem oneRowPerWord : Obligations.OneRowPerWord := by
  unfold Obligations.OneRowPerWord
  refine fun w => ⟨fun r hr hfits => ⟨decode_of_fits hr hfits, fun q hq hqfits => ?_⟩, fun i h => decode_eq_ok h⟩
  obtain rfl := opcodeRow_unique hr hq hfits hqfits
  exact ⟨rfl, rfl⟩

/-! ## From the operation to its word and back -/

theorem decode_encode_of_encodedAs {i : Instr} {w : Word} {g : Agent} (h : EncodedAs i w g) :
    decode (encode i) = .ok i := by
  obtain ⟨henc, hdec, -⟩ := h
  rw [henc, hdec]

/-- Settles O1: TICK and CHANGE_OUTPUTS by their event words; a word with one operand bit or none is computed. -/
theorem decodeEncodeRoundTrip : Obligations.DecodeEncodeRoundTrip := by
  unfold Obligations.DecodeEncodeRoundTrip
  intro i hwf
  cases i with
  | tick n => exact decode_encode_of_encodedAs (tick_encodedAs (of_decide_eq_true hwf))
  | changeOutputs m v => exact decode_encode_of_encodedAs (changeOutputs_encodedAs m v)
  | step b | side b | sel b => cases b <;> rfl
  | _ => rfl

/-! ## From the word to its operation and back -/

/-- A word of a row: the bits the row fixes, and what stands in the free ones. -/
theorem OpcodeRow.fits_split {r : OpcodeRow} {w : Word} (h : r.fits w = true) :
    w = r.matched ||| (w &&& ~~~r.mask) := by
  rw [← beq_iff_eq.mp h, ← BitVec.and_or_distrib_left, BitVec.or_not_self, BitVec.and_allOnes]

/-- Masking with the ones of a field leaves the field, in its place. -/
theorem and_fieldOnes (w : Word) (start len : Nat) :
    w &&& (BitVec.allOnes len).setWidth 32 <<< start = (w.extractLsb' start len).setWidth 32 <<< start := by
  ext k hk
  by_cases hbelow : k < start
  · simp [hbelow]
  · have hsame : start + (k - start) = k := by omega
    simp [hbelow, hsame, BitVec.getLsbD_eq_getElem hk, Bool.and_comm]

theorem and_lowOnes (w : Word) (len : Nat) :
    w &&& (BitVec.allOnes len).setWidth 32 = (w.extractLsb' 0 len).setWidth 32 := by
  simpa only [BitVec.shiftLeft_zero] using and_fieldOnes w 0 len

theorem extractLsb'_one (w : Word) (k : Nat) : w.extractLsb' k 1 = BitVec.ofBool (w.getLsbD k) := by
  refine BitVec.eq_of_getElem_eq fun i hi => ?_
  obtain rfl := Nat.lt_one_iff.mp hi
  simp

/-- The word of format B (R81). -/
def bWord (fixed : Word) (b : Bool) : Word := fixed ||| (BitVec.ofBool b).setWidth 32

/-- The word of format M (R81). -/
def mWord (fixed : Word) (m : OutSet) (v : Bool) : Word :=
  fixed ||| ((BitVec.ofBool v).setWidth 32 <<< 8 ||| m.setWidth 32)

section
variable {r : OpcodeRow} {w : Word} (hfits : r.fits w = true)
include hfits

theorem fits_formatZ (hmask : r.mask = 0xFFFFFFFF#32) : w = r.matched := by
  rw [← beq_iff_eq.mp hfits, hmask]
  exact BitVec.and_allOnes.symm

theorem fits_formatB (hmask : r.mask = 0xFFFFFFFE#32) : w = bWord r.matched (bField w) := by
  have hfree : w &&& ~~~r.mask = (BitVec.ofBool (bField w)).setWidth 32 := by
    rw [hmask, bField, ← extractLsb'_one]
    exact and_lowOnes w 1
  exact (OpcodeRow.fits_split hfits).trans (congrArg _ hfree)

theorem fits_formatM (hmask : r.mask = 0xFFFFFEE0#32) : w = mWord r.matched (maskField w) (valField w) := by
  have hones : ~~~r.mask = (BitVec.allOnes 1).setWidth 32 <<< 8 ||| (BitVec.allOnes 5).setWidth 32 := by
    rw [hmask]
    rfl
  have hfree : w &&& ~~~r.mask = (BitVec.ofBool (valField w)).setWidth 32 <<< 8 ||| (maskField w).setWidth 32 := by
    rw [hones, BitVec.and_or_distrib_left, and_fieldOnes, and_lowOnes, extractLsb'_one]
    rfl
  exact (OpcodeRow.fits_split hfits).trans (congrArg _ hfree)

theorem fits_formatT (hmask : r.mask = 0xFF000000#32) : w = r.matched ||| BitVec.ofNat 32 (nField w) := by
  have hfree : w &&& ~~~r.mask = BitVec.ofNat 32 (nField w) := by
    rw [hmask, nField, BitVec.ofNat_toNat]
    exact and_lowOnes w 24
  exact (OpcodeRow.fits_split hfits).trans (congrArg _ hfree)

end

/-- The operation the row builds from the word is well-formed and is encoded as the word. -/
abbrev OpcodeRow.EncodesBack (r : OpcodeRow) (w : Word) : Prop :=
  (r.build w).wellFormed = true ∧ encode (r.build w) = w

/-- Every row but that of TICK has few enough words to list. -/
theorem opcodeRows_encodeBack : ∀ r ∈ opcodeRows,
    (r.mask = 0xFFFFFFFF#32 → r.EncodesBack r.matched) ∧
    (r.mask = 0xFFFFFFFE#32 → ∀ b, r.EncodesBack (bWord r.matched b)) ∧
    (r.mask = 0xFFFFFEE0#32 → ∀ m v, r.EncodesBack (mWord r.matched m v)) := by
  decide

theorem tickRow_encodesBack {w : Word} (hfits : tickRow.fits w = true) : tickRow.EncodesBack w := by
  have hcount : nField w < 2 ^ 24 := BitVec.isLt _
  obtain ⟨hencode, -⟩ := tick_encodedAs hcount
  exact ⟨decide_eq_true hcount, hencode.trans (fits_formatT hfits rfl).symm⟩

/-- The four formats (R81), of which only TICK has format T. -/
theorem opcodeRows_formats : ∀ r ∈ opcodeRows,
    r = tickRow ∨ r.mask = 0xFFFFFFFF#32 ∨ r.mask = 0xFFFFFFFE#32 ∨ r.mask = 0xFFFFFEE0#32 := by
  simp [opcodeRows, hostRows, hardwareRows, foregroundRows, controlRows, tickRow]

theorem OpcodeRow.encodesBack_of_fits {r : OpcodeRow} {w : Word} (hr : r ∈ opcodeRows) (hfits : r.fits w = true) :
    r.EncodesBack w := by
  obtain ⟨hZ, hB, hM⟩ := opcodeRows_encodeBack r hr
  rcases opcodeRows_formats r hr with rfl | hmask | hmask | hmask
  · exact tickRow_encodesBack hfits
  · exact fits_formatZ hfits hmask ▸ hZ hmask
  · exact fits_formatB hfits hmask ▸ hB hmask (bField w)
  · exact fits_formatM hfits hmask ▸ hM hmask (maskField w) (valField w)

/-- Settles O2: a word that decodes fits a row, and the encoder puts the fixed bits and the operands of the row back. -/
theorem encodeDecodeRoundTrip : Obligations.EncodeDecodeRoundTrip := by
  unfold Obligations.EncodeDecodeRoundTrip
  intro w i h
  obtain ⟨r, hr, hfits, rfl⟩ := decode_eq_ok h
  exact OpcodeRow.encodesBack_of_fits hr hfits

/-! ## Sample words -/

/-- Settles O5: each word is one row's, or no row's, which the decoder computes. -/
theorem sampleWordsDecode : Obligations.SampleWordsDecode := by
  unfold Obligations.SampleWordsDecode
  decide

end Sys2Proof
end

section
/-! The step on the event at the head of the trace (R80). -/

namespace Sys2Proof.Machine

/-- A step on an event whose word names an operation runs it (R80). -/
theorem step_of_decode {s : State} {e : Event} {rest : List Event} {i : Instr} (htrace : s.env.trace = e :: rest)
    (hdecode : decode e.word = .ok i) : step s = exec i (s.taking e rest) := by
  simp only [step, htrace, hdecode]

theorem step_of_no_event {s : State} (htrace : s.env.trace = []) : step s = .refused .endOfTrace := by
  simp only [step, htrace]

theorem step_withFetchWord {s : State} {nbits w : Nat} {i : Instr} (hdecode : decode (BitVec.ofNat 32 w) = .ok i) :
    step (s.withFetchWord nbits w) = exec i { s with env := { s.env with note := Annotation.empty, ret := none } } := by
  have htrace : (s.withFetchWord nbits w).env.trace = ⟨BitVec.ofNat 32 w, Annotation.empty⟩ :: s.env.trace := rfl
  rw [step_of_decode htrace hdecode]
  rfl

/-- Settles O6: the step on the event at the head of the trace; a word placed by `withFetchWord` stands there. -/
theorem stepRunsDecodedOperation : Obligations.StepRunsDecodedOperation := by
  unfold Obligations.StepRunsDecodedOperation
  exact ⟨fun s e rest i htrace hdecode => ⟨step_of_decode htrace hdecode, rfl, rfl, rfl, rfl⟩,
    fun s => step_of_no_event, fun s nbits w i _ hdecode => step_withFetchWord hdecode⟩

end Sys2Proof.Machine
end

section
/-! The state after reset (R48, R266): it has the invariant and is quiescent (R337). -/

namespace Sys2Proof.Machine

theorem reset_quiescent (c : Config) (e : Nat) : Quiescent (Arch.reset c e) :=
  ⟨rfl, rfl, rfl, rfl, rfl, rfl, rfl, rfl⟩

/-- Settles O57: `State.reset` and the state INIT leaves are both the block of R48. -/
theorem resetHasTheInvariant : Obligations.ResetHasTheInvariant := by
  unfold Obligations.ResetHasTheInvariant
  refine ⟨reset_inv_of (c := Config.default) (by decide) 0 _, reset_quiescent _ _,
    fun s t h => ⟨execInit_inv h, ?_⟩⟩
  obtain ⟨-, rfl⟩ := execInit_eq_next.mp h
  exact reset_quiescent _ _

end Sys2Proof.Machine
end
